-- ==== Sys2Proof/Word.lean ====
section
/-! DEFINITION. The word types of the block: 32-bit register values and latches, 16-bit MDIO data, bytes of the
driver buffers (spec 00_scope.md R7, R9: every value is an unsigned integer of a stated width). -/

namespace Sys2Proof

/-- A MAC register value, a command word, a latch (R7 REG_DATA_BITS). -/
abbrev Word := BitVec 32

/-- An MDIO datum, "always 16-bit unsigned" (R7 MDIO_DATA_BITS). -/
abbrev Half := BitVec 16

/-- A byte of a driver buffer or of the EEPROM. -/
abbrev Byte := BitVec 8

/-- A MAC register address (R7 REG_ADDR_BITS). -/
abbrev RegAddr := BitVec 12

/-- A PHY address, a Clause-22 index or a DEVAD (R7 PHYAD_BITS, REGAD_BITS, DEVAD_BITS). -/
abbrev Field5 := BitVec 5

end Sys2Proof
end

