-- ==== Sys2Proof/Syntax.lean ====
section
/-! DEFINITION. The instructions: one constructor per row of spec/opcode_table.json (30_encoding.md R100), the six
carriers an instruction is encoded in (R90), and the reasons the decoder rejects bits for (R101). -/

namespace Sys2Proof

/-- The instruction-like items of the block. Operands of the six commands are whole 32-bit words whatever their
legal width (R91), so that the width checks of R172 can fail. -/
inductive Instr where
  /-- REG_READ `addr` (R122). -/
  | regRead (addr : Word)
  /-- REG_WRITE `addr`, `value` (R123). -/
  | regWrite (addr value : Word)
  /-- C22_READ `phy_addr`, `reg_index` (R180). -/
  | c22Read (phy reg : Word)
  /-- C22_WRITE `phy_addr`, `reg_index`, `data` (R181). -/
  | c22Write (phy reg data : Word)
  /-- C45_READ `phy_addr`, `devad`, `reg_index` (R205). -/
  | c45Read (phy dev idx : Word)
  /-- C45_WRITE `phy_addr`, `devad`, `reg_index`, `data` (R206). -/
  | c45Write (phy dev idx data : Word)
  /-- MII_READ: the access word that launches a Clause-22 read (R92, R223). -/
  | miiRead (phyad regad : Field5)
  /-- MII_WRITE: the access word that launches a Clause-22 write of MII_DATA[15:0] (R92, R223). -/
  | miiWrite (phyad regad : Field5)
  /-- MMD_ADDR: the address-select word for set-address mode (R94, R244). -/
  | mmdAddr (devad : Field5)
  /-- MMD_DATA: the address-select word for access-data mode (R94, R244). -/
  | mmdData (devad : Field5)
  /-- DRV_READ: the driver request for a register read (R95, R142). -/
  | drvRead (selector ifindex addr : Word)
  /-- DRV_WRITE: the driver request for a register write (R95, R143). -/
  | drvWrite (selector ifindex addr value : Word)
  /-- FRAME_READ: the serial frame of a Clause-22 read (R97, R232); the 18 slots the master releases hold no operand. -/
  | frameRead (phyad regad : Field5)
  /-- FRAME_WRITE: the serial frame of a Clause-22 write (R97, R232). -/
  | frameWrite (phyad regad : Field5) (data : Half)
  /-- EPC_READ of a 9-bit EEPROM address (R280). -/
  | epcRead (addr : BitVec 9)
  /-- EPC_EWDS, write-disable (R280). The address of an EPC command is no operand of it (log 21). -/
  | epcEwds
  /-- EPC_EWEN, write-enable (R280); as EPC_EWDS. -/
  | epcEwen
  /-- EPC_WRITE of a byte to a 9-bit EEPROM address (R280). -/
  | epcWrite (addr : BitVec 9) (data : Byte)
  /-- EPC_ERASE_ALL (R280); as EPC_EWDS. -/
  | epcEraseAll
deriving DecidableEq, Repr

/-- An instruction as it stands in its carrier (R90): the words of a command frame, the word written to MII_ACC,
the datum written to index 0xD, the bytes of a request buffer, the 64 slots of a frame (slot 0 the most significant
bit), and, for the EPC commands, a word of the model's own (log 21). -/
inductive Encoded where
  | cmd (words : List Word)
  | acc (w : Word)
  | mmd (v : Half)
  | drv (bytes : List Byte)
  | frame (slots : BitVec 64)
  | epc (w : Word)
deriving DecidableEq, Repr

/-- Why the decoder answers no instruction (R101). -/
inductive Reject where
  /-- The command code is none of the six (R101, `UNKNOWN_COMMAND`). -/
  | unknownCommand (code : Word)
  /-- The command frame has this many words, which is wrong for its code (R101, `BAD_LENGTH`). -/
  | badFrameLength (words : Nat)
  /-- An access word with a reserved operation code or bits 31:16 set (R101, U3). -/
  | reservedAccess (w : Word)
  /-- An address-select word with any of bits 15, 13:5 set (R101, U5). -/
  | reservedSelect (v : Half)
  /-- A request buffer whose opcode field is neither 8 nor 9 (R101). -/
  | badRequestOpcode (op : Word)
  /-- A request buffer of a length that is wrong for its opcode (R102). -/
  | badRequestLength (bytes : Nat)
  /-- Slots that are no frame (R101). -/
  | badFrame (slots : BitVec 64)
  /-- An EPC word with an unlisted code (U9). -/
  | reservedEpc (w : Word)
deriving DecidableEq, Repr

end Sys2Proof
end

