-- ==== Sys2Proof/Config.lean ====
section
/-! DEFINITION. What an implementation fixes: the literals of 00_scope.md R7 (unaudited, 93_implementation_defined.md
Part 3), the open parameters of R8 as a record, and the free values, opaque constants that no proof can evaluate. -/

namespace Sys2Proof

/-- The parameters that the source fixes (R7), one field each, with the values of R7's table. The widths are also those
of the types of Sys2Proof/Word.lean. -/
structure FixedConfig where
  /-- REG_ADDR_BITS. -/
  regAddrBits : Nat := 12
  /-- REG_DATA_BITS. -/
  regDataBits : Nat := 32
  /-- PHYAD_BITS. -/
  phyadBits : Nat := 5
  /-- REGAD_BITS. -/
  regadBits : Nat := 5
  /-- DEVAD_BITS. -/
  devadBits : Nat := 5
  /-- C45REG_BITS. -/
  c45RegBits : Nat := 16
  /-- MDIO_DATA_BITS. -/
  mdioDataBits : Nat := 16
  /-- MII_ACC_ADDR. -/
  miiAccAddr : RegAddr := 0x120#12
  /-- MII_DATA_ADDR. -/
  miiDataAddr : RegAddr := 0x124#12
  /-- BUSY_BIT. -/
  busyBit : Nat := 0
  /-- PHYAD_SHIFT. -/
  phyadShift : Nat := 11
  /-- REGAD_SHIFT. -/
  regadShift : Nat := 6
  /-- MMD_CTRL_IDX. -/
  mmdCtrlIdx : Field5 := 0xD#5
  /-- MMD_DATA_IDX. -/
  mmdDataIdx : Field5 := 0xE#5
  /-- MMD_DATA_MODE. -/
  mmdDataMode : Half := 0x4000#16
  /-- DRV_OP_READ. -/
  drvOpRead : Word := 8#32
  /-- DRV_OP_WRITE. -/
  drvOpWrite : Word := 9#32
  /-- DRV_ST_OK. -/
  drvStatusOk : Word := 0#32
  /-- DRV_ST_BUSY. -/
  drvStatusBusy : Word := 4#32
  /-- DRV_STATUS_OFF. -/
  drvStatusOff : Nat := 8
  /-- MAC_FAMILY_CODE (context only). -/
  macFamilyCode : Half := 0x7801#16
  /-- PHY_ID (context only). -/
  phyIdCode : Half := 0xAE02#16
deriving DecidableEq, Repr

/-- The record of R7 with the source's values: the one place where a correction of an unaudited literal is made. -/
def fixedConfig : FixedConfig := {}

/-- MII_ACC_ADDR of R7. -/
def miiAccAddr : RegAddr := fixedConfig.miiAccAddr
/-- MII_DATA_ADDR of R7. -/
def miiDataAddr : RegAddr := fixedConfig.miiDataAddr
/-- BUSY_BIT of R7. -/
def busyBit : Nat := fixedConfig.busyBit
/-- PHYAD_SHIFT of R7. -/
def phyadShift : Nat := fixedConfig.phyadShift
/-- REGAD_SHIFT of R7. -/
def regadShift : Nat := fixedConfig.regadShift
/-- MMD_CTRL_IDX of R7. -/
def mmdCtrlIdx : Field5 := fixedConfig.mmdCtrlIdx
/-- MMD_DATA_IDX of R7. -/
def mmdDataIdx : Field5 := fixedConfig.mmdDataIdx
/-- MMD_DATA_MODE of R7. -/
def mmdDataMode : Half := fixedConfig.mmdDataMode
/-- DRV_OP_READ of R7. -/
def drvOpRead : Word := fixedConfig.drvOpRead
/-- DRV_OP_WRITE of R7. -/
def drvOpWrite : Word := fixedConfig.drvOpWrite
/-- DRV_ST_OK of R7. -/
def drvStatusOk : Word := fixedConfig.drvStatusOk
/-- DRV_ST_BUSY of R7. -/
def drvStatusBusy : Word := fixedConfig.drvStatusBusy
/-- DRV_STATUS_OFF of R7. -/
def drvStatusOff : Nat := fixedConfig.drvStatusOff
/-- MAC_FAMILY_CODE of R7. -/
def macFamilyCode : Half := fixedConfig.macFamilyCode
/-- PHY_ID of R7. -/
def phyIdCode : Half := fixedConfig.phyIdCode
/-- First register address that does not exist: "invariant addr < 0x1000" (R60, REG_ADDR_BITS of R7). -/
def regAddrBound : Nat := 2 ^ fixedConfig.regAddrBits
/-- DRV_PAYLOAD_OFF of R8, fixed by decision D9. -/
def drvPayloadOff : Nat := 12
/-- The EPC-command register, "EEPROM command/data at 0x040/0x044" (R72, R280; the pairing by order is log 21). -/
def epcCommandAddr : RegAddr := 0x040#12
/-- The EPC-data register (R72, R280; log 21). -/
def epcDataAddr : RegAddr := 0x044#12
/-- The "command in progress" top bit of the EPC-command register (R280). -/
def epcBusyBit : Nat := 31

/-- Which of the two Transports is in use (R21, R120). -/
inductive TransportKind where
  /-- The USB control-transfer Transport, known by its contract alone (R120, R126). -/
  | usb
  /-- The privileged-driver Transport, unit U2 (R140). -/
  | driver
deriving DecidableEq, Repr

/-- The parameters of R8, constant over a run (R21). A statement about every state is about every configuration. -/
structure Config where
  /-- READ_OPCODE. -/
  readOpcode : BitVec 6
  /-- WRITE_OPCODE. -/
  writeOpcode : BitVec 6
  /-- POLL_LIMIT: `none` is unbounded. -/
  pollLimit : Option Nat
  /-- DRV_RETRY_LIMIT. -/
  retryLimit : Nat
  /-- DRV_SELECTOR. -/
  drvSelector : Word
  /-- DRV_IFINDEX. -/
  drvIfindex : Word
  /-- PHY_ADDR. -/
  phyAddr : Field5
  /-- PHY_PRESENT. -/
  phyPresent : List Field5
  /-- The Transport in use (R21). -/
  transport : TransportKind
  /-- Whether the MDIO engine steps at pin level (44 Part 2) or completes in one step (R226). -/
  pins : Bool
deriving DecidableEq, Repr

/-- What R8 and R93 let a model assume of the parameters: both opcodes have bit 0 set and differ, and the two limits
are positive counts. -/
abbrev Config.wf (c : Config) : Prop :=
  c.readOpcode.getLsbD 0 = true ∧ c.writeOpcode.getLsbD 0 = true ∧ c.readOpcode ≠ c.writeOpcode ∧
  c.pollLimit ≠ some 0 ∧ 1 ≤ c.retryLimit

/-- DRV_SELECTOR, OPEN (R8, D10). -/
opaque Config.openSelector : Word
/-- DRV_IFINDEX, OPEN (R8, D10). -/
opaque Config.openIfindex : Word
/-- One less than DRV_RETRY_LIMIT, OPEN and at least 1 (R8, R150). -/
opaque Config.openRetryLimitPred : Nat
/-- PHY_ADDR, OPEN (R8, D36). -/
opaque Config.openPhyAddr : Field5

/-- The parameters with the defaults of R8; the OPEN ones are free values (log 1). -/
def Config.default : Config where
  readOpcode := 0x01#6
  writeOpcode := 0x03#6
  pollLimit := none
  retryLimit := Config.openRetryLimitPred + 1
  drvSelector := Config.openSelector
  drvIfindex := Config.openIfindex
  phyAddr := Config.openPhyAddr
  phyPresent := [Config.openPhyAddr]
  transport := .usb
  pins := false

/-- The n-th 32-bit draw of a run (`draw(T)` of R10). -/
opaque Config.freeWord : Nat → Word
/-- What an opaque MAC register answers at the n-th draw, given the last value handed to it (R28, U8). -/
opaque Config.freeMacRegister : Nat → RegAddr → Option Word → Word
/-- C22[p][i] before anything is written to it, fixed once drawn (R35, U11). -/
opaque Config.unwrittenC22 : Field5 → Field5 → Half
/-- MMDADDR[p][d] before anything is written to it, fixed once drawn (R37, U11). -/
opaque Config.unwrittenMmdAddr : Field5 → Field5 → Half
/-- C45[p][d][r] before anything is written to it, fixed once drawn (R38, U11). -/
opaque Config.unwrittenC45 : Field5 → Field5 → Half → Half
/-- An EEPROM byte that nothing has written since the erasure of this epoch (log 22). -/
opaque Config.unwrittenEeprom : Nat → BitVec 9 → Byte
/-- Whether an EPC_ERASE_ALL without write-enable erases, at the n-th draw (R281: not in the source). -/
opaque Config.freeErase : Nat → Bool
/-- The layout of the EPC-command register: the register's word for a word with the fields where `epcWord` has them. Their
positions are not in the source (R281), but that each register word has one reading. -/
opaque Config.epcLayout : Equiv.Perm Word
/-- The 9-bit address that a command which is no READ and no WRITE is combined with (R280; not in the source, log 21). -/
opaque Config.epcFreeAddr : BitVec 3 → BitVec 9
/-- Whether a command written to the EPC-command register while another is in progress replaces it, at the n-th draw
(not in the source, log 22). -/
opaque Config.freeEpcTaken : Nat → Bool
/-- Whether the EEPROM command in progress is found completed, when nothing is scripted (log 22). -/
opaque Config.freeEpcDone : Nat → Bool

/-- The agents that move (R6, R75). The fourth, the driver, answers inside the exchange that asks it (R140). -/
inductive Agent where
  | client
  | sequencer
  | engine
deriving DecidableEq, Repr, Inhabited

/-- The outcome the USB Transport gives an operation (R120, R126): it performs it, or it raises one of the two classes
with a sub-cause and detail of its own (R303); `reached` is U12. -/
inductive UsbAnswer where
  | performs
  | ioError (info detail : Word) (reached : Bool)
  | timeout (info detail : Word) (reached : Bool)
deriving DecidableEq, Repr, Inhabited

/-- The outcome of one exchange with the driver (R140, R150). -/
inductive DriverAnswer where
  /-- The driver performs the request on the MAC and answers success, with these header bytes (the model's name for
  the faithful device, log 7). -/
  | performs (header : BitVec 64)
  /-- Any response buffer; `reached` says whether a write that is not answered with success or busy reached the MAC. -/
  | buffer (response : List Byte) (reached : Bool)
  /-- The exchange fails with a platform error code (R149). -/
  | failed (code : Word) (reached : Bool)
deriving DecidableEq, Repr, Inhabited

/-- Which agent moves when nothing is scripted (R75). -/
opaque Config.freeAgent : Nat → Agent
/-- What the USB Transport answers when nothing is scripted (R126). -/
opaque Config.freeUsbAnswer : Nat → UsbAnswer
/-- What the driver answers when nothing is scripted (R150, U13). -/
opaque Config.freeDriverAnswer : Nat → DriverAnswer

end Sys2Proof
end

