-- ==== Sys2Proof/WellFormed.lean ====
section
/-! DEFINITION. Which instructions are well formed: those an encoding of spec/30_encoding.md admits. Every command
operand may be any 32-bit word (R91) and the 5-, 9- and 16-bit fields are typed by their widths, so the one check left is
the address field of a driver request, `addr < 0x1000` (R95). -/

namespace Sys2Proof

/-- An address of the MAC register space: `addr < 0x1000` (R60, R95). -/
def wellFormedAddr (addr : Word) : Bool := decide (addr.toNat < regAddrBound)

/-- The instruction is one that the encodings of R91 to R97 admit. -/
def wellFormed : Instr → Bool
  | .regRead _ => true
  | .regWrite _ _ => true
  | .c22Read _ _ => true
  | .c22Write _ _ _ => true
  | .c45Read _ _ _ => true
  | .c45Write _ _ _ _ => true
  | .miiRead _ _ => true
  | .miiWrite _ _ => true
  | .mmdAddr _ => true
  | .mmdData _ => true
  | .drvRead _ _ addr => wellFormedAddr addr
  | .drvWrite _ _ addr _ => wellFormedAddr addr
  | .frameRead _ _ => true
  | .frameWrite _ _ _ => true
  | .epcRead _ => true
  | .epcEwds => true
  | .epcEwen => true
  | .epcWrite _ _ => true
  | .epcEraseAll => true

end Sys2Proof
end

