-- ==== Sys2Proof/Decode.lean ====
section
/-! DEFINITION. The decoder and the encoder, one pair per carrier of 30_encoding.md R90, the operand assemblies they rest
on (R98), and the numbering of spec/opcode_table.json. -/

namespace Sys2Proof

/-! ### Operand assembly (R98) -/

/-- `acc(p, r, o) = (zext_32(p) << 11) | (zext_32(r) << 6) | zext_32(o)` (R92). -/
def accWord (p r : Field5) (o : BitVec 6) : Word :=
  (p.setWidth 32 <<< phyadShift) ||| (r.setWidth 32 <<< regadShift) ||| o.setWidth 32

/-- `PHYAD = w[15:11]` (R29, R92). -/
def accPhyad (w : Word) : Field5 := w.extractLsb' phyadShift 5
/-- `REGAD = w[10:6]` (R29, R92). -/
def accRegad (w : Word) : Field5 := w.extractLsb' regadShift 5
/-- `OP = w[5:0]` (R29, R92). -/
def accOp (w : Word) : BitVec 6 := w.extractLsb' 0 6
/-- Bits 31:16 of an access word, written 0 (R92). -/
def accHigh (w : Word) : BitVec 16 := w.extractLsb' 16 16

/-- `mmdctl(mode, d) = (mode << 14) | zext_16(d)` (R94). -/
def mmdWord (dataMode : Bool) (d : Field5) : Half :=
  (if dataMode then mmdDataMode else 0#16) ||| d.setWidth 16

/-- `DEVAD = v[4:0]` (R36). -/
def mmdDevad (v : Half) : Field5 := v.extractLsb' 0 5
/-- `DATAMODE = v[14]` (R36). -/
def mmdMode (v : Half) : Bool := v.getLsbD 14
/-- Any of bits 15, 13:5 is set: a reserved address-select word (R36, U5). -/
def mmdReserved (v : Half) : Bool := v.getLsbD 15 || v.extractLsb' 5 9 != 0#9

/-- The four bytes of a word, least significant first (`le32`, R142, R98 (e)). -/
def le32 (v : Word) : List Byte :=
  [v.extractLsb' 0 8, v.extractLsb' 8 8, v.extractLsb' 16 8, v.extractLsb' 24 8]

/-- The little-endian word at a byte offset: `b[k] | b[k+1] << 8 | b[k+2] << 16 | b[k+3] << 24` (R144). -/
def le32At (bytes : List Byte) (k : Nat) : Word :=
  (bytes.getD k 0#8).setWidth 32 ||| ((bytes.getD (k + 1) 0#8).setWidth 32 <<< 8) |||
    ((bytes.getD (k + 2) 0#8).setWidth 32 <<< 16) ||| ((bytes.getD (k + 3) 0#8).setWidth 32 <<< 24)

/-- The 64 slots of a frame, slot 0 the most significant bit (R97): preamble, start 01, operation, PHYAD, REGAD,
turnaround, data. -/
def frameSlots (op : BitVec 2) (p r : Field5) (ta : BitVec 2) (d : Half) : BitVec 64 :=
  (0xFFFFFFFF#32 ++ 0b01#2 ++ op ++ p ++ r ++ ta ++ d : BitVec (32 + 2 + 2 + 5 + 5 + 2 + 16))

/-! ### Decoders -/

/-- A command frame: the code first, then the length it fixes (R91, R101, R311). DESIGN CHOICE (log 24): a frame of no
words has no W0, so that neither sub-cause of R101 and R311 is stated for it; it is answered as a wrong length, 0. -/
def decodeCmd : List Word → Except Reject Instr
  | [] => .error (.badFrameLength 0)
  | code :: ops =>
    if code = 0x08#32 then
      match ops with
      | [a] => .ok (.regRead a)
      | _ => .error (.badFrameLength (ops.length + 1))
    else if code = 0x09#32 then
      match ops with
      | [a, v] => .ok (.regWrite a v)
      | _ => .error (.badFrameLength (ops.length + 1))
    else if code = 0x10#32 then
      match ops with
      | [p, r] => .ok (.c22Read p r)
      | _ => .error (.badFrameLength (ops.length + 1))
    else if code = 0x11#32 then
      match ops with
      | [p, r, d] => .ok (.c22Write p r d)
      | _ => .error (.badFrameLength (ops.length + 1))
    else if code = 0x12#32 then
      match ops with
      | [p, v, x] => .ok (.c45Read p v x)
      | _ => .error (.badFrameLength (ops.length + 1))
    else if code = 0x13#32 then
      match ops with
      | [p, v, x, d] => .ok (.c45Write p v x d)
      | _ => .error (.badFrameLength (ops.length + 1))
    else .error (.unknownCommand code)

/-- A word written to MII_ACC (R92, R93, R223): the operation codes are parameters. -/
def decodeAcc (c : Config) (w : Word) : Except Reject Instr :=
  if accHigh w ≠ 0#16 then .error (.reservedAccess w)
  else if accOp w = c.readOpcode then .ok (.miiRead (accPhyad w) (accRegad w))
  else if accOp w = c.writeOpcode then .ok (.miiWrite (accPhyad w) (accRegad w))
  else .error (.reservedAccess w)

/-- A datum written to index 0xD (R94, R244). -/
def decodeMmd (v : Half) : Except Reject Instr :=
  if mmdReserved v then .error (.reservedSelect v)
  else if mmdMode v then .ok (.mmdData (mmdDevad v))
  else .ok (.mmdAddr (mmdDevad v))

/-- A request buffer (R95): 16 bytes when the opcode field is 8, 20 when it is 9 (R102). -/
def decodeDrv (bytes : List Byte) : Except Reject Instr :=
  if bytes.length < 8 then .error (.badRequestLength bytes.length)
  else if le32At bytes 4 = drvOpRead then
    if bytes.length = 16 then .ok (.drvRead (le32At bytes 0) (le32At bytes 8) (le32At bytes 12))
    else .error (.badRequestLength bytes.length)
  else if le32At bytes 4 = drvOpWrite then
    if bytes.length = 20 then
      .ok (.drvWrite (le32At bytes 0) (le32At bytes 8) (le32At bytes 12) (le32At bytes 16))
    else .error (.badRequestLength bytes.length)
  else .error (.badRequestOpcode (le32At bytes 4))

/-- Slots 32 to 35 of a frame: start and operation (R97). -/
def frameStartOp (w : BitVec 64) : BitVec 4 := w.extractLsb' 28 4
/-- Slots 36 to 40. -/
def framePhyad (w : BitVec 64) : Field5 := w.extractLsb' 23 5
/-- Slots 41 to 45. -/
def frameRegad (w : BitVec 64) : Field5 := w.extractLsb' 18 5
/-- Slots 46 and 47. -/
def frameTurnaround (w : BitVec 64) : BitVec 2 := w.extractLsb' 16 2
/-- Slots 48 to 63. -/
def frameData (w : BitVec 64) : Half := w.extractLsb' 0 16

/-- The 64 slots of a frame (R97, R232). The turnaround and the data of a read frame are not the master's. -/
def decodeFrame (w : BitVec 64) : Except Reject Instr :=
  if w.extractLsb' 32 32 ≠ 0xFFFFFFFF#32 then .error (.badFrame w)
  else if frameStartOp w = 0b0110#4 then .ok (.frameRead (framePhyad w) (frameRegad w))
  else if frameStartOp w = 0b0101#4 ∧ frameTurnaround w = 0b10#2 then
    .ok (.frameWrite (framePhyad w) (frameRegad w) (frameData w))
  else .error (.badFrame w)

/-- The word the model carries an EPC command in: code in bits 2:0 (R280), address in bits 16:8, byte in bits 31:24
(log 21: the positions of the operands are not in the source). -/
def epcWord (code : BitVec 3) (a : BitVec 9) (d : Byte) : Word :=
  code.setWidth 32 ||| (a.setWidth 32 <<< 8) ||| (d.setWidth 32 <<< 24)

/-- The code of an EPC word. -/
def epcCode (w : Word) : BitVec 3 := w.extractLsb' 0 3
/-- The address of an EPC word. -/
def epcAddr (w : Word) : BitVec 9 := w.extractLsb' 8 9
/-- The byte of an EPC word. -/
def epcByte (w : Word) : Byte := w.extractLsb' 24 8

/-- An EPC command (R280): the code decides, and only the codes 0b100, 0b101 and 0b111, which are reserved (R281, U9), hold
no instruction. DESIGN CHOICE (log 21): the address is an operand of READ and WRITE, the byte of WRITE; a bit of the word
that is no operand of its command is not looked at. -/
def decodeEpc (w : Word) : Except Reject Instr :=
  if epcCode w = 0b000#3 then .ok (.epcRead (epcAddr w))
  else if epcCode w = 0b001#3 then .ok .epcEwds
  else if epcCode w = 0b010#3 then .ok .epcEwen
  else if epcCode w = 0b011#3 then .ok (.epcWrite (epcAddr w) (epcByte w))
  else if epcCode w = 0b110#3 then .ok .epcEraseAll
  else .error (.reservedEpc w)

/-- The instruction an encoded item holds, or the reason it holds none. Total on every item. -/
def decode (c : Config) : Encoded → Except Reject Instr
  | .cmd ws => decodeCmd ws
  | .acc w => decodeAcc c w
  | .mmd v => decodeMmd v
  | .drv bs => decodeDrv bs
  | .frame w => decodeFrame w
  | .epc w => decodeEpc w

/-! ### The encoder -/

/-- The request buffer of DRV_READ: `le32(sel) ++ le32(8) ++ le32(if) ++ le32(a)` (R142). -/
def drvReadBytes (sel ifx addr : Word) : List Byte :=
  le32 sel ++ le32 drvOpRead ++ le32 ifx ++ le32 addr

/-- The request buffer of DRV_WRITE (R143). -/
def drvWriteBytes (sel ifx addr value : Word) : List Byte :=
  le32 sel ++ le32 drvOpWrite ++ le32 ifx ++ le32 addr ++ le32 value

/-- The carrier of an instruction, from the encodings of R91 to R97. The slots the master of a read frame releases
read 1, the level of the undriven wire (R230). -/
def encode (c : Config) : Instr → Encoded
  | .regRead a => .cmd [0x08#32, a]
  | .regWrite a v => .cmd [0x09#32, a, v]
  | .c22Read p r => .cmd [0x10#32, p, r]
  | .c22Write p r d => .cmd [0x11#32, p, r, d]
  | .c45Read p v x => .cmd [0x12#32, p, v, x]
  | .c45Write p v x d => .cmd [0x13#32, p, v, x, d]
  | .miiRead p r => .acc (accWord p r c.readOpcode)
  | .miiWrite p r => .acc (accWord p r c.writeOpcode)
  | .mmdAddr d => .mmd (mmdWord false d)
  | .mmdData d => .mmd (mmdWord true d)
  | .drvRead sel ifx a => .drv (drvReadBytes sel ifx a)
  | .drvWrite sel ifx a v => .drv (drvWriteBytes sel ifx a v)
  | .frameRead p r => .frame (frameSlots 0b10#2 p r 0b11#2 0xFFFF#16)
  | .frameWrite p r d => .frame (frameSlots 0b01#2 p r 0b10#2 d)
  | .epcRead a => .epc (epcWord 0b000#3 a 0#8)
  | .epcEwds => .epc (epcWord 0b001#3 0#9 0#8)
  | .epcEwen => .epc (epcWord 0b010#3 0#9 0#8)
  | .epcWrite a d => .epc (epcWord 0b011#3 a d)
  | .epcEraseAll => .epc (epcWord 0b110#3 0#9 0#8)

/-! ### The numbering of spec/opcode_table.json -/

/-- The k-th 32-bit word of a table word, the first word in the least significant bits. -/
def tableWordAt (w k : Nat) : Word := BitVec.ofNat 32 (w / 2 ^ (32 * k))

/-- The first n 32-bit words of a table word. -/
def tableWords (w : Nat) : Nat → List Word
  | 0 => []
  | n + 1 => tableWords w n ++ [tableWordAt w n]

/-- The bytes of a table word, words in order and each little-endian (R63). -/
def tableBytes (w n : Nat) : List Byte := (tableWords w n).flatMap le32

/-- A request buffer of n words whose table bit 0 is the least significant bit of the word the table's match applies
to, the opcode at byte offset 4; the word at offset 0 comes last (log 20). -/
def tableBytesFromOpcode (w n : Nat) : List Byte :=
  le32 (tableWordAt w (n - 1)) ++ (tableWords w (n - 1)).flatMap le32

/-- A table word of 128 or 160 bits: a command frame if its first word is one of the given codes, else a request
buffer, numbered from its first byte or from its opcode (log 20). -/
def tableCmdOrDrv (codes : List Word) (op : Word) (w n : Nat) : Encoded :=
  if codes.contains (tableWordAt w 0) then .cmd (tableWords w n)
  else if tableWordAt w 1 = op then .drv (tableBytes w n)
  else if tableWordAt w 0 = op then .drv (tableBytesFromOpcode w n)
  else .cmd (tableWords w n)

/-- The carrier of a table word of so many bits (log 20). -/
def tableEncoded (nbits w : Nat) : Encoded :=
  if nbits ≤ 8 then .epc (BitVec.ofNat 32 w)
  else if nbits ≤ 16 then .mmd (BitVec.ofNat 16 w)
  else if nbits ≤ 32 then .acc (BitVec.ofNat 32 w)
  else if nbits ≤ 64 then
    if tableWordAt w 1 = 0xFFFFFFFF#32 ∧ tableWordAt w 0 ≠ 0x08#32 then .frame (BitVec.ofNat 64 w)
    else .cmd (tableWords w 2)
  else if nbits ≤ 96 then .cmd (tableWords w 3)
  else if nbits ≤ 128 then tableCmdOrDrv [0x11#32, 0x12#32] drvOpRead w 4
  else if nbits ≤ 160 then tableCmdOrDrv [0x13#32] drvOpWrite w 5
  else .cmd (tableWords w ((nbits + 31) / 32))

/-- The instruction the decoder reads from a table word, with the operation codes of the table (R8's defaults). -/
def decodeTableWord (nbits w : Nat) : Option Instr :=
  match decode Config.default (tableEncoded nbits w) with
  | .ok i => some i
  | .error _ => none

end Sys2Proof
end

