-- ==== Sys2Proof/Machine/State.lean ====
section
/-! DEFINITION. The state of the machine: the five parts S1 to S5 of 10_state.md R20, the EEPROM of the context file,
the world outside (inputs of the model) and the configuration; the reasons a step stops; the machine after reset. -/

namespace Sys2Proof.Machine

/-- MODE (R24). -/
inductive Mode where
  | idle
  | run
deriving DecidableEq, Repr

/-- `rw` of the in-flight record (R31). -/
inductive Rw where
  | read
  | write
deriving DecidableEq, Repr

/-- ENG, the in-flight record behind the busy bit (R31). -/
inductive Eng where
  | free
  | inflight (rw : Rw) (phy reg : Field5) (wdata : Half)
deriving DecidableEq, Repr

/-- What the content of MII_DATA is defined by (R30, R222; log 11). -/
inductive DataWindow where
  /-- Outside both windows: a read is a draw of 32 bits. -/
  | undefined
  /-- The last event was a store: a read returns all 32 bits stored. -/
  | stored
  /-- The last event was a read completion: bits 15:0 are the datum, bits 31:16 a draw. -/
  | completed
deriving DecidableEq, Repr

/-- Level of the clock pin of the running half period (R34). -/
inductive Phase where
  | low
  | high
deriving DecidableEq, Repr

/-- S1, the sequencer (R22 to R26). -/
structure Seq where
  /-- CMD. -/
  cmd : Word
  /-- OPA. -/
  opa : Word
  /-- OPB. -/
  opb : Word
  /-- OPC. -/
  opc : Word
  /-- OPD. -/
  opd : Word
  /-- RES. -/
  res : Word
  /-- STATUS. -/
  status : Word
  /-- INFO. -/
  info : Word
  /-- MODE. -/
  mode : Mode
  /-- UPC. -/
  upc : BitVec 5
  /-- POLLCNT. -/
  pollCnt : Nat
  /-- LOCK. -/
  lock : Bool
deriving DecidableEq, Repr

/-- S2, the driver serializer (R27). -/
structure Ser where
  /-- RETRY. -/
  retry : Nat
  /-- The MODEL's own: the last exchange of the operation in progress was answered busy and its request is issued
  again next (the position in the loop of R144; log 8). -/
  pending : Bool
deriving DecidableEq, Repr

/-- S3, the MAC (R28 to R33). -/
structure Mac where
  /-- The last value handed to each register other than the two MII registers (R28). -/
  regs : List (Nat × Word)
  /-- MII_ACC as last written, bit 0 being BUSY (R29). -/
  miiAcc : Word
  /-- MII_DATA (R30). -/
  miiData : Word
  /-- The MODEL's own: the window of R30 that MII_DATA is in. -/
  dataWindow : DataWindow
  /-- ENG (R31). -/
  eng : Eng
deriving DecidableEq, Repr

/-- S4, the wire (R34, R230, R234, R241). -/
structure Wire where
  /-- SLOT. -/
  slot : BitVec 6
  /-- PHASE. -/
  phase : Phase
  /-- SHIFT. -/
  shift : Half
  /-- TA_OK (R234). -/
  taOk : Bool
  /-- MDC. -/
  mdc : Bool
  /-- MDIO_O. -/
  mdioO : Bool
  /-- MDIO_OE. -/
  mdioOE : Bool
  /-- PHY_OE[p] at bit p (R230). -/
  phyOE : BitVec 32
  /-- PHY_O[p] at bit p (R230). -/
  phyO : BitVec 32
  /-- The levels sampled so far in this frame, the latest in bit 0. Every PHY samples the same wire at the same edges
  (R241), so its copy is held once (log 16). -/
  rx : BitVec 64
  /-- The word `v` the addressed PHY answers a read frame with (R241). -/
  phyTx : Half
deriving DecidableEq, Repr

/-- S5, the PHYs (R35 to R38): what has been written to each register, by address. MMDCTL[p] is the entry of index 0xD
of `c22` (R36). -/
structure Phys where
  /-- C22[p][i] at p * 32 + i. -/
  c22 : List (Nat × Half)
  /-- MMDADDR[p][d] at p * 32 + d. -/
  mmdAddr : List (Nat × Half)
  /-- C45[p][d][r] at (p * 32 + d) * 65536 + r. -/
  c45 : List (Nat × Half)
deriving DecidableEq, Repr

/-- An EEPROM command in progress (R280); the byte of a write is the one the EPC-data register held at submission. -/
inductive EpcOp where
  | read (addr : BitVec 9)
  | writeDisable
  | writeEnable
  | write (addr : BitVec 9) (data : Byte)
  | eraseAll
deriving DecidableEq, Repr

/-- How far the EPC command at the head of the port has come (R280): which register command it has issued last. -/
inductive EpcPhase where
  /-- None. -/
  | start
  /-- The poll before submission: a read of the EPC-command register. -/
  | polling
  /-- The byte of a write to the EPC-data register. -/
  | data
  /-- Submission: the write of the EPC-command register. -/
  | submitted
  /-- The poll after submission. -/
  | settling
deriving DecidableEq, Repr

/-- The EEPROM and its controller (context, R280). -/
structure Eeprom where
  /-- The bytes written since the last erasure. -/
  cells : List Host.Cell
  /-- The MODEL's own: which erasure the unwritten bytes date from. -/
  epoch : Nat
  /-- Write-enable. -/
  enabled : Bool
  /-- The command in progress; its presence is the "command in progress" top bit of the register at 0x040. -/
  inProgress : Option EpcOp
  /-- The byte of the EPC-data register at 0x044. -/
  data : Byte
deriving DecidableEq, Repr

/-- The classes of R301. -/
inductive ExcClass where
  | validation
  | identification
  | timeout
  | io
deriving DecidableEq, Repr

/-- An exception of the block: class, sub-cause and detail word (R301, R302). -/
structure Exc where
  cls : ExcClass
  info : Word
  detail : Word
deriving DecidableEq, Repr

/-- What a Transport operation or one of its exchanges comes to (R120, R144). -/
inductive Xfer where
  /-- The driver answered busy: the operation goes on with another exchange. -/
  | again
  /-- The operation raised. -/
  | raised (e : Exc)
  /-- The operation returned; the value of a write is 0. -/
  | value (v : Word)
deriving DecidableEq, Repr

/-- The world outside: the inputs of the model. -/
structure Env where
  /-- What the client presents, in order (R24, R91). -/
  port : List Encoded
  /-- Who moves next, as far as it is scripted (R75). -/
  turns : List Agent
  /-- How the USB Transport answers, as far as it is scripted. -/
  usbAnswers : List UsbAnswer
  /-- How the driver answers, as far as it is scripted. -/
  driverAnswers : List DriverAnswer
  /-- What the last request buffer presented by itself handed back to its caller (log 19). -/
  driverReturn : Option Xfer
  /-- Whether the EEPROM command in progress is found completed, look by look, as far as it is scripted (log 22). -/
  epcPolls : List Bool
  /-- How far the EPC command at the head of the port has come (R280, log 22). -/
  epcPhase : EpcPhase
  /-- How many free values have been drawn (R10). -/
  tick : Nat
deriving DecidableEq, Repr

/-- The whole state. -/
structure State where
  seq : Seq
  ser : Ser
  mac : Mac
  wire : Wire
  phys : Phys
  eeprom : Eeprom
  env : Env
  cfg : Config
deriving DecidableEq, Repr

/-- Faults of the run (R322: these are no exceptions of the block). Each is safe: nothing is claimed past it. -/
inductive Fault where
  /-- A write to MII_ACC while ENG is not free (R224, U1). Raised by the MAC register write. Safe. -/
  | launchWhileBusy
  /-- A write to MII_DATA while ENG is not free (R225, U2). Raised by the MAC register write. Safe. -/
  | dataWriteWhileBusy
  /-- UPC lies outside the running micro-program, which R25 says no run does. Raised by the sequencer. Safe. -/
  | upcOutsideProgram
deriving DecidableEq, Repr

/-- Cases the model has no rule for. Each is safe: nothing is claimed past it. -/
inductive Refusal where
  /-- An instruction without a meaning yet. Raised by `exec` only. Safe. -/
  | notModelled (mnemonic : String)
  /-- A word written to MII_ACC with a reserved operation code or bits 31:16 set (U3). Raised by the MAC register
  write. Safe. -/
  | reservedAccessWord (w : Word)
  /-- An access to index 0xE while the address-select register holds a reserved word (U5). Raised by the PHY. Safe. -/
  | reservedSelectWord (v : Half)
  /-- A reserved EPC code (U9). Raised when it is presented or written to the EPC-command register. Safe. -/
  | reservedEpcWord (w : Word)
  /-- A request buffer that the block never produces (R101). Raised when it is presented to the driver. Safe. -/
  | malformedRequest
  /-- Slots that are no frame of R97. Raised when they are presented to the frame engine. Safe. -/
  | malformedFrame (slots : BitVec 64)
deriving DecidableEq, Repr

/-- The machine after reset (R40). Values the spec leaves unspecified are those of log 2. -/
def State.reset : State where
  seq := {
    cmd := 0#32, opa := 0#32, opb := 0#32, opc := 0#32, opd := 0#32
    res := 0#32, status := 0#32, info := 0#32
    mode := .idle, upc := 0#5, pollCnt := 0, lock := false }
  ser := { retry := 0, pending := false }
  mac := { regs := [], miiAcc := 0#32, miiData := 0#32, dataWindow := .undefined, eng := .free }
  wire := {
    slot := 0#6, phase := .low, shift := 0#16, taOk := false, mdc := false, mdioO := false, mdioOE := false
    phyOE := 0#32, phyO := 0#32, rx := 0#64, phyTx := 0#16 }
  phys := { c22 := [], mmdAddr := [], c45 := [] }
  eeprom := { cells := [], epoch := 0, enabled := false, inProgress := none, data := 0#8 }
  env := {
    port := [], turns := [], usbAnswers := [], driverAnswers := [], driverReturn := none
    epcPolls := [], epcPhase := .start, tick := 0 }
  cfg := Config.default

end Sys2Proof.Machine
end

