-- ==== Sys2Proof/Machine/Flags.lean ====
section
/-! DEFINITION. The flags of the block (R26): BUSY, LOCK and the STATUS / INFO pair with the codes of R301 and R302.
There are no condition codes (R26). -/

namespace Sys2Proof.Machine

/-! ### BUSY (R29, R31) -/

/-- `BUSY`: 1 if and only if `ENG != free` (R31). -/
def engBusy : Eng → Bool
  | .free => false
  | .inflight _ _ _ _ => true

/-- The word with one bit replaced. -/
def withBit (w : Word) (k : Nat) (b : Bool) : Word :=
  (w &&& ~~~(BitVec.twoPow 32 k)) ||| (if b then BitVec.twoPow 32 k else 0#32)

/-- The word a read of MII_ACC returns: BUSY in its bit, the other bits a draw (R221). -/
def accReadWord (drawn : Word) (busy : Bool) : Word := withBit drawn busyBit busy

/-- The access word with BUSY cleared, what a completion leaves in MII_ACC (R226). -/
def clearBusy (w : Word) : Word := withBit w busyBit false

/-- The only bit POLL examines, BUSY (R174). -/
def pollBit (v : Word) : Bool := v.getLsbD busyBit

/-! ### STATUS and INFO (R301, R302) -/

/-- The value a class leaves in STATUS (R301); 0 is success. -/
def statusCode : ExcClass → Word
  | .validation => 1#32
  | .identification => 2#32
  | .timeout => 3#32
  | .io => 4#32

/-- `ValidationError(REG_ADDR)`: the offending operand word. -/
def excRegAddr (addr : Word) : Exc := ⟨.validation, 1#32, addr⟩
/-- `ValidationError(PHY_ADDR)`. -/
def excPhyAddr (operand : Word) : Exc := ⟨.validation, 2#32, operand⟩
/-- `ValidationError(REG_INDEX)`. -/
def excRegIndex (operand : Word) : Exc := ⟨.validation, 3#32, operand⟩
/-- `ValidationError(DEVAD)`. -/
def excDevad (operand : Word) : Exc := ⟨.validation, 4#32, operand⟩
/-- `ValidationError(C45_INDEX)`. -/
def excC45Index (operand : Word) : Exc := ⟨.validation, 5#32, operand⟩
/-- `ValidationError(DATA)`. -/
def excData (operand : Word) : Exc := ⟨.validation, 6#32, operand⟩
/-- `ValidationError(UNKNOWN_COMMAND)`: W0. -/
def excUnknownCommand (w0 : Word) : Exc := ⟨.validation, 7#32, w0⟩
/-- `ValidationError(BAD_LENGTH)`: the number of words received. -/
def excBadFrameLength (words : Nat) : Exc := ⟨.validation, 8#32, BitVec.ofNat 32 words⟩
/-- `ValidationError(MASK_CONFLICT)` (context): the conflicting bits. -/
def excMaskConflict (bits : Half) : Exc := ⟨.validation, 9#32, bits.setWidth 32⟩
/-- `ValidationError(SPEED)` (context). -/
def excSpeed : Exc := ⟨.validation, 10#32, 0#32⟩
/-- `ValidationError(MAC_ADDRESS_TEXT)` (context). -/
def excMacAddressText : Exc := ⟨.validation, 11#32, 0#32⟩
/-- `IdentificationError` (context, R285); R302 gives it no sub-cause. -/
def excIdentification : Exc := ⟨.identification, 0#32, 0#32⟩
/-- `Timeout(DRIVER_BUSY)`. -/
def excDriverBusy : Exc := ⟨.timeout, 1#32, 0#32⟩
/-- `Timeout(MII_BUSY)`: the UPC of the POLL. -/
def excMiiBusy (upc : BitVec 5) : Exc := ⟨.timeout, 2#32, upc.setWidth 32⟩
/-- `IoError(EXCHANGE_FAILED)`: the platform error code. -/
def excExchangeFailed (code : Word) : Exc := ⟨.io, 1#32, code⟩
/-- `IoError(BAD_LENGTH)`: the length received. -/
def excBadResponseLength (bytes : Nat) : Exc := ⟨.io, 2#32, BitVec.ofNat 32 bytes⟩
/-- `IoError(DRIVER_STATUS)`: the status code. -/
def excDriverStatus (st : Word) : Exc := ⟨.io, 3#32, st⟩

/-! ### LOCK (R26) -/

/-- `LOCK` is 1 exactly while `MODE = RUN` (R26). -/
def lockOf : Mode → Bool
  | .idle => false
  | .run => true

end Sys2Proof.Machine
end

