-- ==== Sys2Proof/Machine/Operands.lean ====
section
/-! DEFINITION. Operand forms: the operand latches and their per-command names (R22, R23), the expressions a
micro-operation writes (R175, R176), the width checks of VALIDATE (R172), and the micro-operations (R25). -/

namespace Sys2Proof.Machine

/-- An operand latch (R22). -/
inductive Latch where
  | opa
  | opb
  | opc
  | opd
deriving DecidableEq, Repr

/-- `x[latch]` (R10). -/
def readLatch (q : Seq) : Latch → Word
  | .opa => q.opa
  | .opb => q.opb
  | .opc => q.opc
  | .opd => q.opd

/-- The 16-bit expression of a WRDATA: a latch, OR-ed with 0x4000 where the micro-program says so (R175). -/
structure Datum where
  latch : Latch
  dataMode : Bool
deriving DecidableEq, Repr

/-- The value of a WRDATA expression, truncated to 16 bits (R175). -/
def datumValue (q : Seq) (e : Datum) : Half :=
  (readLatch q e.latch).setWidth 16 ||| (if e.dataMode then mmdDataMode else 0#16)

/-- The register index of a WRACC: a latch, or one of the reserved indices 0xD and 0xE (R25). -/
inductive RegIndex where
  | latch (l : Latch)
  | const (i : Field5)
deriving DecidableEq, Repr

/-- The value of a WRACC index (R176). -/
def regIndexValue (q : Seq) : RegIndex → Field5
  | .latch l => (readLatch q l).setWidth 5
  | .const i => i

/-- The operation code of a transaction direction (R92). -/
def opcodeOf (c : Config) : Rw → BitVec 6
  | .read => c.readOpcode
  | .write => c.writeOpcode

/-- The names of the operand checks of R122, R123 and R172. -/
inductive OperandName where
  | regAddr
  | phyAddr
  | regIndex
  | devad
  | c45Index
  | data
deriving DecidableEq, Repr

/-- The first illegal value of an operand (R122, R172), from its width in R7. -/
def operandBound : OperandName → Nat
  | .regAddr => regAddrBound
  | .phyAddr => 2 ^ fixedConfig.phyadBits
  | .regIndex => 2 ^ fixedConfig.regadBits
  | .devad => 2 ^ fixedConfig.devadBits
  | .c45Index => 2 ^ fixedConfig.c45RegBits
  | .data => 2 ^ fixedConfig.mdioDataBits

/-- The exception an illegal operand raises (R302). -/
def operandExc : OperandName → Word → Exc
  | .regAddr => excRegAddr
  | .phyAddr => excPhyAddr
  | .regIndex => excRegIndex
  | .devad => excDevad
  | .c45Index => excC45Index
  | .data => excData

/-- The operands of a command, in frame order: the latch of each and its name (R23, R172). -/
abbrev Checks := List (Latch × OperandName)

/-- The first failing check of VALIDATE (R172, R311). -/
def firstFailure (q : Seq) : Checks → Option Exc
  | [] => none
  | (l, n) :: rest =>
    if operandBound n ≤ (readLatch q l).toNat then some (operandExc n (readLatch q l))
    else firstFailure q rest

/-- A micro-operation (R25). -/
inductive MicroOp where
  | validate
  | poll
  | wrData (e : Datum)
  | wrAcc (r : RegIndex) (rw : Rw)
  | rdData
  | rdReg
  | wrReg
  | ret
deriving DecidableEq, Repr

/-- What a command is made of: its code (R91), its operand checks (R172), its micro-program (R25), and whether RET
clears RES (R178). -/
structure Command where
  code : Word
  checks : Checks
  program : List MicroOp
  clearsRes : Bool
deriving DecidableEq, Repr

/-- The words the command latches hold, as many as the code takes (R22, R91); of an unknown code the code alone. -/
def latchedFrame (q : Seq) : List Word :=
  if q.cmd = 0x08#32 then [q.cmd, q.opa]
  else if q.cmd = 0x09#32 then [q.cmd, q.opa, q.opb]
  else if q.cmd = 0x10#32 then [q.cmd, q.opa, q.opb]
  else if q.cmd = 0x11#32 then [q.cmd, q.opa, q.opb, q.opc]
  else if q.cmd = 0x12#32 then [q.cmd, q.opa, q.opb, q.opc]
  else if q.cmd = 0x13#32 then [q.cmd, q.opa, q.opb, q.opc, q.opd]
  else [q.cmd]

/-! ### Bits of the serial frame (R232) -/

/-- What the master puts on the wire in a slot of a frame: a driven level, or nothing (R232). -/
def masterBit (rw : Rw) (p r : Field5) (wdata : Half) (slot : Nat) : Option Bool :=
  if slot < 32 then some true
  else if slot = 32 then some false
  else if slot = 33 then some true
  else if slot = 34 then some (rw == .read)
  else if slot = 35 then some (rw == .write)
  else if slot ≤ 40 then some (p.getLsbD (40 - slot))
  else if slot ≤ 45 then some (r.getLsbD (45 - slot))
  else match rw with
    | .read => none
    | .write =>
      if slot = 46 then some true
      else if slot = 47 then some false
      else some (wdata.getLsbD (63 - slot))

end Sys2Proof.Machine
end

