-- ==== Sys2Proof/Machine/Ops.lean ====
section
/-! DEFINITION. The shared operations: outcomes, register spaces and their canonical form, free values, the PHY's
register accesses (R242 to R247), the EEPROM behind its two registers (R280), the MAC's register accesses with launch and
completion (R221 to R226), accepting a command (R24), taking an exception (R320) and ending a command (R178). -/

namespace Sys2Proof.Machine

/-- The outcome of an operation of the machine. -/
abbrev Result (α : Type) := Host.Outcome α Fault Refusal

/-- Goes on with `f` where `o` answers next; a fault or a refusal stays. -/
def andThen {α β : Type} (o : Result α) (f : α → Result β) : Result β :=
  match o with
  | .next a => f a
  | .fault r => .fault r
  | .refused r => .refused r

/-! ### Register spaces as sparse memories (log 25) -/

/-- The value written last at an address; `none` where nothing has been written. -/
def Memory.read {α : Type} (m : List (Nat × α)) (a : Nat) : Option α :=
  match m with
  | [] => none
  | (k, v) :: rest => if k = a then some v else Memory.read rest a

/-- Writes one cell, keeping the addresses strictly rising. -/
def Memory.write {α : Type} (m : List (Nat × α)) (a : Nat) (v : α) : List (Nat × α) :=
  match m with
  | [] => [(a, v)]
  | (k, u) :: rest =>
    if a < k then (a, v) :: (k, u) :: rest
    else if k = a then (a, v) :: rest
    else (k, u) :: Memory.write rest a v

/-- The addresses are strictly rising, from at least `lo`, and below `size`. -/
def Memory.wfFrom {α : Type} (size lo : Nat) (m : List (Nat × α)) : Bool :=
  match m with
  | [] => true
  | (k, _) :: rest => decide (lo ≤ k) && decide (k < size) && Memory.wfFrom size (k + 1) rest

/-- The canonical form of a space of `size` cells. An unlisted cell holds no written value, so no entry can equal what
an unlisted cell reads as. -/
def Memory.wf {α : Type} (size : Nat) (m : List (Nat × α)) : Bool := Memory.wfFrom size 0 m

/-! ### Free values -/

/-- The state after one more free value has been drawn (R10 `draw`, log 4). -/
def advance (s : State) : State := { s with env := { s.env with tick := s.env.tick + 1 } }

/-- The next 32-bit draw. -/
def drawnWord (s : State) : Word := Config.freeWord s.env.tick

/-- The next 16-bit draw. -/
def drawnHalf (s : State) : Half := (drawnWord s).setWidth 16

/-! ### The PHYs (R35 to R38, R240 to R247) -/

/-- The place of C22[p][i] (R35). -/
def c22Key (p i : Field5) : Nat := p.toNat * 32 + i.toNat
/-- The place of MMDADDR[p][d] (R37). -/
def mmdAddrKey (p d : Field5) : Nat := p.toNat * 32 + d.toNat
/-- The place of C45[p][d][r] (R38). -/
def c45Key (p d : Field5) (r : Half) : Nat := (p.toNat * 32 + d.toNat) * 65536 + r.toNat

/-- C22[p][i] (R35); a register never written reads as its free value (U11). -/
def c22At (f : Phys) (p i : Field5) : Half :=
  (Memory.read f.c22 (c22Key p i)).getD (Config.unwrittenC22 p i)
/-- MMDCTL[p] = C22[p][0xD] (R36). -/
def mmdCtlAt (f : Phys) (p : Field5) : Half := c22At f p mmdCtrlIdx
/-- MMDADDR[p][d] (R37). -/
def mmdAddrAt (f : Phys) (p d : Field5) : Half :=
  (Memory.read f.mmdAddr (mmdAddrKey p d)).getD (Config.unwrittenMmdAddr p d)
/-- C45[p][d][r] (R38). -/
def c45At (f : Phys) (p d : Field5) (r : Half) : Half :=
  (Memory.read f.c45 (c45Key p d r)).getD (Config.unwrittenC45 p d r)

/-- C22[p][i] <- v. -/
def setC22 (f : Phys) (p i : Field5) (v : Half) : Phys :=
  { f with c22 := Memory.write f.c22 (c22Key p i) v }
/-- MMDADDR[p][d] <- v. -/
def setMmdAddr (f : Phys) (p d : Field5) (v : Half) : Phys :=
  { f with mmdAddr := Memory.write f.mmdAddr (mmdAddrKey p d) v }
/-- C45[p][d][r] <- v. -/
def setC45 (f : Phys) (p d : Field5) (r v : Half) : Phys :=
  { f with c45 := Memory.write f.c45 (c45Key p d r) v }

/-- MMDCTL[p] has been written with a reserved word, so that an access to 0xE has no rule (U5). -/
def selectReserved (f : Phys) (p : Field5) : Bool :=
  match Memory.read f.c22 (c22Key p mmdCtrlIdx) with
  | none => false
  | some v => mmdReserved v

/-- The device that MMDCTL[p] selects (R245). -/
def selectedDevice (f : Phys) (p : Field5) : Field5 := mmdDevad (mmdCtlAt f p)

/-- A write to index 0xE (R245). -/
def mmdDataWrite (f : Phys) (p : Field5) (v : Half) : Phys :=
  let d := selectedDevice f p
  if mmdMode (mmdCtlAt f p) then setC45 f p d (mmdAddrAt f p d) v else setMmdAddr f p d v

/-- A read of index 0xE (R245). -/
def mmdDataRead (f : Phys) (p : Field5) : Half :=
  let d := selectedDevice f p
  if mmdMode (mmdCtlAt f p) then c45At f p d (mmdAddrAt f p d) else mmdAddrAt f p d

/-- `PhyWrite(p, i, v)` on the register files: index 0xD is R244, index 0xE is R245, any other is storage (R242); an
absent PHY changes nothing (R247). -/
def phyWriteRegs (present : List Field5) (f : Phys) (p i : Field5) (v : Half) : Result Phys :=
  if i = mmdDataIdx then
    if p ∉ present then .next f
    else if selectReserved f p then .refused (.reservedSelectWord (mmdCtlAt f p))
    else .next (mmdDataWrite f p v)
  else .next (if p ∈ present then setC22 f p i v else f)

/-- `PhyRead(p, i)` of a present PHY (R242). -/
def phyReadRegs (f : Phys) (p i : Field5) : Result Half :=
  if i = mmdDataIdx then
    if selectReserved f p then .refused (.reservedSelectWord (mmdCtlAt f p))
    else .next (mmdDataRead f p)
  else .next (c22At f p i)

/-- `PhyWrite(p, i, v)` (R242). -/
def phyWrite (p i : Field5) (v : Half) (s : State) : Result State :=
  andThen (phyWriteRegs s.cfg.phyPresent s.phys p i v) fun f => .next { s with phys := f }

/-- `PhyRead(p, i)` (R242); an absent PHY answers a draw (R247). -/
def phyRead (p i : Field5) (s : State) : Result (Half × State) :=
  if p ∉ s.cfg.phyPresent then .next (drawnHalf s, advance s)
  else andThen (phyReadRegs s.phys p i) fun v => .next (v, s)

/-! ### The wire at rest and at the start of a frame (R231, R233) -/

/-- Idle pins (R231). -/
def idleWire (w : Wire) : Wire := { w with mdc := false, mdioOE := false, phyOE := 0#32, phase := .low }

/-- The master applies its bit of a slot (R232, R233). -/
def applyMaster (b : Option Bool) (w : Wire) : Wire :=
  match b with
  | some level => { w with mdioOE := true, mdioO := level }
  | none => { w with mdioOE := false }

/-- The pins at launch: SLOT 0, PHASE LOW, MDC 0, the master applies m(0) (R233). -/
def startWire (rw : Rw) (p r : Field5) (wdata : Half) (w : Wire) : Wire :=
  applyMaster (masterBit rw p r wdata 0)
    { w with slot := 0#6, phase := .low, mdc := false, phyOE := 0#32, rx := 0#64 }

/-! ### The EEPROM behind 0x040 and 0x044 (context, R280; log 21, log 22) -/

/-- An EEPROM byte; one not written since the last erasure reads as its free value. -/
def eepromAt (e : Eeprom) (a : BitVec 9) : Byte :=
  (Memory.read e.cells a.toNat).getD (Config.unwrittenEeprom e.epoch a)

/-- Stores a byte. -/
def setEeprom (a : BitVec 9) (d : Byte) (e : Eeprom) : Eeprom :=
  { e with cells := Memory.write e.cells a.toNat d }

/-- The effect of a command on the EEPROM, `drawn` and `erases` being free values: a write without write-enable leaves
an open byte, and whether an erasure needs write-enable is open (R281, log 22). The address that a command which is no
read and no write is combined with has no effect: DESIGN CHOICE (log 21). -/
def epcEffect (op : EpcOp) (drawn : Byte) (erases : Bool) (fresh : Nat) (e : Eeprom) : Eeprom :=
  match op with
  | .read a => { e with data := eepromAt e a }
  | .writeDisable => { e with enabled := false }
  | .writeEnable => { e with enabled := true }
  | .write a d => setEeprom a (if e.enabled then d else drawn) e
  | .eraseAll => if e.enabled || erases then { e with cells := [], epoch := fresh } else e

/-- The command in progress completes: its effect, and the top bit clears (R280). -/
def epcComplete (op : EpcOp) (s : State) : State :=
  let e := epcEffect op ((drawnWord s).setWidth 8) (Config.freeErase s.env.tick) (s.env.tick + 1) s.eeprom
  advance { s with eeprom := { e with inProgress := none } }

/-- Whether the command in progress has completed by now: the script's answer, else a free one. -/
def takeEpcPoll (s : State) : Bool × State :=
  match s.env.epcPolls with
  | b :: rest => (b, { s with env := { s.env with epcPolls := rest } })
  | [] => (Config.freeEpcDone s.env.tick, advance s)

/-- One look at the "command in progress" bit (R280). The moment of completion is open, and it can be seen in no other
way: a command that this look finds completed takes its effect here (log 22). -/
def epcPoll (s : State) : Bool × State :=
  match s.eeprom.inProgress with
  | none => (false, s)
  | some op =>
    if (takeEpcPoll s).1 then (false, epcComplete op (takeEpcPoll s).2) else (true, (takeEpcPoll s).2)

/-- The command of a 3-bit code and a 9-bit address, a write taking the byte of the data register; a code that is not
listed is none (R280, R281). -/
def epcOfFields (code : BitVec 3) (a : BitVec 9) (byte : Byte) : Option EpcOp :=
  if code = 0b000#3 then some (.read a)
  else if code = 0b001#3 then some .writeDisable
  else if code = 0b010#3 then some .writeEnable
  else if code = 0b011#3 then some (.write a byte)
  else if code = 0b110#3 then some .eraseAll
  else none

/-- The word that submits a command, as the EPC-command register has it: the layout is free (R281). -/
def epcRegisterWord (code : BitVec 3) (a : BitVec 9) : Word := Config.epcLayout (epcWord code a 0#8)

/-- The command that a word written to the EPC-command register submits, the data register holding `byte` (R280). -/
def epcOfRegisterWord (w : Word) (byte : Byte) : Option EpcOp :=
  let v := Config.epcLayout.symm w
  epcOfFields (epcCode v) (epcAddr v) byte

/-- A register write to the EPC-command register: it submits the command of the word; where one is in progress, whether
the new one replaces it is free; a reserved code is refused (R281, U9). -/
def epcCommandWrite (w : Word) (s : State) : Result State :=
  match epcOfRegisterWord w s.eeprom.data with
  | none => .refused (.reservedEpcWord w)
  | some op =>
    if s.eeprom.inProgress.isSome && !Config.freeEpcTaken s.env.tick then .next (advance s)
    else .next (advance { s with eeprom := { s.eeprom with inProgress := some op } })

/-- What a read of the EPC-data register returns: the byte in bits 7:0, the other bits a draw; a draw altogether while a
command is in progress (log 21). -/
def epcDataWord (e : Eeprom) (drawn : Word) : Word :=
  if e.inProgress.isSome then drawn else (drawn.extractLsb' 8 24 ++ e.data : BitVec (24 + 8))

/-! ### The MAC registers (R28 to R33, R221 to R225) -/

/-- What a read of MII_DATA returns (R222, R225). -/
def dataReadWord (m : Mac) (drawn : Word) : Word :=
  if engBusy m.eng then drawn
  else match m.dataWindow with
    | .undefined => drawn
    | .stored => m.miiData
    | .completed => (drawn.extractLsb' 16 16 ++ m.miiData.extractLsb' 0 16 : BitVec (16 + 16))

/-- `MII_DATA[15:0]` as a launch latches it: the content where R30 defines it, else a draw (log 12). -/
def launchDatum (m : Mac) (drawn : Half) : Half :=
  match m.dataWindow with
  | .undefined => drawn
  | .stored => m.miiData.setWidth 16
  | .completed => m.miiData.setWidth 16

/-- The MAC's side of `read_reg(a)` (R28, R221, R222, R280). The state changes only by the draw, but for the completion
that a look at the EPC-command register may find. Every other register is a draw (R28, D17): DESIGN CHOICE (log 23), so
is the identifier register 0x000, whose upper half the example of R122 gives as 0x7801 from an unaudited test (R2). -/
def macRead (a : RegAddr) (s : State) : Word × State :=
  if a = miiAccAddr then (accReadWord (drawnWord s) (engBusy s.mac.eng), advance s)
  else if a = miiDataAddr then (dataReadWord s.mac (drawnWord s), advance s)
  else if a = epcCommandAddr then
    (withBit (drawnWord (epcPoll s).2) epcBusyBit (epcPoll s).1, advance (epcPoll s).2)
  else if a = epcDataAddr then (epcDataWord s.eeprom (drawnWord s), advance s)
  else (Config.freeMacRegister s.env.tick a (Memory.read s.mac.regs a.toNat), advance s)

/-- ENG becomes in flight, MII_ACC holds the word, the frame starts (R223, R233). -/
def startTransaction (rw : Rw) (p r : Field5) (wdata : Half) (w : Word) (s : State) : State :=
  { s with
    mac := { s.mac with miiAcc := w, dataWindow := .undefined, eng := .inflight rw p r wdata }
    wire := startWire rw p r wdata s.wire }

/-- Launch (R223). The datum of a read is a draw; of a write it is MII_DATA[15:0] at this instant (R32). -/
def launch (rw : Rw) (p r : Field5) (w : Word) (s : State) : State :=
  match rw with
  | .read => advance (startTransaction .read p r (drawnHalf s) w s)
  | .write => advance (startTransaction .write p r (launchDatum s.mac (drawnHalf s)) w s)

/-- A write to MII_ACC: a fault while ENG is not free (R224), else a launch, or U3. -/
def accWrite (w : Word) (s : State) : Result State :=
  if engBusy s.mac.eng then .fault .launchWhileBusy
  else match decodeAcc s.cfg w with
    | .ok (.miiRead p r) => .next (launch .read p r w s)
    | .ok (.miiWrite p r) => .next (launch .write p r w s)
    | _ => .refused (.reservedAccessWord w)

/-- A write to MII_DATA: a fault while ENG is not free (R225), else it only stores (R222, R68). -/
def dataWrite (v : Word) (s : State) : Result State :=
  if engBusy s.mac.eng then .fault .dataWriteWhileBusy
  else .next { s with mac := { s.mac with miiData := v, dataWindow := .stored } }

/-- A write that an error may or may not have let through (R67, U12). A write to the EPC-data register while an EEPROM
command is in progress stores its byte and leaves that command, with the byte it was submitted with: DESIGN CHOICE
(log 21). -/
def macWriteIf (yes : Bool) (a : RegAddr) (v : Word) (s : State) : Result State :=
  if a = miiAccAddr then (if yes then accWrite v s else .next s)
  else if a = miiDataAddr then (if yes then dataWrite v s else .next s)
  else if a = epcCommandAddr then (if yes then epcCommandWrite v s else .next s)
  else if a = epcDataAddr then .next { s with eeprom := { s.eeprom with
    data := if yes then v.setWidth 8 else s.eeprom.data } }
  else .next { s with mac := { s.mac with
    regs := if yes then Memory.write s.mac.regs a.toNat v else s.mac.regs } }

/-- The MAC's side of `write_reg(a, v)` (R28, R68, R280). -/
def macWrite (a : RegAddr) (v : Word) (s : State) : Result State := macWriteIf true a v s

/-! ### Transactions started from outside the sequencer (R61, R223; log 10)

The Clause-22 space is reached only through MII_ACC and MII_DATA, whoever reaches it. -/

/-- A write of the access word of a transaction to MII_ACC: the fault of R224, or the launch the word names. It is
`accWrite` of that word wherever the configuration is legal (`startAccess_eq`). -/
def startAccess (rw : Rw) (p r : Field5) (s : State) : Result State :=
  if engBusy s.mac.eng then .fault .launchWhileBusy
  else .next (launch rw p r (accWord p r (opcodeOf s.cfg rw)) s)

/-- Starts a Clause-22 write: the datum to MII_DATA, then the access word to MII_ACC. -/
def startWrite (p r : Field5) (v : Half) (s : State) : Result State :=
  andThen (dataWrite (v.setWidth 32) s) (startAccess .write p r)

/-- Starts a Clause-22 read: the access word to MII_ACC. -/
def startRead (p r : Field5) (s : State) : Result State := startAccess .read p r s

/-! ### Completion (R226) -/

/-- What every completion does besides the PHY access: ENG is free, BUSY reads 0, the pins are idle (R226, R235). -/
def freeEngine (s : State) : State :=
  { s with mac := { s.mac with eng := .free, miiAcc := clearBusy s.mac.miiAcc }, wire := idleWire s.wire }

/-- The end of a read: `MII_DATA <- {draw(16 bits), v}` (R226, R235). -/
def loadDatum (v : Half) (s : State) : State :=
  advance { s with mac := { s.mac with
    miiData := ((drawnWord s).extractLsb' 16 16 ++ v : BitVec (16 + 16)), dataWindow := .completed } }

/-- Completion as one atomic step of the MDIO engine (R226); nothing to do while ENG is free. -/
def engineComplete (s : State) : Result State :=
  match s.mac.eng with
  | .free => .next s
  | .inflight .read p r _ => andThen (phyRead p r s) fun (v, t) => .next (freeEngine (loadDatum v t))
  | .inflight .write p r wdata => andThen (phyWrite p r wdata s) fun t => .next (freeEngine t)

/-! ### Commands: acceptance, exception, return (R24, R178, R320) -/

/-- Accepting a command: the latches are loaded together, RES, STATUS, INFO and POLLCNT cleared, UPC 0, LOCK 1, MODE
RUN (R24). -/
def accept (cmd opa opb opc opd : Word) (s : State) : State :=
  { s with
    seq := { cmd := cmd, opa := opa, opb := opb, opc := opc, opd := opd, res := 0#32, status := 0#32, info := 0#32
             mode := .run, upc := 0#5, pollCnt := 0, lock := true }
    ser := { s.ser with pending := false } }

/-- Taking an exception, at any micro-operation of any command (R320): STATUS, INFO and RES are written, MODE IDLE,
LOCK 0, POLLCNT 0; UPC stays at the failing micro-operation; nothing of the MAC, the wire or the PHYs changes. -/
def raise (e : Exc) (s : State) : State :=
  { s with
    seq := { s.seq with
      status := statusCode e.cls, info := e.info, res := e.detail, mode := .idle, lock := false, pollCnt := 0 }
    ser := { s.ser with pending := false } }

/-- RET (R178). There is no return from an exception (R322): after one the sequencer is idle. -/
def commandReturn (clearsRes : Bool) (s : State) : State :=
  { s with seq := { s.seq with
    status := 0#32, info := 0#32, res := if clearsRes then 0#32 else s.seq.res, mode := .idle, lock := false } }

/-- `UPC <- UPC + 1` (R25). -/
def nextMicroOp (s : State) : State := { s with seq := { s.seq with upc := s.seq.upc + 1#5 } }

end Sys2Proof.Machine
end

