-- ==== Sys2Proof/Machine/Driver.lean ====
section
/-! DEFINITION. Unit U2, the driver wire-format serializer (41_driver_serializer.md): requests, one exchange of a
register operation, response parsing, the retry bound; and the meanings of DRV_READ and DRV_WRITE. -/

namespace Sys2Proof.Machine

/-- The request buffer of `read_reg(a)` (R142). -/
def readRequest (c : Config) (a : RegAddr) : List Byte :=
  drvReadBytes c.drvSelector c.drvIfindex (a.setWidth 32)

/-- The request buffer of `write_reg(a, v)` (R143). -/
def writeRequest (c : Config) (a : RegAddr) (v : Word) : List Byte :=
  drvWriteBytes c.drvSelector c.drvIfindex (a.setWidth 32) v

/-- What a response buffer says (R144 to R148). -/
inductive Verdict where
  /-- Status 4 (R148). -/
  | busy
  /-- A malformed length (R145). -/
  | badLength (bytes : Nat)
  /-- A status neither 0 nor 4 (R147). -/
  | status (st : Word)
  /-- Success; the payload of a read, 0 for a write. -/
  | success (v : Word)
deriving DecidableEq, Repr

/-- Parsing a response, in the order of R144: length below 12, status 4, other status, exact length. -/
def parseResponse (isRead : Bool) (rsp : List Byte) : Verdict :=
  if rsp.length < drvPayloadOff then .badLength rsp.length
  else
    let st := le32At rsp drvStatusOff
    if st = drvStatusBusy then .busy
    else if st ≠ drvStatusOk then .status st
    else if isRead then
      if rsp.length ≠ 16 then .badLength rsp.length else .success (le32At rsp drvPayloadOff)
    else if rsp.length ≠ 12 then .badLength rsp.length else .success 0#32

/-- The response of a driver that has performed the request: header, status 0, and for a read the value (R96). -/
def successResponse (header : BitVec 64) (isRead : Bool) (v : Word) : List Byte :=
  le32 (header.extractLsb' 0 32) ++ le32 (header.extractLsb' 32 32) ++ le32 drvStatusOk ++
    (if isRead then le32 v else [])

/-- What becomes of a request buffer on the MAC: where the answer says that it was performed, the register is read or
written. A buffer that is no request has no rule (R101). -/
def performRequest (lands : Bool) (req : List Byte) (s : State) : Result (Word × State) :=
  match decodeDrv req with
  | .ok (.drvRead _ _ a) => .next (if lands then macRead (a.setWidth 12) s else (0#32, s))
  | .ok (.drvWrite _ _ a v) => andThen (macWriteIf lands (a.setWidth 12) v s) fun t => .next (0#32, t)
  | _ => .refused .malformedRequest

/-- Whether an operation answered so was performed: on success yes, on busy no (R148, D11), on an error as `reached`
says. -/
def landed (v : Verdict) (reached : Bool) : Bool :=
  match v with
  | .success _ => true
  | .busy => false
  | .badLength _ => reached
  | .status _ => reached

/-- The start of an exchange: RETRY is cleared where a new operation starts (R144, R151). -/
def startExchange (s : State) : State :=
  if s.ser.pending then s else { s with ser := { s.ser with retry := 0 } }

/-- The operation in progress is over. -/
def endOperation (s : State) : State := { s with ser := { s.ser with pending := false } }

/-- What the serializer makes of a verdict (R144, R147, R148). -/
def concludeExchange (v : Verdict) (s : State) : Xfer × State :=
  match v with
  | .busy =>
    let n := s.ser.retry + 1
    if s.cfg.retryLimit ≤ n then
      (.raised excDriverBusy, { s with ser := { retry := n, pending := false } })
    else (.again, { s with ser := { retry := n, pending := true } })
  | .badLength n => (.raised (excBadResponseLength n), endOperation s)
  | .status st => (.raised (excDriverStatus st), endOperation s)
  | .success w => (.value w, endOperation s)

/-- The driver's next answer: the script's, else a free one (R150, U13). -/
def takeDriverAnswer (s : State) : DriverAnswer × State :=
  match s.env.driverAnswers with
  | a :: rest => (a, { s with env := { s.env with driverAnswers := rest } })
  | [] => (Config.freeDriverAnswer s.env.tick, advance s)

/-- Whether an answer lets an operation through: always where the driver performs it, as `landed` says of a buffer, and for
a write openly where the exchange fails (R67, U12). A read answered busy has not been performed (R148, D11); that one which
fails has read nothing is DESIGN CHOICE (log 7). -/
def answerLands (ans : DriverAnswer) (isRead : Bool) : Bool :=
  match ans with
  | .performs _ => true
  | .buffer rsp reached => landed (parseResponse isRead rsp) (reached && !isRead)
  | .failed _ reached => reached && !isRead

/-- What an answer comes to, `v` being the value the MAC gave (R144 to R149). -/
def settleExchange (ans : DriverAnswer) (isRead : Bool) (v : Word) (s : State) : Xfer × State :=
  match ans with
  | .performs h => concludeExchange (parseResponse isRead (successResponse h isRead v)) s
  | .buffer rsp _ => concludeExchange (parseResponse isRead rsp) s
  | .failed code _ => (.raised (excExchangeFailed code), endOperation s)

/-- One exchange of a register operation (R144): after `again` the next step exchanges the same request again. -/
def exchange (isRead : Bool) (req : List Byte) (s : State) : Result (Xfer × State) :=
  let (ans, t) := takeDriverAnswer (startExchange s)
  andThen (performRequest (answerLands ans isRead) req t) fun (v, u) => .next (settleExchange ans isRead v u)

/-- A register operation asked of U2 by itself. The Transport rejects an address of 0x1000 or more before any I/O (R121);
the outcome goes back to the caller. DESIGN CHOICE (log 19): it is performed whichever Transport is in use; beside the USB
Transport U2 is absent, and the spec does not say what a request buffer does then. -/
def driverOperation (isRead : Bool) (req : List Byte) (addr : Word) (s : State) : Result State :=
  if wellFormedAddr addr then
    andThen (exchange isRead req s) fun (x, t) => .next { t with env := { t.env with driverReturn := some x } }
  else .next { s with env := { s.env with driverReturn := some (.raised (excRegAddr addr)) } }

/-- DRV_READ (R142): one exchange of the read request. -/
def execDrvRead (selector ifindex addr : Word) (s : State) : Result State :=
  driverOperation true (drvReadBytes selector ifindex addr) addr s

/-- DRV_WRITE (R143): one exchange of the write request. -/
def execDrvWrite (selector ifindex addr value : Word) (s : State) : Result State :=
  driverOperation false (drvWriteBytes selector ifindex addr value) addr s

end Sys2Proof.Machine
end

