-- ==== Sys2Proof/Machine/Sequencer.lean ====
section
/-! DEFINITION. The Transport (R120, R126) and the micro-operations of the sequencer (42_mdio_c22.md R172 to R178,
40_register_ops.md R124, R125), shared by the six commands. -/

namespace Sys2Proof.Machine

/-! ### The Transport -/

/-- The USB Transport's next answer: the script's, else a free one (R126). -/
def takeUsbAnswer (s : State) : UsbAnswer × State :=
  match s.env.usbAnswers with
  | a :: rest => (a, { s with env := { s.env with usbAnswers := rest } })
  | [] => (Config.freeUsbAnswer s.env.tick, advance s)

/-- `read_reg(a)` over the USB Transport: performed, or one of the two failures (R120, R126). -/
def usbRead (a : RegAddr) (s : State) : Xfer × State :=
  match takeUsbAnswer s with
  | (.performs, t) => (.value (macRead a t).1, (macRead a t).2)
  | (.ioError info detail _, t) => (.raised ⟨.io, info, detail⟩, t)
  | (.timeout info detail _, t) => (.raised ⟨.timeout, info, detail⟩, t)

/-- `write_reg(a, v)` over the USB Transport; a failed write may have reached the register (R67). -/
def usbWrite (a : RegAddr) (v : Word) (s : State) : Result (Xfer × State) :=
  match takeUsbAnswer s with
  | (.performs, t) => andThen (macWrite a v t) fun u => .next (.value 0#32, u)
  | (.ioError info detail reached, t) =>
    andThen (macWriteIf reached a v t) fun u => .next (.raised ⟨.io, info, detail⟩, u)
  | (.timeout info detail reached, t) =>
    andThen (macWriteIf reached a v t) fun u => .next (.raised ⟨.timeout, info, detail⟩, u)

/-- `MemRead(a, 4)` (R10, R120), one exchange of it where the Transport is the driver's. -/
def memRead (a : RegAddr) (s : State) : Result (Xfer × State) :=
  match s.cfg.transport with
  | .usb => .next (usbRead a s)
  | .driver => exchange true (readRequest s.cfg a) s

/-- `MemWrite(a, 4, v)` (R10, R120), one exchange of it where the Transport is the driver's. -/
def memWrite (a : RegAddr) (v : Word) (s : State) : Result (Xfer × State) :=
  match s.cfg.transport with
  | .usb => usbWrite a v s
  | .driver => exchange false (writeRequest s.cfg a v) s

/-- What the sequencer does with the outcome of a Transport operation: it waits for the operation, it takes the
exception unchanged (R312, R179), or it goes on with the value. -/
def afterTransport (o : Result (Xfer × State)) (f : Word → State → State) : Result State :=
  andThen o fun (x, t) =>
    match x with
    | .again => .next t
    | .raised e => .next (raise e t)
    | .value v => .next (f v t)

/-! ### Micro-operations -/

/-- VALIDATE (R172): no Transport operation; the first failing check is reported. -/
def microValidate (checks : Checks) (s : State) : State :=
  match firstFailure s.seq checks with
  | some e => raise e s
  | none => nextMicroOp s

/-- The end of one POLL iteration (R174). -/
def pollIteration (v : Word) (s : State) : State :=
  if pollBit v then
    let n := s.seq.pollCnt + 1
    let t := { s with seq := { s.seq with pollCnt := n } }
    match s.cfg.pollLimit with
    | none => t
    | some limit => if limit ≤ n then raise (excMiiBusy s.seq.upc) t else t
  else nextMicroOp { s with seq := { s.seq with pollCnt := 0 } }

/-- The value read goes to RES (R124, R177). -/
def storeResult (v : Word) (s : State) : State := nextMicroOp { s with seq := { s.seq with res := v } }

/-- One micro-operation of a command (R25, R172 to R178, R124, R125). -/
def execMicroOp (c : Command) (op : MicroOp) (s : State) : Result State :=
  match op with
  | .validate => .next (microValidate c.checks s)
  | .poll => afterTransport (memRead miiAccAddr s) pollIteration
  | .wrData e =>
    afterTransport (memWrite miiDataAddr ((datumValue s.seq e).setWidth 32) s) fun _ t => nextMicroOp t
  | .wrAcc r rw =>
    afterTransport
      (memWrite miiAccAddr (accWord (s.seq.opa.setWidth 5) (regIndexValue s.seq r) (opcodeOf s.cfg rw)) s)
      fun _ t => nextMicroOp t
  | .rdData =>
    afterTransport (memRead miiDataAddr s) fun v t => storeResult ((v.setWidth 16).setWidth 32) t
  | .rdReg => afterTransport (memRead (s.seq.opa.setWidth 12) s) storeResult
  | .wrReg => afterTransport (memWrite (s.seq.opa.setWidth 12) s.seq.opb s) fun _ t => nextMicroOp t
  | .ret => .next (commandReturn c.clearsRes s)

/-- The latches hold this command (R22, R24). -/
def latchesHold (q : Seq) (cmd opa opb opc opd : Word) : Bool :=
  q.cmd == cmd && q.opa == opa && q.opb == opb && q.opc == opc && q.opd == opd

/-- The micro-operation at UPC of the running command (R25). -/
def runMicroOp (c : Command) (s : State) : Result State :=
  match c.program[s.seq.upc.toNat]? with
  | some op => execMicroOp c op s
  | none => .fault .upcOutsideProgram

/-- A command: accepted in IDLE (R24); in RUN, if it is the command the latches hold, its micro-operation at UPC; any
other command presented in RUN waits, it has no step (R24, U14). -/
def execCommand (c : Command) (opa opb opc opd : Word) (s : State) : Result State :=
  match s.seq.mode with
  | .idle => .next (accept c.code opa opb opc opd s)
  | .run => if latchesHold s.seq c.code opa opb opc opd then runMicroOp c s else .next s

end Sys2Proof.Machine
end

