-- ==== Sys2Proof/Machine/Clause22.lean ====
section
/-! DEFINITION. Unit U3: C22_READ and C22_WRITE (42_mdio_c22.md R180, R181). -/

namespace Sys2Proof.Machine

/-- C22_READ (R25, R180). -/
def c22ReadCommand : Command where
  code := 0x10#32
  checks := [(.opa, .phyAddr), (.opb, .regIndex)]
  program := [.validate, .poll, .wrAcc (.latch .opb) .read, .poll, .rdData, .ret]
  clearsRes := false

/-- C22_WRITE (R25, R181). -/
def c22WriteCommand : Command where
  code := 0x11#32
  checks := [(.opa, .phyAddr), (.opb, .regIndex), (.opc, .data)]
  program := [.validate, .poll, .wrData ⟨.opc, false⟩, .wrAcc (.latch .opb) .write, .poll, .ret]
  clearsRes := true

/-- C22_READ (R180). -/
def execC22Read (phy reg : Word) (s : State) : Result State :=
  execCommand c22ReadCommand phy reg 0#32 0#32 s

/-- C22_WRITE (R181). -/
def execC22Write (phy reg data : Word) (s : State) : Result State :=
  execCommand c22WriteCommand phy reg data 0#32 s

end Sys2Proof.Machine
end

