-- ==== Sys2Proof/Machine/Clause45.lean ====
section
/-! DEFINITION. Unit U4: C45_READ and C45_WRITE (43_mdio_c45.md R200 to R207), four Clause-22 transactions each. -/

namespace Sys2Proof.Machine

/-- One Clause-22 write to a reserved index: POLL; WRDATA; WRACC; POLL (R201). -/
def selectStep (i : Field5) (e : Datum) : List MicroOp :=
  [.poll, .wrData e, .wrAcc (.const i) .write, .poll]

/-- Steps 1 to 3 of R200: `devad` to 0xD, the index to 0xE, `devad | 0x4000` to 0xD. -/
def addressSteps : List MicroOp :=
  selectStep mmdCtrlIdx ⟨.opb, false⟩ ++ selectStep mmdDataIdx ⟨.opc, false⟩ ++
    selectStep mmdCtrlIdx ⟨.opb, true⟩

/-- C45_READ (R25, R205). -/
def c45ReadCommand : Command where
  code := 0x12#32
  checks := [(.opa, .phyAddr), (.opb, .devad), (.opc, .c45Index)]
  program := [.validate] ++ addressSteps ++ [.poll, .wrAcc (.const mmdDataIdx) .read, .poll, .rdData, .ret]
  clearsRes := false

/-- C45_WRITE (R25, R206). -/
def c45WriteCommand : Command where
  code := 0x13#32
  checks := [(.opa, .phyAddr), (.opb, .devad), (.opc, .c45Index), (.opd, .data)]
  program := [.validate] ++ addressSteps ++ selectStep mmdDataIdx ⟨.opd, false⟩ ++ [.ret]
  clearsRes := true

/-- C45_READ (R205). -/
def execC45Read (phy dev idx : Word) (s : State) : Result State :=
  execCommand c45ReadCommand phy dev idx 0#32 s

/-- C45_WRITE (R206). -/
def execC45Write (phy dev idx data : Word) (s : State) : Result State :=
  execCommand c45WriteCommand phy dev idx data s

end Sys2Proof.Machine
end

