-- ==== Sys2Proof/Machine/Register.lean ====
section
/-! DEFINITION. Unit U1: REG_READ and REG_WRITE (40_register_ops.md R122, R123). -/

namespace Sys2Proof.Machine

/-- REG_READ: VALIDATE; RDREG; RET (R25, R122). -/
def regReadCommand : Command where
  code := 0x08#32
  checks := [(.opa, .regAddr)]
  program := [.validate, .rdReg, .ret]
  clearsRes := false

/-- REG_WRITE: VALIDATE; WRREG; RET (R25, R123). -/
def regWriteCommand : Command where
  code := 0x09#32
  checks := [(.opa, .regAddr)]
  program := [.validate, .wrReg, .ret]
  clearsRes := true

/-- REG_READ (R122). -/
def execRegRead (addr : Word) (s : State) : Result State :=
  execCommand regReadCommand addr 0#32 0#32 0#32 s

/-- REG_WRITE (R123). -/
def execRegWrite (addr value : Word) (s : State) : Result State :=
  execCommand regWriteCommand addr value 0#32 0#32 s

end Sys2Proof.Machine
end

