-- ==== Sys2Proof/Machine/Eeprom.lean ====
section
/-! DEFINITION. The EEPROM commands of the context file (45_client_context.md R280): a protocol of their client, built on
REG_READ and REG_WRITE only. The client polls the "command in progress" bit until clear, puts the byte of a write in the
EPC-data register, submits, and polls until clear again; each of these is a register command that the sequencer runs, with
its exceptions (R122, R123). What R281 leaves open is free (log 21, log 22). -/

namespace Sys2Proof.Machine

/-- The EPC command at the head of the port has come to a phase. -/
def setPhase (ph : EpcPhase) (s : State) : State := { s with env := { s.env with epcPhase := ph } }

/-- A REG_READ that an EPC command issues (R122). -/
def issueRead (a : RegAddr) (ph : EpcPhase) (s : State) : State :=
  setPhase ph (accept regReadCommand.code (a.setWidth 32) 0#32 0#32 0#32 s)

/-- A REG_WRITE that an EPC command issues (R123). -/
def issueWrite (a : RegAddr) (v : Word) (ph : EpcPhase) (s : State) : State :=
  setPhase ph (accept regWriteCommand.code (a.setWidth 32) v 0#32 0#32 s)

/-- The "command in progress" bit of the REG_READ that has ended (R280). -/
def epcReadBusy (s : State) : Bool := s.seq.res.getLsbD epcBusyBit

/-- What follows the register command that an EPC command has issued last (R280). One that has failed ends the EPC command,
its exception in STATUS, INFO and RES (R312). -/
def epcContinue (code : BitVec 3) (a : BitVec 9) (byte : Option Byte) (s : State) : State :=
  match s.env.epcPhase with
  | .start => issueRead epcCommandAddr .polling s
  | .polling =>
    if s.seq.status ≠ 0#32 then setPhase .start s
    else if epcReadBusy s then issueRead epcCommandAddr .polling s
    else match byte with
      | some d => issueWrite epcDataAddr (d.setWidth 32) .data s
      | none => issueWrite epcCommandAddr (epcRegisterWord code a) .submitted s
  | .data =>
    if s.seq.status ≠ 0#32 then setPhase .start s
    else issueWrite epcCommandAddr (epcRegisterWord code a) .submitted s
  | .submitted =>
    if s.seq.status ≠ 0#32 then setPhase .start s else issueRead epcCommandAddr .settling s
  | .settling =>
    if s.seq.status = 0#32 ∧ epcReadBusy s then issueRead epcCommandAddr .settling s else setPhase .start s

/-- An EPC command: in IDLE it goes on; while a register command runs it waits (R24, log 29). -/
def epcCommand (code : BitVec 3) (a : BitVec 9) (byte : Option Byte) (s : State) : Result State :=
  match s.seq.mode with
  | .idle => .next (epcContinue code a byte s)
  | .run => .next s

/-- EPC_READ (R280): at its end the byte is in the EPC-data register. -/
def execEpcRead (addr : BitVec 9) (s : State) : Result State := epcCommand 0b000#3 addr none s
/-- EPC_EWDS (R280). -/
def execEpcEwds (s : State) : Result State := epcCommand 0b001#3 (Config.epcFreeAddr 0b001#3) none s
/-- EPC_EWEN (R280). -/
def execEpcEwen (s : State) : Result State := epcCommand 0b010#3 (Config.epcFreeAddr 0b010#3) none s
/-- EPC_WRITE (R280). -/
def execEpcWrite (addr : BitVec 9) (data : Byte) (s : State) : Result State := epcCommand 0b011#3 addr (some data) s
/-- EPC_ERASE_ALL (R280). -/
def execEpcEraseAll (s : State) : Result State := epcCommand 0b110#3 (Config.epcFreeAddr 0b110#3) none s

/-- The instruction of an EEPROM command. -/
def epcInstr : EpcOp → Instr
  | .read a => .epcRead a
  | .writeDisable => .epcEwds
  | .writeEnable => .epcEwen
  | .write a d => .epcWrite a d
  | .eraseAll => .epcEraseAll

end Sys2Proof.Machine
end

