-- ==== Sys2Proof/Machine/Frame.lean ====
section
/-! DEFINITION. Unit U5, pin level: the serial frame engine and the PHY's reception of a frame, in half-clock steps
(44_mdio_master_and_phy.md R230 to R241), and the meanings of FRAME_READ and FRAME_WRITE. -/

namespace Sys2Proof.Machine

/-! ### The data wire (R230) -/

/-- `MDIO_I`: what the master drives, else what the one driving PHY drives, else 1 (R230). -/
def lineLevel (w : Wire) : Bool :=
  if w.mdioOE then w.mdioO
  else if w.phyOE = 0#32 then true
  else (w.phyO &&& w.phyOE) != 0#32

/-- The bit of PHY q in PHY_OE and PHY_O. -/
def phyBit (q : Field5) : BitVec 32 := BitVec.twoPow 32 q.toNat

/-! ### The PHY's side (R241) -/

/-- At the falling edge that begins slot 47, 47 levels have been sampled: the start and operation slots. -/
def rxStartOp (rx : BitVec 64) : BitVec 4 := rx.extractLsb' 11 4
/-- The PHYAD slots, with 47 levels sampled. -/
def rxPhyad (rx : BitVec 64) : Field5 := rx.extractLsb' 6 5
/-- The REGAD slots, with 47 levels sampled. -/
def rxRegad (rx : BitVec 64) : Field5 := rx.extractLsb' 1 5

/-- The beginning of slot 47: in a read frame the addressed PHY evaluates `v = PhyRead(q, REGAD)` once and drives 0
(R241). -/
def phyTurnaround (s : State) : Result State :=
  let q := rxPhyad s.wire.rx
  if rxStartOp s.wire.rx = 0b0110#4 ∧ q ∈ s.cfg.phyPresent then
    andThen (phyRead q (rxRegad s.wire.rx) s) fun (v, t) =>
      .next { t with wire := { t.wire with phyTx := v, phyOE := phyBit q, phyO := 0#32 } }
  else .next s

/-- The addressed PHY's bit of a data slot of a read frame, `v[63 - s]` (R241). -/
def phyDataBit (slot : Nat) (w : Wire) : Wire :=
  { w with phyO := if w.phyTx.getLsbD (63 - slot) then w.phyOE else 0#32 }

/-- The addressed PHY applies its bit of the slot that begins (R233, R241). -/
def phyApply (slot : Nat) (s : State) : Result State :=
  if slot = 47 then phyTurnaround s
  else if 48 ≤ slot then .next { s with wire := phyDataBit slot s.wire }
  else .next s

/-- The rising edge of slot 63: a PHY that has received a write frame with its address stores the datum (R241). -/
def phyStore (s : State) : Result State :=
  match decodeFrame s.wire.rx with
  | .ok (.frameWrite q r d) => phyWrite q r d s
  | _ => .next s

/-! ### The master's side (R233 to R235) -/

/-- The wire after the rising edge of the running slot: every listener has sampled MDIO_I (R233, R234, R241). -/
def sampleWire (rw : Rw) (w : Wire) : Wire :=
  let line := lineLevel w
  let n := w.slot.toNat
  { w with
    mdc := true
    phase := .high
    rx := (w.rx <<< 1) ||| (BitVec.ofBool line).setWidth 64
    taOk := if rw = .read ∧ n = 47 then !line else w.taOk
    shift := if rw = .read ∧ 48 ≤ n then (w.shift <<< 1) ||| (BitVec.ofBool line).setWidth 16 else w.shift }

/-- The rising edge (R233). -/
def risingEdge (rw : Rw) (s : State) : Result State :=
  let t := { s with wire := sampleWire rw s.wire }
  if s.wire.slot = 63#6 then phyStore t else .next t

/-- The falling edge of slot 63: the end of the frame (R235). -/
def frameEnd (rw : Rw) (s : State) : State :=
  match rw with
  | .read => freeEngine (loadDatum s.wire.shift s)
  | .write => freeEngine s

/-- The falling edge (R233). -/
def fallingEdge (rw : Rw) (p r : Field5) (wdata : Half) (s : State) : Result State :=
  if s.wire.slot = 63#6 then .next (frameEnd rw s)
  else
    let slot := s.wire.slot + 1#6
    let w := { s.wire with mdc := false, phase := .low, slot := slot }
    phyApply slot.toNat { s with wire := applyMaster (masterBit rw p r wdata slot.toNat) w }

/-- One half clock period of the frame of an in-flight record (R233). -/
def halfClock (rw : Rw) (p r : Field5) (wdata : Half) (s : State) : Result State :=
  match s.wire.phase with
  | .low => risingEdge rw s
  | .high => fallingEdge rw p r wdata s

/-- One step of the engine for its record in flight: the completion (R226), or at pin level one half clock (R233,
R238). -/
def engineMove (s : State) : Result State :=
  if s.cfg.pins then
    match s.mac.eng with
    | .free => .next s
    | .inflight rw p r wdata => halfClock rw p r wdata s
  else engineComplete s

/-! ### FRAME_READ and FRAME_WRITE -/

/-- FRAME_READ: while its record is in flight, one half clock period of the frame (R233); on a free engine, the launch
of its transaction through MII_ACC (R61; DESIGN CHOICE, log 10); while another frame is on the wire it waits. -/
def execFrameRead (phyad regad : Field5) (s : State) : Result State :=
  match s.mac.eng with
  | .free => startRead phyad regad s
  | .inflight .read p r wdata =>
    if p = phyad ∧ r = regad then halfClock .read phyad regad wdata s else .next s
  | .inflight .write _ _ _ => .next s

/-- FRAME_WRITE: as FRAME_READ; its datum passes through MII_DATA (R32, R61, R232). -/
def execFrameWrite (phyad regad : Field5) (data : Half) (s : State) : Result State :=
  match s.mac.eng with
  | .free => startWrite phyad regad data s
  | .inflight .write p r wdata =>
    if p = phyad ∧ r = regad ∧ wdata = data then halfClock .write phyad regad data s else .next s
  | .inflight .read _ _ _ => .next s

/-- The frame of an in-flight record (R232). -/
def frameOf : Rw → Field5 → Field5 → Half → Instr
  | .read, p, r, _ => .frameRead p r
  | .write, p, r, wdata => .frameWrite p r wdata

end Sys2Proof.Machine
end

