-- ==== Sys2Proof/Machine/Master.lean ====
section
/-! DEFINITION. Unit U5, register level: MII_READ and MII_WRITE, the access words (44_mdio_master_and_phy.md R223). -/

namespace Sys2Proof.Machine

/-- MII_READ: a write of its access word to MII_ACC (R223). -/
def execMiiRead (phyad regad : Field5) (s : State) : Result State :=
  accWrite (accWord phyad regad s.cfg.readOpcode) s

/-- MII_WRITE: a write of its access word to MII_ACC (R223). -/
def execMiiWrite (phyad regad : Field5) (s : State) : Result State :=
  accWrite (accWord phyad regad s.cfg.writeOpcode) s

end Sys2Proof.Machine
end

