-- ==== Sys2Proof/Machine/Phy.lean ====
section
/-! DEFINITION. The PHY's address-select register: MMD_ADDR and MMD_DATA, the datum of a Clause-22 write to index 0xD
(44_mdio_master_and_phy.md R244). A PHY is reached only through the bus and is passive (R61, R240): the register changes in
the engine's step that completes the write. -/

namespace Sys2Proof.Machine

/-- An address-select word (R94, R244). On a free engine it is presented by itself: a Clause-22 write of it to index 0xD
of the PHY at PHY_ADDR is started (DESIGN CHOICE, log 18). While a write of it to index 0xD of any PHY is in flight, the
engine moves that transaction, whose completion is `PhyWrite(p, 0xD, v)` (R226, R244). While another transaction is in
flight it waits. -/
def selectCommand (v : Half) (s : State) : Result State :=
  match s.mac.eng with
  | .free => startWrite s.cfg.phyAddr mmdCtrlIdx v s
  | .inflight .write _ r wdata => if r = mmdCtrlIdx ∧ wdata = v then engineMove s else .next s
  | .inflight .read _ _ _ => .next s

/-- MMD_ADDR: the word `devad`, set-address mode (R244). -/
def execMmdAddr (devad : Field5) (s : State) : Result State := selectCommand (mmdWord false devad) s

/-- MMD_DATA: the word `devad | 0x4000`, access-data mode (R244). -/
def execMmdData (devad : Field5) (s : State) : Result State := selectCommand (mmdWord true devad) s

end Sys2Proof.Machine
end

