-- ==== Sys2Proof/Machine/Dispatch.lean ====
section
/-! DEFINITION. One arm per instruction. -/

namespace Sys2Proof.Machine

def exec (i : Instr) (s : State) : Host.Outcome State Fault Refusal :=
  match i with
  | .regRead addr => Sys2Proof.Machine.execRegRead addr s
  | .regWrite addr value => Sys2Proof.Machine.execRegWrite addr value s
  | .c22Read phy reg => Sys2Proof.Machine.execC22Read phy reg s
  | .c22Write phy reg data => Sys2Proof.Machine.execC22Write phy reg data s
  | .c45Read phy dev idx => Sys2Proof.Machine.execC45Read phy dev idx s
  | .c45Write phy dev idx data => Sys2Proof.Machine.execC45Write phy dev idx data s
  | .miiRead phyad regad => Sys2Proof.Machine.execMiiRead phyad regad s
  | .miiWrite phyad regad => Sys2Proof.Machine.execMiiWrite phyad regad s
  | .mmdAddr devad => Sys2Proof.Machine.execMmdAddr devad s
  | .mmdData devad => Sys2Proof.Machine.execMmdData devad s
  | .drvRead selector ifindex addr => Sys2Proof.Machine.execDrvRead selector ifindex addr s
  | .drvWrite selector ifindex addr value => Sys2Proof.Machine.execDrvWrite selector ifindex addr value s
  | .frameRead phyad regad => Sys2Proof.Machine.execFrameRead phyad regad s
  | .frameWrite phyad regad data => Sys2Proof.Machine.execFrameWrite phyad regad data s
  | .epcRead addr => Sys2Proof.Machine.execEpcRead addr s
  | .epcEwds => Sys2Proof.Machine.execEpcEwds s
  | .epcEwen => Sys2Proof.Machine.execEpcEwen s
  | .epcWrite addr data => Sys2Proof.Machine.execEpcWrite addr data s
  | .epcEraseAll => Sys2Proof.Machine.execEpcEraseAll s

end Sys2Proof.Machine
end

