-- ==== Sys2Proof/Machine/Fetch.lean ====
section
/-! DEFINITION. The turns of the agents (00_scope.md R6, 20_memory.md R74, R75): who moves next, what the client
presents and when it has to wait, the running command, the MDIO engine's move. -/

namespace Sys2Proof.Machine

/-- Who moves next, and the state with that choice spent: the script's, else a free one (R75, log 5). -/
def takeTurn (s : State) : Agent × State :=
  match s.env.turns with
  | a :: rest => (a, { s with env := { s.env with turns := rest } })
  | [] => (Config.freeAgent s.env.tick, advance s)

/-- The head of the port has been taken. -/
def popPort (s : State) : State := { s with env := { s.env with port := s.env.port.tail } }

/-! ### The client's move -/

/-- Whether the unit an instruction is for has no step for it now: the sequencer, the serializer and the registers of the
EEPROM, which are reached by register commands (R280), while a command holds LOCK (R24, U14); the engine while a
transaction is in flight (log 10). A request buffer does not wait for its Transport to be in use (log 19). -/
def mustWait (i : Instr) (s : State) : Bool :=
  match i with
  | .regRead _ => s.seq.mode == .run
  | .regWrite _ _ => s.seq.mode == .run
  | .c22Read _ _ => s.seq.mode == .run
  | .c22Write _ _ _ => s.seq.mode == .run
  | .c45Read _ _ _ => s.seq.mode == .run
  | .c45Write _ _ _ _ => s.seq.mode == .run
  | .miiRead _ _ => false
  | .miiWrite _ _ => false
  | .mmdAddr _ => engBusy s.mac.eng
  | .mmdData _ => engBusy s.mac.eng
  | .drvRead _ _ _ => s.seq.mode == .run
  | .drvWrite _ _ _ _ => s.seq.mode == .run
  | .frameRead _ _ => engBusy s.mac.eng
  | .frameWrite _ _ _ => engBusy s.mac.eng
  | .epcRead _ => s.seq.mode == .run
  | .epcEwds => s.seq.mode == .run
  | .epcEwen => s.seq.mode == .run
  | .epcWrite _ _ => s.seq.mode == .run
  | .epcEraseAll => s.seq.mode == .run

/-- The instruction is a driver request. -/
def isDriverRequest : Instr → Bool
  | .drvRead _ _ _ => true
  | .drvWrite _ _ _ _ => true
  | _ => false

/-- The instruction is an EPC command. -/
def isEpcCommand : Instr → Bool
  | .epcRead _ => true
  | .epcEwds => true
  | .epcEwen => true
  | .epcWrite _ _ => true
  | .epcEraseAll => true
  | _ => false

/-- The instruction just executed is not over: a driver request answered busy is exchanged again (R148), an EPC command
goes on until its poll after submission finds the bit clear (R280). -/
def staysAtPort (i : Instr) (t : State) : Bool :=
  (isDriverRequest i && t.ser.pending) || (isEpcCommand i && t.env.epcPhase != .start)

/-- After an instruction has been executed: it leaves the port where it is over. -/
def retire (i : Instr) (t : State) : State := if staysAtPort i t then t else popPort t

/-- The exception of a frame that is no command (R101, R302); a frame is rejected for no other reason. -/
def frameExc : Reject → Exc
  | .unknownCommand code => excUnknownCommand code
  | .badFrameLength n => excBadFrameLength n
  | _ => excUnknownCommand 0#32

/-- What happens to a presented item that holds no instruction. A frame is answered with ValidationError before any
I/O (R101, R311); a word written to MII_ACC is U1 or U3; an address-select word with reserved bits is written like any
other (U5); the rest has no rule. -/
def presentRejected (e : Encoded) (r : Reject) (s : State) : Result State :=
  match e with
  | .cmd ws =>
    .next (raise (frameExc r)
      (accept (ws.getD 0 0#32) (ws.getD 1 0#32) (ws.getD 2 0#32) (ws.getD 3 0#32) (ws.getD 4 0#32) s))
  | .acc w => accWrite w s
  | .mmd v => selectCommand v s
  | .drv _ => .refused .malformedRequest
  | .frame w => .refused (.malformedFrame w)
  | .epc w => .refused (.reservedEpcWord w)

/-- Whether such an item waits: a frame while a command runs (R24, U14), an address-select word while a transaction is in
flight (log 10). -/
def rejectedWaits (e : Encoded) (s : State) : Bool :=
  match e with
  | .cmd _ => s.seq.mode == .run
  | .acc _ => false
  | .mmd _ => engBusy s.mac.eng
  | .drv _ => false
  | .frame _ => false
  | .epc _ => false

/-- The client presents the head of its port. -/
def clientTurn (s : State) : Result State :=
  match s.env.port with
  | [] => .next s
  | e :: _ =>
    match decode s.cfg e with
    | .ok i => if mustWait i s then .next s else andThen (exec i s) fun t => .next (retire i t)
    | .error r =>
      if rejectedWaits e s then .next s else andThen (presentRejected e r s) fun t => .next (popPort t)

/-! ### The other agents -/

/-- The command the latches hold (R22, R24). -/
def runningInstr (s : State) : Except Reject Instr := decodeCmd (latchedFrame s.seq)

/-- The sequencer's move: in RUN, the micro-operation at UPC of the command the latches hold (R25); in IDLE nothing.
A code that is none of the six is answered as VALIDATE answers it (R101, log 26). -/
def sequencerTurn (s : State) : Result State :=
  match s.seq.mode with
  | .idle => .next s
  | .run =>
    match runningInstr s with
    | .ok i => exec i s
    | .error _ => .next (raise (excUnknownCommand s.seq.cmd) s)

/-- The instruction that the engine's move for its record in flight is: at pin level its frame (R233); in one step, for
a write of an address-select word to index 0xD, that word (R244), and for any other the completion alone (R226). -/
def engineInstr (s : State) : Option Instr :=
  match s.mac.eng with
  | .free => none
  | .inflight rw p r wdata =>
    if s.cfg.pins then some (frameOf rw p r wdata)
    else if rw = .write ∧ r = mmdCtrlIdx then
      match decodeMmd wdata with
      | .ok i => some i
      | .error _ => none
    else none

/-- The MDIO engine's move: completion in one step (R226), or one half clock of the frame (R233). -/
def engineTurn (s : State) : Result State :=
  match engineInstr s with
  | some i => exec i s
  | none => engineMove s

/-- The move of an agent. -/
def agentTurn (a : Agent) (s : State) : Result State :=
  match a with
  | .client => clientTurn s
  | .sequencer => sequencerTurn s
  | .engine => engineTurn s

/-- The serializer as the client's next item meets it: what an item before it, answered busy, has left is forgotten,
since U2 keeps nothing between operations (R151). The operation of a running command goes on. -/
def forgetRequest (s : State) : Ser :=
  match s.seq.mode with
  | .idle => { s.ser with pending := false }
  | .run => s.ser

/-- The state with an item at the head of the port and the client to move. DESIGN CHOICE (log 9): an item that was under
way, a driver request answered busy or an EPC command between its polls, begins anew after it. -/
def presentNext (e : Encoded) (s : State) : State :=
  { s with
    ser := forgetRequest s
    env := { s.env with port := e :: s.env.port, turns := .client :: s.env.turns, epcPhase := .start } }

end Sys2Proof.Machine
end

