-- ==== Sys2Proof/Machine/Step.lean ====
section
/-! DEFINITION. One step of the machine: the move of the agent whose turn it is (R6, R74, R75). -/

namespace Sys2Proof.Machine

/-- One step. -/
def step (s : State) : Host.Outcome State Fault Refusal :=
  agentTurn (takeTurn s).1 (takeTurn s).2

/-- The state whose very next step runs the instruction of a table word: the word stands at the head of the client's
port, in the carrier of its format, and it is the client's turn (log 9). -/
def State.withFetchWord (s : State) (nbits w : Nat) : State :=
  presentNext (tableEncoded nbits w) s

end Sys2Proof.Machine
end

