-- ==== Sys2Proof/Machine/Client.lean ====
section
/-! DEFINITION. The client operations of 45_client_context.md that the source settles, as the expansions of
30_encoding.md R104: outside the block (R5), they add no state to it. Each is a choice of the block's commands and the
arithmetic on their results. -/

namespace Sys2Proof.Machine

/-- PHY_GET `d, r` (R104, R270). -/
def phyGet (c : Config) (d r : Word) : Instr := .c45Read (c.phyAddr.setWidth 32) d r

/-- PHY_SET `d, r, v` (R104, R270). -/
def phySet (c : Config) (d r : Word) (v : Half) : Instr :=
  .c45Write (c.phyAddr.setWidth 32) d r (v.setWidth 32)

/-- The check of PHY_EDIT before any command: the masks may not share a bit (R271). -/
def editCheck (setMask clearMask : Half) : Except Exc Unit :=
  if setMask &&& clearMask ≠ 0#16 then .error (excMaskConflict (setMask &&& clearMask)) else .ok ()

/-- `(old & ~clear_mask) | set_mask` at 16 bits (R271). -/
def editValue (old setMask clearMask : Half) : Half := (old &&& ~~~clearMask) ||| setMask

/-- The second command of PHY_EDIT, once `old` has been read: a write only if something changes (R271). -/
def editWrite (c : Config) (d r : Word) (old setMask clearMask : Half) : Option Instr :=
  if editValue old setMask clearMask ≠ old then some (phySet c d r (editValue old setMask clearMask)) else none

/-- A read-modify-write that its client has begun (R271): the PHY of its configuration, the register and the masks. -/
structure Edit where
  config : Config
  devad : Word
  index : Word
  setMask : Half
  clearMask : Half
deriving DecidableEq, Repr

/-- Its first command, the read (R271). -/
def editGet (e : Edit) : Instr := phyGet e.config e.devad e.index

/-- Its second command, once `old` has been read: a write only if something changes (R271). -/
def editSet (e : Edit) (old : Half) : Option Instr := editWrite e.config e.devad e.index old e.setMask e.clearMask

/-- The value it returns (R271). -/
def editResult (e : Edit) (old : Half) : Half := editValue old e.setMask e.clearMask

/-- PHY_EDIT `d, r, set, clear` (R104, R271): the masks are checked before any command. -/
def phyEdit (c : Config) (d r : Word) (setMask clearMask : Half) : Except Exc Edit :=
  match editCheck setMask clearMask with
  | .error e => .error e
  | .ok () => .ok { config := c, devad := d, index := r, setMask := setMask, clearMask := clearMask }

/-- The set and clear masks of PHY_RESET on (devad 1, 0x0000) (R272). -/
def resetMasks (enable : Bool) : Half × Half :=
  if enable then (0x8000#16, 0#16) else (0#16, 0x8000#16)

/-- PHY_RESET `en` (R104, R272). -/
def phyReset (c : Config) (enable : Bool) : Except Exc Edit :=
  phyEdit c 1#32 0x0000#32 (resetMasks enable).1 (resetMasks enable).2

/-- The set and clear masks of PHY_SET_SPEED on (devad 1, 0x0000) (R273). -/
def speedMasks (speed : Nat) : Except Exc (Half × Half) :=
  if speed = 1000 then .ok (0x2000#16, 0x0040#16)
  else if speed = 100 then .ok (0x0040#16, 0x2000#16)
  else .error excSpeed

/-- PHY_SET_SPEED (R104, R273): a speed that is neither is rejected before any command. -/
def phySetSpeed (c : Config) (speed : Nat) : Except Exc Edit :=
  match speedMasks speed with
  | .error e => .error e
  | .ok m => phyEdit c 1#32 0x0000#32 m.1 m.2

/-- The set and clear masks of PHY_SET_MASTER on (devad 1, 0x0834) (R274). -/
def masterMasks (master : Bool) : Half × Half :=
  if master then (0x4000#16, 0#16) else (0#16, 0x4000#16)

/-- PHY_SET_MASTER `m` (R104, R274). -/
def phySetMaster (c : Config) (master : Bool) : Except Exc Edit :=
  phyEdit c 1#32 0x0834#32 (masterMasks master).1 (masterMasks master).2

/-- The command of `get_speed`, whose result `classifySpeed` classifies (R276). -/
def phyGetSpeed (c : Config) : Instr := phyGet c 1#32 0x0000#32

/-- The command of `get_master`, whose result `classifyMaster` classifies (R277). -/
def phyGetMaster (c : Config) : Instr := phyGet c 1#32 0x0834#32

/-- `get_speed` of the control register (R276): `none` is "unknown". -/
def classifySpeed (c : Half) : Option Nat :=
  if c &&& 0x2040#16 = 0x2000#16 then some 1000
  else if c &&& 0x2040#16 = 0x0040#16 then some 100
  else none

/-- `get_master` of the BASE-T1 control register (R277). -/
def classifyMaster (c : Half) : Bool := c &&& 0x4000#16 != 0#16

/-- `eeprom_read(a)`: the command, then the byte from the EPC-data register (R280). That the register is read after the
command is the model's order (R281; DESIGN CHOICE, log 22). -/
def eepromRead (a : BitVec 9) : List Instr := [.epcRead a, .regRead (epcDataAddr.setWidth 32)]

/-- `eeprom_write(a, d)`: the write in its bracket of write-enable and write-disable (R280). -/
def eepromWrite (a : BitVec 9) (d : Byte) : List Instr := [.epcEwen, .epcWrite a d, .epcEwds]

/-- `eeprom_erase_all` (R280), without a bracket: whether it needs one is not in the source (R281; DESIGN CHOICE,
log 28). -/
def eepromEraseAll : List Instr := [.epcEraseAll]

/-- The commands of the identification check (R285). -/
def identifyCommands (c : Config) : List Instr := [.regRead 0x000#32, phyGet c 1#32 0x0002#32]

/-- The identification check on the two identifier registers (R285). -/
def identify (macId : Word) (phyId : Half) : Except Exc Unit :=
  if macId.extractLsb' 16 16 = macFamilyCode ∧ phyId = phyIdCode then .ok () else .error excIdentification

/-- The halves of a MAC address, octets in text order (R287). -/
def macAddressHalves (octets : List Byte) : Except Exc (Half × Word) :=
  match octets with
  | [a, b, c, d, e, f] => .ok ((a ++ b : BitVec (8 + 8)), (c ++ d ++ e ++ f : BitVec (8 + 8 + 8 + 8)))
  | _ => .error excMacAddressText

end Sys2Proof.Machine
end

