-- ==== Sys2Proof/Safety.lean ====
section
/-! DEFINITION. What a good state and a safe step are, in the terms the statements use: the invariants of the spec's
state rules, the poll discipline of 42_mdio_c22.md R171 and 70_reset_and_hazards.md R350, and the end of a run (R352). -/

namespace Sys2Proof.Machine

/-- `LOCK` is 1 exactly while `MODE = RUN` (R26). -/
abbrev lockFollowsMode (s : State) : Prop := s.seq.lock = lockOf s.seq.mode

/-- `MII_ACC[0] = 1` if and only if `ENG != free` (R31). -/
abbrev busyFollowsEngine (s : State) : Prop := s.mac.miiAcc.getLsbD 0 = engBusy s.mac.eng

/-- Every register space is in its canonical form (log 25). -/
abbrev memoriesWellFormed (s : State) : Prop :=
  Memory.wf 0x1000 s.mac.regs = true ∧ Memory.wf 0x400 s.phys.c22 = true ∧ Memory.wf 0x400 s.phys.mmdAddr = true ∧
  Memory.wf 0x4000000 s.phys.c45 = true ∧ Memory.wf 0x200 s.eeprom.cells = true

/-- The idle levels of the pins while ENG is free (R231). -/
abbrev idlePins (s : State) : Prop :=
  s.mac.eng = .free → s.wire.mdc = false ∧ s.wire.mdioOE = false ∧ s.wire.phyOE = 0#32

/-- The command of a code (R91). -/
def commandOf (code : Word) : Option Command :=
  if code = 0x08#32 then some regReadCommand
  else if code = 0x09#32 then some regWriteCommand
  else if code = 0x10#32 then some c22ReadCommand
  else if code = 0x11#32 then some c22WriteCommand
  else if code = 0x12#32 then some c45ReadCommand
  else if code = 0x13#32 then some c45WriteCommand
  else none

/-- The command of an instruction that is one (R91). -/
def commandOfInstr : Instr → Option Command
  | .regRead _ => some regReadCommand
  | .regWrite _ _ => some regWriteCommand
  | .c22Read _ _ => some c22ReadCommand
  | .c22Write _ _ _ => some c22WriteCommand
  | .c45Read _ _ _ => some c45ReadCommand
  | .c45Write _ _ _ _ => some c45WriteCommand
  | _ => none

/-- The micro-operation about to be executed (R25): of the command in CMD, at UPC, while MODE is RUN. -/
def currentMicroOp (s : State) : Option MicroOp :=
  match s.seq.mode with
  | .idle => none
  | .run => (commandOf s.seq.cmd).bind fun c => c.program[s.seq.upc.toNat]?

/-- The latches a command does not use hold 0 (R22). -/
abbrev unusedLatchesZero (q : Seq) : Prop :=
  (q.cmd = 0x08#32 → q.opb = 0#32 ∧ q.opc = 0#32 ∧ q.opd = 0#32) ∧
  (q.cmd = 0x09#32 ∨ q.cmd = 0x10#32 → q.opc = 0#32 ∧ q.opd = 0#32) ∧
  (q.cmd = 0x11#32 ∨ q.cmd = 0x12#32 → q.opd = 0#32)

/-- While MODE is RUN, CMD holds a command code, unused latches hold 0 and UPC is an index of its micro-program
(R22, R25). -/
abbrev runningIsCommand (s : State) : Prop :=
  s.seq.mode = .run → (currentMicroOp s).isSome = true ∧ unusedLatchesZero s.seq

/-- POLLCNT stays below POLL_LIMIT, and RETRY below DRV_RETRY_LIMIT while an operation goes on (R99). -/
abbrev countersBounded (s : State) : Prop :=
  (∀ n, s.cfg.pollLimit = some n → s.seq.pollCnt < n) ∧ (s.ser.pending = true → s.ser.retry < s.cfg.retryLimit)

/-- The invariant of the machine. -/
structure Inv (s : State) : Prop where
  config : s.cfg.wf
  lock : lockFollowsMode s
  busy : busyFollowsEngine s
  memories : memoriesWellFormed s
  pins : idlePins s
  running : runningIsCommand s
  counters : countersBounded s

/-- The item is a command frame that does not address the MII registers with a REG_WRITE, or reaches neither register
at all: no agent but the sequencer writes the MII registers (R204, U1). -/
def leavesMiiToSequencer : Encoded → Bool
  | .cmd ws =>
    match decodeCmd ws with
    | .ok (.regWrite a _) => a.setWidth 12 != miiAccAddr && a.setWidth 12 != miiDataAddr
    | _ => true
  | .acc _ => false
  | .mmd _ => false
  | .drv _ => false
  | .frame _ => false
  | .epc _ => true

/-- The poll discipline over the USB Transport: only the sequencer writes the MII registers, and where it is about to
write one of them ENG is free (R171, R175, R350 Z1). -/
structure Disciplined (s : State) : Prop where
  config : s.cfg.wf
  usb : s.cfg.transport = .usb
  items : ∀ e ∈ s.env.port, leavesMiiToSequencer e = true
  running : runningIsCommand s
  latchedWrite : s.seq.mode = .run → s.seq.cmd = 0x09#32 →
    s.seq.opa.setWidth 12 ≠ miiAccAddr ∧ s.seq.opa.setWidth 12 ≠ miiDataAddr
  dataAfterPoll : ∀ e, currentMicroOp s = some (.wrData e) → s.mac.eng = .free
  accessAfterPoll : ∀ r rw, currentMicroOp s = some (.wrAcc r rw) → s.mac.eng = .free

/-! ### Terms of the statements -/

/-- The sequencer runs instruction `i` and is about to execute `op` of it (R24, R25). -/
structure AtMicroOp (i : Instr) (op : MicroOp) (s : State) : Prop where
  mode : s.seq.mode = .run
  latched : runningInstr s = .ok i
  unused : unusedLatchesZero s.seq
  current : currentMicroOp s = some op

/-- The next Transport operation, or the next exchange of the one in progress, is performed by the device and answered
with success. -/
def transportPerforms (s : State) : Bool :=
  match s.cfg.transport with
  | .usb => s.env.usbAnswers.head? == some .performs
  | .driver =>
    match s.env.driverAnswers with
    | .performs _ :: _ => true
    | _ => false

/-- The next n Transport operations are performed by the device, each answered with success at once. -/
def transportPerformsNext (n : Nat) (s : State) : Prop :=
  match s.cfg.transport with
  | .usb => ∃ rest, s.env.usbAnswers = List.replicate n .performs ++ rest
  | .driver => ∃ (headers : List (BitVec 64)) (rest : List DriverAnswer),
      headers.length = n ∧ s.env.driverAnswers = headers.map DriverAnswer.performs ++ rest

/-- Everything but the sequencer, the serializer's counter, the spent answers and the draws is the same. -/
structure SameDevice (s t : State) : Prop where
  mac : t.mac = s.mac
  wire : t.wire = s.wire
  phys : t.phys = s.phys
  eeprom : t.eeprom = s.eeprom
  cfg : t.cfg = s.cfg
  port : t.env.port = s.env.port
  turns : t.env.turns = s.env.turns
  driverReturn : t.env.driverReturn = s.env.driverReturn
  epcPhase : t.env.epcPhase = s.env.epcPhase

/-- The parts no access to the MAC's own registers touches are the same: the PHYs, the EEPROM, the configuration, what
the client presents and the schedule. -/
structure SameBeyondMac (s t : State) : Prop where
  phys : t.phys = s.phys
  eeprom : t.eeprom = s.eeprom
  cfg : t.cfg = s.cfg
  port : t.env.port = s.env.port
  turns : t.env.turns = s.env.turns
  driverReturn : t.env.driverReturn = s.env.driverReturn
  epcPhase : t.env.epcPhase = s.env.epcPhase

/-- `n` executions of one instruction. -/
def execTimes (i : Instr) (n : Nat) (s : State) : Result State :=
  match n with
  | 0 => .next s
  | k + 1 => andThen (exec i s) (execTimes i k)

/-- A frame has just been started for the in-flight record (R233). -/
structure FrameStarted (rw : Rw) (p r : Field5) (wdata : Half) (s : State) : Prop where
  eng : s.mac.eng = .inflight rw p r wdata
  wire : s.wire = startWire rw p r wdata s.wire

/-- A run is over: no further command, `MODE = IDLE`, `ENG = free` (R352). -/
abbrev runOver (s : State) : Prop := s.env.port = [] ∧ s.seq.mode = .idle ∧ s.mac.eng = .free

/-- No fault of the run in one step (U1, U2). -/
def stepFaultFree (s : State) : Prop := ∀ r, step s ≠ .fault r

end Sys2Proof.Machine
end

