-- ==== Sys2Proof/Certificates/Slice0/Obligations.lean ====
section
/-! DEFINITION. The statements about the machine. `SameDevice`, `SameBeyondMac`, `AtMicroOp`, `transportPerforms`,
`execTimes` and the invariants are defined in Sys2Proof/Safety.lean. -/

open Sys2Proof Sys2Proof.Machine

/-! ### Encodings -/

/-- Decoding an encoded well-formed instruction gives it back, for every legal configuration (R91 to R97). -/
def Obligations.DecodeInvertsEncode : Prop :=
  ∀ (c : Config) (i : Instr), c.wf → wellFormed i = true → decode c (encode c i) = .ok i

/-- An item with the bits that the encoder chooses as it chooses them: the last 18 slots of a read frame, which the master
does not drive (R97, R230), and the bits of an EPC word that are no operand of its command (log 21). -/
def canonicalItem (i : Instr) (e : Encoded) : Encoded :=
  match e with
  | .frame w => match i with
    | .frameRead _ _ => .frame (w ||| 0x3FFFF#64)
    | _ => e
  | .epc w => match i with
    | .epcRead _ => .epc (w &&& 0x0001FF07#32)
    | .epcWrite _ _ => .epc (w &&& 0xFF01FF07#32)
    | _ => .epc (w &&& 7#32)
  | _ => e

/-- An item that decodes to an instruction is that instruction's encoding, up to the bits that the encoder chooses
(R91 to R97; the bits of an EPC word are the model's, log 21). -/
def Obligations.EncodeInvertsDecode : Prop :=
  ∀ (c : Config) (e : Encoded) (i : Instr), decode c e = .ok i → encode c i = canonicalItem i e

/-- Words written out from the encodings decode to their instructions (R91, R92, R94, R95, R97). The word of
EPC_ERASE_ALL has the code of R280 at a place of the model's choice (log 21): R281 says that it is not in the source. -/
def Obligations.WrittenWordsDecode : Prop :=
  decode Config.default (.cmd [0x13#32, 1#32, 1#32, 0x834#32, 0x4000#32]) =
    .ok (.c45Write 1#32 1#32 0x834#32 0x4000#32) ∧
  decode Config.default (.acc 0x00000B43#32) = .ok (.miiWrite 1#5 0xD#5) ∧
  decode Config.default (.acc 0x00002881#32) = .ok (.miiRead 5#5 2#5) ∧
  decode Config.default (.mmd 0x401F#16) = .ok (.mmdData 31#5) ∧
  decode Config.default (.drv [0x44#8, 0x33#8, 0x22#8, 0x11#8, 8#8, 0#8, 0#8, 0#8, 0#8, 0#8, 0#8, 0#8,
    0xFF#8, 0x0F#8, 0#8, 0#8]) = .ok (.drvRead 0x11223344#32 0#32 0xFFF#32) ∧
  decode Config.default (.frame 0xFFFFFFFF50B64001#64) = .ok (.frameWrite 1#5 0xD#5 0x4001#16) ∧
  decode Config.default (.epc 6#32) = .ok .epcEraseAll

/-- The fields of an access word do not overlap: the OR is a sum, each field reads back, bits 31:16 are 0 (R92). -/
def Obligations.AccessWordFields : Prop :=
  ∀ (p r : Field5) (o : BitVec 6),
    (accWord p r o).toNat = p.toNat * 2 ^ 11 + r.toNat * 2 ^ 6 + o.toNat ∧
    accPhyad (accWord p r o) = p ∧ accRegad (accWord p r o) = r ∧ accOp (accWord p r o) = o ∧
    accHigh (accWord p r o) = 0#16

/-- The address-select word: `(mode << 14) | zext_16(d)`, with bits 15 and 13:5 zero (R94). -/
def Obligations.SelectWordFields : Prop :=
  ∀ (m : Bool) (d : Field5),
    (mmdWord m d).toNat = m.toNat * 2 ^ 14 + d.toNat ∧
    mmdMode (mmdWord m d) = m ∧ mmdDevad (mmdWord m d) = d ∧ mmdReserved (mmdWord m d) = false ∧
    mmdWord m d = (if m then 0x4000#16 else 0#16) ||| d.setWidth 16

/-- The request buffers: five little-endian fields in order, 16 bytes for a read and 20 for a write (R95). -/
def Obligations.DriverRequestLayout : Prop :=
  ∀ (c : Config) (a : RegAddr) (v : Word),
    (readRequest c a).length = 16 ∧ (writeRequest c a v).length = 20 ∧
    (readRequest c a).map BitVec.toNat =
      (List.range 4).map (fun k => c.drvSelector.toNat / 256 ^ k % 256) ++ [8, 0, 0, 0] ++
      (List.range 4).map (fun k => c.drvIfindex.toNat / 256 ^ k % 256) ++
      (List.range 4).map (fun k => a.toNat / 256 ^ k % 256) ∧
    (writeRequest c a v).map BitVec.toNat =
      (List.range 4).map (fun k => c.drvSelector.toNat / 256 ^ k % 256) ++ [9, 0, 0, 0] ++
      (List.range 4).map (fun k => c.drvIfindex.toNat / 256 ^ k % 256) ++
      (List.range 4).map (fun k => a.toNat / 256 ^ k % 256) ++
      (List.range 4).map (fun k => v.toNat / 256 ^ k % 256)

/-- Reserved and illegal encodings hold no instruction: command codes and lengths, access words, address-select words,
request opcodes and lengths, frames (R101, R102), and the EPC codes that U9 and R281 reserve, at the place, bits 2:0,
that is the model's choice (log 21). -/
def Obligations.ReservedEncodingsRejected : Prop :=
  (∀ (c : Config) (w0 : Word) (ops : List Word), (∀ x ∈ [8#32, 9#32, 0x10#32, 0x11#32, 0x12#32, 0x13#32], w0 ≠ x) →
    decode c (.cmd (w0 :: ops)) = .error (.unknownCommand w0)) ∧
  (∀ (c : Config) (w0 : Word) (ops : List Word) (k : Nat),
    (w0, k) ∈ [(8#32, 1), (9#32, 2), (0x10#32, 2), (0x11#32, 3), (0x12#32, 3), (0x13#32, 4)] → ops.length ≠ k →
    decode c (.cmd (w0 :: ops)) = .error (.badFrameLength (ops.length + 1))) ∧
  (∀ (c : Config) (w : Word), w.toNat / 2 ^ 16 ≠ 0 ∨ (accOp w ≠ c.readOpcode ∧ accOp w ≠ c.writeOpcode) →
    decode c (.acc w) = .error (.reservedAccess w)) ∧
  (∀ (c : Config) (v : Half), v &&& 0xBFE0#16 ≠ 0#16 → decode c (.mmd v) = .error (.reservedSelect v)) ∧
  (∀ (c : Config) (bs : List Byte), 8 ≤ bs.length → le32At bs 4 ≠ 8#32 → le32At bs 4 ≠ 9#32 →
    decode c (.drv bs) = .error (.badRequestOpcode (le32At bs 4))) ∧
  (∀ (c : Config) (bs : List Byte),
    bs.length < 8 ∨ (le32At bs 4 = 8#32 ∧ bs.length ≠ 16) ∨ (le32At bs 4 = 9#32 ∧ bs.length ≠ 20) →
    decode c (.drv bs) = .error (.badRequestLength bs.length)) ∧
  (∀ (c : Config) (w : BitVec 64),
    w.toNat / 2 ^ 32 ≠ 0xFFFFFFFF ∨ w.toNat / 2 ^ 30 % 4 ≠ 1 ∨
      (w.toNat / 2 ^ 28 % 4 ≠ 1 ∧ w.toNat / 2 ^ 28 % 4 ≠ 2) ∨
      (w.toNat / 2 ^ 28 % 4 = 1 ∧ w.toNat / 2 ^ 16 % 4 ≠ 2) →
    decode c (.frame w) = .error (.badFrame w)) ∧
  (∀ (c : Config) (w : Word), w &&& 7#32 = 4#32 ∨ w &&& 7#32 = 5#32 ∨ w &&& 7#32 = 7#32 →
    decode c (.epc w) = .error (.reservedEpc w))

/-! ### The command port -/

/-- In IDLE a command is accepted: the operand latches are loaded from the command words (0 where absent), RES, STATUS,
INFO and POLLCNT cleared, UPC 0, LOCK 1, MODE RUN; nothing else changes but the model's own exchange flag (R24). That in
RUN `exec` of a command other than the running one answers the same state is the model's choice (log 29): R24 says only
that it has no step. -/
def Obligations.CommandAccepted : Prop :=
  ∀ (i : Instr) (code : Word) (ops : List Word) (s : State), encode s.cfg i = .cmd (code :: ops) →
    (s.seq.mode = .idle → ∃ t, exec i s = .next t ∧
      t.seq = { cmd := code, opa := ops.getD 0 0#32, opb := ops.getD 1 0#32, opc := ops.getD 2 0#32
                opd := ops.getD 3 0#32, res := 0#32, status := 0#32, info := 0#32, mode := .run, upc := 0#5
                pollCnt := 0, lock := true } ∧
      t.ser = { s.ser with pending := false } ∧ SameDevice s t ∧ t.env = s.env) ∧
    (s.seq.mode = .run → runningInstr s ≠ .ok i → exec i s = .next s)

/-- While MODE is RUN a command at the port has no step (R24). The model's choice (log 5, log 29): the client's turn then
passes, the command stays at the port, and nothing else changes. -/
def Obligations.SecondCommandWaits : Prop :=
  ∀ (s : State) (ws : List Word) (items : List Encoded) (ts : List Agent),
    s.seq.mode = .run → s.env.port = .cmd ws :: items → s.env.turns = .client :: ts →
    step s = .next { s with env := { s.env with turns := ts } }

/-- A frame that is no command is answered with ValidationError before any I/O: UNKNOWN_COMMAND with the code as detail,
BAD_LENGTH with the number of words (R101, R302, R311). That a frame of no words is one of a wrong length is the model's
choice (log 24). -/
def Obligations.BadFrameRaises : Prop :=
  ∀ (s : State) (ws : List Word) (items : List Encoded) (ts : List Agent) (r : Reject),
    s.seq.mode = .idle → s.env.port = .cmd ws :: items → s.env.turns = .client :: ts → decodeCmd ws = .error r →
    ∃ t, step s = .next t ∧ t.seq.status = 1#32 ∧ t.seq.mode = .idle ∧ t.seq.lock = false ∧
      ((∃ w0 ops, ws = w0 :: ops ∧ r = .unknownCommand w0 ∧ t.seq.info = 7#32 ∧ t.seq.res = w0) ∨
       (r = .badFrameLength ws.length ∧ t.seq.info = 8#32 ∧ t.seq.res = BitVec.ofNat 32 ws.length)) ∧
      t.mac = s.mac ∧ t.wire = s.wire ∧ t.phys = s.phys ∧ t.eeprom = s.eeprom ∧ t.cfg = s.cfg ∧
      t.env = { s.env with port := items, turns := ts }

/-! ### Micro-operations of the six commands -/

/-- The first failing operand check of a command, in frame order (R122, R123, R172), with the sub-cause and the operand
it reports (R302). -/
def operandFailure : Instr → Option (Word × Word)
  | .regRead a => if 0x1000 ≤ a.toNat then some (1#32, a) else none
  | .regWrite a _ => if 0x1000 ≤ a.toNat then some (1#32, a) else none
  | .c22Read p r =>
    if 32 ≤ p.toNat then some (2#32, p) else if 32 ≤ r.toNat then some (3#32, r) else none
  | .c22Write p r d =>
    if 32 ≤ p.toNat then some (2#32, p) else if 32 ≤ r.toNat then some (3#32, r)
    else if 0x10000 ≤ d.toNat then some (6#32, d) else none
  | .c45Read p v x =>
    if 32 ≤ p.toNat then some (2#32, p) else if 32 ≤ v.toNat then some (4#32, v)
    else if 0x10000 ≤ x.toNat then some (5#32, x) else none
  | .c45Write p v x d =>
    if 32 ≤ p.toNat then some (2#32, p) else if 32 ≤ v.toNat then some (4#32, v)
    else if 0x10000 ≤ x.toNat then some (5#32, x) else if 0x10000 ≤ d.toNat then some (6#32, d) else none
  | _ => none

/-- VALIDATE reports the first failing check before any I/O, and otherwise only advances UPC (R122, R123, R172; the
sub-causes are those of R302). -/
def Obligations.ValidateReportsFirstFailure : Prop :=
  ∀ (i : Instr) (s : State), AtMicroOp i .validate s →
    ∃ t, exec i s = .next t ∧ SameDevice s t ∧ t.env = s.env ∧
      match operandFailure i with
      | some (info, detail) =>
        t.seq = { s.seq with
          status := 1#32, info := info, res := detail, mode := .idle, lock := false, pollCnt := 0 } ∧
        t.ser = { s.ser with pending := false }
      | none => t.seq = { s.seq with upc := s.seq.upc + 1#5 } ∧ t.ser = s.ser

/-- POLL: UPC goes on when BUSY reads 0; while it reads 1 the POLL repeats with POLLCNT counted, and raises
Timeout(MII_BUSY) with its UPC when POLL_LIMIT is reached (R174). -/
def Obligations.PollWaitsForFreeEngine : Prop :=
  ∀ (i : Instr) (s : State), AtMicroOp i .poll s → transportPerforms s = true →
    ∃ t, exec i s = .next t ∧ SameDevice s t ∧
      (s.mac.eng = .free → t.seq = { s.seq with pollCnt := 0, upc := s.seq.upc + 1#5 }) ∧
      (s.mac.eng ≠ .free → (∀ n, s.cfg.pollLimit = some n → s.seq.pollCnt + 1 < n) →
        t.seq = { s.seq with pollCnt := s.seq.pollCnt + 1 }) ∧
      (s.mac.eng ≠ .free → (∃ n, s.cfg.pollLimit = some n ∧ n ≤ s.seq.pollCnt + 1) →
        t.seq = { s.seq with
          status := 3#32, info := 2#32, res := s.seq.upc.setWidth 32, mode := .idle, lock := false, pollCnt := 0 })

/-- WRDATA writes the zero-extended 16-bit expression to MII_DATA and nothing else (R175). -/
def Obligations.WrDataStoresDatum : Prop :=
  ∀ (i : Instr) (e : Datum) (s : State), AtMicroOp i (.wrData e) s → transportPerforms s = true → s.mac.eng = .free →
    ∃ t, exec i s = .next t ∧ SameBeyondMac s t ∧ t.wire = s.wire ∧
      t.seq = { s.seq with upc := s.seq.upc + 1#5 } ∧
      t.mac = { s.mac with
        miiData := ((readLatch s.seq e.latch).setWidth 16 ||| (if e.dataMode then 0x4000#16 else 0#16)).setWidth 32
        dataWindow := .stored }

/-- WRACC writes `acc(PHY, r, o)` to MII_ACC, which launches the transaction (R176, R223): BUSY reads 1 and ENG holds
the direction, the PHY address, the index and, for a write, the datum of MII_DATA. -/
def Obligations.WrAccLaunches : Prop :=
  ∀ (i : Instr) (r : RegIndex) (rw : Rw) (s : State), AtMicroOp i (.wrAcc r rw) s → transportPerforms s = true →
    s.mac.eng = .free → s.cfg.wf →
    ∃ t d, exec i s = .next t ∧ SameBeyondMac s t ∧ t.seq = { s.seq with upc := s.seq.upc + 1#5 } ∧
      t.mac.eng = .inflight rw (s.seq.opa.setWidth 5) (regIndexValue s.seq r) d ∧
      (rw = .write → s.mac.dataWindow ≠ .undefined → d = s.mac.miiData.setWidth 16) ∧
      t.mac.miiAcc = accWord (s.seq.opa.setWidth 5) (regIndexValue s.seq r) (opcodeOf s.cfg rw) ∧
      t.mac.miiAcc.getLsbD 0 = true ∧ t.mac.regs = s.mac.regs ∧ t.mac.miiData = s.mac.miiData

/-- RDDATA returns the zero-extended low 16 bits of MII_DATA (R177), which the closing POLL has seen completed. -/
def Obligations.RdDataReturnsDatum : Prop :=
  ∀ (i : Instr) (s : State), AtMicroOp i .rdData s → transportPerforms s = true → s.mac.eng = .free →
    s.mac.dataWindow ≠ .undefined →
    ∃ t, exec i s = .next t ∧ SameDevice s t ∧
      t.seq = { s.seq with res := (s.mac.miiData.setWidth 16).setWidth 32, upc := s.seq.upc + 1#5 }

/-- RDREG reads one whole register live into RES (R124): BUSY in bit 0 of MII_ACC, MII_DATA as stored, or with the datum
of the completed read in bits 15:0 (R222). The rest is the model's: any other register is a draw of the MAC's and its read changes nothing (log 23), but for the two EPC registers,
bit 31 at 0x040 and the byte at 0x044 (R280; log 21), a look at bit 31 that finds the command completed being its
completion (log 22). -/
def Obligations.RdRegReadsRegister : Prop :=
  ∀ (i : Instr) (s : State), AtMicroOp i .rdReg s → transportPerforms s = true →
    ∃ t, exec i s = .next t ∧ SameDevice { s with eeprom := t.eeprom } t ∧
      t.seq = { s.seq with res := t.seq.res, upc := s.seq.upc + 1#5 } ∧
      (s.seq.opa.setWidth 12 = 0x120#12 → t.seq.res.getLsbD 0 = engBusy s.mac.eng) ∧
      (s.seq.opa.setWidth 12 = 0x124#12 → s.mac.eng = .free → s.mac.dataWindow = .stored →
        t.seq.res = s.mac.miiData) ∧
      (s.seq.opa.setWidth 12 = 0x124#12 → s.mac.eng = .free → s.mac.dataWindow ≠ .undefined →
        t.seq.res.setWidth 16 = s.mac.miiData.setWidth 16) ∧
      (s.seq.opa.setWidth 12 = 0x040#12 → t.seq.res.getLsbD 31 = t.eeprom.inProgress.isSome ∧
        (t.eeprom.inProgress.isSome = true → t.eeprom = s.eeprom) ∧
        (s.eeprom.inProgress = none → t.eeprom = s.eeprom)) ∧
      (s.seq.opa.setWidth 12 = 0x044#12 → s.eeprom.inProgress = none → t.seq.res.setWidth 8 = s.eeprom.data) ∧
      (s.seq.opa.setWidth 12 ≠ 0x040#12 → t.eeprom = s.eeprom) ∧
      (s.seq.opa.setWidth 12 ≠ 0x120#12 → s.seq.opa.setWidth 12 ≠ 0x124#12 → s.seq.opa.setWidth 12 ≠ 0x040#12 →
        s.seq.opa.setWidth 12 ≠ 0x044#12 →
        t.seq.res = Config.freeMacRegister s.env.tick (s.seq.opa.setWidth 12)
          (Memory.read s.mac.regs (s.seq.opa.setWidth 12).toNat))

/-- WRREG writes one whole register (R125): MII_DATA is overwritten. The rest is the model's: another register records
the value and nothing else changes (log 23), at 0x044 the EPC-data register takes its low byte, and at 0x040 a word whose
layout is not in the source submits its command where none is in progress, may or may not replace the one in progress, and
is refused where its code is reserved (log 21, log 22). The launch by a REG_WRITE
to MII_ACC is `RegWriteOfAccessWordLaunches`. -/
def Obligations.WrRegWritesRegister : Prop :=
  ∀ (i : Instr) (s : State), AtMicroOp i .wrReg s → transportPerforms s = true →
    (s.seq.opa.setWidth 12 ≠ 0x120#12 → s.seq.opa.setWidth 12 ≠ 0x040#12 →
      (s.seq.opa.setWidth 12 = 0x124#12 → s.mac.eng = .free) →
      ∃ t, exec i s = .next t ∧ SameBeyondMac { s with eeprom := t.eeprom } t ∧ t.wire = s.wire ∧
        t.seq = { s.seq with upc := s.seq.upc + 1#5 } ∧
        (s.seq.opa.setWidth 12 = 0x124#12 →
          t.mac = { s.mac with miiData := s.seq.opb, dataWindow := .stored }) ∧
        (s.seq.opa.setWidth 12 = 0x044#12 →
          t.mac = s.mac ∧ t.eeprom = { s.eeprom with data := s.seq.opb.setWidth 8 }) ∧
        (s.seq.opa.setWidth 12 ≠ 0x044#12 → t.eeprom = s.eeprom) ∧
        (s.seq.opa.setWidth 12 ≠ 0x124#12 → s.seq.opa.setWidth 12 ≠ 0x044#12 →
          t.mac = { s.mac with regs := t.mac.regs } ∧
          Memory.read t.mac.regs (s.seq.opa.setWidth 12).toNat = some s.seq.opb ∧
          ∀ a : Nat, a ≠ (s.seq.opa.setWidth 12).toNat → Memory.read t.mac.regs a = Memory.read s.mac.regs a)) ∧
    (s.seq.opa.setWidth 12 = 0x040#12 →
      (epcOfRegisterWord s.seq.opb s.eeprom.data = none → exec i s = .refused (.reservedEpcWord s.seq.opb)) ∧
      ∀ op, epcOfRegisterWord s.seq.opb s.eeprom.data = some op →
        ∃ t, exec i s = .next t ∧ SameDevice { s with eeprom := t.eeprom } t ∧
          t.seq = { s.seq with upc := s.seq.upc + 1#5 } ∧
          t.eeprom = { s.eeprom with inProgress := t.eeprom.inProgress } ∧
          (s.eeprom.inProgress = none → t.eeprom.inProgress = some op) ∧
          (t.eeprom.inProgress = s.eeprom.inProgress ∨ t.eeprom.inProgress = some op))

/-- A REG_WRITE of a legal access word to MII_ACC launches exactly as WRACC would (R123). -/
def Obligations.RegWriteOfAccessWordLaunches : Prop :=
  ∀ (i : Instr) (p r : Field5) (rw : Rw) (s : State), AtMicroOp i .wrReg s → transportPerforms s = true →
    s.mac.eng = .free → s.cfg.wf → s.seq.opa.setWidth 12 = 0x120#12 →
    s.seq.opb = accWord p r (opcodeOf s.cfg rw) →
    ∃ t d, exec i s = .next t ∧ SameBeyondMac s t ∧ t.seq = { s.seq with upc := s.seq.upc + 1#5 } ∧
      t.mac.eng = .inflight rw p r d ∧ t.mac.miiAcc = s.seq.opb ∧ t.mac.regs = s.mac.regs ∧
      t.mac.miiData = s.mac.miiData ∧
      (rw = .write → s.mac.dataWindow ≠ .undefined → d = s.mac.miiData.setWidth 16)

/-- The commands whose RET clears RES: the writes (R178). -/
def isWriteCommand : Instr → Bool
  | .regWrite _ _ => true
  | .c22Write _ _ _ => true
  | .c45Write _ _ _ _ => true
  | _ => false

/-- RET ends the command with STATUS 0 and INFO 0, RES 0 for a write command, MODE IDLE and LOCK 0, and changes nothing
else (R178). It is the last micro-operation of each of the six commands. -/
def Obligations.ReturnEndsCommand : Prop :=
  (∀ (i : Instr) (s : State), AtMicroOp i .ret s →
    exec i s = .next { s with seq := { s.seq with
      status := 0#32, info := 0#32, res := if isWriteCommand i then 0#32 else s.seq.res, mode := .idle
      lock := false } }) ∧
  (∀ (i : Instr) (c : Command), commandOfInstr i = some c → c.program.getLast? = some .ret)

/-- The micro-operations that read a register. -/
def readsRegister : MicroOp → Bool
  | .poll => true
  | .rdData => true
  | .rdReg => true
  | _ => false

/-- The micro-operations that write a register. -/
def writesRegister : MicroOp → Bool
  | .wrData _ => true
  | .wrAcc _ _ => true
  | .wrReg => true
  | _ => false

/-- The register and the value that a writing micro-operation hands to the Transport (R125, R175, R176). -/
def writtenRegister (op : MicroOp) (s : State) : Option (RegAddr × Word) :=
  match op with
  | .wrData e => some (0x124#12, (datumValue s.seq e).setWidth 32)
  | .wrAcc r rw => some (0x120#12, accWord (s.seq.opa.setWidth 5) (regIndexValue s.seq r) (opcodeOf s.cfg rw))
  | .wrReg => some (s.seq.opa.setWidth 12, s.seq.opb)
  | _ => none

/-- The busy answers that the operation in progress has received (R27). -/
def busyAnswers (s : State) : Nat := if s.ser.pending then s.ser.retry else 0

/-- Whether a write answered with this buffer has been performed: on success yes, on busy no (R148), on an error as the
world decides (R67). -/
def writePerformed (response : List Byte) (reached : Bool) : Bool :=
  if response.length < 12 then reached
  else if le32At response 8 = 4#32 then false
  else if le32At response 8 = 0#32 ∧ response.length = 12 then true
  else reached

/-- The exception that the next answer of the Transport in use raises, and whether a write so answered has reached the
register (R67): the USB Transport's own, or the serializer's (R144 to R149). -/
def transportRaises (isRead : Bool) (s : State) : Option (Exc × Bool) :=
  match s.cfg.transport with
  | .usb =>
    match s.env.usbAnswers with
    | .ioError info detail reached :: _ => some (⟨.io, info, detail⟩, reached)
    | .timeout info detail reached :: _ => some (⟨.timeout, info, detail⟩, reached)
    | _ => none
  | .driver =>
    match s.env.driverAnswers with
    | .failed code reached :: _ => some (⟨.io, 1#32, code⟩, reached)
    | .buffer rsp reached :: _ =>
      if rsp.length < 12 then some (⟨.io, 2#32, BitVec.ofNat 32 rsp.length⟩, reached)
      else if le32At rsp 8 = 4#32 then
        if s.cfg.retryLimit ≤ busyAnswers s + 1 then some (⟨.timeout, 1#32, 0#32⟩, false) else none
      else if le32At rsp 8 ≠ 0#32 then some (⟨.io, 3#32, le32At rsp 8⟩, reached)
      else if rsp.length ≠ (if isRead then 16 else 12) then
        some (⟨.io, 2#32, BitVec.ofNat 32 rsp.length⟩, reached)
      else none
    | _ => none

/-- An IoError or Timeout of either Transport is propagated unchanged and ends the command (R312, R320): STATUS, INFO
and RES are written, MODE IDLE, LOCK 0, POLLCNT 0, UPC stays. The device is as it was, or, where a write has reached the
register although it failed (R67, R321), as that register write leaves it. -/
def Obligations.TransportErrorEndsCommand : Prop :=
  ∀ (i : Instr) (op : MicroOp) (s : State) (e : Exc) (reached : Bool), AtMicroOp i op s →
    transportRaises (readsRegister op) s = some (e, reached) →
    let stopped : Seq := { s.seq with
      status := statusCode e.cls, info := e.info, res := e.detail, mode := .idle, lock := false, pollCnt := 0 }
    (readsRegister op = true → ∃ t, exec i s = .next t ∧ t.seq = stopped ∧ SameDevice s t) ∧
    (writesRegister op = true → reached = false → ∃ t, exec i s = .next t ∧ t.seq = stopped ∧ SameDevice s t) ∧
    (∀ a v u, writtenRegister op s = some (a, v) → reached = true → macWrite a v s = .next u →
      ∃ t, exec i s = .next t ∧ t.seq = stopped ∧ t.mac = u.mac ∧ t.wire = u.wire ∧ t.phys = u.phys ∧
        t.eeprom = u.eeprom ∧ t.cfg = s.cfg ∧ t.env.port = s.env.port ∧ t.env.turns = s.env.turns)

/-- A Transport operation of the sequencer answered busy goes on (R148): below DRV_RETRY_LIMIT the sequencer stays at its
micro-operation, RETRY is counted, the request is to be issued again, and the device is as it was. One exchange a step is
the model's (log 8). -/
def Obligations.BusyAnswerRepeatsOperation : Prop :=
  ∀ (i : Instr) (op : MicroOp) (s : State) (rsp : List Byte) (reached : Bool) (rest : List DriverAnswer),
    AtMicroOp i op s → s.cfg.transport = .driver → readsRegister op = true ∨ writesRegister op = true →
    s.env.driverAnswers = .buffer rsp reached :: rest → 12 ≤ rsp.length → le32At rsp 8 = 4#32 →
    busyAnswers s + 1 < s.cfg.retryLimit →
    ∃ t, exec i s = .next t ∧ t.seq = s.seq ∧ t.ser = ⟨busyAnswers s + 1, true⟩ ∧
      SameDevice s t ∧ t.env.driverAnswers = rest

/-! ### The driver serializer -/

/-- One exchange of a read (R144 to R149): the length of the response, its status, the retry count and its payload
decide, or the exchange fails; the MAC and the sequencer are untouched. The model's: a request buffer is performed whichever
Transport is in use, its outcome left in driverReturn (log 19), and only a read answered with success may find an EEPROM
command completed (log 22). -/
def Obligations.DrvReadParsesResponse : Prop :=
  ∀ (sel ifx a : Word) (s : State) (reached : Bool) (rest : List DriverAnswer), a.toNat < 0x1000 →
    (∀ rsp, s.env.driverAnswers = .buffer rsp reached :: rest →
      ∃ t, exec (.drvRead sel ifx a) s = .next t ∧
        t.seq = s.seq ∧ t.mac = s.mac ∧ t.wire = s.wire ∧ t.phys = s.phys ∧
        (a ≠ 0x040#32 ∨ rsp.length ≠ 16 ∨ le32At rsp 8 ≠ 0#32 → t.eeprom = s.eeprom) ∧
        t.cfg = s.cfg ∧ t.env.driverAnswers = rest ∧ t.env.port = s.env.port ∧ t.env.turns = s.env.turns ∧
        (rsp.length < 12 → t.env.driverReturn = some (.raised ⟨.io, 2#32, BitVec.ofNat 32 rsp.length⟩) ∧
          t.ser = ⟨busyAnswers s, false⟩) ∧
        (12 ≤ rsp.length → le32At rsp 8 = 4#32 → busyAnswers s + 1 < s.cfg.retryLimit →
          t.env.driverReturn = some .again ∧ t.ser = ⟨busyAnswers s + 1, true⟩) ∧
        (12 ≤ rsp.length → le32At rsp 8 = 4#32 → s.cfg.retryLimit ≤ busyAnswers s + 1 →
          t.env.driverReturn = some (.raised ⟨.timeout, 1#32, 0#32⟩) ∧ t.ser = ⟨busyAnswers s + 1, false⟩) ∧
        (12 ≤ rsp.length → le32At rsp 8 ≠ 4#32 → le32At rsp 8 ≠ 0#32 →
          t.env.driverReturn = some (.raised ⟨.io, 3#32, le32At rsp 8⟩) ∧ t.ser = ⟨busyAnswers s, false⟩) ∧
        (rsp.length = 16 → le32At rsp 8 = 0#32 →
          t.env.driverReturn = some (.value (le32At rsp 12)) ∧ t.ser = ⟨busyAnswers s, false⟩) ∧
        (12 ≤ rsp.length → rsp.length ≠ 16 → le32At rsp 8 = 0#32 →
          t.env.driverReturn = some (.raised ⟨.io, 2#32, BitVec.ofNat 32 rsp.length⟩) ∧
          t.ser = ⟨busyAnswers s, false⟩)) ∧
    (∀ code, s.env.driverAnswers = .failed code reached :: rest →
      ∃ t, exec (.drvRead sel ifx a) s = .next t ∧
        t.seq = s.seq ∧ t.mac = s.mac ∧ t.wire = s.wire ∧ t.phys = s.phys ∧ t.eeprom = s.eeprom ∧
        t.cfg = s.cfg ∧ t.env.driverAnswers = rest ∧ t.env.port = s.env.port ∧ t.env.turns = s.env.turns ∧
        t.env.driverReturn = some (.raised ⟨.io, 1#32, code⟩) ∧ t.ser = ⟨busyAnswers s, false⟩)

/-- One exchange of a write (R144 to R149): as for a read, success being exactly 12 bytes with status 0. A busy answer
means that the driver did not perform it (R148), success that it did, and after an error the register write may or may not
have happened (R67); where it has, the device is as that register write leaves it. That a request buffer is performed
whichever Transport is in use, its outcome left in driverReturn, is the model's (log 19). -/
def Obligations.DrvWriteParsesResponse : Prop :=
  ∀ (sel ifx a v : Word) (s u : State) (reached : Bool) (rest : List DriverAnswer), a.toNat < 0x1000 →
    (∀ rsp, s.env.driverAnswers = .buffer rsp reached :: rest →
      (if writePerformed rsp reached then macWrite (a.setWidth 12) v s = .next u else u = s) →
      ∃ t, exec (.drvWrite sel ifx a v) s = .next t ∧
        t.seq = s.seq ∧ t.mac = u.mac ∧ t.wire = u.wire ∧ t.phys = s.phys ∧ t.eeprom = u.eeprom ∧ t.cfg = s.cfg ∧
        t.env.driverAnswers = rest ∧ t.env.port = s.env.port ∧ t.env.turns = s.env.turns ∧
        (rsp.length < 12 → t.env.driverReturn = some (.raised ⟨.io, 2#32, BitVec.ofNat 32 rsp.length⟩) ∧
          t.ser = ⟨busyAnswers s, false⟩) ∧
        (12 ≤ rsp.length → le32At rsp 8 = 4#32 → busyAnswers s + 1 < s.cfg.retryLimit →
          t.env.driverReturn = some .again ∧ t.ser = ⟨busyAnswers s + 1, true⟩) ∧
        (12 ≤ rsp.length → le32At rsp 8 = 4#32 → s.cfg.retryLimit ≤ busyAnswers s + 1 →
          t.env.driverReturn = some (.raised ⟨.timeout, 1#32, 0#32⟩) ∧ t.ser = ⟨busyAnswers s + 1, false⟩) ∧
        (12 ≤ rsp.length → le32At rsp 8 ≠ 4#32 → le32At rsp 8 ≠ 0#32 →
          t.env.driverReturn = some (.raised ⟨.io, 3#32, le32At rsp 8⟩) ∧ t.ser = ⟨busyAnswers s, false⟩) ∧
        (rsp.length = 12 → le32At rsp 8 = 0#32 →
          t.env.driverReturn = some (.value 0#32) ∧ t.ser = ⟨busyAnswers s, false⟩) ∧
        (12 < rsp.length → le32At rsp 8 = 0#32 →
          t.env.driverReturn = some (.raised ⟨.io, 2#32, BitVec.ofNat 32 rsp.length⟩) ∧
          t.ser = ⟨busyAnswers s, false⟩)) ∧
    (∀ code, s.env.driverAnswers = .failed code reached :: rest →
      (if reached then macWrite (a.setWidth 12) v s = .next u else u = s) →
      ∃ t, exec (.drvWrite sel ifx a v) s = .next t ∧
        t.seq = s.seq ∧ t.mac = u.mac ∧ t.wire = u.wire ∧ t.phys = s.phys ∧ t.eeprom = u.eeprom ∧ t.cfg = s.cfg ∧
        t.env.driverAnswers = rest ∧ t.env.port = s.env.port ∧ t.env.turns = s.env.turns ∧
        t.env.driverReturn = some (.raised ⟨.io, 1#32, code⟩) ∧ t.ser = ⟨busyAnswers s, false⟩)

/-- DRV_READ answered by a driver that performs it hands back the register's value (R142, R144); of MII_DATA in the window
of a completed read, bits 15:0 (R222). The model's: a request buffer is performed whichever Transport is in use and its
value left in driverReturn (log 19), the driver that performs a request (log 7), a register other than the MII registers
being a draw whose read changes nothing (log 23), and the two EPC registers (log 21, log 22). -/
def Obligations.DrvReadReturnsRegister : Prop :=
  ∀ (sel ifx a : Word) (s : State) (h : BitVec 64) (rest : List DriverAnswer),
    a.toNat < 0x1000 → s.env.driverAnswers = .performs h :: rest →
    ∃ t v, exec (.drvRead sel ifx a) s = .next t ∧ t.env.driverReturn = some (.value v) ∧
      (a = 0x120#32 → v.getLsbD 0 = engBusy s.mac.eng) ∧
      (a = 0x124#32 → s.mac.eng = .free → s.mac.dataWindow = .stored → v = s.mac.miiData) ∧
      (a = 0x124#32 → s.mac.eng = .free → s.mac.dataWindow ≠ .undefined →
        v.setWidth 16 = s.mac.miiData.setWidth 16) ∧
      (a = 0x040#32 → v.getLsbD 31 = t.eeprom.inProgress.isSome ∧
        (t.eeprom.inProgress.isSome = true → t.eeprom = s.eeprom) ∧
        (s.eeprom.inProgress = none → t.eeprom = s.eeprom)) ∧
      (a = 0x044#32 → s.eeprom.inProgress = none → v.setWidth 8 = s.eeprom.data) ∧
      (a ≠ 0x040#32 → t.eeprom = s.eeprom) ∧
      (a ≠ 0x120#32 → a ≠ 0x124#32 → a ≠ 0x040#32 → a ≠ 0x044#32 →
        v = Config.freeMacRegister s.env.tick (a.setWidth 12) (Memory.read s.mac.regs a.toNat)) ∧
      t.seq = s.seq ∧ t.ser.pending = false ∧ t.mac = s.mac ∧ t.wire = s.wire ∧ t.phys = s.phys ∧
      t.cfg = s.cfg ∧ t.env.port = s.env.port ∧ t.env.turns = s.env.turns

/-- DRV_WRITE answered by a driver that performs it has written the register, once (R143, R144): MII_DATA; MII_ACC,
which launches (R68, R223); or, and this is the model's, a register that only records the value (log 23) or one of the
EPC registers (log 21, log 22): a word with a reserved code is refused at 0x040, any other submits its command where none
is in progress. The model's too: a request buffer is performed whichever Transport is in use and its outcome left in
driverReturn (log 19), and the driver that performs a request (log 7). -/
def Obligations.DrvWriteWritesRegister : Prop :=
  ∀ (sel ifx a v : Word) (s : State) (h : BitVec 64) (rest : List DriverAnswer),
    a.toNat < 0x1000 → s.env.driverAnswers = .performs h :: rest →
    (a ≠ 0x120#32 → a ≠ 0x040#32 → (a = 0x124#32 → s.mac.eng = .free) →
      ∃ t, exec (.drvWrite sel ifx a v) s = .next t ∧ t.env.driverReturn = some (.value 0#32) ∧
        (a = 0x124#32 → t.mac = { s.mac with miiData := v, dataWindow := .stored }) ∧
        (a = 0x044#32 → t.mac = s.mac ∧ t.eeprom = { s.eeprom with data := v.setWidth 8 }) ∧
        (a ≠ 0x044#32 → t.eeprom = s.eeprom) ∧
        (a ≠ 0x124#32 → a ≠ 0x044#32 →
          t.mac = { s.mac with regs := t.mac.regs } ∧ Memory.read t.mac.regs a.toNat = some v ∧
          ∀ b : Nat, b ≠ a.toNat → Memory.read t.mac.regs b = Memory.read s.mac.regs b) ∧
        t.seq = s.seq ∧ t.ser.pending = false ∧ t.wire = s.wire ∧ t.phys = s.phys ∧
        t.cfg = s.cfg ∧ t.env.port = s.env.port ∧ t.env.turns = s.env.turns) ∧
    (∀ p r rw, a = 0x120#32 → s.mac.eng = .free → s.cfg.wf → v = accWord p r (opcodeOf s.cfg rw) →
      ∃ t d, exec (.drvWrite sel ifx a v) s = .next t ∧ t.env.driverReturn = some (.value 0#32) ∧
        t.mac.eng = .inflight rw p r d ∧ (rw = .write → s.mac.dataWindow ≠ .undefined → d = s.mac.miiData.setWidth 16) ∧
        t.mac.miiAcc = v ∧ t.mac.miiAcc.getLsbD 0 = true ∧ t.mac.regs = s.mac.regs ∧ t.mac.miiData = s.mac.miiData ∧
        t.seq = s.seq ∧ t.ser.pending = false ∧ t.phys = s.phys ∧ t.eeprom = s.eeprom ∧
        t.cfg = s.cfg ∧ t.env.port = s.env.port ∧ t.env.turns = s.env.turns) ∧
    (a = 0x040#32 →
      (epcOfRegisterWord v s.eeprom.data = none → exec (.drvWrite sel ifx a v) s = .refused (.reservedEpcWord v)) ∧
      ∀ op, epcOfRegisterWord v s.eeprom.data = some op →
        ∃ t, exec (.drvWrite sel ifx a v) s = .next t ∧ t.env.driverReturn = some (.value 0#32) ∧
          t.eeprom = { s.eeprom with inProgress := t.eeprom.inProgress } ∧
          (s.eeprom.inProgress = none → t.eeprom.inProgress = some op) ∧
          (t.eeprom.inProgress = s.eeprom.inProgress ∨ t.eeprom.inProgress = some op) ∧
          t.seq = s.seq ∧ t.ser.pending = false ∧ t.mac = s.mac ∧ t.wire = s.wire ∧ t.phys = s.phys ∧
          t.cfg = s.cfg ∧ t.env.port = s.env.port ∧ t.env.turns = s.env.turns)

/-- The Transport itself rejects an address of 0x1000 or more before any I/O (R121). That the rejection of a request buffer
stands in driverReturn is the model's (log 19). -/
def Obligations.DrvAddressRejected : Prop :=
  ∀ (sel ifx a v : Word) (s : State), 0x1000 ≤ a.toNat →
    exec (.drvRead sel ifx a) s =
      .next { s with env := { s.env with driverReturn := some (.raised ⟨.validation, 1#32, a⟩) } } ∧
    exec (.drvWrite sel ifx a v) s =
      .next { s with env := { s.env with driverReturn := some (.raised ⟨.validation, 1#32, a⟩) } }

/-! ### The MDIO master -/

/-- MII_READ and MII_WRITE on a free engine launch (R223): ENG holds the fields of the word, BUSY reads 1, the datum of
a write is MII_DATA[15:0] as R30 defines it; nothing else of the MAC and nothing beyond it changes. -/
def Obligations.AccessWordLaunches : Prop :=
  ∀ (p r : Field5) (s : State), s.mac.eng = .free → s.cfg.wf →
    (∃ t d, exec (.miiRead p r) s = .next t ∧ t.mac.eng = .inflight .read p r d ∧
      t.mac.miiAcc = accWord p r s.cfg.readOpcode ∧ t.mac.miiAcc.getLsbD 0 = true ∧
      t.mac.miiData = s.mac.miiData ∧ t.mac.regs = s.mac.regs ∧ SameBeyondMac s t ∧ t.seq = s.seq ∧ t.ser = s.ser) ∧
    (∃ t d, exec (.miiWrite p r) s = .next t ∧ t.mac.eng = .inflight .write p r d ∧
      (s.mac.dataWindow ≠ .undefined → d = s.mac.miiData.setWidth 16) ∧
      t.mac.miiAcc = accWord p r s.cfg.writeOpcode ∧ t.mac.miiAcc.getLsbD 0 = true ∧
      t.mac.miiData = s.mac.miiData ∧ t.mac.regs = s.mac.regs ∧ SameBeyondMac s t ∧ t.seq = s.seq ∧ t.ser = s.ser)

/-- A write to MII_ACC while ENG is not free is a fault of the run (R224). -/
def Obligations.LaunchWhileBusyFaults : Prop :=
  ∀ (s : State), s.mac.eng ≠ .free →
    (∀ w, macWrite 0x120#12 w s = .fault .launchWhileBusy) ∧
    (∀ p r, exec (.miiRead p r) s = .fault .launchWhileBusy ∧ exec (.miiWrite p r) s = .fault .launchWhileBusy)

/-- A write to MII_DATA while ENG is not free is a fault, and a read of it a draw that changes nothing (R225). -/
def Obligations.DataAccessWhileBusy : Prop :=
  ∀ (s : State), s.mac.eng ≠ .free →
    (∀ v, macWrite 0x124#12 v s = .fault .dataWriteWhileBusy) ∧
    macRead 0x124#12 s = (Config.freeWord s.env.tick, advance s)

/-- The completion of a write: the PHY performs the write, ENG is free and BUSY reads 0; the rest of the MAC and the
sequencer are as they were (R226, R242). An index other than 0xE is stored; index 0xE reaches the address latch in address
mode and the register the latch points to in data mode (R245). -/
def Obligations.EngineCompletesWrite : Prop :=
  ∀ (s : State) (p r : Field5) (d : Half) (ts : List Agent),
    s.env.turns = .engine :: ts → s.cfg.pins = false → s.mac.eng = .inflight .write p r d →
    p ∈ s.cfg.phyPresent → (r = 0xE#5 → selectReserved s.phys p = false) →
    let dev := (mmdCtlAt s.phys p).setWidth 5
    let target := mmdAddrAt s.phys p dev
    ∃ t, step s = .next t ∧ t.mac.eng = .free ∧ t.mac.miiAcc.getLsbD 0 = false ∧ t.mac.miiData = s.mac.miiData ∧
      t.mac.regs = s.mac.regs ∧
      (r ≠ 0xE#5 → c22At t.phys p r = d ∧ (∀ q j, ¬(q = p ∧ j = r) → c22At t.phys q j = c22At s.phys q j) ∧
        t.phys.mmdAddr = s.phys.mmdAddr ∧ t.phys.c45 = s.phys.c45) ∧
      (r = 0xE#5 → (mmdCtlAt s.phys p).getLsbD 14 = false → mmdAddrAt t.phys p dev = d ∧
        (∀ q e, ¬(q = p ∧ e = dev) → mmdAddrAt t.phys q e = mmdAddrAt s.phys q e) ∧
        t.phys.c22 = s.phys.c22 ∧ t.phys.c45 = s.phys.c45) ∧
      (r = 0xE#5 → (mmdCtlAt s.phys p).getLsbD 14 = true → c45At t.phys p dev target = d ∧
        (∀ q e x, ¬(q = p ∧ e = dev ∧ x = target) → c45At t.phys q e x = c45At s.phys q e x) ∧
        t.phys.c22 = s.phys.c22 ∧ t.phys.mmdAddr = s.phys.mmdAddr) ∧
      t.seq = s.seq ∧ t.ser = s.ser ∧ t.eeprom = s.eeprom ∧ t.cfg = s.cfg ∧
      t.env = { s.env with turns := ts }

/-- The completion of a read: MII_DATA[15:0] holds what the PHY delivered, ENG is free and BUSY reads 0; the PHYs and
the sequencer are as they were (R226, R242). -/
def Obligations.EngineCompletesRead : Prop :=
  ∀ (s : State) (p r : Field5) (d : Half) (ts : List Agent),
    s.env.turns = .engine :: ts → s.cfg.pins = false → s.mac.eng = .inflight .read p r d →
    p ∈ s.cfg.phyPresent → (r = 0xE#5 → selectReserved s.phys p = false) →
    ∃ t, step s = .next t ∧ t.mac.eng = .free ∧ t.mac.miiAcc.getLsbD 0 = false ∧ t.mac.regs = s.mac.regs ∧
      t.mac.miiData.setWidth 16 = (if r = 0xE#5 then mmdDataRead s.phys p else c22At s.phys p r) ∧
      t.mac.dataWindow = .completed ∧ t.phys = s.phys ∧
      t.seq = s.seq ∧ t.ser = s.ser ∧ t.eeprom = s.eeprom ∧ t.cfg = s.cfg ∧ t.env.port = s.env.port ∧
      t.env.turns = ts

/-- For an address without a PHY a transaction completes and no error is raised (R247): a write changes nothing, a read
loads a draw at the atomic level; at pin level the released wire reads 1 in every data slot and in the turnaround, so that
128 half clocks of a read load 0xFFFF with TA_OK 0 (R230, R234). -/
def Obligations.AbsentPhyCompletes : Prop :=
  (∀ (s : State) (p r : Field5) (rw : Rw) (d : Half) (ts : List Agent),
    s.env.turns = .engine :: ts → s.cfg.pins = false → s.mac.eng = .inflight rw p r d → p ∉ s.cfg.phyPresent →
    ∃ t, step s = .next t ∧ t.mac.eng = .free ∧ t.mac.miiAcc.getLsbD 0 = false ∧ t.mac.regs = s.mac.regs ∧
      t.phys = s.phys ∧ t.seq = s.seq ∧ t.ser = s.ser ∧ t.eeprom = s.eeprom ∧ t.cfg = s.cfg ∧
      (rw = .write → t.mac.miiData = s.mac.miiData) ∧
      (rw = .read → t.mac.miiData.setWidth 16 = (Config.freeWord s.env.tick).setWidth 16)) ∧
  (∀ (s : State) (p r : Field5) (d : Half), FrameStarted .read p r d s → p ∉ s.cfg.phyPresent →
    ∃ t, execTimes (.frameRead p r) 128 s = .next t ∧ t.mac.eng = .free ∧ t.mac.miiAcc.getLsbD 0 = false ∧
      t.mac.miiData.setWidth 16 = 0xFFFF#16 ∧ t.wire.shift = 0xFFFF#16 ∧ t.wire.taOk = false ∧
      t.mac.regs = s.mac.regs ∧ t.phys = s.phys ∧ t.seq = s.seq ∧ t.ser = s.ser ∧ t.eeprom = s.eeprom ∧
      t.cfg = s.cfg)

/-! ### The PHY -/

/-- MMD_ADDR and MMD_DATA. Presented by itself on a free engine an address-select word starts a Clause-22 write of it to
index 0xD of the PHY at PHY_ADDR, through MII_DATA and MII_ACC (R61): that it goes to PHY_ADDR is the model's choice
(log 18). Where the write of the word to index 0xD of any PHY is in flight, its completion by the engine leaves the word in
MMDCTL and touches no other register (R226, R244); with no PHY there it changes nothing (R247). -/
def Obligations.SelectWordStored : Prop :=
  ∀ (devad : Field5) (m : Bool) (s : State),
    let i : Instr := if m then .mmdData devad else .mmdAddr devad
    let v : Half := devad.setWidth 16 ||| (if m then 0x4000#16 else 0#16)
    (s.mac.eng = .free → s.cfg.wf → ∃ t, exec i s = .next t ∧
      t.mac = { s.mac with
        eng := .inflight .write s.cfg.phyAddr 0xD#5 v, miiData := v.setWidth 32, dataWindow := .undefined
        miiAcc := accWord s.cfg.phyAddr 0xD#5 s.cfg.writeOpcode } ∧
      t.mac.miiAcc.getLsbD 0 = true ∧ SameBeyondMac s t ∧ t.seq = s.seq ∧ t.ser = s.ser) ∧
    (∀ p, s.mac.eng = .inflight .write p 0xD#5 v → s.cfg.pins = false → ∃ t, exec i s = .next t ∧
      (p ∈ s.cfg.phyPresent → mmdCtlAt t.phys p = v) ∧
      (∀ q j, ¬(q = p ∧ j = 0xD#5 ∧ p ∈ s.cfg.phyPresent) → c22At t.phys q j = c22At s.phys q j) ∧
      t.phys.mmdAddr = s.phys.mmdAddr ∧ t.phys.c45 = s.phys.c45 ∧
      t.mac.eng = .free ∧ t.mac.miiAcc.getLsbD 0 = false ∧ t.mac.miiData = s.mac.miiData ∧
      t.mac.regs = s.mac.regs ∧ t.seq = s.seq ∧ t.ser = s.ser ∧ t.eeprom = s.eeprom ∧ t.cfg = s.cfg ∧ t.env = s.env)

/-- An access to index 0xE in address mode reaches the address latch, in data mode the register the latch points to,
and changes nothing else; reads in either mode return what is there (R245). -/
def Obligations.DataRegisterAccess : Prop :=
  ∀ (p : Field5) (v : Half) (s : State), p ∈ s.cfg.phyPresent → selectReserved s.phys p = false →
    let d := (mmdCtlAt s.phys p).setWidth 5
    let a := mmdAddrAt s.phys p d
    ∃ f, phyWrite p 0xE#5 v s = .next { s with phys := f } ∧ f.c22 = s.phys.c22 ∧
      ((mmdCtlAt s.phys p).getLsbD 14 = false →
        mmdAddrAt f p d = v ∧ f.c45 = s.phys.c45 ∧
        (∀ q e, ¬(q = p ∧ e = d) → mmdAddrAt f q e = mmdAddrAt s.phys q e) ∧
        phyRead p 0xE#5 s = .next (a, s)) ∧
      ((mmdCtlAt s.phys p).getLsbD 14 = true →
        c45At f p d a = v ∧ f.mmdAddr = s.phys.mmdAddr ∧
        (∀ q e r, ¬(q = p ∧ e = d ∧ r = a) → c45At f q e r = c45At s.phys q e r) ∧
        phyRead p 0xE#5 s = .next (c45At s.phys p d a, s))

/-- The four writes of a Clause-45 write leave `MMDCTL[p] = 0x4000 | d`, `MMDADDR[p][d] = r` and the datum in
C45[p][d][r], and no other register changes (R206, R210). -/
def Obligations.FourWritesReachClause45 : Prop :=
  ∀ (p d : Field5) (r v : Half) (s : State), p ∈ s.cfg.phyPresent →
    ∃ f, andThen (phyWrite p 0xD#5 (d.setWidth 16) s) (fun s1 =>
        andThen (phyWrite p 0xE#5 r s1) fun s2 =>
        andThen (phyWrite p 0xD#5 (d.setWidth 16 ||| 0x4000#16) s2) fun s3 => phyWrite p 0xE#5 v s3) =
          .next { s with phys := f } ∧
      mmdCtlAt f p = d.setWidth 16 ||| 0x4000#16 ∧ mmdAddrAt f p d = r ∧ c45At f p d r = v ∧
      (∀ q j, ¬(q = p ∧ j = 0xD#5) → c22At f q j = c22At s.phys q j) ∧
      (∀ q e, ¬(q = p ∧ e = d) → mmdAddrAt f q e = mmdAddrAt s.phys q e) ∧
      (∀ q e x, ¬(q = p ∧ e = d ∧ x = r) → c45At f q e x = c45At s.phys q e x)

/-- An access to index 0xE while MMDCTL holds a written word with reserved bits has no rule (U5). -/
def Obligations.ReservedSelectRefused : Prop :=
  ∀ (p : Field5) (v w : Half) (s : State), p ∈ s.cfg.phyPresent →
    Memory.read s.phys.c22 (c22Key p 0xD#5) = some w → w &&& 0xBFE0#16 ≠ 0#16 →
    phyWrite p 0xE#5 v s = .refused (.reservedSelectWord w) ∧ phyRead p 0xE#5 s = .refused (.reservedSelectWord w)

/-! ### The frame engine -/

/-- The start of a frame (R233): its record in flight, BUSY 1, SLOT 0, PHASE LOW, MDC 0, the first preamble bit driven.
That a frame presented by itself to a free engine starts so is the model's choice (log 10): it is launched through MII_ACC,
and the datum of a write frame through MII_DATA (R61). -/
def Obligations.FrameStarts : Prop :=
  ∀ (p r : Field5) (d : Half) (s : State), s.mac.eng = .free → s.cfg.wf →
    (∃ t x, exec (.frameRead p r) s = .next t ∧ t.mac.eng = .inflight .read p r x ∧
      t.mac.miiAcc = accWord p r s.cfg.readOpcode ∧ t.mac.miiAcc.getLsbD 0 = true ∧
      t.wire.slot = 0#6 ∧ t.wire.phase = .low ∧ t.wire.mdc = false ∧ t.wire.mdioOE = true ∧ t.wire.mdioO = true ∧
      t.seq = s.seq ∧ t.ser = s.ser ∧ t.mac.miiData = s.mac.miiData ∧ t.mac.regs = s.mac.regs ∧ SameBeyondMac s t) ∧
    (∃ t, exec (.frameWrite p r d) s = .next t ∧ t.mac.eng = .inflight .write p r d ∧
      t.mac.miiAcc = accWord p r s.cfg.writeOpcode ∧ t.mac.miiAcc.getLsbD 0 = true ∧
      t.wire.slot = 0#6 ∧ t.wire.phase = .low ∧ t.wire.mdc = false ∧ t.wire.mdioOE = true ∧ t.wire.mdioO = true ∧
      t.seq = s.seq ∧ t.ser = s.ser ∧ t.mac.miiData = d.setWidth 32 ∧ t.mac.regs = s.mac.regs ∧ SameBeyondMac s t)

/-- The rising edge of a slot before the last (R233): MDC 1, PHASE HIGH, the level of the wire is sampled; nothing but
the wire changes. -/
def Obligations.RisingEdgeSamples : Prop :=
  ∀ (p r : Field5) (d : Half) (s : State), s.wire.phase = .low → s.wire.slot ≠ 63#6 →
    (s.mac.eng = .inflight .read p r d → ∃ t, exec (.frameRead p r) s = .next t ∧ t = { s with wire := t.wire } ∧
      t.wire.mdc = true ∧ t.wire.phase = .high ∧ t.wire.slot = s.wire.slot ∧
      t.wire.rx = (s.wire.rx <<< 1) ||| (if lineLevel s.wire then 1#64 else 0#64) ∧
      t.wire.mdioOE = s.wire.mdioOE ∧ t.wire.mdioO = s.wire.mdioO ∧
      (s.wire.slot.toNat = 47 → t.wire.taOk = !lineLevel s.wire) ∧
      (48 ≤ s.wire.slot.toNat →
        t.wire.shift = (s.wire.shift <<< 1) ||| (if lineLevel s.wire then 1#16 else 0#16)) ∧
      (s.wire.slot.toNat < 48 → t.wire.shift = s.wire.shift)) ∧
    (s.mac.eng = .inflight .write p r d → ∃ t, exec (.frameWrite p r d) s = .next t ∧ t = { s with wire := t.wire } ∧
      t.wire.mdc = true ∧ t.wire.phase = .high ∧ t.wire.slot = s.wire.slot ∧
      t.wire.rx = (s.wire.rx <<< 1) ||| (if lineLevel s.wire then 1#64 else 0#64) ∧
      t.wire.mdioOE = s.wire.mdioOE ∧ t.wire.mdioO = s.wire.mdioO ∧ t.wire.shift = s.wire.shift ∧
      t.wire.taOk = s.wire.taOk)

/-- From the start of a write frame the master drives, at the beginning of slot k, the k-th bit of the frame's 64 slots
(R97, R232, R233). -/
def Obligations.WriteFrameDrivesItsBits : Prop :=
  ∀ (p r : Field5) (d : Half) (s : State) (k : Nat), FrameStarted .write p r d s → k < 64 →
    ∃ t, execTimes (.frameWrite p r d) (2 * k) s = .next t ∧
      t = { s with wire := t.wire } ∧ t.wire.slot.toNat = k ∧ t.wire.phase = .low ∧ t.wire.mdc = false ∧
      t.wire.mdioOE = true ∧
      ∀ w, encode s.cfg (.frameWrite p r d) = .frame w → t.wire.mdioO = w.getLsbD (63 - k)

/-- 128 half clocks of a write frame have exactly the effect of the atomic completion (R238): the PHYs end as
`PhyWrite(p, r, wdata)` leaves them, the MAC and everything else but the pins are the same, and ENG becomes free at the
end and no earlier. -/
def Obligations.WriteFrameRefinesCompletion : Prop :=
  ∀ (p r : Field5) (d : Half) (s t : State), FrameStarted .write p r d s → engineComplete s = .next t →
    (∃ u, execTimes (.frameWrite p r d) 128 s = .next u ∧ u = { t with wire := u.wire } ∧
      u.wire.mdc = false ∧ u.wire.mdioOE = false ∧ u.wire.phyOE = 0#32) ∧
    (∀ k, k < 128 → ∃ u, execTimes (.frameWrite p r d) k s = .next u ∧ u.mac = s.mac)

/-- 128 half clocks of a read frame to a present PHY have exactly the effect of the atomic completion (R238): the
sixteen sampled bits are `PhyRead(p, r)`, most significant first, TA_OK is set, everything else but the pins is the
same, and ENG becomes free at the end and no earlier. -/
def Obligations.ReadFrameRefinesCompletion : Prop :=
  ∀ (p r : Field5) (d : Half) (s t : State), FrameStarted .read p r d s → p ∈ s.cfg.phyPresent →
    engineComplete s = .next t →
    (∃ u, execTimes (.frameRead p r) 128 s = .next u ∧ u = { t with wire := u.wire } ∧
      u.wire.shift = t.mac.miiData.setWidth 16 ∧ u.wire.taOk = true ∧
      u.wire.mdc = false ∧ u.wire.mdioOE = false ∧ u.wire.phyOE = 0#32) ∧
    (∀ k, k < 128 → ∃ u, execTimes (.frameRead p r) k s = .next u ∧ u.mac = s.mac)

/-- The falling edge of slot 63 ends the frame (R235): the pins are idle, ENG is free, BUSY reads 0; a read loads SHIFT
into MII_DATA[15:0], a write leaves MII_DATA; PHYs and sequencer are as they were. -/
def Obligations.FrameEndFreesEngine : Prop :=
  ∀ (p r : Field5) (d : Half) (s : State), s.wire.phase = .high → s.wire.slot = 63#6 →
    (s.mac.eng = .inflight .read p r d → ∃ t, exec (.frameRead p r) s = .next t ∧ t.mac.eng = .free ∧
      t.mac.miiAcc.getLsbD 0 = false ∧ t.mac.miiData.setWidth 16 = s.wire.shift ∧ t.mac.dataWindow = .completed ∧
      t.mac.regs = s.mac.regs ∧ t.wire.mdc = false ∧ t.wire.mdioOE = false ∧ t.wire.phyOE = 0#32 ∧
      SameBeyondMac s t ∧ t.seq = s.seq ∧ t.ser = s.ser) ∧
    (s.mac.eng = .inflight .write p r d → ∃ t, exec (.frameWrite p r d) s = .next t ∧ t.mac.eng = .free ∧
      t.mac.miiAcc.getLsbD 0 = false ∧ t.mac.miiData = s.mac.miiData ∧ t.mac.regs = s.mac.regs ∧
      t.wire.mdc = false ∧ t.wire.mdioOE = false ∧ t.wire.phyOE = 0#32 ∧
      SameBeyondMac s t ∧ t.seq = s.seq ∧ t.ser = s.ser)

/-! ### The EEPROM commands (context; log 21, log 22) -/

/-- The 3-bit code and the 9-bit address that a command is submitted with (R280); the address of one that has none is
free (log 21). -/
def epcSubmission : EpcOp → BitVec 3 × BitVec 9
  | .read a => (0b000#3, a)
  | .writeDisable => (0b001#3, Config.epcFreeAddr 0b001#3)
  | .writeEnable => (0b010#3, Config.epcFreeAddr 0b010#3)
  | .write a _ => (0b011#3, a)
  | .eraseAll => (0b110#3, Config.epcFreeAddr 0b110#3)

/-- The register write that submits a command; the layout of its word is free (R280; log 21). -/
def epcSubmit (op : EpcOp) : Instr := .regWrite 0x040#32 (epcRegisterWord (epcSubmission op).1 (epcSubmission op).2)

/-- The register write that hands over the byte of a write (R280); no other command has one. -/
def epcHandOver : EpcOp → Option Instr
  | .write _ d => some (.regWrite 0x044#32 (d.setWidth 32))
  | _ => none

/-- An EPC command issues a register command: it does what that command does, and comes to a phase. -/
def issues (i j : Instr) (ph : EpcPhase) (s : State) : Prop :=
  ∃ t, exec j s = .next t ∧ exec i s = .next { t with env := { t.env with epcPhase := ph } }

/-- An EPC command is REG_READ and REG_WRITE only (R280): it polls bit 31 of 0x040 until clear, hands over the byte of a
write, submits, and polls until clear; the poll that reads it clear ends the command, and so does a register command that
has failed, its exception in STATUS, INFO and RES (R312). The order of the hand-over is the model's (log 22), and that the
command has no step while a register command runs (log 29). -/
def Obligations.EpcIssuesRegisterCommands : Prop :=
  ∀ (op : EpcOp) (s : State),
    let i := epcInstr op
    let poll : Instr := .regRead 0x040#32
    let ends := exec i s = .next { s with env := { s.env with epcPhase := .start } }
    (s.seq.mode = .run → exec i s = .next s) ∧
    (s.seq.mode = .idle →
      (s.env.epcPhase = .start → issues i poll .polling s) ∧
      (s.env.epcPhase ≠ .start → s.seq.status ≠ 0#32 → ends) ∧
      (s.env.epcPhase ≠ .start → s.seq.status = 0#32 →
        (s.env.epcPhase = .polling → s.seq.res.getLsbD 31 = true → issues i poll .polling s) ∧
        (s.env.epcPhase = .polling → s.seq.res.getLsbD 31 = false →
          match epcHandOver op with
          | some j => issues i j .data s
          | none => issues i (epcSubmit op) .submitted s) ∧
        (s.env.epcPhase = .data → issues i (epcSubmit op) .submitted s) ∧
        (s.env.epcPhase = .submitted → issues i poll .settling s) ∧
        (s.env.epcPhase = .settling → s.seq.res.getLsbD 31 = true → issues i poll .settling s) ∧
        (s.env.epcPhase = .settling → s.seq.res.getLsbD 31 = false → ends)))

/-! ### The step -/

/-- A step of the client's runs the instruction at the head of the port: it is `exec` of the decoded instruction,
followed by taking the item from the port where it is over (log 9, log 10). -/
def Obligations.StepRunsPresented : Prop :=
  ∀ (s : State) (e : Encoded) (items : List Encoded) (ts : List Agent) (i : Instr),
    s.env.turns = .client :: ts → s.env.port = e :: items → decode s.cfg e = .ok i → mustWait i s = false →
    let s' := { s with env := { s.env with turns := ts } }
    step s = andThen (exec i s') fun t => .next (retire i t)

/-- A step of the sequencer's runs the command the latches hold; a step of the engine's runs, at pin level, the frame in
flight, and at the register level the address-select word whose write to index 0xD is in flight. -/
def Obligations.StepRunsCurrent : Prop :=
  ∀ (s : State) (ts : List Agent),
    (∀ i, s.env.turns = .sequencer :: ts → s.seq.mode = .run → runningInstr s = .ok i →
      step s = exec i { s with env := { s.env with turns := ts } }) ∧
    (∀ rw p r d, s.env.turns = .engine :: ts → s.cfg.pins = true → s.mac.eng = .inflight rw p r d →
      step s = exec (frameOf rw p r d) { s with env := { s.env with turns := ts } }) ∧
    (∀ p v i, s.env.turns = .engine :: ts → s.cfg.pins = false → s.mac.eng = .inflight .write p 0xD#5 v →
      decode s.cfg (.mmd v) = .ok i → step s = exec i { s with env := { s.env with turns := ts } })

/-- A PHY is passive (R240): its registers change only in a step of the MDIO engine. -/
def Obligations.PhyPassive : Prop :=
  ∀ (s t : State), step s = .next t → (takeTurn s).1 ≠ .engine → t.phys = s.phys

/-- A step of the MDIO engine changes nothing of the sequencer, of the serializer or of the port: the busy bit and
MII_DATA are all the sequencer can see of it (R6). -/
def Obligations.EngineLeavesSequencer : Prop :=
  ∀ (s t : State), step s = .next t → (takeTurn s).1 = .engine →
    t.seq = s.seq ∧ t.ser = s.ser ∧ t.env.port = s.env.port ∧ t.mac.regs = s.mac.regs ∧ t.eeprom = s.eeprom

/-- No step changes the configuration (R21). -/
def Obligations.ConfigurationConstant : Prop :=
  ∀ (s t : State), step s = .next t → t.cfg = s.cfg

/-- The reset values the spec decides (R40, D17): MODE, LOCK, UPC, POLLCNT, RETRY, and the pins at rest. -/
def Obligations.ResetValues : Prop :=
  State.reset.seq.mode = .idle ∧ State.reset.seq.lock = false ∧ State.reset.seq.upc = 0#5 ∧
  State.reset.seq.pollCnt = 0 ∧ State.reset.ser.retry = 0 ∧ State.reset.wire.mdc = false ∧
  State.reset.wire.mdioOE = false ∧ State.reset.wire.phyOE = 0#32 ∧ lineLevel State.reset.wire = true

/-- The invariant holds at reset. -/
def Obligations.InvariantAtReset : Prop := Inv State.reset

/-- Every step keeps the invariant (R25, R26, R31, R99, R231 and the canonical form of the memories). -/
def Obligations.InvariantKept : Prop := ∀ (s t : State), Inv s → step s = .next t → Inv t

/-- Over the USB Transport, where no agent but the sequencer writes the MII registers, no step is a fault of the run
(R224, R225, U1). -/
def Obligations.DisciplineExcludesFaults : Prop := ∀ (s : State), Disciplined s → stepFaultFree s

/-- Every step keeps the poll discipline (R171, R350 Z1). -/
def Obligations.DisciplineKept : Prop := ∀ (s t : State), Disciplined s → step s = .next t → Disciplined t

/-! ### Whole commands -/

/-- One micro-operation of the sequencer after another. -/
def sequencerTurns (n : Nat) : List Agent := List.replicate n .sequencer

/-- The turns of a C22_WRITE whose completion falls after n reads of BUSY by the closing POLL: every place it can
have (R75). -/
def c22WriteTurns (n : Nat) : List Agent := .client :: sequencerTurns (4 + n) ++ .engine :: sequencerTurns 2

/-- The turns of a C22_READ whose completion falls after n reads of BUSY by the closing POLL. -/
def c22ReadTurns (n : Nat) : List Agent := .client :: sequencerTurns (3 + n) ++ .engine :: sequencerTurns 3

/-- The turns of a C45_WRITE whose four completions fall after so many reads of BUSY by their closing POLLs. -/
def c45WriteTurns (n1 n2 n3 n4 : Nat) : List Agent :=
  .client :: sequencerTurns (4 + n1) ++ .engine :: sequencerTurns (4 + n2) ++ .engine :: sequencerTurns (4 + n3) ++
    .engine :: sequencerTurns (4 + n4) ++ .engine :: sequencerTurns 2

/-- The turns of a C45_READ whose four completions fall after so many reads of BUSY by their closing POLLs. -/
def c45ReadTurns (n1 n2 n3 n4 : Nat) : List Agent :=
  .client :: sequencerTurns (4 + n1) ++ .engine :: sequencerTurns (4 + n2) ++ .engine :: sequencerTurns (4 + n3) ++
    .engine :: sequencerTurns (3 + n4) ++ .engine :: sequencerTurns 3

/-- The block is idle, over a Transport, of either kind, that performs the next n operations, at the register level of
the engine. -/
structure ReadyFor (n : Nat) (s : State) : Prop where
  idle : s.seq.mode = .idle
  config : s.cfg.wf
  atomicEngine : s.cfg.pins = false
  answers : transportPerformsNext n s

/-- A POLL may read BUSY n times: below POLL_LIMIT, where there is one (R174). -/
abbrev pollsAllowed (n : Nat) (s : State) : Prop := ∀ limit, s.cfg.pollLimit = some limit → n < limit

/-- REG_READ and REG_WRITE, run to their end over either Transport (R122, R123): STATUS 0, the sequencer idle, RES the
register or 0 for a write. MII_ACC has BUSY in bit 0, MII_DATA is as stored or has the datum of a completed read in bits
15:0 (R222) and is overwritten, a legal access word written to MII_ACC launches. The rest is the model's: another register is a draw of the MAC's that changes nothing, and
only records what is written to it (log 23), but for the EPC registers (log 21, log 22); a word written to 0x040 is left to
`WrRegWritesRegister`. -/
def Obligations.RegisterCommandsComplete : Prop :=
  ∀ (s : State) (a v : Word) (items : List Encoded) (ts : List Agent), ReadyFor 1 s →
    s.env.turns = .client :: sequencerTurns 3 ++ ts → a.toNat < 0x1000 →
    (s.env.port = .cmd [0x08#32, a] :: items →
      ∃ t, Host.Core.run Sys2Proof.core 4 s = .next t ∧
        t.seq.mode = .idle ∧ t.seq.lock = false ∧ t.seq.status = 0#32 ∧ t.seq.info = 0#32 ∧
        (a = 0x120#32 → t.seq.res.getLsbD 0 = engBusy s.mac.eng) ∧
        (a = 0x124#32 → s.mac.eng = .free → s.mac.dataWindow = .stored → t.seq.res = s.mac.miiData) ∧
        (a = 0x124#32 → s.mac.eng = .free → s.mac.dataWindow ≠ .undefined →
          t.seq.res.setWidth 16 = s.mac.miiData.setWidth 16) ∧
        (a = 0x040#32 → t.seq.res.getLsbD 31 = t.eeprom.inProgress.isSome ∧
          (t.eeprom.inProgress.isSome = true → t.eeprom = s.eeprom) ∧
          (s.eeprom.inProgress = none → t.eeprom = s.eeprom)) ∧
        (a = 0x044#32 → s.eeprom.inProgress = none → t.seq.res.setWidth 8 = s.eeprom.data) ∧
        (a ≠ 0x040#32 → t.eeprom = s.eeprom) ∧
        (a ≠ 0x120#32 → a ≠ 0x124#32 → a ≠ 0x040#32 → a ≠ 0x044#32 →
          t.seq.res = Config.freeMacRegister s.env.tick (a.setWidth 12) (Memory.read s.mac.regs a.toNat)) ∧
        t.mac = s.mac ∧ t.wire = s.wire ∧ t.phys = s.phys ∧ t.cfg = s.cfg ∧
        t.env.port = items ∧ t.env.turns = ts) ∧
    (s.env.port = .cmd [0x09#32, a, v] :: items → a ≠ 0x120#32 → a ≠ 0x040#32 →
      (a = 0x124#32 → s.mac.eng = .free) →
      ∃ t, Host.Core.run Sys2Proof.core 4 s = .next t ∧
        t.seq.mode = .idle ∧ t.seq.lock = false ∧ t.seq.status = 0#32 ∧ t.seq.info = 0#32 ∧ t.seq.res = 0#32 ∧
        (a = 0x124#32 → t.mac = { s.mac with miiData := v, dataWindow := .stored }) ∧
        (a = 0x044#32 → t.mac = s.mac ∧ t.eeprom = { s.eeprom with data := v.setWidth 8 }) ∧
        (a ≠ 0x044#32 → t.eeprom = s.eeprom) ∧
        (a ≠ 0x124#32 → a ≠ 0x044#32 →
          t.mac = { s.mac with regs := t.mac.regs } ∧ Memory.read t.mac.regs a.toNat = some v ∧
          ∀ b : Nat, b ≠ a.toNat → Memory.read t.mac.regs b = Memory.read s.mac.regs b) ∧
        t.wire = s.wire ∧ t.phys = s.phys ∧ t.cfg = s.cfg ∧ t.env.port = items ∧ t.env.turns = ts) ∧
    (∀ p r rw, s.env.port = .cmd [0x09#32, a, v] :: items → a = 0x120#32 → s.mac.eng = .free →
      v = accWord p r (opcodeOf s.cfg rw) →
      ∃ t d, Host.Core.run Sys2Proof.core 4 s = .next t ∧
        t.seq.mode = .idle ∧ t.seq.lock = false ∧ t.seq.status = 0#32 ∧ t.seq.info = 0#32 ∧ t.seq.res = 0#32 ∧
        t.mac.eng = .inflight rw p r d ∧ (rw = .write → s.mac.dataWindow ≠ .undefined → d = s.mac.miiData.setWidth 16) ∧
        t.mac.miiAcc = v ∧ t.mac.regs = s.mac.regs ∧ t.mac.miiData = s.mac.miiData ∧ t.phys = s.phys ∧
        t.eeprom = s.eeprom ∧ t.cfg = s.cfg ∧ t.env.port = items ∧ t.env.turns = ts)

/-- The register commands of an EPC command that finds the bit clear at once, and set n times after submission. -/
def epcRegisterCommands (op : EpcOp) (n : Nat) : Nat := (if (epcHandOver op).isSome then 4 else 3) + n

/-- The turns of an EPC command of k register commands: each is issued by the client and run by the sequencer. -/
def epcTurns (k : Nat) : List Agent := (List.replicate k (.client :: sequencerTurns 3)).flatten ++ [.client]

/-- An EPC command, run to its end over either Transport with none in progress before (R280): EPC_READ has put the byte of
its address in the EPC-data register; EPC_WRITE has stored its byte where write-enable is set, every other byte unchanged;
EPC_EWEN and EPC_EWDS have set and cleared write-enable; EPC_ERASE_ALL with write-enable leaves no byte that was written.
STATUS 0, the sequencer idle, bit 31 clear, and nothing but the EEPROM changed. The moment of completion, found by the
n-th poll after submission for any n, is the model's (log 22), and so is the layout of the word submitted (log 21). -/
def Obligations.EpcCompletes : Prop :=
  ∀ (op : EpcOp) (n : Nat) (s : State) (e : Encoded) (items : List Encoded) (ts : List Agent) (rest : List Bool),
    let k := epcRegisterCommands op n
    ReadyFor k s → s.env.epcPhase = .start → s.eeprom.inProgress = none →
    s.env.port = e :: items → decode s.cfg e = .ok (epcInstr op) → s.env.turns = epcTurns k ++ ts →
    s.env.epcPolls = List.replicate n false ++ true :: rest →
    ∃ t, Host.Core.run Sys2Proof.core (4 * k + 1) s = .next t ∧
      t.seq.mode = .idle ∧ t.seq.lock = false ∧ t.seq.status = 0#32 ∧ t.seq.info = 0#32 ∧
      t.seq.res.getLsbD 31 = false ∧ t.eeprom.inProgress = none ∧
      (∀ a, op = .read a → t.eeprom = { s.eeprom with data := eepromAt s.eeprom a }) ∧
      (∀ a d, op = .write a d → t.eeprom.data = d ∧ t.eeprom.enabled = s.eeprom.enabled ∧
        (s.eeprom.enabled = true → eepromAt t.eeprom a = d) ∧
        ∀ b, b ≠ a → eepromAt t.eeprom b = eepromAt s.eeprom b) ∧
      (op = .writeEnable → t.eeprom = { s.eeprom with enabled := true }) ∧
      (op = .writeDisable → t.eeprom = { s.eeprom with enabled := false }) ∧
      (op = .eraseAll → t.eeprom.data = s.eeprom.data ∧ t.eeprom.enabled = s.eeprom.enabled ∧
        (s.eeprom.enabled = true → ∀ a, eepromAt t.eeprom a = Config.unwrittenEeprom t.eeprom.epoch a) ∧
        (t.eeprom.cells = [] ∨ t.eeprom.cells = s.eeprom.cells ∧ t.eeprom.epoch = s.eeprom.epoch)) ∧
      t.mac = s.mac ∧ t.wire = s.wire ∧ t.phys = s.phys ∧ t.cfg = s.cfg ∧ t.env.port = items ∧ t.env.turns = ts ∧
      t.env.epcPolls = rest ∧ t.env.epcPhase = .start

/-- C22_WRITE, run to its end over either Transport, its completion anywhere after the launch, so that its closing POLL
reads BUSY 1 any number n of times that POLL_LIMIT allows (R75, R181): the PHYs are as `PhyWrite(p, r, d)` leaves them, for
any index and any address (R242, R245, R247), STATUS 0, RES 0, the sequencer idle, the engine free. -/
def Obligations.C22WriteCompletes : Prop :=
  ∀ (n : Nat) (s : State) (p r d : Word) (f : Phys) (items : List Encoded) (ts : List Agent),
    ReadyFor (4 + n) s → s.mac.eng = .free → pollsAllowed n s →
    s.env.port = .cmd [0x11#32, p, r, d] :: items → s.env.turns = c22WriteTurns n ++ ts →
    p.toNat < 32 → r.toNat < 32 → d.toNat < 0x10000 →
    phyWriteRegs s.cfg.phyPresent s.phys (p.setWidth 5) (r.setWidth 5) (d.setWidth 16) = .next f →
    ∃ t, Host.Core.run Sys2Proof.core (8 + n) s = .next t ∧
      t.seq.mode = .idle ∧ t.seq.lock = false ∧ t.seq.status = 0#32 ∧ t.seq.info = 0#32 ∧ t.seq.res = 0#32 ∧
      t.mac.eng = .free ∧ t.mac.regs = s.mac.regs ∧ t.phys = f ∧
      (p.setWidth 5 ∈ s.cfg.phyPresent → r ≠ 0xE#32 →
        c22At t.phys (p.setWidth 5) (r.setWidth 5) = d.setWidth 16 ∧
        (∀ q j, ¬(q = p.setWidth 5 ∧ j = r.setWidth 5) → c22At t.phys q j = c22At s.phys q j) ∧
        t.phys.mmdAddr = s.phys.mmdAddr ∧ t.phys.c45 = s.phys.c45) ∧
      t.eeprom = s.eeprom ∧ t.cfg = s.cfg ∧ t.env.port = items ∧ t.env.turns = ts

/-- C22_READ, run to its end over either Transport, its completion anywhere after the launch (R75, R180): RES is the
zero-extended 16 bits of `PhyRead(p, r)`, for any index of a present PHY (R242, R245), and some 16 bits for an address
without one (R247); STATUS 0, no PHY register changed. -/
def Obligations.C22ReadCompletes : Prop :=
  ∀ (n : Nat) (s : State) (p r : Word) (items : List Encoded) (ts : List Agent),
    ReadyFor (4 + n) s → s.mac.eng = .free → pollsAllowed n s →
    s.env.port = .cmd [0x10#32, p, r] :: items → s.env.turns = c22ReadTurns n ++ ts →
    p.toNat < 32 → r.toNat < 32 →
    (p.setWidth 5 ∈ s.cfg.phyPresent → r = 0xE#32 → selectReserved s.phys (p.setWidth 5) = false) →
    ∃ t, Host.Core.run Sys2Proof.core (8 + n) s = .next t ∧
      t.seq.mode = .idle ∧ t.seq.lock = false ∧ t.seq.status = 0#32 ∧ t.seq.info = 0#32 ∧
      t.seq.res.toNat < 0x10000 ∧
      (p.setWidth 5 ∈ s.cfg.phyPresent →
        t.seq.res = (if r = 0xE#32 then mmdDataRead s.phys (p.setWidth 5)
          else c22At s.phys (p.setWidth 5) (r.setWidth 5)).setWidth 32) ∧
      t.mac.eng = .free ∧ t.mac.regs = s.mac.regs ∧ t.phys = s.phys ∧ t.eeprom = s.eeprom ∧ t.cfg = s.cfg ∧
      t.env.port = items ∧ t.env.turns = ts

/-- A C45_WRITE followed by a C45_READ of the same register of a present PHY returns the value written (R209), both run
to their end over either Transport, each of the eight completions anywhere after its launch (R75); MMDCTL and MMDADDR are
left as R210 says and no other Clause-45 register changes. -/
def Obligations.C45RoundTrip : Prop :=
  ∀ (n1 n2 n3 n4 m1 m2 m3 m4 : Nat) (s : State) (p v x d : Word) (items : List Encoded) (ts : List Agent),
    ReadyFor (32 + (n1 + n2 + n3 + n4) + (m1 + m2 + m3 + m4)) s → s.mac.eng = .free →
    (∀ n ∈ [n1, n2, n3, n4, m1, m2, m3, m4], pollsAllowed n s) →
    s.env.port = .cmd [0x13#32, p, v, x, d] :: .cmd [0x12#32, p, v, x] :: items →
    s.env.turns = c45WriteTurns n1 n2 n3 n4 ++ (c45ReadTurns m1 m2 m3 m4 ++ ts) →
    p.toNat < 32 → v.toNat < 32 → x.toNat < 0x10000 → d.toNat < 0x10000 → p.setWidth 5 ∈ s.cfg.phyPresent →
    (∃ t, Host.Core.run Sys2Proof.core (23 + (n1 + n2 + n3 + n4)) s = .next t ∧ t.seq.mode = .idle ∧
      t.seq.status = 0#32 ∧ t.seq.res = 0#32 ∧ t.mac.eng = .free ∧
      c45At t.phys (p.setWidth 5) (v.setWidth 5) (x.setWidth 16) = d.setWidth 16) ∧
    (∃ t, Host.Core.run Sys2Proof.core (46 + (n1 + n2 + n3 + n4) + (m1 + m2 + m3 + m4)) s = .next t ∧
      t.seq.mode = .idle ∧ t.seq.lock = false ∧
      t.seq.status = 0#32 ∧ t.seq.res = d ∧ t.mac.eng = .free ∧ t.mac.regs = s.mac.regs ∧
      mmdCtlAt t.phys (p.setWidth 5) = (v.setWidth 16 ||| 0x4000#16) ∧
      mmdAddrAt t.phys (p.setWidth 5) (v.setWidth 5) = x.setWidth 16 ∧
      c45At t.phys (p.setWidth 5) (v.setWidth 5) (x.setWidth 16) = d.setWidth 16 ∧
      (∀ q e y, ¬(q = p.setWidth 5 ∧ e = v.setWidth 5 ∧ y = x.setWidth 16) →
        c45At t.phys q e y = c45At s.phys q e y) ∧
      t.eeprom = s.eeprom ∧ t.cfg = s.cfg ∧ t.env.port = items ∧ t.env.turns = ts)

/-! ### The client operations (context) -/

/-- PHY_EDIT (R104, R271): masks that share a bit are rejected before any command; else it reads the register of
PHY_ADDR, computes the old value with the set bits 1 and the clear bits 0, writes it only if it differs, and returns it;
editing again with the same masks issues no write. -/
def Obligations.EditIsIdempotent : Prop :=
  ∀ (c : Config) (d r : Word) (setMask clearMask : Half),
    (setMask &&& clearMask ≠ 0#16 →
      phyEdit c d r setMask clearMask = .error ⟨.validation, 9#32, (setMask &&& clearMask).setWidth 32⟩) ∧
    (setMask &&& clearMask = 0#16 → ∃ e, phyEdit c d r setMask clearMask = .ok e ∧
      editGet e = .c45Read (c.phyAddr.setWidth 32) d r ∧
      ∀ old,
        (∀ k, k < 16 → (editResult e old).getLsbD k =
          (if setMask.getLsbD k then true else if clearMask.getLsbD k then false else old.getLsbD k)) ∧
        (editResult e old ≠ old →
          editSet e old = some (.c45Write (c.phyAddr.setWidth 32) d r ((editResult e old).setWidth 32))) ∧
        (editResult e old = old → editSet e old = none) ∧ editSet e (editResult e old) = none)

/-- PHY_RESET, PHY_SET_SPEED and PHY_SET_MASTER (R104, R272 to R274) are edits of register 0x0000 or 0x0834 of device 1
of PHY_ADDR; a speed other than 100 and 1000 is rejected before any command. What `get_speed` and `get_master` make of the
value returned is what was set, whatever the register held (R276, R277). -/
def Obligations.SpeedSetIsSpeedGot : Prop :=
  ∀ (c : Config) (old : Half),
    (∀ enable, phyReset c enable =
      phyEdit c 1#32 0x0000#32 (if enable then 0x8000#16 else 0#16) (if enable then 0#16 else 0x8000#16)) ∧
    (∀ speed, speed ≠ 100 → speed ≠ 1000 → phySetSpeed c speed = .error ⟨.validation, 10#32, 0#32⟩) ∧
    (∀ speed, speed = 100 ∨ speed = 1000 → ∃ e, phySetSpeed c speed = .ok e ∧
      editGet e = .c45Read (c.phyAddr.setWidth 32) 1#32 0x0000#32 ∧ editGet e = phyGetSpeed c ∧
      classifySpeed (editResult e old) = some speed ∧
      editResult e old &&& 0xDFBF#16 = old &&& 0xDFBF#16) ∧
    (∀ master, ∃ e, phySetMaster c master = .ok e ∧
      editGet e = .c45Read (c.phyAddr.setWidth 32) 1#32 0x0834#32 ∧ editGet e = phyGetMaster c ∧
      classifyMaster (editResult e old) = master ∧ editResult e old &&& 0xBFFF#16 = old &&& 0xBFFF#16)
end

