-- ==== Sys2Proof/Laws/Encoding.lean ====
section
/-! SUPPORT. The assembled words and buffers: each field of an assembly reads back. -/

namespace Sys2Proof

/-! ### The values of R7 -/

@[simp] theorem miiAccAddr_eq : miiAccAddr = 0x120#12 := rfl
@[simp] theorem miiDataAddr_eq : miiDataAddr = 0x124#12 := rfl
@[simp] theorem busyBit_eq : busyBit = 0 := rfl
@[simp] theorem phyadShift_eq : phyadShift = 11 := rfl
@[simp] theorem regadShift_eq : regadShift = 6 := rfl
@[simp] theorem mmdCtrlIdx_eq : mmdCtrlIdx = 0xD#5 := rfl
@[simp] theorem mmdDataIdx_eq : mmdDataIdx = 0xE#5 := rfl
@[simp] theorem mmdDataMode_eq : mmdDataMode = 0x4000#16 := rfl
@[simp] theorem drvOpRead_eq : drvOpRead = 8#32 := rfl
@[simp] theorem drvOpWrite_eq : drvOpWrite = 9#32 := rfl
@[simp] theorem drvStatusOk_eq : drvStatusOk = 0#32 := rfl
@[simp] theorem drvStatusBusy_eq : drvStatusBusy = 4#32 := rfl
@[simp] theorem drvStatusOff_eq : drvStatusOff = 8 := rfl
@[simp] theorem macFamilyCode_eq : macFamilyCode = 0x7801#16 := rfl
@[simp] theorem phyIdCode_eq : phyIdCode = 0xAE02#16 := rfl
@[simp] theorem regAddrBound_eq : regAddrBound = 0x1000 := rfl
@[simp] theorem epcCommandAddr_eq : epcCommandAddr = 0x040#12 := rfl
@[simp] theorem epcDataAddr_eq : epcDataAddr = 0x044#12 := rfl

/-! ### Little-endian words (R63, R98 (e)) -/

@[simp] theorem le32_length (v : Word) : (le32 v).length = 4 := rfl

/-- The four bytes of a word put together again are the word. -/
theorem le32_assemble (v : Word) :
    (v.extractLsb' 0 8).setWidth 32 ||| ((v.extractLsb' 8 8).setWidth 32 <<< 8) |||
      ((v.extractLsb' 16 8).setWidth 32 <<< 16) ||| ((v.extractLsb' 24 8).setWidth 32 <<< 24) = v := by
  apply BitVec.eq_of_getLsbD_eq
  intro i hi
  simp only [BitVec.getLsbD_or, BitVec.getLsbD_shiftLeft, BitVec.getLsbD_setWidth, BitVec.getLsbD_extractLsb']
  have h : i / 8 = 0 ∨ i / 8 = 1 ∨ i / 8 = 2 ∨ i / 8 = 3 := by omega
  rcases h with h | h | h | h
  all_goals
    first
    | (have h1 : i < 8 := by omega
       simp [h1, hi, show i < 16 by omega, show i < 24 by omega])
    | (have h1 : ¬ i < 8 := by omega
       have h2 : i < 16 := by omega
       simp [h1, h2, hi, show i < 24 by omega, show i - 8 < 8 by omega, show 8 + (i - 8) = i by omega,
         show i - 8 < 32 by omega])
    | (have h2 : ¬ i < 16 := by omega
       have h3 : i < 24 := by omega
       simp [h2, h3, hi, show ¬ i < 8 by omega, show ¬ i - 8 < 8 by omega, show i - 16 < 8 by omega,
         show 16 + (i - 16) = i by omega, show i - 16 < 32 by omega])
    | (have h3 : ¬ i < 24 := by omega
       simp [h3, hi, show ¬ i < 8 by omega, show ¬ i < 16 by omega, show ¬ i - 8 < 8 by omega,
         show ¬ i - 16 < 8 by omega, show i - 24 < 8 by omega, show 24 + (i - 24) = i by omega,
         show i - 24 < 32 by omega])

/-- The word at the offset where its four bytes stand (R142, R144). -/
theorem le32At_le32 (pre post : List Byte) (v : Word) (k : Nat) (h : pre.length = k) :
    le32At (pre ++ (le32 v ++ post)) k = v := by
  subst h
  simp only [le32At, le32, List.getD_eq_getElem?_getD]
  rw [List.getElem?_append_right (Nat.le_refl _), List.getElem?_append_right (Nat.le_add_right _ _),
    List.getElem?_append_right (Nat.le_add_right _ _), List.getElem?_append_right (Nat.le_add_right _ _)]
  simp only [Nat.sub_self, Nat.add_sub_cancel_left, List.cons_append, List.getElem?_cons_zero,
    List.getElem?_cons_succ, Option.getD_some]
  exact le32_assemble v

/-- The fields of a read request (R95, R142). -/
theorem drvReadBytes_fields (sel ifx a : Word) :
    (drvReadBytes sel ifx a).length = 16 ∧ le32At (drvReadBytes sel ifx a) 0 = sel ∧
    le32At (drvReadBytes sel ifx a) 4 = drvOpRead ∧ le32At (drvReadBytes sel ifx a) 8 = ifx ∧
    le32At (drvReadBytes sel ifx a) 12 = a := by
  refine ⟨rfl, ?_, ?_, ?_, ?_⟩
  · exact le32At_le32 [] (le32 drvOpRead ++ (le32 ifx ++ le32 a)) sel 0 rfl
  · exact le32At_le32 (le32 sel) (le32 ifx ++ le32 a) drvOpRead 4 rfl
  · exact le32At_le32 (le32 sel ++ le32 drvOpRead) (le32 a) ifx 8 rfl
  · exact le32At_le32 (le32 sel ++ le32 drvOpRead ++ le32 ifx) [] a 12 rfl

/-- The fields of a write request (R95, R143). -/
theorem drvWriteBytes_fields (sel ifx a v : Word) :
    (drvWriteBytes sel ifx a v).length = 20 ∧ le32At (drvWriteBytes sel ifx a v) 0 = sel ∧
    le32At (drvWriteBytes sel ifx a v) 4 = drvOpWrite ∧ le32At (drvWriteBytes sel ifx a v) 8 = ifx ∧
    le32At (drvWriteBytes sel ifx a v) 12 = a ∧ le32At (drvWriteBytes sel ifx a v) 16 = v := by
  refine ⟨rfl, ?_, ?_, ?_, ?_, ?_⟩
  · exact le32At_le32 [] (le32 drvOpWrite ++ (le32 ifx ++ (le32 a ++ le32 v))) sel 0 rfl
  · exact le32At_le32 (le32 sel) (le32 ifx ++ (le32 a ++ le32 v)) drvOpWrite 4 rfl
  · exact le32At_le32 (le32 sel ++ le32 drvOpWrite) (le32 a ++ le32 v) ifx 8 rfl
  · exact le32At_le32 (le32 sel ++ le32 drvOpWrite ++ le32 ifx) (le32 v) a 12 rfl
  · exact le32At_le32 (le32 sel ++ le32 drvOpWrite ++ le32 ifx ++ le32 a) [] v 16 rfl

/-! ### The access word (R92) -/

/-- Each field of an access word reads back. -/
theorem accWord_fields (p r : Field5) (o : BitVec 6) :
    accPhyad (accWord p r o) = p ∧ accRegad (accWord p r o) = r ∧ accOp (accWord p r o) = o ∧
    accHigh (accWord p r o) = 0#16 := by
  refine ⟨?_, ?_, ?_, ?_⟩ <;> apply BitVec.eq_of_getLsbD_eq <;> intro i hi <;>
    simp only [accPhyad, accRegad, accOp, accHigh, accWord, phyadShift_eq, regadShift_eq, BitVec.getLsbD_extractLsb',
      BitVec.getLsbD_or, BitVec.getLsbD_shiftLeft, BitVec.getLsbD_setWidth]
  · have h5 : 5 ≤ 11 + i - 6 := by omega
    have h6 : 6 ≤ 11 + i := by omega
    simp [hi, BitVec.getLsbD_of_ge r _ h5, BitVec.getLsbD_of_ge o _ h6, show 11 + i < 32 by omega, show i < 32 by omega]
  · simp [hi, show 6 + i < 11 by omega, show 6 + i < 32 by omega, show i < 32 by omega]
  · simp [hi, show i < 11 by omega, show i < 32 by omega]
  · have h5 : 5 ≤ 16 + i - 11 := by omega
    have h5' : 5 ≤ 16 + i - 6 := by omega
    have h6 : 6 ≤ 16 + i := by omega
    simp [BitVec.getLsbD_of_ge p _ h5, BitVec.getLsbD_of_ge r _ h5', BitVec.getLsbD_of_ge o _ h6]

/-! ### The address-select word (R94) -/

/-- An address-select word without reserved bits is the word of its fields (R94, R36). -/
theorem mmdWord_back {v : Half} (h : mmdReserved v = false) : mmdWord (mmdMode v) (mmdDevad v) = v := by
  obtain ⟨h15, h5⟩ : v.getLsbD 15 = false ∧ v.extractLsb' 5 9 = 0#9 := by simpa [mmdReserved] using h
  have h5' := congrArg BitVec.toNat h5
  have h14 : (v.getLsbD 14).toNat = v.toNat / 2 ^ 14 % 2 := by
    rw [BitVec.getLsbD, Nat.testBit_eq_decide_div_mod_eq]
    rcases Nat.mod_two_eq_zero_or_one (v.toNat / 2 ^ 14) with k | k <;> rw [k] <;> rfl
  rw [BitVec.getLsbD, Nat.testBit_eq_decide_div_mod_eq] at h15
  have h15' := of_decide_eq_false h15
  apply BitVec.eq_of_toNat_eq
  have hw : ∀ (m : Bool) (d : Field5), (mmdWord m d).toNat = m.toNat * 2 ^ 14 + d.toNat := by decide
  rw [hw, mmdMode, h14, mmdDevad]
  simp only [BitVec.extractLsb'_toNat, Nat.shiftRight_eq_div_pow, BitVec.toNat_ofNat] at h5' ⊢
  have := v.isLt
  omega

/-! ### The EPC word (log 21) -/

/-- Each field of an EPC word reads back. -/
theorem epcWord_fields (code : BitVec 3) (a : BitVec 9) (d : Byte) :
    epcCode (epcWord code a d) = code ∧ epcAddr (epcWord code a d) = a ∧ epcByte (epcWord code a d) = d := by
  refine ⟨?_, ?_, ?_⟩ <;> apply BitVec.eq_of_getLsbD_eq <;> intro i hi <;>
    simp only [epcCode, epcAddr, epcByte, epcWord, BitVec.getLsbD_extractLsb', BitVec.getLsbD_or,
      BitVec.getLsbD_shiftLeft, BitVec.getLsbD_setWidth]
  · simp [hi, show i < 8 by omega, show i < 24 by omega, show i < 32 by omega]
  · have h3 : 3 ≤ 8 + i := by omega
    simp [hi, BitVec.getLsbD_of_ge code _ h3, show 8 + i < 24 by omega, show 8 + i < 32 by omega,
      show i < 32 by omega]
  · have h3 : 3 ≤ 24 + i := by omega
    have h9 : 9 ≤ 24 + i - 8 := by omega
    simp [hi, BitVec.getLsbD_of_ge code _ h3, BitVec.getLsbD_of_ge a _ h9, show 24 + i < 32 by omega,
      show i < 32 by omega]

/-! ### Assembled words as numbers -/

/-- The OR of a field shifted above another is their sum. -/
theorem or_shift_eq_add (a b k : Nat) (hb : b < 2 ^ k) : a * 2 ^ k ||| b = a * 2 ^ k + b := by
  rw [Nat.mul_comm]; exact (Nat.two_pow_add_eq_or_of_lt hb a).symm

/-- The number the 64 slots of a frame make, slot 0 the most significant bit (R97). -/
theorem frameSlots_toNat (op : BitVec 2) (p r : Field5) (ta : BitVec 2) (d : Half) :
    (frameSlots op p r ta d).toNat = 0xFFFFFFFF * 2 ^ 32 + 2 ^ 30 + op.toNat * 2 ^ 28 + p.toNat * 2 ^ 23 +
      r.toNat * 2 ^ 18 + ta.toNat * 2 ^ 16 + d.toNat := by
  have h1 := op.isLt; have h2 := p.isLt; have h3 := r.isLt; have h4 := ta.isLt; have h5 := d.isLt
  simp only [frameSlots, BitVec.toNat_append, Nat.shiftLeft_eq]
  rw [or_shift_eq_add (0xFFFFFFFF#32).toNat (0b01#2).toNat 2 (by decide),
    or_shift_eq_add _ op.toNat 2 h1, or_shift_eq_add _ _ 5 h2, or_shift_eq_add _ _ 5 h3,
    or_shift_eq_add _ ta.toNat 2 h4, or_shift_eq_add _ _ 16 h5]
  simp only [BitVec.toNat_ofNat]
  omega

/-- Each field of a frame reads back (R97, R232). -/
theorem frameSlots_fields (op : BitVec 2) (p r : Field5) (ta : BitVec 2) (d : Half) :
    (frameSlots op p r ta d).extractLsb' 32 32 = 0xFFFFFFFF#32 ∧
    frameStartOp (frameSlots op p r ta d) = (0b01#2 ++ op : BitVec (2 + 2)) ∧
    framePhyad (frameSlots op p r ta d) = p ∧ frameRegad (frameSlots op p r ta d) = r ∧
    frameTurnaround (frameSlots op p r ta d) = ta ∧ frameData (frameSlots op p r ta d) = d := by
  have h1 := op.isLt; have h2 := p.isLt; have h3 := r.isLt; have h4 := ta.isLt; have h5 := d.isLt
  refine ⟨?_, ?_, ?_, ?_, ?_, ?_⟩ <;> apply BitVec.eq_of_toNat_eq <;>
    simp only [frameStartOp, framePhyad, frameRegad, frameTurnaround, frameData, BitVec.extractLsb'_toNat,
      frameSlots_toNat, Nat.shiftRight_eq_div_pow, BitVec.toNat_append, Nat.shiftLeft_eq]
  · simp only [BitVec.toNat_ofNat]; omega
  · rw [or_shift_eq_add _ _ 2 h1]; simp only [BitVec.toNat_ofNat]; omega
  all_goals omega

end Sys2Proof
end

