-- ==== Sys2Proof/Laws/State.lean ====
section
/-! SUPPORT. One lemma per part of the state per update, true by rfl, so that no proof unfolds a record update. -/

namespace Sys2Proof.Machine

/-! ### advance -/

@[simp] theorem advance_seq (s : State) : (advance s).seq = s.seq := rfl
@[simp] theorem advance_ser (s : State) : (advance s).ser = s.ser := rfl
@[simp] theorem advance_mac (s : State) : (advance s).mac = s.mac := rfl
@[simp] theorem advance_wire (s : State) : (advance s).wire = s.wire := rfl
@[simp] theorem advance_phys (s : State) : (advance s).phys = s.phys := rfl
@[simp] theorem advance_eeprom (s : State) : (advance s).eeprom = s.eeprom := rfl
@[simp] theorem advance_cfg (s : State) : (advance s).cfg = s.cfg := rfl
/-! ### accept -/

@[simp] theorem accept_mac (cmd opa opb opc opd : Word) (s : State) : (accept cmd opa opb opc opd s).mac = s.mac := rfl
@[simp] theorem accept_wire (cmd opa opb opc opd : Word) (s : State) : (accept cmd opa opb opc opd s).wire = s.wire := rfl
@[simp] theorem accept_phys (cmd opa opb opc opd : Word) (s : State) : (accept cmd opa opb opc opd s).phys = s.phys := rfl
@[simp] theorem accept_eeprom (cmd opa opb opc opd : Word) (s : State) : (accept cmd opa opb opc opd s).eeprom = s.eeprom := rfl
@[simp] theorem accept_env (cmd opa opb opc opd : Word) (s : State) : (accept cmd opa opb opc opd s).env = s.env := rfl
@[simp] theorem accept_cfg (cmd opa opb opc opd : Word) (s : State) : (accept cmd opa opb opc opd s).cfg = s.cfg := rfl
/-! ### raise -/

@[simp] theorem raise_mac (e : Exc) (s : State) : (raise e s).mac = s.mac := rfl
@[simp] theorem raise_wire (e : Exc) (s : State) : (raise e s).wire = s.wire := rfl
@[simp] theorem raise_phys (e : Exc) (s : State) : (raise e s).phys = s.phys := rfl
@[simp] theorem raise_eeprom (e : Exc) (s : State) : (raise e s).eeprom = s.eeprom := rfl
@[simp] theorem raise_env (e : Exc) (s : State) : (raise e s).env = s.env := rfl
@[simp] theorem raise_cfg (e : Exc) (s : State) : (raise e s).cfg = s.cfg := rfl
/-! ### commandReturn -/

@[simp] theorem commandReturn_ser (b : Bool) (s : State) : (commandReturn b s).ser = s.ser := rfl
@[simp] theorem commandReturn_mac (b : Bool) (s : State) : (commandReturn b s).mac = s.mac := rfl
@[simp] theorem commandReturn_wire (b : Bool) (s : State) : (commandReturn b s).wire = s.wire := rfl
@[simp] theorem commandReturn_phys (b : Bool) (s : State) : (commandReturn b s).phys = s.phys := rfl
@[simp] theorem commandReturn_eeprom (b : Bool) (s : State) : (commandReturn b s).eeprom = s.eeprom := rfl
@[simp] theorem commandReturn_env (b : Bool) (s : State) : (commandReturn b s).env = s.env := rfl
@[simp] theorem commandReturn_cfg (b : Bool) (s : State) : (commandReturn b s).cfg = s.cfg := rfl
/-! ### nextMicroOp -/

@[simp] theorem nextMicroOp_ser (s : State) : (nextMicroOp s).ser = s.ser := rfl
@[simp] theorem nextMicroOp_mac (s : State) : (nextMicroOp s).mac = s.mac := rfl
@[simp] theorem nextMicroOp_wire (s : State) : (nextMicroOp s).wire = s.wire := rfl
@[simp] theorem nextMicroOp_phys (s : State) : (nextMicroOp s).phys = s.phys := rfl
@[simp] theorem nextMicroOp_eeprom (s : State) : (nextMicroOp s).eeprom = s.eeprom := rfl
@[simp] theorem nextMicroOp_env (s : State) : (nextMicroOp s).env = s.env := rfl
@[simp] theorem nextMicroOp_cfg (s : State) : (nextMicroOp s).cfg = s.cfg := rfl
/-! ### startTransaction -/

@[simp] theorem startTransaction_seq (rw : Rw) (p r : Field5) (d : Half) (w : Word) (s : State) : (startTransaction rw p r d w s).seq = s.seq := rfl
@[simp] theorem startTransaction_ser (rw : Rw) (p r : Field5) (d : Half) (w : Word) (s : State) : (startTransaction rw p r d w s).ser = s.ser := rfl
@[simp] theorem startTransaction_phys (rw : Rw) (p r : Field5) (d : Half) (w : Word) (s : State) : (startTransaction rw p r d w s).phys = s.phys := rfl
@[simp] theorem startTransaction_eeprom (rw : Rw) (p r : Field5) (d : Half) (w : Word) (s : State) : (startTransaction rw p r d w s).eeprom = s.eeprom := rfl
@[simp] theorem startTransaction_env (rw : Rw) (p r : Field5) (d : Half) (w : Word) (s : State) : (startTransaction rw p r d w s).env = s.env := rfl
@[simp] theorem startTransaction_cfg (rw : Rw) (p r : Field5) (d : Half) (w : Word) (s : State) : (startTransaction rw p r d w s).cfg = s.cfg := rfl
/-! ### freeEngine -/

@[simp] theorem freeEngine_seq (s : State) : (freeEngine s).seq = s.seq := rfl
@[simp] theorem freeEngine_ser (s : State) : (freeEngine s).ser = s.ser := rfl
@[simp] theorem freeEngine_phys (s : State) : (freeEngine s).phys = s.phys := rfl
@[simp] theorem freeEngine_eeprom (s : State) : (freeEngine s).eeprom = s.eeprom := rfl
@[simp] theorem freeEngine_env (s : State) : (freeEngine s).env = s.env := rfl
@[simp] theorem freeEngine_cfg (s : State) : (freeEngine s).cfg = s.cfg := rfl
/-! ### loadDatum -/

@[simp] theorem loadDatum_seq (v : Half) (s : State) : (loadDatum v s).seq = s.seq := rfl
@[simp] theorem loadDatum_ser (v : Half) (s : State) : (loadDatum v s).ser = s.ser := rfl
@[simp] theorem loadDatum_wire (v : Half) (s : State) : (loadDatum v s).wire = s.wire := rfl
@[simp] theorem loadDatum_phys (v : Half) (s : State) : (loadDatum v s).phys = s.phys := rfl
@[simp] theorem loadDatum_eeprom (v : Half) (s : State) : (loadDatum v s).eeprom = s.eeprom := rfl
@[simp] theorem loadDatum_cfg (v : Half) (s : State) : (loadDatum v s).cfg = s.cfg := rfl
/-! ### endOperation -/

@[simp] theorem endOperation_seq (s : State) : (endOperation s).seq = s.seq := rfl
@[simp] theorem endOperation_mac (s : State) : (endOperation s).mac = s.mac := rfl
@[simp] theorem endOperation_wire (s : State) : (endOperation s).wire = s.wire := rfl
@[simp] theorem endOperation_phys (s : State) : (endOperation s).phys = s.phys := rfl
@[simp] theorem endOperation_eeprom (s : State) : (endOperation s).eeprom = s.eeprom := rfl
@[simp] theorem endOperation_env (s : State) : (endOperation s).env = s.env := rfl
@[simp] theorem endOperation_cfg (s : State) : (endOperation s).cfg = s.cfg := rfl
/-! ### storeResult -/

@[simp] theorem storeResult_ser (v : Word) (s : State) : (storeResult v s).ser = s.ser := rfl
@[simp] theorem storeResult_mac (v : Word) (s : State) : (storeResult v s).mac = s.mac := rfl
@[simp] theorem storeResult_wire (v : Word) (s : State) : (storeResult v s).wire = s.wire := rfl
@[simp] theorem storeResult_phys (v : Word) (s : State) : (storeResult v s).phys = s.phys := rfl
@[simp] theorem storeResult_eeprom (v : Word) (s : State) : (storeResult v s).eeprom = s.eeprom := rfl
@[simp] theorem storeResult_env (v : Word) (s : State) : (storeResult v s).env = s.env := rfl
@[simp] theorem storeResult_cfg (v : Word) (s : State) : (storeResult v s).cfg = s.cfg := rfl
/-! ### popPort -/

@[simp] theorem popPort_seq (s : State) : (popPort s).seq = s.seq := rfl
@[simp] theorem popPort_ser (s : State) : (popPort s).ser = s.ser := rfl
@[simp] theorem popPort_mac (s : State) : (popPort s).mac = s.mac := rfl
@[simp] theorem popPort_wire (s : State) : (popPort s).wire = s.wire := rfl
@[simp] theorem popPort_phys (s : State) : (popPort s).phys = s.phys := rfl
@[simp] theorem popPort_eeprom (s : State) : (popPort s).eeprom = s.eeprom := rfl
@[simp] theorem popPort_cfg (s : State) : (popPort s).cfg = s.cfg := rfl
/-! ### presentNext -/

@[simp] theorem presentNext_seq (e : Encoded) (s : State) : (presentNext e s).seq = s.seq := rfl
@[simp] theorem presentNext_ser (e : Encoded) (s : State) : (presentNext e s).ser = forgetRequest s := rfl
@[simp] theorem presentNext_epcPhase (e : Encoded) (s : State) : (presentNext e s).env.epcPhase = .start := rfl
@[simp] theorem presentNext_mac (e : Encoded) (s : State) : (presentNext e s).mac = s.mac := rfl
@[simp] theorem presentNext_wire (e : Encoded) (s : State) : (presentNext e s).wire = s.wire := rfl
@[simp] theorem presentNext_phys (e : Encoded) (s : State) : (presentNext e s).phys = s.phys := rfl
@[simp] theorem presentNext_eeprom (e : Encoded) (s : State) : (presentNext e s).eeprom = s.eeprom := rfl
@[simp] theorem presentNext_cfg (e : Encoded) (s : State) : (presentNext e s).cfg = s.cfg := rfl
/-! ### epcComplete -/

@[simp] theorem epcComplete_seq (o : EpcOp) (s : State) : (epcComplete o s).seq = s.seq := rfl
@[simp] theorem epcComplete_ser (o : EpcOp) (s : State) : (epcComplete o s).ser = s.ser := rfl
@[simp] theorem epcComplete_mac (o : EpcOp) (s : State) : (epcComplete o s).mac = s.mac := rfl
@[simp] theorem epcComplete_wire (o : EpcOp) (s : State) : (epcComplete o s).wire = s.wire := rfl
@[simp] theorem epcComplete_phys (o : EpcOp) (s : State) : (epcComplete o s).phys = s.phys := rfl
@[simp] theorem epcComplete_cfg (o : EpcOp) (s : State) : (epcComplete o s).cfg = s.cfg := rfl
@[simp] theorem epcComplete_port (o : EpcOp) (s : State) : (epcComplete o s).env.port = s.env.port := rfl
@[simp] theorem epcComplete_turns (o : EpcOp) (s : State) : (epcComplete o s).env.turns = s.env.turns := rfl
@[simp] theorem epcComplete_epcPhase (o : EpcOp) (s : State) :
    (epcComplete o s).env.epcPhase = s.env.epcPhase := rfl
@[simp] theorem epcComplete_inProgress (o : EpcOp) (s : State) : (epcComplete o s).eeprom.inProgress = none := rfl
/-! ### setPhase, issueRead, issueWrite -/

@[simp] theorem setPhase_seq (ph : EpcPhase) (s : State) : (setPhase ph s).seq = s.seq := rfl
@[simp] theorem setPhase_ser (ph : EpcPhase) (s : State) : (setPhase ph s).ser = s.ser := rfl
@[simp] theorem setPhase_mac (ph : EpcPhase) (s : State) : (setPhase ph s).mac = s.mac := rfl
@[simp] theorem setPhase_wire (ph : EpcPhase) (s : State) : (setPhase ph s).wire = s.wire := rfl
@[simp] theorem setPhase_phys (ph : EpcPhase) (s : State) : (setPhase ph s).phys = s.phys := rfl
@[simp] theorem setPhase_eeprom (ph : EpcPhase) (s : State) : (setPhase ph s).eeprom = s.eeprom := rfl
@[simp] theorem setPhase_cfg (ph : EpcPhase) (s : State) : (setPhase ph s).cfg = s.cfg := rfl
@[simp] theorem setPhase_port (ph : EpcPhase) (s : State) : (setPhase ph s).env.port = s.env.port := rfl
@[simp] theorem setPhase_turns (ph : EpcPhase) (s : State) : (setPhase ph s).env.turns = s.env.turns := rfl
@[simp] theorem setPhase_epcPhase (ph : EpcPhase) (s : State) : (setPhase ph s).env.epcPhase = ph := rfl
@[simp] theorem issueRead_mac (a : RegAddr) (ph : EpcPhase) (s : State) : (issueRead a ph s).mac = s.mac := rfl
@[simp] theorem issueRead_wire (a : RegAddr) (ph : EpcPhase) (s : State) : (issueRead a ph s).wire = s.wire := rfl
@[simp] theorem issueRead_phys (a : RegAddr) (ph : EpcPhase) (s : State) : (issueRead a ph s).phys = s.phys := rfl
@[simp] theorem issueRead_eeprom (a : RegAddr) (ph : EpcPhase) (s : State) : (issueRead a ph s).eeprom = s.eeprom := rfl
@[simp] theorem issueRead_cfg (a : RegAddr) (ph : EpcPhase) (s : State) : (issueRead a ph s).cfg = s.cfg := rfl
@[simp] theorem issueRead_port (a : RegAddr) (ph : EpcPhase) (s : State) : (issueRead a ph s).env.port = s.env.port := rfl
@[simp] theorem issueRead_turns (a : RegAddr) (ph : EpcPhase) (s : State) : (issueRead a ph s).env.turns = s.env.turns := rfl
@[simp] theorem issueRead_epcPhase (a : RegAddr) (ph : EpcPhase) (s : State) : (issueRead a ph s).env.epcPhase = ph := rfl
@[simp] theorem issueRead_mode (a : RegAddr) (ph : EpcPhase) (s : State) : (issueRead a ph s).seq.mode = .run := rfl
@[simp] theorem issueWrite_mac (a : RegAddr) (v : Word) (ph : EpcPhase) (s : State) : (issueWrite a v ph s).mac = s.mac := rfl
@[simp] theorem issueWrite_wire (a : RegAddr) (v : Word) (ph : EpcPhase) (s : State) : (issueWrite a v ph s).wire = s.wire := rfl
@[simp] theorem issueWrite_phys (a : RegAddr) (v : Word) (ph : EpcPhase) (s : State) : (issueWrite a v ph s).phys = s.phys := rfl
@[simp] theorem issueWrite_eeprom (a : RegAddr) (v : Word) (ph : EpcPhase) (s : State) : (issueWrite a v ph s).eeprom = s.eeprom := rfl
@[simp] theorem issueWrite_cfg (a : RegAddr) (v : Word) (ph : EpcPhase) (s : State) : (issueWrite a v ph s).cfg = s.cfg := rfl
@[simp] theorem issueWrite_port (a : RegAddr) (v : Word) (ph : EpcPhase) (s : State) : (issueWrite a v ph s).env.port = s.env.port := rfl
@[simp] theorem issueWrite_turns (a : RegAddr) (v : Word) (ph : EpcPhase) (s : State) : (issueWrite a v ph s).env.turns = s.env.turns := rfl
@[simp] theorem issueWrite_epcPhase (a : RegAddr) (v : Word) (ph : EpcPhase) (s : State) : (issueWrite a v ph s).env.epcPhase = ph := rfl
@[simp] theorem issueWrite_mode (a : RegAddr) (v : Word) (ph : EpcPhase) (s : State) : (issueWrite a v ph s).seq.mode = .run := rfl
/-! ### The fields an update writes -/

@[simp] theorem advance_port (s : State) : (advance s).env.port = s.env.port := rfl
@[simp] theorem advance_turns (s : State) : (advance s).env.turns = s.env.turns := rfl
@[simp] theorem advance_usbAnswers (s : State) : (advance s).env.usbAnswers = s.env.usbAnswers := rfl
@[simp] theorem advance_driverAnswers (s : State) : (advance s).env.driverAnswers = s.env.driverAnswers := rfl
@[simp] theorem advance_epcPolls (s : State) : (advance s).env.epcPolls = s.env.epcPolls := rfl
@[simp] theorem advance_epcPhase (s : State) : (advance s).env.epcPhase = s.env.epcPhase := rfl
@[simp] theorem advance_driverReturn (s : State) : (advance s).env.driverReturn = s.env.driverReturn := rfl
@[simp] theorem advance_tick (s : State) : (advance s).env.tick = s.env.tick + 1 := rfl
@[simp] theorem loadDatum_port (v : Half) (s : State) : (loadDatum v s).env.port = s.env.port := rfl
@[simp] theorem loadDatum_turns (v : Half) (s : State) : (loadDatum v s).env.turns = s.env.turns := rfl
@[simp] theorem loadDatum_eng (v : Half) (s : State) : (loadDatum v s).mac.eng = s.mac.eng := rfl
@[simp] theorem loadDatum_miiAcc (v : Half) (s : State) : (loadDatum v s).mac.miiAcc = s.mac.miiAcc := rfl
@[simp] theorem loadDatum_regs (v : Half) (s : State) : (loadDatum v s).mac.regs = s.mac.regs := rfl
@[simp] theorem loadDatum_window (v : Half) (s : State) : (loadDatum v s).mac.dataWindow = .completed := rfl
@[simp] theorem freeEngine_eng (s : State) : (freeEngine s).mac.eng = .free := rfl
@[simp] theorem freeEngine_miiAcc (s : State) : (freeEngine s).mac.miiAcc = clearBusy s.mac.miiAcc := rfl
@[simp] theorem freeEngine_miiData (s : State) : (freeEngine s).mac.miiData = s.mac.miiData := rfl
@[simp] theorem freeEngine_window (s : State) : (freeEngine s).mac.dataWindow = s.mac.dataWindow := rfl
@[simp] theorem freeEngine_regs (s : State) : (freeEngine s).mac.regs = s.mac.regs := rfl
@[simp] theorem startTransaction_eng (rw : Rw) (p r : Field5) (d : Half) (w : Word) (s : State) :
    (startTransaction rw p r d w s).mac.eng = .inflight rw p r d := rfl
@[simp] theorem startTransaction_miiAcc (rw : Rw) (p r : Field5) (d : Half) (w : Word) (s : State) :
    (startTransaction rw p r d w s).mac.miiAcc = w := rfl
@[simp] theorem startTransaction_miiData (rw : Rw) (p r : Field5) (d : Half) (w : Word) (s : State) :
    (startTransaction rw p r d w s).mac.miiData = s.mac.miiData := rfl
@[simp] theorem startTransaction_window (rw : Rw) (p r : Field5) (d : Half) (w : Word) (s : State) :
    (startTransaction rw p r d w s).mac.dataWindow = .undefined := rfl
@[simp] theorem startTransaction_regs (rw : Rw) (p r : Field5) (d : Half) (w : Word) (s : State) :
    (startTransaction rw p r d w s).mac.regs = s.mac.regs := rfl
@[simp] theorem nextMicroOp_upc (s : State) : (nextMicroOp s).seq.upc = s.seq.upc + 1#5 := rfl
@[simp] theorem nextMicroOp_mode (s : State) : (nextMicroOp s).seq.mode = s.seq.mode := rfl
@[simp] theorem nextMicroOp_lock (s : State) : (nextMicroOp s).seq.lock = s.seq.lock := rfl
@[simp] theorem nextMicroOp_pollCnt (s : State) : (nextMicroOp s).seq.pollCnt = s.seq.pollCnt := rfl
@[simp] theorem raise_mode (e : Exc) (s : State) : (raise e s).seq.mode = .idle := rfl
@[simp] theorem raise_lock (e : Exc) (s : State) : (raise e s).seq.lock = false := rfl
@[simp] theorem raise_status (e : Exc) (s : State) : (raise e s).seq.status = statusCode e.cls := rfl
@[simp] theorem raise_info (e : Exc) (s : State) : (raise e s).seq.info = e.info := rfl
@[simp] theorem raise_res (e : Exc) (s : State) : (raise e s).seq.res = e.detail := rfl
@[simp] theorem raise_upc (e : Exc) (s : State) : (raise e s).seq.upc = s.seq.upc := rfl
@[simp] theorem raise_pollCnt (e : Exc) (s : State) : (raise e s).seq.pollCnt = 0 := rfl
@[simp] theorem raise_pending (e : Exc) (s : State) : (raise e s).ser.pending = false := rfl
@[simp] theorem endOperation_pending (s : State) : (endOperation s).ser.pending = false := rfl
@[simp] theorem endOperation_retry (s : State) : (endOperation s).ser.retry = s.ser.retry := rfl
@[simp] theorem commandReturn_mode (b : Bool) (s : State) : (commandReturn b s).seq.mode = .idle := rfl
@[simp] theorem commandReturn_lock (b : Bool) (s : State) : (commandReturn b s).seq.lock = false := rfl
@[simp] theorem commandReturn_status (b : Bool) (s : State) : (commandReturn b s).seq.status = 0#32 := rfl
@[simp] theorem accept_mode (cmd opa opb opc opd : Word) (s : State) :
    (accept cmd opa opb opc opd s).seq.mode = .run := rfl
@[simp] theorem accept_upc (cmd opa opb opc opd : Word) (s : State) :
    (accept cmd opa opb opc opd s).seq.upc = 0#5 := rfl
@[simp] theorem accept_cmd (cmd opa opb opc opd : Word) (s : State) :
    (accept cmd opa opb opc opd s).seq.cmd = cmd := rfl

end Sys2Proof.Machine
end

