-- ==== Sys2Proof/Laws/Memory.lean ====
section
/-! SUPPORT. The register spaces: what a read after a write gives, and that every write keeps the canonical form. -/

namespace Sys2Proof.Machine

variable {α : Type}

theorem memory_read_write_same (m : List (Nat × α)) (a : Nat) (v : α) :
    Memory.read (Memory.write m a v) a = some v := by
  induction m with
  | nil => simp [Memory.write, Memory.read]
  | cons kv rest ih =>
    obtain ⟨k, u⟩ := kv
    simp only [Memory.write]
    split
    · simp [Memory.read]
    · split
      · simp [Memory.read]
      · next h => simp [Memory.read, h, ih]

theorem memory_read_write_other (m : List (Nat × α)) (a b : Nat) (v : α) (h : b ≠ a) :
    Memory.read (Memory.write m a v) b = Memory.read m b := by
  induction m with
  | nil => simp [Memory.write, Memory.read, h.symm]
  | cons kv rest ih =>
    obtain ⟨k, u⟩ := kv
    simp only [Memory.write]
    split
    · simp [Memory.read, h.symm]
    · split
      · next hk => subst hk; simp [Memory.read, h.symm]
      · simp [Memory.read, ih]

theorem memory_write_wfFrom (size lo : Nat) (m : List (Nat × α)) (a : Nat) (v : α)
    (hm : Memory.wfFrom size lo m = true) (hlo : lo ≤ a) (ha : a < size) :
    Memory.wfFrom size lo (Memory.write m a v) = true := by
  induction m generalizing lo with
  | nil => simp [Memory.write, Memory.wfFrom, hlo, ha]
  | cons kv rest ih =>
    obtain ⟨k, u⟩ := kv
    simp only [Memory.wfFrom, Bool.and_eq_true, decide_eq_true_eq] at hm
    simp only [Memory.write]
    split
    · next hk => simp [Memory.wfFrom, hlo, ha, hm.1.2, hm.2, Nat.succ_le_of_lt hk]
    · split
      · next hk => subst hk; simp [Memory.wfFrom, hm.1.1, ha, hm.2]
      · next h1 h2 =>
        simp only [Memory.wfFrom, Bool.and_eq_true, decide_eq_true_eq]
        exact ⟨hm.1, ih (k + 1) hm.2 (by omega)⟩

/-- Every write of a cell keeps the canonical form. -/
theorem memory_write_wf (size : Nat) (m : List (Nat × α)) (a : Nat) (v : α)
    (hm : Memory.wf size m = true) (ha : a < size) : Memory.wf size (Memory.write m a v) = true :=
  memory_write_wfFrom size 0 m a v hm (Nat.zero_le a) ha

theorem memory_reset_wf (size : Nat) : Memory.wf size ([] : List (Nat × α)) = true := rfl

/-- The memories of the reset state have the canonical form. -/
theorem reset_memories_wf :
    Memory.wf 0x1000 State.reset.mac.regs = true ∧ Memory.wf 0x400 State.reset.phys.c22 = true ∧
    Memory.wf 0x400 State.reset.phys.mmdAddr = true ∧ Memory.wf 0x4000000 State.reset.phys.c45 = true ∧
    Memory.wf 0x200 State.reset.eeprom.cells = true := ⟨rfl, rfl, rfl, rfl, rfl⟩

/-! ### The places of the PHY registers -/

theorem c22Key_lt (p i : Field5) : c22Key p i < 0x400 := by
  have := p.isLt; have := i.isLt; simp only [c22Key]; omega

theorem mmdAddrKey_lt (p d : Field5) : mmdAddrKey p d < 0x400 := by
  have := p.isLt; have := d.isLt; simp only [mmdAddrKey]; omega

theorem c45Key_lt (p d : Field5) (r : Half) : c45Key p d r < 0x4000000 := by
  have := p.isLt; have := d.isLt; have := r.isLt; simp only [c45Key]; omega

theorem c22Key_inj {p i q j : Field5} (h : c22Key p i = c22Key q j) : p = q ∧ i = j := by
  have := i.isLt; have := j.isLt; simp only [c22Key] at h
  exact ⟨BitVec.eq_of_toNat_eq (by omega), BitVec.eq_of_toNat_eq (by omega)⟩

theorem mmdAddrKey_inj {p d q e : Field5} (h : mmdAddrKey p d = mmdAddrKey q e) : p = q ∧ d = e :=
  c22Key_inj h

theorem c45Key_inj {p d q e : Field5} {r t : Half} (h : c45Key p d r = c45Key q e t) :
    p = q ∧ d = e ∧ r = t := by
  have := d.isLt; have := e.isLt; have := r.isLt; have := t.isLt; simp only [c45Key] at h
  exact ⟨BitVec.eq_of_toNat_eq (by omega), BitVec.eq_of_toNat_eq (by omega), BitVec.eq_of_toNat_eq (by omega)⟩

/-! ### Reading a PHY register after a write -/

theorem c22At_setC22_same (f : Phys) (p i : Field5) (v : Half) : c22At (setC22 f p i v) p i = v := by
  simp [c22At, setC22, memory_read_write_same]

theorem c22At_setC22_other (f : Phys) (p i q j : Field5) (v : Half) (h : ¬(q = p ∧ j = i)) :
    c22At (setC22 f p i v) q j = c22At f q j := by
  have hk : c22Key q j ≠ c22Key p i := fun e => h (c22Key_inj e)
  simp [c22At, setC22, memory_read_write_other _ _ _ _ hk]

theorem mmdAddrAt_setMmdAddr_same (f : Phys) (p d : Field5) (v : Half) :
    mmdAddrAt (setMmdAddr f p d v) p d = v := by
  simp [mmdAddrAt, setMmdAddr, memory_read_write_same]

theorem mmdAddrAt_setMmdAddr_other (f : Phys) (p d q e : Field5) (v : Half) (h : ¬(q = p ∧ e = d)) :
    mmdAddrAt (setMmdAddr f p d v) q e = mmdAddrAt f q e := by
  have hk : mmdAddrKey q e ≠ mmdAddrKey p d := fun e => h (mmdAddrKey_inj e)
  simp [mmdAddrAt, setMmdAddr, memory_read_write_other _ _ _ _ hk]

theorem c45At_setC45_same (f : Phys) (p d : Field5) (r v : Half) : c45At (setC45 f p d r v) p d r = v := by
  simp [c45At, setC45, memory_read_write_same]

theorem c45At_setC45_other (f : Phys) (p d q e : Field5) (r t v : Half) (h : ¬(q = p ∧ e = d ∧ t = r)) :
    c45At (setC45 f p d r v) q e t = c45At f q e t := by
  have hk : c45Key q e t ≠ c45Key p d r := fun e => h (c45Key_inj e)
  simp [c45At, setC45, memory_read_write_other _ _ _ _ hk]

@[simp] theorem c22At_setMmdAddr (f : Phys) (p d q j : Field5) (v : Half) :
    c22At (setMmdAddr f p d v) q j = c22At f q j := rfl
@[simp] theorem c22At_setC45 (f : Phys) (p d q j : Field5) (r v : Half) :
    c22At (setC45 f p d r v) q j = c22At f q j := rfl
@[simp] theorem mmdAddrAt_setC22 (f : Phys) (p i q e : Field5) (v : Half) :
    mmdAddrAt (setC22 f p i v) q e = mmdAddrAt f q e := rfl
@[simp] theorem mmdAddrAt_setC45 (f : Phys) (p d q e : Field5) (r v : Half) :
    mmdAddrAt (setC45 f p d r v) q e = mmdAddrAt f q e := rfl
@[simp] theorem c45At_setC22 (f : Phys) (p i q e : Field5) (t v : Half) :
    c45At (setC22 f p i v) q e t = c45At f q e t := rfl
@[simp] theorem c45At_setMmdAddr (f : Phys) (p d q e : Field5) (t v : Half) :
    c45At (setMmdAddr f p d v) q e t = c45At f q e t := rfl

end Sys2Proof.Machine
end

