-- ==== Sys2Proof/Laws/Ops.lean ====
section
/-! SUPPORT. One lemma per shared operation, saying once everything it can do; the callers cite these. -/

namespace Sys2Proof.Machine

/-! ### Outcomes -/

@[simp] theorem andThen_next {α β : Type} (a : α) (f : α → Result β) : andThen (.next a) f = f a := rfl
@[simp] theorem andThen_fault {α β : Type} (r : Fault) (f : α → Result β) : andThen (.fault r) f = .fault r := rfl
@[simp] theorem andThen_refused {α β : Type} (r : Refusal) (f : α → Result β) :
    andThen (.refused r) f = .refused r := rfl

theorem andThen_eq_next {α β : Type} {o : Result α} {f : α → Result β} {b : β} :
    andThen o f = .next b ↔ ∃ a, o = .next a ∧ f a = .next b := by
  cases o <;> simp [andThen]

theorem andThen_eq_fault {α β : Type} {o : Result α} {f : α → Result β} {r : Fault} :
    andThen o f = .fault r ↔ o = .fault r ∨ ∃ a, o = .next a ∧ f a = .fault r := by
  cases o <;> simp [andThen]

/-! ### The PHYs (R242 to R247) -/

/-- Everything a PHY write can do. -/
theorem phyWriteRegs_cases {present : List Field5} {f g : Phys} {p i : Field5} {v : Half}
    (h : phyWriteRegs present f p i v = .next g) :
    (p ∉ present ∧ g = f) ∨ (p ∈ present ∧ i ≠ mmdDataIdx ∧ g = setC22 f p i v) ∨
    (p ∈ present ∧ i = mmdDataIdx ∧ selectReserved f p = false ∧ g = mmdDataWrite f p v) := by
  simp only [phyWriteRegs] at h
  split at h
  · next hi =>
    split at h
    · next hp => exact .inl ⟨hp, by cases h; rfl⟩
    · next hp =>
      split at h
      · cases h
      · next hr => exact .inr (.inr ⟨by simpa using hp, hi, by simpa using hr, by cases h; rfl⟩)
  · next hi =>
    by_cases hp : p ∈ present
    · exact .inr (.inl ⟨hp, hi, by simpa [hp] using h.symm⟩)
    · exact .inl ⟨hp, by simpa [hp] using h.symm⟩

/-- A PHY write changes the register files alone. -/
theorem phyWrite_cases {p i : Field5} {v : Half} {s t : State} (h : phyWrite p i v s = .next t) :
    ∃ f, phyWriteRegs s.cfg.phyPresent s.phys p i v = .next f ∧ t = { s with phys := f } := by
  obtain ⟨f, h1, h2⟩ := andThen_eq_next.mp h
  exact ⟨f, h1, by simpa using h2.symm⟩

/-- No PHY write is a fault. -/
theorem phyWrite_no_fault (p i : Field5) (v : Half) (s : State) (r : Fault) : phyWrite p i v s ≠ .fault r := by
  simp only [phyWrite, phyWriteRegs]
  repeat' split
  all_goals simp

/-- A PHY read changes nothing but, for an absent PHY, the count of draws. -/
theorem phyRead_cases {p i : Field5} {s t : State} {v : Half} (h : phyRead p i s = .next (v, t)) :
    (p ∉ s.cfg.phyPresent ∧ v = drawnHalf s ∧ t = advance s) ∨
    (p ∈ s.cfg.phyPresent ∧ phyReadRegs s.phys p i = .next v ∧ t = s) := by
  simp only [phyRead] at h
  split at h
  · next hp => exact .inl ⟨hp, by cases h; exact ⟨rfl, rfl⟩⟩
  · next hp =>
    obtain ⟨w, h1, h2⟩ := andThen_eq_next.mp h
    cases h2
    exact .inr ⟨by simpa using hp, h1, rfl⟩

theorem phyRead_no_fault (p i : Field5) (s : State) (r : Fault) : phyRead p i s ≠ .fault r := by
  simp only [phyRead, phyReadRegs]
  repeat' split
  all_goals simp

/-- The canonical form of the three PHY spaces. -/
abbrev physWf (f : Phys) : Prop :=
  Memory.wf 0x400 f.c22 = true ∧ Memory.wf 0x400 f.mmdAddr = true ∧ Memory.wf 0x4000000 f.c45 = true

/-- A PHY write keeps the canonical form. -/
theorem phyWriteRegs_wf {present : List Field5} {f g : Phys} {p i : Field5} {v : Half}
    (h : phyWriteRegs present f p i v = .next g) (hf : physWf f) : physWf g := by
  obtain ⟨h1, h2, h3⟩ := hf
  rcases phyWriteRegs_cases h with ⟨_, rfl⟩ | ⟨_, _, rfl⟩ | ⟨_, _, _, rfl⟩
  · exact ⟨h1, h2, h3⟩
  · exact ⟨memory_write_wf _ _ _ _ h1 (c22Key_lt _ _), h2, h3⟩
  · simp only [mmdDataWrite]
    split
    · exact ⟨h1, h2, memory_write_wf _ _ _ _ h3 (c45Key_lt _ _ _)⟩
    · exact ⟨h1, memory_write_wf _ _ _ _ h2 (mmdAddrKey_lt _ _), h3⟩

/-! ### The MAC (R28 to R33, R221 to R226) -/

/-- The bit that `withBit` replaces. -/
theorem withBit_same (w : Word) {k : Nat} (b : Bool) (h : k < 32) : (withBit w k b).getLsbD k = b := by
  cases b <;> simp [withBit, h]

/-- Every other bit stays. -/
theorem withBit_other (w : Word) (k j : Nat) (b : Bool) (h : j ≠ k) : (withBit w k b).getLsbD j = w.getLsbD j := by
  by_cases hj : j < 32
  · cases b <;> simp [withBit, h, hj]
  · rw [BitVec.getLsbD_of_ge _ _ (by omega), BitVec.getLsbD_of_ge _ _ (by omega)]

/-- The completion of a transaction leaves BUSY 0 (R226). -/
@[simp] theorem clearBusy_busy (w : Word) : (clearBusy w).getLsbD 0 = false := withBit_same w false (by decide)

/-- Only the EEPROM, the serializer's counter, the spent answers and the count of draws differ, and the EEPROM's bytes
keep their canonical form. -/
abbrev Touched (s t : State) : Prop :=
  (∃ ser e ua da ep n, t = { s with
    ser := ser, eeprom := e
    env := { s.env with usbAnswers := ua, driverAnswers := da, epcPolls := ep, tick := n } }) ∧
  (Memory.wf 0x200 s.eeprom.cells = true → Memory.wf 0x200 t.eeprom.cells = true)

theorem Touched.refl (s : State) : Touched s s :=
  ⟨⟨s.ser, s.eeprom, s.env.usbAnswers, s.env.driverAnswers, s.env.epcPolls, s.env.tick, rfl⟩, id⟩

theorem Touched.trans {s t u : State} (h : Touched s t) (k : Touched t u) : Touched s u := by
  obtain ⟨⟨_, _, _, _, _, _, rfl⟩, h2⟩ := h
  obtain ⟨⟨a, b, c, d, e, f, rfl⟩, k2⟩ := k
  exact ⟨⟨a, b, c, d, e, f, rfl⟩, fun x => k2 (h2 x)⟩

/-- Only the EEPROM, what is scripted of its polls and the count of draws differ, and the EEPROM's bytes keep their
canonical form. -/
abbrev Looked (s t : State) : Prop :=
  (∃ e ep n, t = { s with eeprom := e, env := { s.env with epcPolls := ep, tick := n } }) ∧
  (Memory.wf 0x200 s.eeprom.cells = true → Memory.wf 0x200 t.eeprom.cells = true)

theorem Looked.refl (s : State) : Looked s s := ⟨⟨s.eeprom, s.env.epcPolls, s.env.tick, rfl⟩, id⟩

theorem Looked.trans {s t u : State} (h : Looked s t) (k : Looked t u) : Looked s u := by
  obtain ⟨⟨_, _, _, rfl⟩, h2⟩ := h
  obtain ⟨⟨a, b, c, rfl⟩, k2⟩ := k
  exact ⟨⟨a, b, c, rfl⟩, fun x => k2 (h2 x)⟩

theorem Looked.touched {s t : State} (h : Looked s t) : Touched s t := by
  obtain ⟨⟨e, ep, n, rfl⟩, h2⟩ := h
  exact ⟨⟨s.ser, e, s.env.usbAnswers, s.env.driverAnswers, ep, n, rfl⟩, h2⟩

/-- A look leaves the serializer and the scripts of the Transports. -/
theorem Looked.scripts {s t : State} (h : Looked s t) :
    t.ser = s.ser ∧ t.env.usbAnswers = s.env.usbAnswers ∧ t.env.driverAnswers = s.env.driverAnswers := by
  obtain ⟨⟨e, ep, n, rfl⟩, _⟩ := h
  exact ⟨rfl, rfl, rfl⟩

theorem advance_looked (s : State) : Looked s (advance s) := ⟨⟨s.eeprom, s.env.epcPolls, s.env.tick + 1, rfl⟩, id⟩

/-- The parts that no access to a register of the MAC touches, but for the registers' own: the PHYs, the configuration,
what the client presents and the schedule. -/
structure SameOutside (s t : State) : Prop where
  phys : t.phys = s.phys
  cfg : t.cfg = s.cfg
  port : t.env.port = s.env.port
  turns : t.env.turns = s.env.turns
  driverReturn : t.env.driverReturn = s.env.driverReturn
  epcPhase : t.env.epcPhase = s.env.epcPhase

theorem SameOutside.refl (s : State) : SameOutside s s := ⟨rfl, rfl, rfl, rfl, rfl, rfl⟩

theorem SameOutside.trans {a b c : State} (h : SameOutside a b) (k : SameOutside b c) : SameOutside a c :=
  ⟨k.phys.trans h.phys, k.cfg.trans h.cfg, k.port.trans h.port, k.turns.trans h.turns,
    k.driverReturn.trans h.driverReturn, k.epcPhase.trans h.epcPhase⟩

theorem SameBeyondMac.outside {s t : State} (h : SameBeyondMac s t) : SameOutside s t :=
  ⟨h.phys, h.cfg, h.port, h.turns, h.driverReturn, h.epcPhase⟩

theorem Touched.outside {s t : State} (h : Touched s t) :
    SameOutside s t ∧ t.seq = s.seq ∧ t.mac = s.mac ∧ t.wire = s.wire := by
  obtain ⟨⟨_, _, _, _, _, _, rfl⟩, _⟩ := h
  exact ⟨⟨rfl, rfl, rfl, rfl, rfl, rfl⟩, rfl, rfl, rfl⟩

/-! ### The EEPROM (R280) -/

/-- The effect of a command keeps the canonical form of the bytes. -/
theorem epcEffect_wf (op : EpcOp) (drawn : Byte) (erases : Bool) (fresh : Nat) (e : Eeprom)
    (h : Memory.wf 0x200 e.cells = true) : Memory.wf 0x200 (epcEffect op drawn erases fresh e).cells = true := by
  cases op
  · exact h
  · exact h
  · exact h
  · next a d => exact memory_write_wf _ _ _ _ h a.isLt
  · simp only [epcEffect]; split
    · rfl
    · exact h

theorem takeEpcPoll_looked (s : State) : Looked s (takeEpcPoll s).2 := by
  simp only [takeEpcPoll]; split
  · exact ⟨⟨s.eeprom, _, s.env.tick, rfl⟩, id⟩
  · exact advance_looked s

theorem epcComplete_looked (op : EpcOp) (s : State) : Looked s (epcComplete op s) :=
  ⟨⟨_, s.env.epcPolls, s.env.tick + 1, rfl⟩, fun h => epcEffect_wf _ _ _ _ _ h⟩

/-- Everything a look at the "command in progress" bit can do (R280). -/
theorem epcPoll_looked (s : State) : Looked s (epcPoll s).2 := by
  simp only [epcPoll]; split
  · exact Looked.refl s
  · split
    · exact (takeEpcPoll_looked s).trans (epcComplete_looked _ _)
    · exact takeEpcPoll_looked s

/-- A look with no command in progress sees a clear bit and changes nothing (R280). -/
theorem epcPoll_none {s : State} (h : s.eeprom.inProgress = none) : epcPoll s = (false, s) := by
  simp [epcPoll, h]

@[simp] theorem takeEpcPoll_eeprom (s : State) : (takeEpcPoll s).2.eeprom = s.eeprom := by
  simp only [takeEpcPoll]; split <;> rfl

/-- A look sees whether a command is in progress after it; one that sees it in progress leaves the EEPROM (R280). -/
theorem epcPoll_bit (s : State) :
    (epcPoll s).1 = (epcPoll s).2.eeprom.inProgress.isSome ∧
    ((epcPoll s).2.eeprom.inProgress.isSome = true → (epcPoll s).2.eeprom = s.eeprom) ∧
    (s.eeprom.inProgress = none → (epcPoll s).2.eeprom = s.eeprom) := by
  simp only [epcPoll]; split
  · next h => simp [h]
  · next op h => split
                 · refine ⟨rfl, fun k => ?_, fun k => ?_⟩
                   · cases k
                   · rw [h] at k; cases k
                 · simp [h]

/-- The EPC-data register holds the byte in bits 7:0 (R280, log 21). -/
theorem epcDataWord_byte (e : Eeprom) (drawn : Word) (h : e.inProgress = none) :
    (epcDataWord e drawn).setWidth 8 = e.data := by
  simp only [epcDataWord, h, Option.isSome_none, Bool.false_eq_true, if_false]
  rw [BitVec.setWidth_append]
  apply BitVec.eq_of_getLsbD_eq; intro i hi; simp [hi]

/-- The word an EPC command is submitted with is read as that command, whatever the layout (R280, log 21). -/
theorem epcOfRegisterWord_word (code : BitVec 3) (a : BitVec 9) (byte : Byte) :
    epcOfRegisterWord (epcRegisterWord code a) byte = epcOfFields code a byte := by
  have h := epcWord_fields code a 0#8
  simp [epcOfRegisterWord, epcRegisterWord, h]

/-- A word that holds no command is refused (R281, U9). -/
theorem epcCommandWrite_reserved {w : Word} {s : State} (h : epcOfRegisterWord w s.eeprom.data = none) :
    epcCommandWrite w s = .refused (.reservedEpcWord w) := by
  simp [epcCommandWrite, h]

/-- Everything a word that holds a command can do: it submits its command where none is in progress (R280), else it
replaces that one or does not (R281). -/
theorem epcCommandWrite_legal {w : Word} {s : State} {op : EpcOp} (h : epcOfRegisterWord w s.eeprom.data = some op) :
    ∃ o, epcCommandWrite w s = .next (advance { s with eeprom := { s.eeprom with inProgress := o } }) ∧
      (s.eeprom.inProgress = none → o = some op) ∧ (o = s.eeprom.inProgress ∨ o = some op) := by
  simp only [epcCommandWrite, h]
  split
  · next hb => exact ⟨s.eeprom.inProgress, rfl, fun k => by simp [k] at hb, .inl rfl⟩
  · exact ⟨some op, rfl, fun _ => rfl, .inr rfl⟩

theorem epcCommandWrite_cases {w : Word} {s t : State} (h : epcCommandWrite w s = .next t) :
    ∃ o, t = advance { s with eeprom := { s.eeprom with inProgress := o } } := by
  cases hw : epcOfRegisterWord w s.eeprom.data with
  | none => rw [epcCommandWrite_reserved hw] at h; cases h
  | some op =>
    obtain ⟨o, k, _⟩ := epcCommandWrite_legal hw
    rw [k] at h; cases h
    exact ⟨o, rfl⟩

theorem epcCommandWrite_no_fault (w : Word) (s : State) (r : Fault) : epcCommandWrite w s ≠ .fault r := by
  cases hw : epcOfRegisterWord w s.eeprom.data with
  | none => simp [epcCommandWrite_reserved hw]
  | some op => obtain ⟨o, k, _⟩ := epcCommandWrite_legal hw; simp [k]

/-! ### Register accesses -/

/-- A register read changes at most the EEPROM, by the completion it finds, and draws (R28, R280). -/
theorem macRead_looked (a : RegAddr) (s : State) : Looked s (macRead a s).2 := by
  simp only [macRead]; repeat' split
  all_goals first
    | exact advance_looked s
    | exact (epcPoll_looked s).trans (advance_looked _)

/-- A read of any register but the EPC-command register draws one free value and changes nothing else. -/
theorem macRead_state {a : RegAddr} (s : State) (h : a ≠ 0x040#12) : (macRead a s).2 = advance s := by
  simp only [macRead, epcCommandAddr_eq, h, if_false]; repeat' split
  all_goals rfl

/-- A read of MII_ACC has BUSY in bit 0 (R221). -/
theorem macRead_busy (s : State) : (macRead 0x120#12 s).1.getLsbD 0 = engBusy s.mac.eng := by
  simp only [macRead, miiAccAddr_eq, if_true, accReadWord, busyBit_eq]
  exact withBit_same _ _ (by decide)

/-- A read of the EPC-command register has "command in progress" in bit 31 (R280). -/
theorem macRead_epcBusy (s : State) :
    (macRead 0x040#12 s).1.getLsbD 31 = (macRead 0x040#12 s).2.eeprom.inProgress.isSome ∧
    ((macRead 0x040#12 s).2.eeprom.inProgress.isSome = true → (macRead 0x040#12 s).2.eeprom = s.eeprom) ∧
    (s.eeprom.inProgress = none → (macRead 0x040#12 s).2.eeprom = s.eeprom) :=
  ⟨(withBit_same _ _ (by decide)).trans (epcPoll_bit s).1, (epcPoll_bit s).2⟩

/-- A read of the EPC-data register with no command in progress gives its byte (R280). -/
theorem macRead_epcData {s : State} (h : s.eeprom.inProgress = none) :
    (macRead 0x044#12 s).1.setWidth 8 = s.eeprom.data := epcDataWord_byte _ _ h

/-- A read of MII_DATA where its content is defined gives the datum in bits 15:0 (R222). -/
theorem macRead_datum (s : State) (hf : s.mac.eng = .free) (hw : s.mac.dataWindow ≠ .undefined) :
    (macRead 0x124#12 s).1.setWidth 16 = s.mac.miiData.setWidth 16 := by
  simp only [macRead, miiAccAddr_eq, miiDataAddr_eq, show (0x124#12 = 0x120#12) = False by decide, if_true, if_false,
    dataReadWord, hf, engBusy, Bool.false_eq_true]
  split
  · contradiction
  · rfl
  · rw [BitVec.setWidth_append]
    simp only [show (16 : Nat) ≤ 16 from Nat.le_refl _, dif_pos]
    apply BitVec.eq_of_getLsbD_eq; intro i hi; simp [hi]

/-- A launch starts the transaction and draws one free value; the datum of a write is MII_DATA[15:0] where R30 defines
it (R223). -/
theorem launch_spec (rw : Rw) (p r : Field5) (w : Word) (s : State) :
    ∃ d, launch rw p r w s = advance (startTransaction rw p r d w s) ∧
      (rw = .write → s.mac.dataWindow ≠ .undefined → d = s.mac.miiData.setWidth 16) := by
  cases rw
  · exact ⟨drawnHalf s, rfl, by simp⟩
  · refine ⟨launchDatum s.mac (drawnHalf s), rfl, fun _ hw => ?_⟩
    simp only [launchDatum]; split
    · contradiction
    · rfl
    · rfl

/-- What an access word holds (R92, R93). -/
theorem decodeAcc_cases {c : Config} {w : Word} {i : Instr} (h : decodeAcc c w = .ok i) :
    accHigh w = 0#16 ∧ ((i = .miiRead (accPhyad w) (accRegad w) ∧ accOp w = c.readOpcode) ∨
      (i = .miiWrite (accPhyad w) (accRegad w) ∧ accOp w = c.writeOpcode)) := by
  simp only [decodeAcc] at h
  split at h
  · cases h
  · next h0 =>
    refine ⟨by simpa using h0, ?_⟩
    split at h
    · next h1 => exact .inl ⟨by simpa using h.symm, h1⟩
    · split at h
      · next h2 => exact .inr ⟨by simpa using h.symm, h2⟩
      · cases h

/-- Everything a write to MII_ACC can do (R223, R224, U3). -/
theorem accWrite_cases {w : Word} {s t : State} (h : accWrite w s = .next t) :
    s.mac.eng = .free ∧ ∃ rw, accOp w = opcodeOf s.cfg rw ∧ t = launch rw (accPhyad w) (accRegad w) w s := by
  simp only [accWrite] at h
  split at h
  · cases h
  · next hb =>
    refine ⟨by cases he : s.mac.eng <;> simp_all [engBusy], ?_⟩
    split at h
    · next hd =>
      obtain ⟨_, ⟨h1, h2⟩ | ⟨h1, _⟩⟩ := decodeAcc_cases hd <;> cases h1
      exact ⟨.read, h2, by simpa using h.symm⟩
    · next hd =>
      obtain ⟨_, ⟨h1, _⟩ | ⟨h1, h2⟩⟩ := decodeAcc_cases hd <;> cases h1
      exact ⟨.write, h2, by simpa using h.symm⟩
    · cases h

/-- A write to MII_ACC on a free engine is no fault. -/
theorem accWrite_no_fault (w : Word) (s : State) (r : Fault) (hf : s.mac.eng = .free) : accWrite w s ≠ .fault r := by
  simp only [accWrite, hf, engBusy, Bool.false_eq_true, if_false]
  repeat' split
  all_goals simp

/-- A write that does not get through changes nothing (R67). -/
theorem macWriteIf_false (a : RegAddr) (v : Word) (s : State) : macWriteIf false a v s = .next s := by
  simp only [macWriteIf]; repeat' split
  all_goals simp_all

/-- Everything a register write can do (R28, R67, R222, R223). -/
theorem macWriteIf_cases {yes : Bool} {a : RegAddr} {v : Word} {s t : State}
    (h : macWriteIf yes a v s = .next t) :
    t = s ∨ (a = miiAccAddr ∧ yes = true ∧ accWrite v s = .next t) ∨
    (a = miiDataAddr ∧ yes = true ∧ s.mac.eng = .free ∧
      t = { s with mac := { s.mac with miiData := v, dataWindow := .stored } }) ∨
    (a = epcCommandAddr ∧ yes = true ∧ epcCommandWrite v s = .next t) ∨
    (a = epcDataAddr ∧ yes = true ∧ t = { s with eeprom := { s.eeprom with data := v.setWidth 8 } }) ∨
    (a ≠ miiAccAddr ∧ a ≠ miiDataAddr ∧ a ≠ epcCommandAddr ∧ a ≠ epcDataAddr ∧ yes = true ∧
      t = { s with mac := { s.mac with regs := Memory.write s.mac.regs a.toNat v } }) := by
  cases yes
  · left
    rw [macWriteIf_false] at h
    cases h; rfl
  · right
    simp only [macWriteIf] at h
    split at h
    · next ha => exact .inl ⟨ha, rfl, by simpa using h⟩
    · next ha =>
      split at h
      · next hd =>
        simp only [if_true, dataWrite] at h
        split at h
        · cases h
        · next hb =>
          exact .inr (.inl ⟨hd, rfl, by cases he : s.mac.eng <;> simp_all [engBusy], by simpa using h.symm⟩)
      · next hd =>
        split at h
        · next hc => exact .inr (.inr (.inl ⟨hc, rfl, by simpa using h⟩))
        · next hc =>
          split at h
          · next he => exact .inr (.inr (.inr (.inl ⟨he, rfl, by simpa using h.symm⟩)))
          · next he => exact .inr (.inr (.inr (.inr ⟨ha, hd, hc, he, rfl, by simpa using h.symm⟩)))

/-- A register write leaves the sequencer, the serializer and everything beyond the MAC, the wire and the EEPROM. -/
theorem macWriteIf_frame {yes : Bool} {a : RegAddr} {v : Word} {s t : State} (h : macWriteIf yes a v s = .next t) :
    SameOutside s t ∧ t.seq = s.seq ∧ t.ser = s.ser := by
  rcases macWriteIf_cases h with rfl | ⟨_, _, h⟩ | ⟨_, _, _, rfl⟩ | ⟨_, _, h⟩ | ⟨_, _, rfl⟩ | ⟨_, _, _, _, _, rfl⟩
  · exact ⟨SameOutside.refl t, rfl, rfl⟩
  · obtain ⟨_, rw, _, rfl⟩ := accWrite_cases h
    obtain ⟨d, hl, _⟩ := launch_spec rw (accPhyad v) (accRegad v) v s
    rw [hl]
    exact ⟨⟨rfl, rfl, rfl, rfl, rfl, rfl⟩, rfl, rfl⟩
  · exact ⟨⟨rfl, rfl, rfl, rfl, rfl, rfl⟩, rfl, rfl⟩
  · obtain ⟨o, rfl⟩ := epcCommandWrite_cases h
    exact ⟨⟨rfl, rfl, rfl, rfl, rfl, rfl⟩, rfl, rfl⟩
  · exact ⟨⟨rfl, rfl, rfl, rfl, rfl, rfl⟩, rfl, rfl⟩
  · exact ⟨⟨rfl, rfl, rfl, rfl, rfl, rfl⟩, rfl, rfl⟩

/-- A register write sees neither the serializer nor the scripts, and leaves them (R28). -/
theorem macWrite_scripts (a : RegAddr) (v : Word) (s : State) (ser : Ser) (ua : List UsbAnswer) (da : List DriverAnswer) :
    macWrite a v { s with ser := ser, env := { s.env with usbAnswers := ua, driverAnswers := da } } =
      andThen (macWrite a v s) fun u =>
        .next { u with ser := ser, env := { u.env with usbAnswers := ua, driverAnswers := da } } := by
  simp only [macWrite, macWriteIf, if_true]
  split
  · simp only [accWrite]; split
    · rfl
    · split <;> rfl
  · split
    · simp only [dataWrite]; split <;> rfl
    · split
      · simp only [epcCommandWrite]; split
        · rfl
        · split <;> rfl
      · split <;> rfl

/-- A register write is a fault only at an MII register on a busy engine (R224, R225). -/
theorem macWriteIf_no_fault (yes : Bool) (a : RegAddr) (v : Word) (s : State) (r : Fault)
    (h : (a = miiAccAddr ∨ a = miiDataAddr) → s.mac.eng = .free) : macWriteIf yes a v s ≠ .fault r := by
  simp only [macWriteIf]
  split
  · next ha => split
               · exact accWrite_no_fault _ _ _ (h (.inl ha))
               · simp
  · split
    · next hd => split
                 · simp [dataWrite, h (.inr hd), engBusy]
                 · simp
    · split
      · split
        · exact epcCommandWrite_no_fault v s r
        · simp
      · split <;> simp

/-- A write to MII_DATA on a free engine only stores (R222, R68). -/
theorem macWrite_data (v : Word) {s : State} (h : s.mac.eng = .free) :
    macWrite 0x124#12 v s = .next { s with mac := { s.mac with miiData := v, dataWindow := .stored } } := by
  have hb : engBusy s.mac.eng = false := by rw [h]; rfl
  simp [macWrite, macWriteIf, dataWrite, hb]

/-- A write to a register other than the two MII registers and the two EPC registers stores there (R28). -/
theorem macWrite_other {a : RegAddr} (v : Word) (s : State) (h1 : a ≠ 0x120#12) (h2 : a ≠ 0x124#12)
    (h3 : a ≠ 0x040#12) (h4 : a ≠ 0x044#12) :
    macWrite a v s = .next { s with mac := { s.mac with regs := Memory.write s.mac.regs a.toNat v } } := by
  simp [macWrite, macWriteIf, h1, h2, h3, h4]

/-- A write to the EPC-data register stores its byte (R280). -/
theorem macWrite_epcData (v : Word) (s : State) :
    macWrite 0x044#12 v s = .next { s with eeprom := { s.eeprom with data := v.setWidth 8 } } := by
  simp [macWrite, macWriteIf]

/-! ### Transactions started from outside the sequencer -/

/-- The access word of a legal configuration decodes to its transaction (R92, R93). -/
theorem decodeAcc_accWord {c : Config} (hc : c.wf) (p r : Field5) (rw : Rw) :
    decodeAcc c (accWord p r (opcodeOf c rw)) =
      .ok (match rw with | .read => .miiRead p r | .write => .miiWrite p r) := by
  obtain ⟨h1, h2, h3, h4⟩ := accWord_fields p r (opcodeOf c rw)
  cases rw
  · simp [decodeAcc, h1, h2, h3, h4]; simp [opcodeOf]
  · simp [decodeAcc, h1, h2, h3, h4]; simp [opcodeOf, hc.2.2.1.symm]

/-- An access word written on a free engine launches (R223). -/
theorem accWrite_launches {s : State} (hc : s.cfg.wf) (hf : s.mac.eng = .free) (p r : Field5) (rw : Rw) :
    accWrite (accWord p r (opcodeOf s.cfg rw)) s = .next (launch rw p r (accWord p r (opcodeOf s.cfg rw)) s) := by
  simp only [accWrite, hf, engBusy, decodeAcc_accWord hc p r rw]
  cases rw <;> rfl

/-- A write to MII_DATA on a free engine stores (R222). -/
theorem dataWrite_free (v : Word) {s : State} (hf : s.mac.eng = .free) :
    dataWrite v s = .next { s with mac := { s.mac with miiData := v, dataWindow := .stored } } := by
  have hb : engBusy s.mac.eng = false := by rw [hf]; rfl
  simp [dataWrite, hb]

/-- Starting a transaction is writing its access word to MII_ACC (R61, R223). -/
theorem startAccess_eq {s : State} (hc : s.cfg.wf) (rw : Rw) (p r : Field5) :
    startAccess rw p r s = accWrite (accWord p r (opcodeOf s.cfg rw)) s := by
  cases he : s.mac.eng with
  | free => rw [accWrite_launches hc he]; simp [startAccess, he, engBusy]
  | inflight => simp [startAccess, accWrite, he, engBusy]

/-- Everything starting a transaction can do. -/
theorem startAccess_cases {rw : Rw} {p r : Field5} {s t : State} (h : startAccess rw p r s = .next t) :
    s.mac.eng = .free ∧ t = launch rw p r (accWord p r (opcodeOf s.cfg rw)) s := by
  simp only [startAccess] at h
  split at h
  · cases h
  · next hb => exact ⟨by cases he : s.mac.eng <;> simp_all [engBusy], by simpa using h.symm⟩

/-- A write started on a free engine: MII_DATA holds the datum, which is in flight (R222, R223). -/
theorem startWrite_free {s : State} (hf : s.mac.eng = .free) (p r : Field5) (v : Half) :
    startWrite p r v s = .next (advance (startTransaction .write p r v (accWord p r s.cfg.writeOpcode)
      { s with mac := { s.mac with miiData := v.setWidth 32, dataWindow := .stored } })) := by
  rw [startWrite, dataWrite_free _ hf, andThen_next]
  simp [startAccess, hf, engBusy, launch, launchDatum, opcodeOf]

/-- Everything starting a write can do. -/
theorem startWrite_cases {p r : Field5} {v : Half} {s t : State} (h : startWrite p r v s = .next t) :
    s.mac.eng = .free ∧ t = advance (startTransaction .write p r v (accWord p r s.cfg.writeOpcode)
      { s with mac := { s.mac with miiData := v.setWidth 32, dataWindow := .stored } }) := by
  cases he : s.mac.eng with
  | free => exact ⟨rfl, by simpa [startWrite_free he] using h.symm⟩
  | inflight => simp [startWrite, dataWrite, he, engBusy, andThen] at h

theorem startWrite_no_fault (p r : Field5) (v : Half) (s : State) (e : Fault) (hf : s.mac.eng = .free) :
    startWrite p r v s ≠ .fault e := by
  simp [startWrite_free hf]

/-- Everything a completion can do (R226): nothing on a free engine, else the PHY access and the freed engine. -/
theorem engineComplete_cases {s t : State} (h : engineComplete s = .next t) :
    (s.mac.eng = .free ∧ t = s) ∨
    (∃ p r d v u, s.mac.eng = .inflight .read p r d ∧ phyRead p r s = .next (v, u) ∧
      t = freeEngine (loadDatum v u)) ∨
    (∃ p r d u, s.mac.eng = .inflight .write p r d ∧ phyWrite p r d s = .next u ∧ t = freeEngine u) := by
  simp only [engineComplete] at h
  split at h
  · next he => exact .inl ⟨he, by simpa using h.symm⟩
  · next p r d he =>
    obtain ⟨⟨v, u⟩, h1, h2⟩ := andThen_eq_next.mp h
    exact .inr (.inl ⟨p, r, d, v, u, he, h1, by simpa using h2.symm⟩)
  · next p r d he =>
    obtain ⟨u, h1, h2⟩ := andThen_eq_next.mp h
    exact .inr (.inr ⟨p, r, d, u, he, h1, by simpa using h2.symm⟩)

theorem engineComplete_no_fault (s : State) (r : Fault) : engineComplete s ≠ .fault r := by
  simp only [engineComplete]
  split
  · simp
  · intro h
    rcases andThen_eq_fault.mp h with h | ⟨⟨v, u⟩, _, h⟩
    · exact phyRead_no_fault _ _ _ _ h
    · simp at h
  · intro h
    rcases andThen_eq_fault.mp h with h | ⟨u, _, h⟩
    · exact phyWrite_no_fault _ _ _ _ _ h
    · simp at h

end Sys2Proof.Machine
end

