-- ==== Sys2Proof/Laws/Transport.lean ====
section
/-! SUPPORT. The serializer and the Transport: what one exchange and one operation can do. -/

namespace Sys2Proof.Machine

/-- Only the serializer's counter, the spent answers and the count of draws differ. -/
abbrev Spent (s t : State) : Prop :=
  ∃ ser ua da n, t = { s with ser := ser, env := { s.env with usbAnswers := ua, driverAnswers := da, tick := n } }

theorem Spent.refl (s : State) : Spent s s := ⟨s.ser, s.env.usbAnswers, s.env.driverAnswers, s.env.tick, rfl⟩

theorem Spent.trans {s t u : State} (h : Spent s t) (k : Spent t u) : Spent s u := by
  obtain ⟨_, _, _, _, rfl⟩ := h
  obtain ⟨a, b, c, d, rfl⟩ := k
  exact ⟨a, b, c, d, rfl⟩

theorem Spent.device {s t : State} (h : Spent s t) : SameDevice s t ∧ t.seq = s.seq := by
  obtain ⟨_, _, _, _, rfl⟩ := h
  exact ⟨⟨rfl, rfl, rfl, rfl, rfl, rfl, rfl, rfl, rfl⟩, rfl⟩

theorem Spent.touched {s t : State} (h : Spent s t) : Touched s t := by
  obtain ⟨ser, ua, da, n, rfl⟩ := h
  exact ⟨⟨ser, s.eeprom, ua, da, s.env.epcPolls, n, rfl⟩, id⟩

theorem advance_spent (s : State) : Spent s (advance s) :=
  ⟨s.ser, s.env.usbAnswers, s.env.driverAnswers, s.env.tick + 1, rfl⟩

/-- RETRY is below its limit while an operation goes on (R99). -/
abbrev retryBounded (s : State) : Prop := s.ser.pending = true → s.ser.retry < s.cfg.retryLimit

/-! ### The serializer (R144 to R149) -/

theorem startExchange_spent (s : State) : Spent s (startExchange s) := by
  simp only [startExchange]; split
  · exact Spent.refl s
  · exact ⟨_, s.env.usbAnswers, s.env.driverAnswers, s.env.tick, rfl⟩

theorem takeDriverAnswer_spent (s : State) : Spent s (takeDriverAnswer s).2 := by
  simp only [takeDriverAnswer]; split
  · exact ⟨s.ser, s.env.usbAnswers, _, s.env.tick, rfl⟩
  · exact advance_spent s

/-- A scripted answer (R150): it is spent, and RETRY is that of the operation, 0 where a new one starts (R151). -/
theorem takeDriverAnswer_scripted {s : State} {ans : DriverAnswer} {rest : List DriverAnswer}
    (h : s.env.driverAnswers = ans :: rest) :
    (takeDriverAnswer (startExchange s)).1 = ans ∧
    (takeDriverAnswer (startExchange s)).2 = { s with
      ser := ⟨if s.ser.pending then s.ser.retry else 0, s.ser.pending⟩
      env := { s.env with driverAnswers := rest } } := by
  have e : (startExchange s).env.driverAnswers = ans :: rest := by simp only [startExchange]; split <;> exact h
  simp only [takeDriverAnswer, e, true_and]
  simp only [startExchange]
  split
  · simp
  · next hp => simp [show s.ser.pending = false by simpa using hp]

/-- Beginning an exchange keeps RETRY below its limit. -/
theorem takeDriverAnswer_bounded {s : State} (h : retryBounded s) :
    retryBounded (takeDriverAnswer (startExchange s)).2 := by
  have hs : retryBounded (startExchange s) := by
    simp only [startExchange]; split
    · exact h
    · next hp => exact fun k => absurd k hp
  simp only [takeDriverAnswer]; split
  · exact hs
  · exact hs

/-- Concluding an exchange changes the serializer alone, and leaves RETRY below its limit where it goes on. -/
theorem concludeExchange_spent (v : Verdict) (s : State) :
    Spent s (concludeExchange v s).2 ∧ retryBounded (concludeExchange v s).2 := by
  have hend : Spent s (endOperation s) ∧ retryBounded (endOperation s) :=
    ⟨⟨_, s.env.usbAnswers, s.env.driverAnswers, s.env.tick, rfl⟩, by simp [endOperation]⟩
  cases v
  · simp only [concludeExchange]
    split
    · exact ⟨⟨_, s.env.usbAnswers, s.env.driverAnswers, s.env.tick, rfl⟩, by simp⟩
    · exact ⟨⟨_, s.env.usbAnswers, s.env.driverAnswers, s.env.tick, rfl⟩, fun _ => by simp only; omega⟩
  · exact hend
  · exact hend
  · exact hend

theorem settleExchange_spent (ans : DriverAnswer) (isRead : Bool) (v : Word) (s : State) :
    Spent s (settleExchange ans isRead v s).2 ∧ retryBounded (settleExchange ans isRead v s).2 := by
  cases ans
  · exact concludeExchange_spent _ s
  · exact concludeExchange_spent _ s
  · exact ⟨⟨_, s.env.usbAnswers, s.env.driverAnswers, s.env.tick, rfl⟩, by simp [settleExchange, endOperation]⟩

@[simp] theorem performRequest_read (lands : Bool) (sel ifx a : Word) (s : State) :
    performRequest lands (drvReadBytes sel ifx a) s =
      .next (if lands then macRead (a.setWidth 12) s else (0#32, s)) := by
  have := drvReadBytes_fields sel ifx a
  simp [performRequest, decodeDrv, this]

@[simp] theorem performRequest_write (lands : Bool) (sel ifx a v : Word) (s : State) :
    performRequest lands (drvWriteBytes sel ifx a v) s =
      andThen (macWriteIf lands (a.setWidth 12) v s) fun t => .next (0#32, t) := by
  have := drvWriteBytes_fields sel ifx a v
  simp [performRequest, decodeDrv, this, drvOpRead_eq, drvOpWrite_eq]

/-- A register read other than of the EPC-command register changes nothing of the device (R28). -/
theorem macRead_spent {a : RegAddr} (s : State) (h : a ≠ 0x040#12) : Spent s (macRead a s).2 :=
  macRead_state s h ▸ advance_spent s

/-- The response of a driver that has performed a read parses to the value (R96, R144). -/
theorem parse_successResponse_read (hdr : BitVec 64) (v : Word) :
    parseResponse true (successResponse hdr true v) = .success v := by
  have h8 : le32At (successResponse hdr true v) 8 = drvStatusOk :=
    le32At_le32 (le32 (hdr.extractLsb' 0 32) ++ le32 (hdr.extractLsb' 32 32)) (le32 v) drvStatusOk 8 rfl
  have h12 : le32At (successResponse hdr true v) 12 = v :=
    le32At_le32 (le32 (hdr.extractLsb' 0 32) ++ le32 (hdr.extractLsb' 32 32) ++ le32 drvStatusOk) [] v 12 rfl
  have hl : (successResponse hdr true v).length = 16 := rfl
  simp [parseResponse, h8, h12, hl, drvStatusOff_eq, drvPayloadOff, drvStatusOk_eq, drvStatusBusy_eq]

/-- The response of a driver that has performed a write parses to success (R96, R144). -/
theorem parse_successResponse_write (hdr : BitVec 64) (v : Word) :
    parseResponse false (successResponse hdr false v) = .success 0#32 := by
  have h8 : le32At (successResponse hdr false v) 8 = drvStatusOk :=
    le32At_le32 (le32 (hdr.extractLsb' 0 32) ++ le32 (hdr.extractLsb' 32 32)) [] drvStatusOk 8 rfl
  have hl : (successResponse hdr false v).length = 12 := rfl
  simp [parseResponse, h8, hl, drvStatusOff_eq, drvPayloadOff, drvStatusOk_eq, drvStatusBusy_eq]

/-- Only an answer of success lets a read through (R148, D11). -/
theorem answerLands_read {ans : DriverAnswer} (h : answerLands ans true = true) (v : Word) (s : State) :
    ∃ w, (settleExchange ans true v s).1 = .value w := by
  cases ans with
  | performs hdr => exact ⟨v, by simp [settleExchange, parse_successResponse_read, concludeExchange]⟩
  | buffer rsp reached =>
    simp only [answerLands, Bool.not_true, Bool.and_false] at h
    cases hv : parseResponse true rsp <;> simp only [hv, landed, Bool.false_eq_true] at h
    next w => exact ⟨w, by simp [settleExchange, hv, concludeExchange]⟩
  | failed code reached => simp [answerLands] at h

/-- An exchange of a read answers next and changes nothing of the device, but for the EEPROM's completion that a look at
the EPC-command register may find; one that returns no value is no look (R142, R144, R148, R280). -/
theorem exchange_read (sel ifx a : Word) (s : State) :
    ∃ x t, exchange true (drvReadBytes sel ifx a) s = .next (x, t) ∧ Touched s t ∧
      ((a.setWidth 12 ≠ 0x040#12 ∨ ∀ v, x ≠ .value v) → Spent s t) ∧ retryBounded t := by
  have h1 := (startExchange_spent s).trans (takeDriverAnswer_spent _)
  have hx := fun v => settleExchange_spent (takeDriverAnswer (startExchange s)).1 true v
  simp only [exchange, performRequest_read, andThen_next]
  cases hl : answerLands (takeDriverAnswer (startExchange s)).1 true
  · exact ⟨_, _, rfl, (h1.trans (hx _ _).1).touched, fun _ => h1.trans (hx _ _).1, (hx _ _).2⟩
  · refine ⟨_, _, rfl, (h1.touched.trans (macRead_looked _ _).touched).trans (hx _ _).1.touched, fun h => ?_, (hx _ _).2⟩
    rcases h with h | h
    · exact (h1.trans (macRead_spent _ h)).trans (hx _ _).1
    · obtain ⟨w, k⟩ := answerLands_read hl _ _
      exact absurd k (h w)

/-- An exchange of a write is at most one register write of the MAC (R143, R144). -/
theorem exchange_write {sel ifx a v : Word} {s : State} :
    ∃ yes s1, Spent s s1 ∧ (retryBounded s → retryBounded s1) ∧
      (∀ x t, exchange false (drvWriteBytes sel ifx a v) s = .next (x, t) →
        ∃ u, macWriteIf yes (a.setWidth 12) v s1 = .next u ∧ Spent u t ∧ retryBounded t) ∧
      (∀ r, exchange false (drvWriteBytes sel ifx a v) s = .fault r →
        macWriteIf yes (a.setWidth 12) v s1 = .fault r) := by
  refine ⟨answerLands (takeDriverAnswer (startExchange s)).1 false, _,
    (startExchange_spent s).trans (takeDriverAnswer_spent _), takeDriverAnswer_bounded, ?_, ?_⟩
  · intro x t h
    simp only [exchange, performRequest_write] at h
    obtain ⟨⟨w, u⟩, h1, h2⟩ := andThen_eq_next.mp h
    obtain ⟨u1, h3, h4⟩ := andThen_eq_next.mp h1
    cases h4
    refine ⟨u, h3, ?_⟩
    have hs := settleExchange_spent (takeDriverAnswer (startExchange s)).1 false 0#32 u
    have ht : (settleExchange (takeDriverAnswer (startExchange s)).1 false 0#32 u).2 = t := by
      have := Host.Outcome.next.inj h2
      exact (congrArg Prod.snd this)
    exact ht ▸ hs
  · intro r h
    simp only [exchange, performRequest_write] at h
    rcases andThen_eq_fault.mp h with h | ⟨_, _, h⟩
    · rcases andThen_eq_fault.mp h with h | ⟨_, _, h⟩
      · exact h
      · cases h
    · cases h

/-! ### Transport operations (R120, R126) -/

theorem takeUsbAnswer_spent (s : State) : Spent s (takeUsbAnswer s).2 ∧ (takeUsbAnswer s).2.ser = s.ser := by
  simp only [takeUsbAnswer]; split
  · exact ⟨⟨s.ser, _, s.env.driverAnswers, s.env.tick, rfl⟩, rfl⟩
  · exact ⟨advance_spent s, rfl⟩

/-- A register address handed to a request buffer comes back (R142, R143). -/
@[simp] theorem setWidth_regAddr (a : RegAddr) : ((a.setWidth 32 : Word).setWidth 12 : RegAddr) = a := by
  apply BitVec.eq_of_toNat_eq
  have := a.isLt
  simp only [BitVec.toNat_setWidth]; omega

theorem usbRead_touched (a : RegAddr) (s : State) :
    Touched s (usbRead a s).2 ∧
      ((a ≠ 0x040#12 ∨ ∀ v, (usbRead a s).1 ≠ .value v) → Spent s (usbRead a s).2) ∧ (usbRead a s).2.ser = s.ser := by
  have h := takeUsbAnswer_spent s
  simp only [usbRead]
  split <;> rename_i e <;> simp only [e] at h
  · exact ⟨h.1.touched.trans (macRead_looked _ _).touched,
      fun k => k.elim (fun k => h.1.trans (macRead_spent _ k)) fun k => absurd rfl (k _),
      (macRead_looked _ _).scripts.1.trans h.2⟩
  · exact ⟨h.1.touched, fun _ => h.1, h.2⟩
  · exact ⟨h.1.touched, fun _ => h.1, h.2⟩

/-- No operation over the USB Transport goes on to another exchange: only a driver answers busy (R120, R148). -/
theorem usb_not_again {a : RegAddr} {v : Word} {s t : State} :
    (usbRead a s).1 ≠ .again ∧ usbWrite a v s ≠ .next (.again, t) := by
  refine ⟨?_, ?_⟩
  · simp only [usbRead]; split <;> simp
  · intro h
    simp only [usbWrite] at h
    split at h <;> (obtain ⟨u, _, k⟩ := andThen_eq_next.mp h; simp at k)

/-- An operation that goes on is one over the driver (R148). -/
theorem again_driver {a : RegAddr} {v : Word} {s t : State}
    (h : memRead a s = .next (.again, t) ∨ memWrite a v s = .next (.again, t)) : s.cfg.transport = .driver := by
  cases hk : s.cfg.transport with
  | driver => rfl
  | usb =>
    exfalso
    rcases h with h | h
    · simp only [memRead, hk, Host.Outcome.next.injEq] at h
      exact (usb_not_again (a := a) (v := v) (s := s) (t := t)).1 (by rw [h])
    · simp only [memWrite, hk] at h
      exact usb_not_again.2 h

/-- A register read answers next and changes nothing of the device, but for the EEPROM's completion that a look at the
EPC-command register may find; one that returns no value is no look (R120, R148, R280). -/
theorem memRead_spec (a : RegAddr) (s : State) :
    ∃ x t, memRead a s = .next (x, t) ∧ Touched s t ∧ ((a ≠ 0x040#12 ∨ ∀ v, x ≠ .value v) → Spent s t) ∧
      (retryBounded s → retryBounded t) := by
  simp only [memRead]
  split
  · have h := usbRead_touched a s
    refine ⟨(usbRead a s).1, (usbRead a s).2, rfl, h.1, h.2.1, fun k => ?_⟩
    have hc : (usbRead a s).2.cfg = s.cfg := h.1.outside.1.cfg
    simpa only [retryBounded, h.2.2, hc] using k
  · obtain ⟨x, t, h1, h2, h3, h4⟩ := exchange_read s.cfg.drvSelector s.cfg.drvIfindex (a.setWidth 32) s
    exact ⟨x, t, h1, h2, fun k => h3 (by simpa using k), fun _ => h4⟩

/-- A register write is at most one register write of the MAC (R120, R67). -/
theorem memWrite_spec (a : RegAddr) (v : Word) (s : State) :
    ∃ yes s1, Spent s s1 ∧ (retryBounded s → retryBounded s1) ∧
      (∀ x t, memWrite a v s = .next (x, t) →
        ∃ u, macWriteIf yes a v s1 = .next u ∧ Spent u t ∧ (t.ser = s.ser ∨ retryBounded t)) ∧
      (∀ r, memWrite a v s = .fault r → macWriteIf yes a v s1 = .fault r) := by
  simp only [memWrite]
  split
  · have h := takeUsbAnswer_spent s
    have key : ∀ yes (x0 : Xfer) t1, (takeUsbAnswer s).2 = t1 →
        usbWrite a v s = andThen (macWriteIf yes a v t1) (fun u => .next (x0, u)) →
        ∃ yes s1, Spent s s1 ∧ (retryBounded s → retryBounded s1) ∧
          (∀ x t, usbWrite a v s = .next (x, t) →
            ∃ u, macWriteIf yes a v s1 = .next u ∧ Spent u t ∧ (t.ser = s.ser ∨ retryBounded t)) ∧
          (∀ r, usbWrite a v s = .fault r → macWriteIf yes a v s1 = .fault r) := by
      rintro yes x0 t1 rfl hw
      have hb : retryBounded s → retryBounded (takeUsbAnswer s).2 := fun k => by
        have hc : (takeUsbAnswer s).2.cfg = s.cfg := h.1.device.1.cfg
        simpa only [retryBounded, h.2, hc] using k
      refine ⟨yes, _, h.1, hb, fun x t e => ?_, fun r e => ?_⟩
      · rw [hw] at e
        obtain ⟨u, h1, h2⟩ := andThen_eq_next.mp e
        cases h2; exact ⟨t, h1, Spent.refl t, .inl ((macWriteIf_frame h1).2.2.trans h.2)⟩
      · rw [hw] at e
        rcases andThen_eq_fault.mp e with e | ⟨_, _, e⟩
        · exact e
        · cases e
    cases e : takeUsbAnswer s with
    | mk ans t1 =>
      cases ans with
      | performs => exact key true (.value 0#32) t1 (by rw [e]) (by simp only [usbWrite, e]; rfl)
      | ioError i d r => exact key r (.raised ⟨.io, i, d⟩) t1 (by rw [e]) (by simp only [usbWrite, e])
      | timeout i d r => exact key r (.raised ⟨.timeout, i, d⟩) t1 (by rw [e]) (by simp only [usbWrite, e])
  · obtain ⟨yes, s1, h1, hb, h2, h3⟩ :=
      exchange_write (sel := s.cfg.drvSelector) (ifx := s.cfg.drvIfindex) (a := a.setWidth 32) (v := v) (s := s)
    rw [setWidth_regAddr] at h2 h3
    refine ⟨yes, _, h1, hb, fun x t e => ?_, h3⟩
    obtain ⟨u, k1, k2, k3⟩ := h2 x t e
    exact ⟨u, k1, k2, .inr k3⟩

/-! ### An operation the device performs -/

theorem transportPerforms_usb {s : State} (h : transportPerforms s = true) (hu : s.cfg.transport = .usb) :
    ∃ rest, s.env.usbAnswers = .performs :: rest := by
  simp only [transportPerforms, hu] at h
  cases e : s.env.usbAnswers with
  | nil => simp [e] at h
  | cons a rest => simp [e] at h; exact ⟨rest, by rw [h]⟩

theorem transportPerforms_driver {s : State} (h : transportPerforms s = true) (hd : s.cfg.transport = .driver) :
    ∃ hdr rest, s.env.driverAnswers = .performs hdr :: rest := by
  simp only [transportPerforms, hd] at h
  split at h
  · next hdr rest e => exact ⟨hdr, rest, e⟩
  · cases h

/-- A read that the device performs returns the register as it stands, and what it does to the device is the MAC's
(R120). -/
theorem memRead_performs (a : RegAddr) {s : State} (h : transportPerforms s = true) :
    ∃ s1 t, Spent s s1 ∧ s1.env.tick = s.env.tick ∧ memRead a s = .next (.value (macRead a s1).1, t) ∧
      Spent (macRead a s1).2 t := by
  cases hk : s.cfg.transport with
  | usb =>
    obtain ⟨rest, e⟩ := transportPerforms_usb h hk
    have hs : Spent s { s with env := { s.env with usbAnswers := rest } } :=
      ⟨s.ser, rest, s.env.driverAnswers, s.env.tick, rfl⟩
    refine ⟨_, _, hs, rfl, ?_, Spent.refl _⟩
    simp [memRead, hk, usbRead, takeUsbAnswer, e]
  | driver =>
    obtain ⟨hdr, rest, e⟩ := transportPerforms_driver h hk
    obtain ⟨h1, h2⟩ := takeDriverAnswer_scripted e
    have hs : Spent s (takeDriverAnswer (startExchange s)).2 :=
      (startExchange_spent s).trans (takeDriverAnswer_spent _)
    refine ⟨_, endOperation (macRead a (takeDriverAnswer (startExchange s)).2).2, hs, ?_, ?_, ⟨_, _, _, _, rfl⟩⟩
    · rw [h2]
    · simp only [memRead, hk, exchange, readRequest, performRequest_read, andThen_next, setWidth_regAddr]
      rw [h1]
      simp only [answerLands, if_true, settleExchange, parse_successResponse_read, concludeExchange]

/-- A write that the device performs is the register write of the MAC, once: whatever that write comes to (R120, R31). -/
theorem memWrite_performs (a : RegAddr) (v : Word) {s : State} (h : transportPerforms s = true) :
    ∃ s1, ∃ finish : State → State, Spent s s1 ∧ s1.env.tick = s.env.tick ∧ (∀ u, Spent u (finish u)) ∧
      memWrite a v s = andThen (macWrite a v s1) fun u => .next (.value 0#32, finish u) := by
  cases hk : s.cfg.transport with
  | usb =>
    obtain ⟨rest, e⟩ := transportPerforms_usb h hk
    refine ⟨{ s with env := { s.env with usbAnswers := rest } }, id, ⟨s.ser, rest, s.env.driverAnswers, s.env.tick, rfl⟩,
      rfl, Spent.refl, ?_⟩
    simp [memWrite, hk, usbWrite, takeUsbAnswer, e]
  | driver =>
    obtain ⟨hdr, rest, e⟩ := transportPerforms_driver h hk
    obtain ⟨h1, h2⟩ := takeDriverAnswer_scripted e
    refine ⟨(takeDriverAnswer (startExchange s)).2, endOperation, (startExchange_spent s).trans (takeDriverAnswer_spent _),
      by rw [h2], fun u => ⟨_, _, _, _, rfl⟩, ?_⟩
    simp only [memWrite, hk, exchange, writeRequest, performRequest_write, h1, answerLands, setWidth_regAddr, macWrite]
    cases macWriteIf true a v (takeDriverAnswer (startExchange s)).2 <;>
      simp [settleExchange, parse_successResponse_write, concludeExchange]

end Sys2Proof.Machine
end

