-- ==== Sys2Proof/Laws/Sequencer.lean ====
section
/-! SUPPORT. The commands and their micro-operations. -/

namespace Sys2Proof.Machine

/-! ### Commands (R24, R25) -/

/-- A command instruction is run by `execCommand` on its own operands. -/
theorem exec_command {i : Instr} {c : Command} (h : commandOfInstr i = some c) :
    ∃ opa opb opc opd, ∀ s, exec i s = execCommand c opa opb opc opd s := by
  cases i <;> simp only [commandOfInstr, Option.some.injEq, reduceCtorEq] at h <;> subst h <;>
    exact ⟨_, _, _, _, fun _ => rfl⟩

/-- The latches hold a command that decodes, unused latches 0: they are what `execCommand` compares with (R22, R24). -/
theorem running_exec {i : Instr} {s : State} (hm : s.seq.mode = .run) (hr : runningInstr s = .ok i)
    (hu : unusedLatchesZero s.seq) :
    ∃ c, commandOfInstr i = some c ∧ commandOf s.seq.cmd = some c ∧ c.code = s.seq.cmd ∧
      exec i s = runMicroOp c s := by
  simp only [runningInstr, latchedFrame] at hr
  by_cases h1 : s.seq.cmd = 0x08#32
  · simp [h1, decodeCmd] at hr; subst hr
    have := hu.1 h1
    exact ⟨_, rfl, by simp [commandOf, h1], h1.symm, by
      simp [exec, execRegRead, execCommand, hm, latchesHold, h1, this, regReadCommand]⟩
  · by_cases h2 : s.seq.cmd = 0x09#32
    · simp [h2, decodeCmd] at hr; subst hr
      have := hu.2.1 (.inl h2)
      exact ⟨_, rfl, by simp [commandOf, h2], h2.symm, by
        simp [exec, execRegWrite, execCommand, hm, latchesHold, h2, this, regWriteCommand]⟩
    · by_cases h3 : s.seq.cmd = 0x10#32
      · simp [h3, decodeCmd] at hr; subst hr
        have := hu.2.1 (.inr h3)
        exact ⟨_, rfl, by simp [commandOf, h3], h3.symm, by
          simp [exec, execC22Read, execCommand, hm, latchesHold, h3, this, c22ReadCommand]⟩
      · by_cases h4 : s.seq.cmd = 0x11#32
        · simp [h4, decodeCmd] at hr; subst hr
          have := hu.2.2 (.inl h4)
          exact ⟨_, rfl, by simp [commandOf, h4], h4.symm, by
            simp [exec, execC22Write, execCommand, hm, latchesHold, h4, this, c22WriteCommand]⟩
        · by_cases h5 : s.seq.cmd = 0x12#32
          · simp [h5, decodeCmd] at hr; subst hr
            have := hu.2.2 (.inr h5)
            exact ⟨_, rfl, by simp [commandOf, h5], h5.symm, by
              simp [exec, execC45Read, execCommand, hm, latchesHold, h5, this, c45ReadCommand]⟩
          · by_cases h6 : s.seq.cmd = 0x13#32
            · simp [h6, decodeCmd] at hr; subst hr
              exact ⟨_, rfl, by simp [commandOf, h6], h6.symm, by
                simp [exec, execC45Write, execCommand, hm, latchesHold, h6, c45WriteCommand]⟩
            · simp [h1, h2, h3, h4, h5, h6, decodeCmd] at hr

/-- At a micro-operation of a command, `exec` of the running instruction executes that micro-operation. -/
theorem exec_atMicroOp {i : Instr} {op : MicroOp} {s : State} (h : AtMicroOp i op s) :
    ∃ c, commandOfInstr i = some c ∧ commandOf s.seq.cmd = some c ∧ c.program[s.seq.upc.toNat]? = some op ∧
      exec i s = execMicroOp c op s := by
  obtain ⟨c, h1, h2, _, h3⟩ := running_exec h.mode h.latched h.unused
  have hc := h.current
  simp only [currentMicroOp, h.mode, h2, Option.bind_some] at hc
  exact ⟨c, h1, h2, hc, by simp [h3, runMicroOp, hc]⟩

/-! ### After a Transport operation (R312, R179) -/

theorem afterTransport_value {o : Result (Xfer × State)} {f : Word → State → State} {v : Word} {t : State}
    (h : o = .next (.value v, t)) : afterTransport o f = .next (f v t) := by subst h; rfl

theorem afterTransport_raised {o : Result (Xfer × State)} {f : Word → State → State} {e : Exc} {t : State}
    (h : o = .next (.raised e, t)) : afterTransport o f = .next (raise e t) := by subst h; rfl

/-- Everything a micro-operation makes of a Transport operation. -/
theorem afterTransport_cases {o : Result (Xfer × State)} {f : Word → State → State} {t : State}
    (h : afterTransport o f = .next t) :
    ∃ x u, o = .next (x, u) ∧
      (x = .again ∧ t = u ∨ (∃ e, x = .raised e ∧ t = raise e u) ∨ ∃ v, x = .value v ∧ t = f v u) := by
  obtain ⟨⟨x, u⟩, h1, h2⟩ := andThen_eq_next.mp h
  refine ⟨x, u, h1, ?_⟩
  cases x
  · exact .inl ⟨rfl, by simpa using h2.symm⟩
  · exact .inr (.inl ⟨_, rfl, by simpa using h2.symm⟩)
  · exact .inr (.inr ⟨_, rfl, by simpa using h2.symm⟩)

/-- The value of a micro-operation's read: the register as it stands. What the read does to the device is the MAC's: to
another register than that of the EEPROM's commands, nothing (`macRead_spent`). -/
theorem afterTransport_read (a : RegAddr) (f : Word → State → State) {s : State} (h : transportPerforms s = true) :
    ∃ s1 u, Spent s s1 ∧ s1.env.tick = s.env.tick ∧ Spent (macRead a s1).2 u ∧
      afterTransport (memRead a s) f = .next (f (macRead a s1).1 u) := by
  obtain ⟨s1, u, h1, h2, h3, h4⟩ := memRead_performs a h
  exact ⟨s1, u, h1, h2, h4, afterTransport_value h3⟩

/-- What a micro-operation's write comes to: what the register write of the MAC does. -/
theorem afterTransport_write (a : RegAddr) (v : Word) (f : Word → State → State) {s : State}
    (h : transportPerforms s = true) :
    ∃ s1, ∃ finish : State → State, Spent s s1 ∧ s1.env.tick = s.env.tick ∧ (∀ u, Spent u (finish u)) ∧
      afterTransport (memWrite a v s) f = andThen (macWrite a v s1) fun u => .next (f 0#32 (finish u)) := by
  obtain ⟨s1, finish, h1, h2, h3, h4⟩ := memWrite_performs a v h
  refine ⟨s1, finish, h1, h2, h3, ?_⟩
  rw [h4]
  cases macWrite a v s1 <;> rfl

/-- The state after a micro-operation's write that the MAC answers next. -/
theorem afterTransport_write_next (a : RegAddr) (v : Word) (f : Word → State → State) {s : State}
    (h : transportPerforms s = true) :
    ∃ s1, Spent s s1 ∧ s1.env.tick = s.env.tick ∧
      ∀ u, macWrite a v s1 = .next u → ∃ t, Spent u t ∧ afterTransport (memWrite a v s) f = .next (f 0#32 t) := by
  obtain ⟨s1, finish, h1, h2, h3, h4⟩ := afterTransport_write a v f h
  exact ⟨s1, h1, h2, fun u hu => ⟨finish u, h3 u, by rw [h4, hu]; rfl⟩⟩

/-! ### VALIDATE (R172) -/

@[simp] theorem operandBound_regAddr : operandBound .regAddr = 0x1000 := rfl
@[simp] theorem operandBound_phyAddr : operandBound .phyAddr = 32 := rfl
@[simp] theorem operandBound_regIndex : operandBound .regIndex = 32 := rfl
@[simp] theorem operandBound_devad : operandBound .devad = 32 := rfl
@[simp] theorem operandBound_c45Index : operandBound .c45Index = 0x10000 := rfl
@[simp] theorem operandBound_data : operandBound .data = 0x10000 := rfl

/-- The first failing check decides what VALIDATE reports. -/
theorem firstFailure_cons (q : Seq) (l : Latch) (n : OperandName) (rest : Checks) :
    firstFailure q ((l, n) :: rest) =
      if operandBound n ≤ (readLatch q l).toNat then some (operandExc n (readLatch q l)) else firstFailure q rest := rfl

/-! One check, by the name of its operand: the bound of R7 and the exception of R302. -/

theorem firstFailure_regAddr (q : Seq) (l : Latch) (rest : Checks) :
    firstFailure q ((l, .regAddr) :: rest) =
      if 0x1000 ≤ (readLatch q l).toNat then some (excRegAddr (readLatch q l)) else firstFailure q rest := rfl
theorem firstFailure_phyAddr (q : Seq) (l : Latch) (rest : Checks) :
    firstFailure q ((l, .phyAddr) :: rest) =
      if 32 ≤ (readLatch q l).toNat then some (excPhyAddr (readLatch q l)) else firstFailure q rest := rfl
theorem firstFailure_regIndex (q : Seq) (l : Latch) (rest : Checks) :
    firstFailure q ((l, .regIndex) :: rest) =
      if 32 ≤ (readLatch q l).toNat then some (excRegIndex (readLatch q l)) else firstFailure q rest := rfl
theorem firstFailure_devad (q : Seq) (l : Latch) (rest : Checks) :
    firstFailure q ((l, .devad) :: rest) =
      if 32 ≤ (readLatch q l).toNat then some (excDevad (readLatch q l)) else firstFailure q rest := rfl
theorem firstFailure_c45Index (q : Seq) (l : Latch) (rest : Checks) :
    firstFailure q ((l, .c45Index) :: rest) =
      if 0x10000 ≤ (readLatch q l).toNat then some (excC45Index (readLatch q l)) else firstFailure q rest := rfl
theorem firstFailure_data (q : Seq) (l : Latch) (rest : Checks) :
    firstFailure q ((l, .data) :: rest) =
      if 0x10000 ≤ (readLatch q l).toNat then some (excData (readLatch q l)) else firstFailure q rest := rfl

/-- Operands that all lie below their bounds pass. -/
theorem firstFailure_none (q : Seq) (cs : Checks) :
    firstFailure q cs = none ↔ ∀ x ∈ cs, (readLatch q x.1).toNat < operandBound x.2 := by
  induction cs with
  | nil => simp [firstFailure]
  | cons x rest ih =>
    obtain ⟨l, n⟩ := x
    rw [firstFailure_cons]
    split
    · next h => simp; intro hc; omega
    · next h => simp [ih]; intro _; omega

end Sys2Proof.Machine
end

