-- ==== Sys2Proof/Laws/Steps.lean ====
section
/-! SUPPORT. Everything a micro-operation, a command and a turn can do, for case analyses over steps. -/

namespace Sys2Proof.Machine

/-! ### Micro-operations -/

/-- The register and the value a writing micro-operation hands to the Transport (R175, R176, R125). -/
def writeTarget (op : MicroOp) (s : State) : Option (RegAddr × Word) :=
  match op with
  | .wrData e => some (miiDataAddr, (datumValue s.seq e).setWidth 32)
  | .wrAcc r rw =>
    some (miiAccAddr, accWord (s.seq.opa.setWidth 5) (regIndexValue s.seq r) (opcodeOf s.cfg rw))
  | .wrReg => some (s.seq.opa.setWidth 12, s.seq.opb)
  | .validate => none
  | .poll => none
  | .rdData => none
  | .rdReg => none
  | .ret => none

/-- What a reading micro-operation does with the value. -/
def readFinish (op : MicroOp) : Option (Word → State → State) :=
  match op with
  | .poll => some pollIteration
  | .rdData => some fun v t => storeResult ((v.setWidth 16).setWidth 32) t
  | .rdReg => some storeResult
  | .validate => none
  | .wrData _ => none
  | .wrAcc _ _ => none
  | .wrReg => none
  | .ret => none

/-- Everything a micro-operation can do. -/
theorem execMicroOp_cases {c : Command} {op : MicroOp} {s t : State} (h : execMicroOp c op s = .next t) :
    (op = .validate ∧ t = microValidate c.checks s) ∨ (op = .ret ∧ t = commandReturn c.clearsRes s) ∨
    (∃ f u, readFinish op = some f ∧ Touched s u ∧
      (Spent s u ∨ op = .rdReg ∧ s.seq.opa.setWidth 12 = 0x040#12 ∧ ∃ v, t = f v u) ∧ (retryBounded s → retryBounded u) ∧
      (s.cfg.transport = .driver ∧ t = u ∨ (∃ e, t = raise e u) ∨ ∃ v, t = f v u)) ∨
    (∃ a v yes s1 u w, writeTarget op s = some (a, v) ∧ Spent s s1 ∧
      (retryBounded s → retryBounded s1) ∧ macWriteIf yes a v s1 = .next u ∧ Spent u w ∧
      (w.ser = s.ser ∨ retryBounded w) ∧
      (s.cfg.transport = .driver ∧ t = w ∨ (∃ e, t = raise e w) ∨ t = nextMicroOp w)) := by
  have rd : ∀ a f, readFinish op = some f → (a ≠ 0x040#12 ∨ op = .rdReg ∧ s.seq.opa.setWidth 12 = 0x040#12) →
      afterTransport (memRead a s) f = .next t →
      ∃ f u, readFinish op = some f ∧ Touched s u ∧
        (Spent s u ∨ op = .rdReg ∧ s.seq.opa.setWidth 12 = 0x040#12 ∧ ∃ v, t = f v u) ∧
        (retryBounded s → retryBounded u) ∧
        (s.cfg.transport = .driver ∧ t = u ∨ (∃ e, t = raise e u) ∨ ∃ v, t = f v u) := by
    intro a f hf ha h
    obtain ⟨x, u, h1, h2⟩ := afterTransport_cases h
    obtain ⟨x', u', k1, k2, k3, k4⟩ := memRead_spec a s
    rw [h1] at k1; cases k1
    rcases h2 with ⟨rfl, h2⟩ | ⟨e, rfl, h2⟩ | ⟨v, rfl, h2⟩
    · exact ⟨f, u, hf, k2, .inl (k3 (.inr (by simp))), k4, .inl ⟨again_driver (v := 0#32) (.inl h1), h2⟩⟩
    · exact ⟨f, u, hf, k2, .inl (k3 (.inr (by simp))), k4, .inr (.inl ⟨e, h2⟩)⟩
    · exact ⟨f, u, hf, k2, ha.imp (fun k => k3 (.inl k)) fun k => ⟨k.1, k.2, v, h2⟩, k4, .inr (.inr ⟨v, h2⟩)⟩
  have wr : ∀ a v, writeTarget op s = some (a, v) →
      afterTransport (memWrite a v s) (fun _ t => nextMicroOp t) = .next t →
      ∃ a v yes s1 u w, writeTarget op s = some (a, v) ∧ Spent s s1 ∧
        (retryBounded s → retryBounded s1) ∧ macWriteIf yes a v s1 = .next u ∧ Spent u w ∧
        (w.ser = s.ser ∨ retryBounded w) ∧
        (s.cfg.transport = .driver ∧ t = w ∨ (∃ e, t = raise e w) ∨ t = nextMicroOp w) := by
    intro a v ha h
    obtain ⟨x, w, h1, h2⟩ := afterTransport_cases h
    obtain ⟨yes, s1, k1, kb, k2, _⟩ := memWrite_spec a v s
    obtain ⟨u, k3, k4, k5⟩ := k2 x w h1
    refine ⟨a, v, yes, s1, u, w, ha, k1, kb, k3, k4, k5, ?_⟩
    rcases h2 with h2 | ⟨e, _, h2⟩ | ⟨_, _, h2⟩
    · exact .inl ⟨again_driver (.inr (h2.1 ▸ h1)), h2.2⟩
    · exact .inr (.inl ⟨e, h2⟩)
    · exact .inr (.inr h2)
  cases op
  · exact .inl ⟨rfl, by simpa [execMicroOp] using h.symm⟩
  · exact .inr (.inr (.inl (rd _ _ rfl (.inl (by decide)) h)))
  · exact .inr (.inr (.inr (wr _ _ rfl h)))
  · exact .inr (.inr (.inr (wr _ _ rfl h)))
  · exact .inr (.inr (.inl (rd _ _ rfl (.inl (by decide)) h)))
  · refine .inr (.inr (.inl (rd _ _ rfl ?_ h)))
    exact (Decidable.em (s.seq.opa.setWidth 12 = 0x040#12)).elim (fun k => .inr ⟨rfl, k⟩) .inl
  · exact .inr (.inr (.inr (wr _ _ rfl h)))
  · exact .inr (.inl ⟨rfl, by simpa [execMicroOp] using h.symm⟩)

/-- A micro-operation touches neither the PHYs nor the configuration, the port or the schedule. -/
theorem execMicroOp_outside {c : Command} {op : MicroOp} {s t : State} (h : execMicroOp c op s = .next t) :
    SameOutside s t := by
  have rs : ∀ (e : Exc) (u : State), SameOutside u (raise e u) := fun _ _ => ⟨rfl, rfl, rfl, rfl, rfl, rfl⟩
  have nx : ∀ u : State, SameOutside u (nextMicroOp u) := fun _ => ⟨rfl, rfl, rfl, rfl, rfl, rfl⟩
  rcases execMicroOp_cases h with
    ⟨_, rfl⟩ | ⟨_, rfl⟩ | ⟨f, u, hf, h1, _, _, h2⟩ | ⟨a, v, yes, s1, u, w, _, h1, _, h2, h3, _, h4⟩
  · simp only [microValidate]; split
    · exact rs _ _
    · exact nx _
  · exact ⟨rfl, rfl, rfl, rfl, rfl, rfl⟩
  · refine h1.outside.1.trans ?_
    rcases h2 with ⟨_, rfl⟩ | ⟨e, rfl⟩ | ⟨v, rfl⟩
    · exact SameOutside.refl _
    · exact rs _ _
    · cases op <;> simp only [readFinish, Option.some.injEq, reduceCtorEq] at hf <;> subst hf
      · simp only [pollIteration]; repeat' split
        all_goals exact ⟨rfl, rfl, rfl, rfl, rfl, rfl⟩
      · exact ⟨rfl, rfl, rfl, rfl, rfl, rfl⟩
      · exact ⟨rfl, rfl, rfl, rfl, rfl, rfl⟩
  · refine h1.touched.outside.1.trans ((macWriteIf_frame h2).1.trans (h3.touched.outside.1.trans ?_))
    rcases h4 with ⟨_, rfl⟩ | ⟨e, rfl⟩ | rfl
    · exact SameOutside.refl _
    · exact rs _ _
    · exact nx _

/-! ### Commands -/

/-- Everything a command can do: it is accepted, it waits, or its micro-operation at UPC is executed (R24, R25). -/
theorem execCommand_cases {c : Command} {opa opb opc opd : Word} {s t : State}
    (h : execCommand c opa opb opc opd s = .next t) :
    (s.seq.mode = .idle ∧ t = accept c.code opa opb opc opd s) ∨ (s.seq.mode = .run ∧ t = s) ∨
    (s.seq.mode = .run ∧ s.seq.cmd = c.code ∧ ∃ op, c.program[s.seq.upc.toNat]? = some op ∧
      execMicroOp c op s = .next t) := by
  simp only [execCommand] at h
  split at h
  · next hm => exact .inl ⟨hm, by simpa using h.symm⟩
  · next hm =>
    split at h
    · next hl =>
      simp only [runMicroOp] at h
      split at h
      · next op ho =>
        refine .inr (.inr ⟨hm, ?_, op, ho, h⟩)
        simp only [latchesHold, Bool.and_eq_true, beq_iff_eq] at hl
        exact hl.1.1.1.1
      · cases h
    · exact .inr (.inl ⟨hm, by simpa using h.symm⟩)

/-- The six commands by their codes. -/
theorem commandOf_code {i : Instr} {c : Command} (h : commandOfInstr i = some c) : commandOf c.code = some c := by
  cases i <;> simp only [commandOfInstr, Option.some.injEq, reduceCtorEq] at h <;> subst h <;> rfl

/-! ### Frames (R233 to R241) -/

/-- A half clock of a frame: the pins and the PHYs move, and at the end of the frame the engine is freed. -/
theorem halfClock_cases {rw : Rw} {p r : Field5} {d : Half} {s t : State} (h : halfClock rw p r d s = .next t) :
    (∃ w f n, t = { s with wire := w, phys := f, env := { s.env with tick := n } } ∧
      (f = s.phys ∨ ∃ q i v, phyWriteRegs s.cfg.phyPresent s.phys q i v = .next f)) ∨
    t = frameEnd rw s := by
  simp only [halfClock] at h
  split at h
  · left
    simp only [risingEdge] at h
    split at h
    · simp only [phyStore] at h
      split at h
      · next q i v _ =>
        obtain ⟨f, h1, rfl⟩ := phyWrite_cases h
        exact ⟨_, f, s.env.tick, rfl, .inr ⟨q, i, v, h1⟩⟩
      · cases h; exact ⟨_, s.phys, s.env.tick, rfl, .inl rfl⟩
    · cases h; exact ⟨_, s.phys, s.env.tick, rfl, .inl rfl⟩
  · simp only [fallingEdge] at h
    split at h
    · exact .inr (by simpa using h.symm)
    · left
      simp only [phyApply] at h
      split at h
      · simp only [phyTurnaround] at h
        split at h
        · obtain ⟨⟨v, u⟩, h1, h2⟩ := andThen_eq_next.mp h
          cases h2
          rcases phyRead_cases h1 with ⟨_, _, rfl⟩ | ⟨_, _, rfl⟩
          · exact ⟨_, s.phys, s.env.tick + 1, rfl, .inl rfl⟩
          · exact ⟨_, s.phys, s.env.tick, rfl, .inl rfl⟩
        · cases h; exact ⟨_, s.phys, s.env.tick, rfl, .inl rfl⟩
      · split at h <;> cases h <;> exact ⟨_, s.phys, s.env.tick, rfl, .inl rfl⟩

/-- No half clock of a frame is a fault. -/
theorem halfClock_no_fault (rw : Rw) (p r : Field5) (d : Half) (s : State) (e : Fault) :
    halfClock rw p r d s ≠ .fault e := by
  simp only [halfClock]
  split
  · simp only [risingEdge]
    split
    · simp only [phyStore]
      split
      · exact phyWrite_no_fault _ _ _ _ _
      · simp
    · simp
  · simp only [fallingEdge]
    split
    · simp
    · simp only [phyApply]
      split
      · simp only [phyTurnaround]
        split
        · intro h
          rcases andThen_eq_fault.mp h with h | ⟨⟨v, u⟩, _, h⟩
          · exact phyRead_no_fault _ _ _ _ h
          · cases h
        · simp
      · split <;> simp

/-! ### Turns -/

/-- The step of a scripted turn (R75). -/
theorem step_turn {s : State} {a : Agent} {ts : List Agent} (h : s.env.turns = a :: ts) :
    step s = agentTurn a { s with env := { s.env with turns := ts } } := by
  simp [step, takeTurn, h]

/-- Taking a turn changes the schedule and the count of draws alone. -/
theorem takeTurn_spec (s : State) :
    ∃ ts n, (takeTurn s).2 = { s with env := { s.env with turns := ts, tick := n } } := by
  simp only [takeTurn]; split
  · exact ⟨_, s.env.tick, rfl⟩
  · exact ⟨s.env.turns, _, rfl⟩

/-- Whether an item waits does not depend on the world outside. -/
theorem mustWait_env (i : Instr) (s : State) (e : Env) : mustWait i { s with env := e } = mustWait i s := by
  cases i <;> rfl

/-- An item leaving the port changes the port alone. -/
theorem retire_spec (i : Instr) (t : State) :
    retire i t = t ∨ retire i t = { t with env := { t.env with port := t.env.port.tail } } := by
  simp only [retire]; split
  · exact .inl rfl
  · exact .inr rfl

/-! ### The engine's move and the address-select words (R226, R233, R244) -/

/-- Everything a step of the engine can do: a half clock at pin level, else the completion; nothing on a free engine. -/
theorem engineMove_cases {s t : State} (h : engineMove s = .next t) :
    (s.mac.eng = .free ∧ t = s) ∨
    (∃ rw p r d, s.mac.eng = .inflight rw p r d ∧ s.cfg.pins = true ∧ halfClock rw p r d s = .next t) ∨
    (s.cfg.pins = false ∧ engineComplete s = .next t) := by
  simp only [engineMove] at h
  split at h
  · next hp =>
    split at h
    · next he => exact .inl ⟨he, by simpa using h.symm⟩
    · next rw p r d he => exact .inr (.inl ⟨rw, p, r, d, he, hp, h⟩)
  · next hp => exact .inr (.inr ⟨by simpa using hp, h⟩)

theorem engineMove_no_fault (s : State) (e : Fault) : engineMove s ≠ .fault e := by
  simp only [engineMove]
  repeat' split
  · simp
  · exact halfClock_no_fault _ _ _ _ _ _
  · exact engineComplete_no_fault _ _

/-- Everything an address-select word can do: it starts its write, it waits, or the engine moves its write in flight. -/
theorem selectCommand_cases {v : Half} {s t : State} (h : selectCommand v s = .next t) :
    (s.mac.eng = .free ∧ startWrite s.cfg.phyAddr mmdCtrlIdx v s = .next t) ∨ t = s ∨ engineMove s = .next t := by
  simp only [selectCommand] at h
  split at h
  · next he => exact .inl ⟨he, h⟩
  · split at h
    · exact .inr (.inr h)
    · exact .inr (.inl (by simpa using h.symm))
  · exact .inr (.inl (by simpa using h.symm))

theorem selectCommand_no_fault (v : Half) (s : State) (e : Fault) : selectCommand v s ≠ .fault e := by
  simp only [selectCommand]
  split
  · next he => exact startWrite_no_fault _ _ _ _ _ he
  · split
    · exact engineMove_no_fault _ _
    · simp
  · simp

/-- An item that decodes to an address-select instruction is run as the word it came in (R244). -/
theorem decodeMmd_exec {v : Half} {i : Instr} (h : decodeMmd v = .ok i) (s : State) : exec i s = selectCommand v s := by
  simp only [decodeMmd] at h
  split at h
  · cases h
  · next hr =>
    have hb := mmdWord_back (v := v) (by simpa using hr)
    split at h <;> next hm => cases h; simp only [hm] at hb; simp only [exec, execMmdAddr, execMmdData, hb]

/-- The engine's turn is its move, whichever instruction that is (R226, R233). -/
theorem engineTurn_eq (s : State) : engineTurn s = engineMove s := by
  simp only [engineTurn, engineInstr]
  cases he : s.mac.eng with
  | free => rfl
  | inflight rw p r d =>
    cases hp : s.cfg.pins with
    | true => cases rw <;> simp [frameOf, exec, execFrameRead, execFrameWrite, engineMove, he, hp]
    | false =>
      simp only [Bool.false_eq_true, if_false]
      split
      · next i hi =>
        split at hi
        · next hk =>
          obtain ⟨rfl, rfl⟩ := hk
          split at hi
          · next hd => cases hi; rw [decodeMmd_exec hd]; simp [selectCommand, he]
          · cases hi
        · cases hi
      · rfl

/-! ### The EEPROM commands (R280) -/

/-- Everything a move of an EPC command does in IDLE (R280): it issues a REG_READ of the EPC-command register, a REG_WRITE of
the EPC-data or of the EPC-command register, or it is over. -/
theorem epcContinue_cases (code : BitVec 3) (a : BitVec 9) (byte : Option Byte) (s : State) :
    (∃ ph, epcContinue code a byte s = issueRead 0x040#12 ph s) ∨
    (∃ d, byte = some d ∧ epcContinue code a byte s = issueWrite 0x044#12 (d.setWidth 32) .data s) ∨
    epcContinue code a byte s = issueWrite 0x040#12 (epcRegisterWord code a) .submitted s ∨
    epcContinue code a byte s = setPhase .start s := by
  simp only [epcContinue, epcCommandAddr_eq, epcDataAddr_eq]
  repeat' split
  all_goals first
    | exact .inl ⟨_, rfl⟩
    | exact .inr (.inl ⟨_, rfl, rfl⟩)
    | exact .inr (.inr (.inl rfl))
    | exact .inr (.inr (.inr rfl))

/-- An EPC command answers next: it goes on in IDLE, and waits while a register command runs (R24, R280). -/
theorem epcCommand_spec (code : BitVec 3) (a : BitVec 9) (byte : Option Byte) (s : State) :
    epcCommand code a byte s = .next (match s.seq.mode with | .idle => epcContinue code a byte s | .run => s) := by
  cases h : s.seq.mode <;> simp [epcCommand, h]

end Sys2Proof.Machine
end

