-- ==== Sys2Proof/Laws/Frame.lean ====
section
/-! SUPPORT. The bits of a serial frame: what the master drives are the slots of the frame, and sampling them one after
another puts the frame together again. -/

namespace Sys2Proof.Machine

/-- Slot `k` of a frame, field by field (R97). -/
theorem frameSlots_bit (op : BitVec 2) (p r : Field5) (ta : BitVec 2) (d : Half) (k : Nat) (hk : k < 64) :
    (frameSlots op p r ta d).getLsbD (63 - k) =
      (if k < 32 then true
       else if k < 34 then k == 33
       else if k < 36 then op.getLsbD (35 - k)
       else if k < 41 then p.getLsbD (40 - k)
       else if k < 46 then r.getLsbD (45 - k)
       else if k < 48 then ta.getLsbD (47 - k)
       else d.getLsbD (63 - k)) := by
  simp only [frameSlots, BitVec.getLsbD_append]
  by_cases h1 : k < 32
  · simp only [h1, if_true]
    have e : 63 - k - 16 - 2 - 5 - 5 - 2 - 2 = 31 - k := by omega
    rw [e]
    simp [show ¬ 63 - k < 16 by omega, show ¬ 63 - k - 16 < 2 by omega, show ¬ 63 - k - 16 - 2 < 5 by omega,
      show ¬ 63 - k - 16 - 2 - 5 < 5 by omega, show ¬ 63 - k - 16 - 2 - 5 - 5 < 2 by omega,
      show ¬ 63 - k - 16 - 2 - 5 - 5 - 2 < 2 by omega]
    have h31 : 31 - k < 32 := by omega
    generalize 31 - k = j at h31
    revert j; decide
  · by_cases h2 : k < 34
    · have : k = 32 ∨ k = 33 := by omega
      rcases this with rfl | rfl <;> simp
    · by_cases h3 : k < 36
      · have : k = 34 ∨ k = 35 := by omega
        rcases this with rfl | rfl <;> simp
      · by_cases h4 : k < 41
        · have e : 63 - k - 16 - 2 - 5 = 40 - k := by omega
          simp [h1, h2, h3, h4, e, show ¬ 63 - k < 16 by omega, show ¬ 63 - k - 16 < 2 by omega,
            show ¬ 63 - k - 16 - 2 < 5 by omega, show 40 - k < 5 by omega]
        · by_cases h5 : k < 46
          · have e : 63 - k - 16 - 2 = 45 - k := by omega
            simp [h1, h2, h3, h4, h5, e, show ¬ 63 - k < 16 by omega, show ¬ 63 - k - 16 < 2 by omega,
              show 45 - k < 5 by omega]
          · by_cases h6 : k < 48
            · have e : 63 - k - 16 = 47 - k := by omega
              simp [h1, h2, h3, h4, h5, h6, e, show ¬ 63 - k < 16 by omega, show 47 - k < 2 by omega]
            · simp [h1, h2, h3, h4, h5, h6, show 63 - k < 16 by omega]

/-- In every slot of a write frame the master drives the slot's bit (R97, R232). -/
theorem masterBit_write (p r : Field5) (d : Half) (k : Nat) (hk : k < 64) :
    masterBit .write p r d k = some ((frameSlots 0b01#2 p r 0b10#2 d).getLsbD (63 - k)) := by
  rw [frameSlots_bit _ _ _ _ _ _ hk]
  simp only [masterBit]
  by_cases h1 : k < 32
  · simp [h1]
  · by_cases h3 : k < 36
    · have : k = 32 ∨ k = 33 ∨ k = 34 ∨ k = 35 := by omega
      rcases this with rfl | rfl | rfl | rfl <;> simp
    · by_cases h4 : k ≤ 40
      · simp [h1, h3, h4, show k ≠ 32 by omega, show k ≠ 33 by omega, show k ≠ 34 by omega, show k ≠ 35 by omega,
          show ¬ k < 34 by omega, show k < 41 by omega]
      · by_cases h5 : k ≤ 45
        · simp [h1, h3, h4, h5, show k ≠ 32 by omega, show k ≠ 33 by omega, show k ≠ 34 by omega,
            show k ≠ 35 by omega, show ¬ k < 34 by omega, show ¬ k < 41 by omega, show k < 46 by omega]
        · by_cases h6 : k < 48
          · have : k = 46 ∨ k = 47 := by omega
            rcases this with rfl | rfl <;> simp
          · simp [h1, h3, h4, h5, h6, show k ≠ 32 by omega, show k ≠ 33 by omega, show k ≠ 34 by omega,
              show k ≠ 35 by omega, show ¬ k < 34 by omega, show ¬ k < 41 by omega, show ¬ k < 46 by omega,
              show k ≠ 46 by omega, show k ≠ 47 by omega]

/-- In a read frame the master drives the first 46 slots and releases the rest (R97, R232). -/
theorem masterBit_read (p r : Field5) (d : Half) (k : Nat) (hk : k < 64) :
    masterBit .read p r d k =
      if k < 46 then some ((frameSlots 0b10#2 p r 0b11#2 0xFFFF#16).getLsbD (63 - k)) else none := by
  rw [frameSlots_bit _ _ _ _ _ _ hk]
  simp only [masterBit]
  by_cases h1 : k < 32
  · simp [h1, show k < 46 by omega]
  · by_cases h3 : k < 36
    · have : k = 32 ∨ k = 33 ∨ k = 34 ∨ k = 35 := by omega
      rcases this with rfl | rfl | rfl | rfl <;> simp
    · by_cases h4 : k ≤ 40
      · simp [h1, h3, h4, show k ≠ 32 by omega, show k ≠ 33 by omega, show k ≠ 34 by omega, show k ≠ 35 by omega,
          show ¬ k < 34 by omega, show k < 41 by omega, show k < 46 by omega]
      · by_cases h5 : k ≤ 45
        · simp [h1, h3, h4, h5, show k ≠ 32 by omega, show k ≠ 33 by omega, show k ≠ 34 by omega,
            show k ≠ 35 by omega, show ¬ k < 34 by omega, show ¬ k < 41 by omega, show k < 46 by omega]
        · simp [h1, h4, h5, show k ≠ 32 by omega, show k ≠ 33 by omega, show k ≠ 34 by omega, show k ≠ 35 by omega,
            show ¬ k < 46 by omega]

/-- Sampling the next bit of a word after its first `k` bits gives its first `k + 1` bits (R234, R241). -/
theorem sample_next (F : BitVec 64) (k : Nat) (hk : k < 64) :
    ((F >>> (64 - k)) <<< 1) ||| (BitVec.ofBool (F.getLsbD (63 - k))).setWidth 64 = F >>> (63 - k) := by
  apply BitVec.eq_of_getLsbD_eq
  intro i hi
  rcases Nat.eq_zero_or_pos i with rfl | h
  · simp
  · have e1 : 64 - k + (i - 1) = 63 - k + i := by omega
    simp only [BitVec.getLsbD_or, BitVec.getLsbD_shiftLeft, BitVec.getLsbD_ushiftRight, BitVec.getLsbD_setWidth,
      BitVec.getLsbD_ofBool, e1, show ¬ i < 1 by omega, show i ≠ 0 by omega, hi]
    simp

/-- As `sample_next`, for the sixteen data bits (R234). -/
theorem sample_next_half (v : Half) (k : Nat) (hk : k < 16) :
    ((v >>> (16 - k)) <<< 1) ||| (BitVec.ofBool (v.getLsbD (15 - k))).setWidth 16 = v >>> (15 - k) := by
  apply BitVec.eq_of_getLsbD_eq
  intro i hi
  rcases Nat.eq_zero_or_pos i with rfl | h
  · simp
  · have e1 : 16 - k + (i - 1) = 15 - k + i := by omega
    simp only [BitVec.getLsbD_or, BitVec.getLsbD_shiftLeft, BitVec.getLsbD_ushiftRight, BitVec.getLsbD_setWidth,
      BitVec.getLsbD_ofBool, e1, show ¬ i < 1 by omega, show i ≠ 0 by omega, hi]
    simp

/-- Executions of one instruction, one after another. -/
theorem execTimes_add (i : Instr) (m n : Nat) (s : State) :
    execTimes i (m + n) s = andThen (execTimes i m s) (execTimes i n) := by
  induction m generalizing s with
  | zero => simp [execTimes]
  | succ k ih =>
    rw [Nat.add_right_comm]
    simp only [execTimes]
    cases exec i s <;> simp [ih]

end Sys2Proof.Machine
end

