-- ==== Sys2Proof/Laws/PerInstr.lean ====
section
/-! SUPPORT. A family of lemmas with one lemma per instruction: the encoding has the width the spec gives its row
(30_encoding.md R90, R91, R95, R102; the carrier of the EPC commands is the model's, log 21). -/

namespace Sys2Proof.Laws

/-- How many bits an encoded item has (R90). -/
def encodedBits : Encoded → Nat
  | .cmd ws => 32 * ws.length
  | .acc _ => 32
  | .mmd _ => 16
  | .drv bs => 8 * bs.length
  | .frame _ => 64
  | .epc _ => 32

/-- The width of the row of an instruction: `width_bits` of spec/opcode_table.json, 32 for the EPC carrier. -/
def rowBits : Instr → Nat
  | .regRead _ => 64
  | .regWrite _ _ => 96
  | .c22Read _ _ => 96
  | .c22Write _ _ _ => 128
  | .c45Read _ _ _ => 128
  | .c45Write _ _ _ _ => 160
  | .miiRead _ _ => 32
  | .miiWrite _ _ => 32
  | .mmdAddr _ => 16
  | .mmdData _ => 16
  | .drvRead _ _ _ => 128
  | .drvWrite _ _ _ _ => 160
  | .frameRead _ _ => 64
  | .frameWrite _ _ _ => 64
  | .epcRead _ => 32
  | .epcEwds => 32
  | .epcEwen => 32
  | .epcWrite _ _ => 32
  | .epcEraseAll => 32

/-- The encoding of the instruction is as wide as its row says, whatever the operation codes are. -/
def EncodedWidth.Statement (i : Instr) : Prop := ∀ c : Config, encodedBits (encode c i) = rowBits i

theorem EncodedWidth.regRead (addr : Word) : EncodedWidth.Statement (.regRead addr) := fun _ => rfl
theorem EncodedWidth.regWrite (addr value : Word) : EncodedWidth.Statement (.regWrite addr value) := fun _ => rfl
theorem EncodedWidth.c22Read (phy reg : Word) : EncodedWidth.Statement (.c22Read phy reg) := fun _ => rfl
theorem EncodedWidth.c22Write (phy reg data : Word) : EncodedWidth.Statement (.c22Write phy reg data) := fun _ => rfl
theorem EncodedWidth.c45Read (phy dev idx : Word) : EncodedWidth.Statement (.c45Read phy dev idx) := fun _ => rfl
theorem EncodedWidth.c45Write (phy dev idx data : Word) : EncodedWidth.Statement (.c45Write phy dev idx data) := fun _ => rfl
theorem EncodedWidth.miiRead (phyad regad : Field5) : EncodedWidth.Statement (.miiRead phyad regad) := fun _ => rfl
theorem EncodedWidth.miiWrite (phyad regad : Field5) : EncodedWidth.Statement (.miiWrite phyad regad) := fun _ => rfl
theorem EncodedWidth.mmdAddr (devad : Field5) : EncodedWidth.Statement (.mmdAddr devad) := fun _ => rfl
theorem EncodedWidth.mmdData (devad : Field5) : EncodedWidth.Statement (.mmdData devad) := fun _ => rfl
theorem EncodedWidth.drvRead (selector ifindex addr : Word) : EncodedWidth.Statement (.drvRead selector ifindex addr) := fun _ => rfl
theorem EncodedWidth.drvWrite (selector ifindex addr value : Word) : EncodedWidth.Statement (.drvWrite selector ifindex addr value) := fun _ => rfl
theorem EncodedWidth.frameRead (phyad regad : Field5) : EncodedWidth.Statement (.frameRead phyad regad) := fun _ => rfl
theorem EncodedWidth.frameWrite (phyad regad : Field5) (data : Half) : EncodedWidth.Statement (.frameWrite phyad regad data) := fun _ => rfl
theorem EncodedWidth.epcRead (addr : BitVec 9) : EncodedWidth.Statement (.epcRead addr) := fun _ => rfl
theorem EncodedWidth.epcEwds : EncodedWidth.Statement .epcEwds := fun _ => rfl
theorem EncodedWidth.epcEwen : EncodedWidth.Statement .epcEwen := fun _ => rfl
theorem EncodedWidth.epcWrite (addr : BitVec 9) (data : Byte) : EncodedWidth.Statement (.epcWrite addr data) := fun _ => rfl
theorem EncodedWidth.epcEraseAll : EncodedWidth.Statement .epcEraseAll := fun _ => rfl

end Sys2Proof.Laws
end

