-- ==== Sys2Proof/Tests/Slice0.lean ====
section
/-! SUPPORT. Tests on words written out from the encodings and on the examples of 95_test_vectors.md, and for every
statement with hypotheses a state and operands that meet them all. -/

namespace Sys2Proof.Tests

open Sys2Proof Sys2Proof.Machine

/-! ### Small states -/

/-- The defaults of R8 with a value for each OPEN parameter. -/
def cfg : Config where
  readOpcode := 0x01#6
  writeOpcode := 0x03#6
  pollLimit := some 2
  retryLimit := 2
  drvSelector := 0x11223344#32
  drvIfindex := 0#32
  phyAddr := 1#5
  phyPresent := [1#5]
  transport := .usb
  pins := false

/-- Reset with that configuration. -/
def base : State := { State.reset with cfg := cfg }

/-- A running command at a micro-operation. -/
def running (cmd opa opb opc opd : Word) (upc : BitVec 5) : State :=
  { base with
    seq := { base.seq with
      cmd := cmd, opa := opa, opb := opb, opc := opc, opd := opd, mode := .run, upc := upc, lock := true }
    env := { base.env with usbAnswers := [.performs] } }

/-- The Transport's next answer. -/
def answered (a : UsbAnswer) (s : State) : State := { s with env := { s.env with usbAnswers := [a] } }

/-- The same over the privileged driver, which answers so. -/
def viaDriver (a : DriverAnswer) (s : State) : State :=
  { s with cfg := { s.cfg with transport := .driver }, env := { s.env with driverAnswers := [a] } }

/-- With a transaction in flight. -/
def busy (e : Eng) (s : State) : State := { s with mac := { s.mac with eng := e, miiAcc := 1#32 } }

/-- With MII_DATA stored. -/
def stored (v : Word) (s : State) : State := { s with mac := { s.mac with miiData := v, dataWindow := .stored } }

/-- With a script of turns. -/
def turn (ts : List Agent) (s : State) : State := { s with env := { s.env with turns := ts } }

/-- With items at the port and the client to move. -/
def port (items : List Encoded) (s : State) : State :=
  { s with env := { s.env with port := items, turns := [.client] } }

/-- At the pin level. -/
def pinLevel (s : State) : State := { s with cfg := { s.cfg with pins := true } }

/-- A frame at some slot and phase. -/
def atSlot (slot : BitVec 6) (ph : Phase) (s : State) : State :=
  { s with wire := { s.wire with slot := slot, phase := ph } }

/-- The frame of a record just started. -/
def started (rw : Rw) : State :=
  let s := busy (.inflight rw 1#5 2#5 0xBEEF#16) base
  { s with wire := startWire rw 1#5 2#5 0xBEEF#16 s.wire }

/-- With a command in progress in the EEPROM. -/
def inProgress (op : EpcOp) (s : State) : State := { s with eeprom := { s.eeprom with inProgress := some op } }

/-- With an EPC command that has come to a phase, its last register command having ended with this STATUS and RES. -/
def atPhase (ph : EpcPhase) (status res : Word) : State :=
  { base with
    seq := { base.seq with status := status, res := res }
    env := { base.env with epcPhase := ph } }

/-- With the address-select register of PHY 1 holding a word. -/
def selected (v : Half) (s : State) : State := { s with phys := setC22 s.phys 1#5 0xD#5 v }

/-- A response buffer with this status and payload. -/
def response (st : Byte) (payload : List Byte) : List Byte :=
  [0#8, 0#8, 0#8, 0#8, 0#8, 0#8, 0#8, 0#8, st, 0#8, 0#8, 0#8] ++ payload

/-- The state after an outcome satisfies a condition. -/
def after (o : Result State) (p : State → Bool) : Bool :=
  match o with
  | .next t => p t
  | _ => false

/-! ### Well-formedness -/

theorem test_wf_drvRead_refused : wellFormed (.drvRead 0#32 0#32 0x1000#32) = false := by decide
theorem test_wf_drvRead_accepted : wellFormed (.drvRead 0#32 0#32 0xFFF#32) = true := by decide
theorem test_wf_drvWrite_refused : wellFormed (.drvWrite 0#32 0#32 0xFFFFFFFF#32 0#32) = false := by decide
theorem test_wf_drvWrite_accepted : wellFormed (.drvWrite 0#32 0#32 0#32 0xFFFFFFFF#32) = true := by decide

/-! ### Decoding of words written out from 30_encoding.md -/

theorem test_decode_regRead : decode cfg (.cmd [0x08#32, 0x120#32]) = .ok (.regRead 0x120#32) := by decide
theorem test_decode_regWrite :
    decode cfg (.cmd [0x09#32, 0x124#32, 0xBEEF#32]) = .ok (.regWrite 0x124#32 0xBEEF#32) := by
  decide
theorem test_decode_c22Read : decode cfg (.cmd [0x10#32, 1#32, 0x0E#32]) = .ok (.c22Read 1#32 0x0E#32) := by decide
theorem test_decode_c22Write :
    decode cfg (.cmd [0x11#32, 1#32, 0x0D#32, 1#32]) = .ok (.c22Write 1#32 0x0D#32 1#32) := by
  decide
theorem test_decode_c45Read : decode cfg (.cmd [0x12#32, 1#32, 1#32, 2#32]) = .ok (.c45Read 1#32 1#32 2#32) := by decide
theorem test_decode_c45Write : decode cfg (.cmd [0x13#32, 1#32, 1#32, 0x834#32, 0x4000#32]) =
    .ok (.c45Write 1#32 1#32 0x834#32 0x4000#32) := by decide
/-- R180: C22_READ 1, 0x0E writes 0x00000B81. -/
theorem test_decode_miiRead : decode cfg (.acc 0x00000B81#32) = .ok (.miiRead 1#5 0xE#5) := by decide
/-- R223: 0x0B43 is a write to PHY 1, index 0xD. -/
theorem test_decode_miiWrite : decode cfg (.acc 0x00000B43#32) = .ok (.miiWrite 1#5 0xD#5) := by decide
theorem test_decode_mmdAddr : decode cfg (.mmd 0x0001#16) = .ok (.mmdAddr 1#5) := by decide
/-- R244: 0x4001 selects device 1, data mode. -/
theorem test_decode_mmdData : decode cfg (.mmd 0x4001#16) = .ok (.mmdData 1#5) := by decide
/-- The buffer of the example of R142. -/
theorem test_decode_drvRead : decode cfg (.drv [0x44#8, 0x33#8, 0x22#8, 0x11#8, 8#8, 0#8, 0#8, 0#8, 0#8, 0#8, 0#8, 0#8,
    0x20#8, 0x01#8, 0#8, 0#8]) = .ok (.drvRead 0x11223344#32 0#32 0x120#32) := by decide
/-- The buffer of the example of R143. -/
theorem test_decode_drvWrite : decode cfg (.drv [0x44#8, 0x33#8, 0x22#8, 0x11#8, 9#8, 0#8, 0#8, 0#8, 0#8, 0#8, 0#8, 0#8,
    0x20#8, 0x01#8, 0#8, 0#8, 0x43#8, 0x0B#8, 0#8, 0#8]) = .ok (.drvWrite 0x11223344#32 0#32 0x120#32 0xB43#32) := by
  decide
/-- 32 ones, 01, 10, 00101, 00010, then 18 slots that are not the master's. -/
theorem test_decode_frameRead : decode cfg (.frame
    0b1111111111111111111111111111111101100010100010000000000000000000#64) = .ok (.frameRead 5#5 2#5) := by decide
/-- R232: the 64 bits of a write of 0x4001 to PHY 1 index 0xD. -/
theorem test_decode_frameWrite : decode cfg (.frame
    0b1111111111111111111111111111111101010000101101100100000000000001#64) = .ok (.frameWrite 1#5 0xD#5 0x4001#16) := by
  decide
theorem test_decode_epcRead : decode cfg (.epc 0x0001FF00#32) = .ok (.epcRead 0x1FF#9) := by decide
theorem test_decode_epcEwds : decode cfg (.epc 1#32) = .ok .epcEwds := by decide
/-- R280: the code makes it a command, whatever address it is combined with. -/
theorem test_decode_epcEwds_address : decode cfg (.epc 0x0001FF01#32) = .ok .epcEwds := by decide
theorem test_decode_epcEwen : decode cfg (.epc 2#32) = .ok .epcEwen := by decide
theorem test_decode_epcWrite : decode cfg (.epc 0xA5000203#32) = .ok (.epcWrite 2#9 0xA5#8) := by decide
theorem test_decode_epcEraseAll : decode cfg (.epc 6#32) = .ok .epcEraseAll := by decide

/-! ### One step each -/

/-- R123: REG_WRITE 0x124, 0x0000BEEF leaves MII_DATA = 0x0000BEEF. -/
theorem test_regWrite_stores :
    after (exec (.regWrite 0x124#32 0xBEEF#32) (running 0x09#32 0x124#32 0xBEEF#32 0#32 0#32 1#5))
    (fun t => t.mac.miiData == 0xBEEF#32 && t.mac.miiAcc == 0#32) = true := by decide
/-- R180: C22_READ 1, 0x0E writes 0x00000B81 to 0x120. -/
theorem test_c22Read_access_word : after (exec (.c22Read 1#32 0xE#32) (running 0x10#32 1#32 0xE#32 0#32 0#32 2#5))
    (fun t => t.mac.miiAcc == 0xB81#32) = true := by decide
/-- R206: the third datum of C45_WRITE 1, 1, 0x0834, 0x4000 is 0x4001. -/
theorem test_c45Write_third_datum : after (exec (.c45Write 1#32 1#32 0x834#32 0x4000#32)
    (running 0x13#32 1#32 1#32 0x834#32 0x4000#32 10#5)) (fun t => t.mac.miiData == 0x4001#32) = true := by decide
/-- R206: its second access word is 0x0B83. -/
theorem test_c45Write_second_access : after (exec (.c45Write 1#32 1#32 0x834#32 0x4000#32)
    (running 0x13#32 1#32 1#32 0x834#32 0x4000#32 7#5)) (fun t => t.mac.miiAcc == 0xB83#32) = true := by decide
/-- R122: 0x1000 is rejected with the operand as detail. -/
theorem test_regRead_rejects : after (exec (.regRead 0x1000#32) (running 0x08#32 0x1000#32 0#32 0#32 0#32 0#5))
    (fun t => t.seq.status == 1#32 && t.seq.info == 1#32 && t.seq.res == 0x1000#32 && t.seq.mode == .idle) = true := by decide
/-- R174, R302: with POLL_LIMIT 2 the second busy poll raises Timeout(MII_BUSY) with the UPC of the POLL. -/
theorem test_poll_times_out :
    let s := running 0x10#32 1#32 2#32 0#32 0#32 3#5
    let t := pollIteration 1#32 (pollIteration 1#32 s)
    t.seq.status = 3#32 ∧ t.seq.info = 2#32 ∧ t.seq.res = 3#32 ∧ t.seq.mode = .idle := by decide
/-- R174: bit 0 alone is examined. -/
theorem test_poll_examines_bit_zero :
    (pollIteration 0xFFFFFFFE#32 (running 0x10#32 1#32 2#32 0#32 0#32 3#5)).seq.upc = 4#5 := by
  decide
/-- R145: eleven bytes are a malformed response. -/
theorem test_driver_short_response : after (exec (.drvRead 0#32 0#32 0#32)
      (viaDriver (.buffer ((response 0#8 []).take 11) true) base))
    (fun t => t.env.driverReturn == some (.raised ⟨.io, 2#32, 11#32⟩)) = true := by decide
/-- R144: the payload of a read, little-endian. -/
theorem test_driver_payload : after (exec (.drvRead 0#32 0#32 0#32)
      (viaDriver (.buffer (response 0#8 [0x78#8, 0x56#8, 0x34#8, 0x12#8]) true) base))
    (fun t => t.env.driverReturn == some (.value 0x12345678#32)) = true := by decide
/-- R245: in data mode a write to 0xE reaches the register the latch points to. -/
theorem test_data_mode_write :
    let f := setMmdAddr (setC22 State.reset.phys 1#5 0xD#5 0x4003#16) 1#5 3#5 0x834#16
    c45At (mmdDataWrite f 1#5 0xBEEF#16) 1#5 3#5 0x834#16 = 0xBEEF#16 := by decide
/-- R230: a released wire reads 1. -/
theorem test_released_wire : lineLevel base.wire = true := by decide
/-- R7: the widths of the types are those of the record, and its bounds are those of R172. -/
theorem test_fixed_widths :
    [fixedConfig.regAddrBits, fixedConfig.regDataBits, fixedConfig.phyadBits, fixedConfig.regadBits,
      fixedConfig.devadBits, fixedConfig.c45RegBits, fixedConfig.mdioDataBits] = [12, 32, 5, 5, 5, 16, 16] ∧
    regAddrBound = 0x1000 ∧ operandBound .devad = 32 ∧ operandBound .data = 0x10000 := by decide
/-- R104, R272: PHY_RESET 1 is PHY_EDIT 1, 0x0000 with set mask 0x8000: a read, then a write of the edited value. -/
theorem test_phyReset_chain : (phyReset cfg true).toOption.map (fun e => (editGet e, editSet e 0x2100#16)) =
    some (.c45Read 1#32 1#32 0#32, some (.c45Write 1#32 1#32 0#32 0xA100#32)) := by decide
/-- R6, R61: a select word presented by itself changes no PHY; it is on its way through MII_DATA and MII_ACC. -/
theorem test_select_word_launches : after (step (port [.mmd 0x4001#16] base))
    (fun t => t.phys == base.phys && t.mac.miiData == 0x4001#32 && t.mac.miiAcc == 0xB43#32 &&
      t.mac.eng == .inflight .write 1#5 0xD#5 0x4001#16 && t.env.port.isEmpty) = true := by decide
/-- R280: EPC_WRITE begins with a REG_READ of 0x040, run by the sequencer, and stays at the port. -/
theorem test_epcWrite_polls : after (step (port [.epc 0xA5000203#32] base)) (fun t =>
    runningInstr t == .ok (.regRead 0x040#32) && t.seq.mode == .run && t.env.port.length == 1) = true := by decide
/-- R280, R123, R312: a submission that has failed ends it, with the Timeout in STATUS. -/
theorem test_epcWrite_timeout : after (exec (.epcWrite 2#9 0xA5#8) (atPhase .submitted 3#32 0#32)) (fun t =>
    t.seq.status == 3#32 && t.env.epcPhase == .start && !staysAtPort (.epcWrite 2#9 0xA5#8) t) = true := by decide
/-- R148, D11: a read of 0x040 answered busy has not been performed: no look at the bit. -/
theorem test_busy_read_is_no_look :
    let s := viaDriver (.buffer (response 4#8 [0#8, 0#8, 0#8, 0#8]) true) (inProgress .eraseAll base)
    after (exec (.drvRead 0#32 0#32 0x040#32) { s with env := { s.env with epcPolls := [true] } })
      (fun t => t.eeprom == s.eeprom && t.env.epcPolls == [true] && t.ser.pending) = true := by decide
/-- R151: a request that begins after one answered busy begins with RETRY 0. -/
theorem test_presented_request_is_new :
    let s := presentNext (.drv (drvReadBytes 0#32 0#32 0#32)) { base with ser := ⟨1, true⟩ }
    after (step (viaDriver (.buffer (response 4#8 []) true) s)) (fun t => t.ser.retry == 1 && t.ser.pending) = true := by
  decide
/-- R276: both bits set are no speed. -/
theorem test_speed_unknown : classifySpeed 0x2040#16 = none := by decide

/-! ### Witnesses: the hypotheses of each statement are met -/

theorem cfg_wf : cfg.wf := by decide

/-- The four conditions of `AtMicroOp` together. -/
theorem atMicroOp {i : Instr} {op : MicroOp} {s : State}
    (h : s.seq.mode = .run ∧ runningInstr s = .ok i ∧ unusedLatchesZero s.seq ∧ currentMicroOp s = some op) :
    AtMicroOp i op s := ⟨h.1, h.2.1, h.2.2.1, h.2.2.2⟩

theorem witness_DecodeInvertsEncode : cfg.wf ∧ wellFormed (.drvRead 1#32 2#32 0xFFF#32) = true :=
  ⟨cfg_wf, by decide⟩
/-- An item that is its instruction's encoding, and two that are but for the bits that the encoder chooses. -/
theorem witness_EncodeInvertsDecode : decode cfg (.acc 0x0000FFC3#32) = .ok (.miiWrite 31#5 31#5) ∧
    decode cfg (.frame 0xFFFFFFFF62880000#64) = .ok (.frameRead 5#5 2#5) ∧
    decode cfg (.epc 0xFFFFFFFB#32) = .ok (.epcWrite 0x1FF#9 0xFF#8) := by decide
theorem witness_Reserved_code : ∀ x ∈ [8#32, 9#32, 0x10#32, 0x11#32, 0x12#32, 0x13#32], 0x14#32 ≠ x := by simp
theorem witness_Reserved_length :
    ((0x13#32, 4) : Word × Nat) ∈ [(8#32, 1), (9#32, 2), (0x10#32, 2), (0x11#32, 3), (0x12#32, 3), (0x13#32, 4)] ∧
    ([1#32, 2#32, 3#32] : List Word).length ≠ 4 := by decide
theorem witness_Reserved_access : (0x00010001#32 : Word).toNat / 2 ^ 16 ≠ 0 ∨
    (accOp 0x00010001#32 ≠ cfg.readOpcode ∧ accOp 0x00010001#32 ≠ cfg.writeOpcode) := .inl (by simp)
theorem witness_Reserved_opcode : accOp 0x3F#32 ≠ cfg.readOpcode ∧ accOp 0x3F#32 ≠ cfg.writeOpcode := by decide
theorem witness_Reserved_select : 0x0020#16 &&& 0xBFE0#16 ≠ 0#16 ∧ 0x8000#16 &&& 0xBFE0#16 ≠ 0#16 := by decide
theorem witness_Reserved_request :
    let bs : List Byte := [0#8, 0#8, 0#8, 0#8, 10#8, 0#8, 0#8, 0#8]
    8 ≤ bs.length ∧ le32At bs 4 ≠ 8#32 ∧ le32At bs 4 ≠ 9#32 := by decide
/-- Seven bytes; a read request and a write request of one byte too few. -/
theorem witness_Reserved_requestLength :
    let shortRead := (drvReadBytes 1#32 2#32 3#32).take 15
    let shortWrite := (drvWriteBytes 1#32 2#32 3#32 4#32).take 19
    ((drvReadBytes 1#32 2#32 3#32).take 7).length < 8 ∧ (le32At shortRead 4 = 8#32 ∧ shortRead.length ≠ 16) ∧
      (le32At shortWrite 4 = 9#32 ∧ shortWrite.length ≠ 20) := by decide
/-- A preamble of 31 ones, a start of 00, an operation of 11, a write frame's turnaround of 11. -/
theorem witness_Reserved_frame :
    (0x7FFFFFFF50B64001 : Nat) / 2 ^ 32 ≠ 0xFFFFFFFF ∧ (0xFFFFFFFF10B64001 : Nat) / 2 ^ 30 % 4 ≠ 1 ∧
      ((0xFFFFFFFF70B64001 : Nat) / 2 ^ 28 % 4 ≠ 1 ∧ (0xFFFFFFFF70B64001 : Nat) / 2 ^ 28 % 4 ≠ 2) ∧
      ((0xFFFFFFFF50B74001 : Nat) / 2 ^ 28 % 4 = 1 ∧ (0xFFFFFFFF50B74001 : Nat) / 2 ^ 16 % 4 ≠ 2) := by decide
theorem witness_Reserved_epc : (4#32 &&& 7#32 = 4#32) ∧ (5#32 &&& 7#32 = 5#32) ∧ (7#32 &&& 7#32 = 7#32) := by decide

theorem witness_CommandAccepted_idle :
    encode base.cfg (.regRead 1#32) = .cmd (8#32 :: [1#32]) ∧ base.seq.mode = .idle := by
  decide
theorem witness_CommandAccepted_run :
    let s := running 0x08#32 2#32 0#32 0#32 0#32 1#5
    encode s.cfg (.regRead 1#32) = .cmd (8#32 :: [1#32]) ∧ s.seq.mode = .run ∧ runningInstr s ≠ .ok (.regRead 1#32) := by
  decide
theorem witness_SecondCommandWaits :
    let s := port [.cmd [8#32, 1#32]] (running 0x08#32 2#32 0#32 0#32 0#32 1#5)
    s.seq.mode = .run ∧ s.env.port = .cmd [8#32, 1#32] :: [] ∧ s.env.turns = .client :: [] := by decide
/-- An unknown code, a wrong length and a frame of no words (log 24). -/
theorem witness_BadFrameRaises :
    let s := fun ws => port [.cmd ws] base
    ((s [0x14#32]).seq.mode = .idle ∧ (s [0x14#32]).env.turns = .client :: [] ∧
      decodeCmd [0x14#32] = .error (.unknownCommand 0x14#32)) ∧
    ((s [8#32]).seq.mode = .idle ∧ decodeCmd [8#32] = .error (.badFrameLength 1)) ∧
    ((s []).seq.mode = .idle ∧ decodeCmd [] = .error (.badFrameLength 0)) := by decide

/-- A running C45_WRITE with legal operands, at a micro-operation. -/
def c45w (upc : BitVec 5) : State := running 0x13#32 1#32 31#32 0xFFFF#32 0xFFFF#32 upc

/-- That C45_WRITE. -/
def c45wInstr : Instr := .c45Write 1#32 31#32 0xFFFF#32 0xFFFF#32

theorem witness_Validate_address :
    (AtMicroOp (.regRead 0x1000#32) .validate (running 0x08#32 0x1000#32 0#32 0#32 0#32 0#5) ∧
      operandFailure (.regRead 0x1000#32) = some (1#32, 0x1000#32)) ∧
    AtMicroOp (.regWrite 0xFFF#32 7#32) .validate (running 0x09#32 0xFFF#32 7#32 0#32 0#32 0#5) ∧
      operandFailure (.regWrite 0xFFF#32 7#32) = none :=
  ⟨⟨atMicroOp (by decide), by decide⟩, atMicroOp (by decide), by decide⟩
theorem witness_Validate_clause22 :
    (AtMicroOp (.c22Read 32#32 32#32) .validate (running 0x10#32 32#32 32#32 0#32 0#32 0#5) ∧
      operandFailure (.c22Read 32#32 32#32) = some (2#32, 32#32)) ∧
    AtMicroOp (.c22Write 31#32 32#32 0x10000#32) .validate (running 0x11#32 31#32 32#32 0x10000#32 0#32 0#5) ∧
      operandFailure (.c22Write 31#32 32#32 0x10000#32) = some (3#32, 32#32) :=
  ⟨⟨atMicroOp (by decide), by decide⟩, atMicroOp (by decide), by decide⟩
theorem witness_Validate_clause45 :
    (AtMicroOp (.c45Read 31#32 32#32 0#32) .validate (running 0x12#32 31#32 32#32 0#32 0#32 0#5) ∧
      operandFailure (.c45Read 31#32 32#32 0#32) = some (4#32, 32#32)) ∧
    AtMicroOp (.c45Read 31#32 31#32 0x10000#32) .validate (running 0x12#32 31#32 31#32 0x10000#32 0#32 0#5) ∧
      operandFailure (.c45Read 31#32 31#32 0x10000#32) = some (5#32, 0x10000#32) :=
  ⟨⟨atMicroOp (by decide), by decide⟩, atMicroOp (by decide), by decide⟩
theorem witness_Validate_datum :
    (AtMicroOp (.c45Write 31#32 31#32 0xFFFF#32 0x10000#32) .validate
      (running 0x13#32 31#32 31#32 0xFFFF#32 0x10000#32 0#5) ∧
      operandFailure (.c45Write 31#32 31#32 0xFFFF#32 0x10000#32) = some (6#32, 0x10000#32)) ∧
    AtMicroOp c45wInstr .validate (c45w 0#5) ∧ operandFailure c45wInstr = none :=
  ⟨⟨atMicroOp (by decide), by decide⟩, atMicroOp (by decide), by decide⟩

theorem witness_Poll_free : AtMicroOp c45wInstr .poll (c45w 1#5) ∧
    transportPerforms (c45w 1#5) = true ∧ (c45w 1#5).mac.eng = .free :=
  ⟨atMicroOp (by decide), by decide, by decide⟩
/-- POLLCNT 0 of a limit of 2: one below the last iteration. -/
theorem witness_Poll_busy :
    let s := busy (.inflight .write 1#5 2#5 0#16) (c45w 4#5)
    AtMicroOp c45wInstr .poll s ∧ transportPerforms s = true ∧ s.mac.eng ≠ .free ∧
      ∀ n, s.cfg.pollLimit = some n → s.seq.pollCnt + 1 < n :=
  ⟨atMicroOp (by decide), by decide, by decide, by intro n h; cases h; decide⟩
/-- POLLCNT 1 of a limit of 2: the last iteration. -/
theorem witness_Poll_limit :
    let s := busy (.inflight .write 1#5 2#5 0#16) { c45w 4#5 with seq := { (c45w 4#5).seq with pollCnt := 1 } }
    AtMicroOp c45wInstr .poll s ∧ transportPerforms s = true ∧ s.mac.eng ≠ .free ∧
      ∃ n, s.cfg.pollLimit = some n ∧ n ≤ s.seq.pollCnt + 1 :=
  ⟨atMicroOp (by decide), by decide, by decide, 2, by decide, by decide⟩
theorem witness_Poll_driver :
    let s := viaDriver (.performs 0#64) (c45w 1#5)
    AtMicroOp c45wInstr .poll s ∧ transportPerforms s = true ∧ s.mac.eng = .free :=
  ⟨atMicroOp (by decide), by decide, by decide⟩
theorem witness_WrDataStoresDatum :
    AtMicroOp c45wInstr (.wrData ⟨.opb, true⟩) (c45w 10#5) ∧
    transportPerforms (c45w 10#5) = true ∧ (c45w 10#5).mac.eng = .free :=
  ⟨atMicroOp (by decide), by decide, by decide⟩
theorem witness_WrAccLaunches :
    let s := stored 0xBEEF#32 (c45w 7#5)
    AtMicroOp c45wInstr (.wrAcc (.const 0xE#5) .write) s ∧ transportPerforms s = true ∧
      s.mac.eng = .free ∧ s.cfg.wf ∧ s.mac.dataWindow ≠ .undefined :=
  ⟨atMicroOp (by decide), by decide, by decide, by decide, by decide⟩
theorem witness_RdDataReturnsDatum :
    let s := stored 0xBEEF#32 (running 0x10#32 1#32 2#32 0#32 0#32 4#5)
    AtMicroOp (.c22Read 1#32 2#32) .rdData s ∧ transportPerforms s = true ∧ s.mac.eng = .free ∧
      s.mac.dataWindow ≠ .undefined :=
  ⟨atMicroOp (by decide), by decide, by decide, by decide⟩
theorem witness_RdReg_mii :
    let s := running 0x08#32 0x120#32 0#32 0#32 0#32 1#5
    let t := stored 0xBEEF#32 (running 0x08#32 0x124#32 0#32 0#32 0#32 1#5)
    (AtMicroOp (.regRead 0x120#32) .rdReg s ∧ transportPerforms s = true ∧ s.seq.opa.setWidth 12 = 0x120#12) ∧
    AtMicroOp (.regRead 0x124#32) .rdReg t ∧ transportPerforms t = true ∧ t.seq.opa.setWidth 12 = 0x124#12 ∧
      t.mac.eng = .free ∧ t.mac.dataWindow = .stored ∧ t.mac.dataWindow ≠ .undefined :=
  ⟨⟨atMicroOp (by decide), by decide⟩, atMicroOp (by decide), by decide⟩
theorem witness_RdReg_epc :
    let s := running 0x08#32 0x040#32 0#32 0#32 0#32 1#5
    let t := running 0x08#32 0x044#32 0#32 0#32 0#32 1#5
    (AtMicroOp (.regRead 0x040#32) .rdReg s ∧ transportPerforms s = true ∧ s.seq.opa.setWidth 12 = 0x040#12 ∧
      s.eeprom.inProgress = none) ∧
    AtMicroOp (.regRead 0x044#32) .rdReg t ∧ transportPerforms t = true ∧ t.seq.opa.setWidth 12 = 0x044#12 ∧
      t.eeprom.inProgress = none :=
  ⟨⟨atMicroOp (by decide), by decide⟩, atMicroOp (by decide), by decide⟩
/-- A look at bit 31 that finds the command in progress. -/
theorem witness_RdReg_epcBusy :
    let s := { running 0x08#32 0x040#32 0#32 0#32 0#32 1#5 with
      eeprom := (inProgress .eraseAll base).eeprom
      env := { base.env with usbAnswers := [.performs], epcPolls := [false] } }
    AtMicroOp (.regRead 0x040#32) .rdReg s ∧ transportPerforms s = true ∧
      ∃ t, exec (.regRead 0x040#32) s = .next t ∧ t.eeprom.inProgress.isSome = true :=
  ⟨atMicroOp (by decide), by decide, _, rfl, rfl⟩
theorem witness_RdReg_other :
    let s := running 0x08#32 0xFFF#32 0#32 0#32 0#32 1#5
    AtMicroOp (.regRead 0xFFF#32) .rdReg s ∧ transportPerforms s = true ∧ s.seq.opa.setWidth 12 ≠ 0x120#12 ∧
      s.seq.opa.setWidth 12 ≠ 0x124#12 ∧ s.seq.opa.setWidth 12 ≠ 0x040#12 ∧ s.seq.opa.setWidth 12 ≠ 0x044#12 :=
  ⟨atMicroOp (by decide), by decide⟩
theorem witness_WrReg_data :
    let s := running 0x09#32 0x124#32 7#32 0#32 0#32 1#5
    AtMicroOp (.regWrite 0x124#32 7#32) .wrReg s ∧ transportPerforms s = true ∧ s.seq.opa.setWidth 12 ≠ 0x120#12 ∧
      s.seq.opa.setWidth 12 = 0x124#12 ∧ s.mac.eng = .free :=
  ⟨atMicroOp (by decide), by decide⟩
theorem witness_WrReg_epc :
    let s := running 0x09#32 0x044#32 7#32 0#32 0#32 1#5
    AtMicroOp (.regWrite 0x044#32 7#32) .wrReg s ∧ transportPerforms s = true ∧ s.seq.opa.setWidth 12 = 0x044#12 :=
  ⟨atMicroOp (by decide), by decide⟩
/-- The words of EPC_WRITE 0x1FF and of the reserved code 0b100, whatever the layout of the EPC-command register. -/
theorem witness_WrReg_epcCommand :
    let w := epcRegisterWord 0b011#3 0x1FF#9
    let r := epcRegisterWord 0b100#3 0#9
    let s := fun v => running 0x09#32 0x040#32 v 0#32 0#32 1#5
    (AtMicroOp (.regWrite 0x040#32 w) .wrReg (s w) ∧ transportPerforms (s w) = true ∧
      epcOfRegisterWord (s w).seq.opb (s w).eeprom.data = some (.write 0x1FF#9 0#8) ∧
      (s w).eeprom.inProgress = none) ∧
    AtMicroOp (.regWrite 0x040#32 r) .wrReg (s r) ∧ transportPerforms (s r) = true ∧
      epcOfRegisterWord (s r).seq.opb (s r).eeprom.data = none :=
  have h : ∀ v, AtMicroOp (.regWrite 0x040#32 v) .wrReg (running 0x09#32 0x040#32 v 0#32 0#32 1#5) :=
    fun v => ⟨rfl, rfl, ⟨by simp [running], by simp [running], by simp [running]⟩, rfl⟩
  ⟨⟨h _, rfl, epcOfRegisterWord_word _ _ _, rfl⟩, h _, rfl, epcOfRegisterWord_word _ _ _⟩
theorem witness_WrReg_other :
    let s := running 0x09#32 0xFFF#32 7#32 0#32 0#32 1#5
    AtMicroOp (.regWrite 0xFFF#32 7#32) .wrReg s ∧ transportPerforms s = true ∧ s.seq.opa.setWidth 12 ≠ 0x120#12 ∧
      s.seq.opa.setWidth 12 ≠ 0x124#12 ∧ s.seq.opa.setWidth 12 ≠ 0x040#12 ∧ s.seq.opa.setWidth 12 ≠ 0x044#12 :=
  ⟨atMicroOp (by decide), by decide⟩
theorem witness_RegWriteOfAccessWordLaunches :
    let s := stored 7#32 (running 0x09#32 0x120#32 0xB43#32 0#32 0#32 1#5)
    AtMicroOp (.regWrite 0x120#32 0xB43#32) .wrReg s ∧ transportPerforms s = true ∧ s.mac.eng = .free ∧ s.cfg.wf ∧
      s.seq.opa.setWidth 12 = 0x120#12 ∧ s.seq.opb = accWord 1#5 0xD#5 (opcodeOf s.cfg .write) :=
  ⟨atMicroOp (by decide), by decide, by decide, by decide, by decide, by decide⟩
theorem witness_Return :
    (AtMicroOp (.c22Read 1#32 2#32) .ret (running 0x10#32 1#32 2#32 0#32 0#32 5#5) ∧
      commandOfInstr (.c22Read 1#32 2#32) = some c22ReadCommand) ∧ AtMicroOp c45wInstr .ret (c45w 17#5) :=
  ⟨⟨atMicroOp (by decide), by decide⟩, atMicroOp (by decide)⟩

/-- A reading micro-operation, over the USB Transport and over a driver whose exchange fails. -/
theorem witness_TransportError_read :
    let s := answered (.ioError 1#32 9#32 true) (c45w 1#5)
    let t := viaDriver (.failed 9#32 true) (c45w 1#5)
    readsRegister .poll = true ∧
    (AtMicroOp c45wInstr .poll s ∧ transportRaises true s = some (⟨.io, 1#32, 9#32⟩, true)) ∧
    AtMicroOp c45wInstr .poll t ∧ transportRaises true t = some (⟨.io, 1#32, 9#32⟩, true) :=
  ⟨by decide, ⟨atMicroOp (by decide), by decide⟩, atMicroOp (by decide), by decide⟩
/-- A writing one whose write has not reached the register: a USB time-out, and a driver busy for the last time. -/
theorem witness_TransportError_notReached :
    let s := answered (.timeout 7#32 9#32 false) (c45w 2#5)
    let t := { viaDriver (.buffer (response 4#8 []) true) (c45w 2#5) with ser := ⟨1, true⟩ }
    writesRegister (.wrData ⟨.opb, false⟩) = true ∧
    (AtMicroOp c45wInstr (.wrData ⟨.opb, false⟩) s ∧
      transportRaises false s = some (⟨.timeout, 7#32, 9#32⟩, false)) ∧
    AtMicroOp c45wInstr (.wrData ⟨.opb, false⟩) t ∧ transportRaises false t = some (⟨.timeout, 1#32, 0#32⟩, false) :=
  ⟨by decide, ⟨atMicroOp (by decide), by decide⟩, atMicroOp (by decide), by decide⟩
/-- A writing one whose failed write has reached the register, over either Transport. -/
theorem witness_TransportError_reached :
    let s := answered (.ioError 1#32 9#32 true) (c45w 2#5)
    let t := viaDriver (.buffer (response 5#8 []) true) (c45w 2#5)
    (AtMicroOp c45wInstr (.wrData ⟨.opb, false⟩) s ∧ transportRaises false s = some (⟨.io, 1#32, 9#32⟩, true) ∧
      writtenRegister (.wrData ⟨.opb, false⟩) s = some (0x124#12, 31#32) ∧ ∃ u, macWrite 0x124#12 31#32 s = .next u) ∧
    AtMicroOp c45wInstr (.wrData ⟨.opb, false⟩) t ∧ transportRaises false t = some (⟨.io, 3#32, 5#32⟩, true) ∧
      writtenRegister (.wrData ⟨.opb, false⟩) t = some (0x124#12, 31#32) ∧ ∃ u, macWrite 0x124#12 31#32 t = .next u :=
  ⟨⟨atMicroOp (by decide), by decide, by decide, _, rfl⟩, atMicroOp (by decide), by decide, by decide, _, rfl⟩
/-- RETRY 0 of a limit of 2: one busy answer is followed by another exchange; a read and a write. -/
theorem witness_BusyAnswerRepeatsOperation :
    let s := viaDriver (.buffer (response 4#8 []) true) (c45w 1#5)
    let t := viaDriver (.buffer (response 4#8 []) true) (c45w 2#5)
    12 ≤ (response 4#8 []).length ∧ le32At (response 4#8 []) 8 = 4#32 ∧
    (AtMicroOp c45wInstr .poll s ∧ s.cfg.transport = .driver ∧ readsRegister .poll = true ∧
      busyAnswers s + 1 < s.cfg.retryLimit) ∧
    AtMicroOp c45wInstr (.wrData ⟨.opb, false⟩) t ∧ writesRegister (.wrData ⟨.opb, false⟩) = true ∧
      busyAnswers t + 1 < t.cfg.retryLimit :=
  ⟨by decide, by decide, ⟨atMicroOp (by decide), by decide⟩, atMicroOp (by decide), by decide⟩

/-- The response buffers of the clauses of `DrvReadParsesResponse` and `DrvWriteParsesResponse`: eleven bytes, busy, a
status of 5, twelve bytes, sixteen bytes, thirteen bytes. -/
theorem witness_Drv_responses :
    ((response 0#8 []).take 11).length < 12 ∧
    (12 ≤ (response 4#8 []).length ∧ le32At (response 4#8 []) 8 = 4#32) ∧
    (12 ≤ (response 5#8 []).length ∧ le32At (response 5#8 []) 8 ≠ 4#32 ∧ le32At (response 5#8 []) 8 ≠ 0#32) ∧
    ((response 0#8 []).length = 12 ∧ le32At (response 0#8 []) 8 = 0#32) ∧
    ((response 0#8 [1#8, 2#8, 3#8, 4#8]).length = 16 ∧ le32At (response 0#8 [1#8, 2#8, 3#8, 4#8]) 8 = 0#32) ∧
    (12 < (response 0#8 [1#8]).length ∧ (response 0#8 [1#8]).length ≠ 16 ∧ le32At (response 0#8 [1#8]) 8 = 0#32) := by
  decide
/-- The request and its answers: RETRY 0, and RETRY 1, of a limit of 2; a failed exchange. -/
theorem witness_DrvReadParsesResponse :
    let s := viaDriver (.buffer (response 4#8 []) true) base
    let t := { s with ser := ⟨1, true⟩ }
    (0xFFF#32 : Word).toNat < 0x1000 ∧ s.env.driverAnswers = .buffer (response 4#8 []) true :: [] ∧
      busyAnswers s + 1 < s.cfg.retryLimit ∧ t.cfg.retryLimit ≤ busyAnswers t + 1 ∧
      (viaDriver (.failed 9#32 true) base).env.driverAnswers = .failed 9#32 true :: [] := by decide
/-- A write answered busy, one answered with success, one answered with an error that has reached the register. -/
theorem witness_DrvWriteParsesResponse :
    let s := fun b => viaDriver (.buffer (response b []) true) base
    (0xFFF#32 : Word).toNat < 0x1000 ∧ writePerformed (response 4#8 []) true = false ∧
      writePerformed (response 0#8 []) true = true ∧ (∃ u, macWrite 0xFFF#12 7#32 (s 0#8) = .next u) ∧
      writePerformed (response 5#8 []) true = true ∧ (∃ u, macWrite 0xFFF#12 7#32 (s 5#8) = .next u) ∧
      writePerformed (response 5#8 []) false = false :=
  ⟨by decide, by decide, by decide, ⟨_, rfl⟩, by decide, ⟨_, rfl⟩, by decide⟩
theorem witness_DrvWriteParsesResponse_failed :
    let s := viaDriver (.failed 9#32 true) base
    s.env.driverAnswers = .failed 9#32 true :: [] ∧ ∃ u, macWrite 0xFFF#12 7#32 s = .next u := ⟨by decide, _, rfl⟩
/-- 0x120, 0x124 in its window, 0x040 and 0x044 with nothing in progress, any other. -/
theorem witness_DrvReadReturnsRegister :
    let s := stored 7#32 (viaDriver (.performs 0#64) base)
    (0x120#32 : Word).toNat < 0x1000 ∧ (0x124#32 : Word).toNat < 0x1000 ∧ (0x040#32 : Word).toNat < 0x1000 ∧
      (0x044#32 : Word).toNat < 0x1000 ∧ (0xFFF#32 : Word).toNat < 0x1000 ∧
      s.env.driverAnswers = .performs 0#64 :: [] ∧ s.mac.eng = .free ∧ s.mac.dataWindow = .stored ∧
      s.mac.dataWindow ≠ .undefined ∧ s.eeprom.inProgress = none := by decide
/-- A launch of `acc(1, 0xD, write)`; the other registers as for the read. -/
theorem witness_DrvWriteWritesRegister :
    let s := viaDriver (.performs 0#64) base
    (0x120#32 : Word).toNat < 0x1000 ∧ (0x124#32 : Word).toNat < 0x1000 ∧ (0x040#32 : Word).toNat < 0x1000 ∧
      (0x044#32 : Word).toNat < 0x1000 ∧ (0xFFF#32 : Word).toNat < 0x1000 ∧ s.mac.eng = .free ∧ s.cfg.wf ∧
      s.env.driverAnswers = .performs 0#64 :: [] ∧ 0xB43#32 = accWord 1#5 0xD#5 (opcodeOf s.cfg .write) := by decide
/-- The words of EPC_READ 1 and of the reserved code 0b111, nothing in progress. -/
theorem witness_DrvWrite_epcCommand :
    let s := viaDriver (.performs 0#64) base
    s.env.driverAnswers = .performs 0#64 :: [] ∧ s.eeprom.inProgress = none ∧
      epcOfRegisterWord (epcRegisterWord 0b000#3 1#9) s.eeprom.data = some (.read 1#9) ∧
      epcOfRegisterWord (epcRegisterWord 0b111#3 1#9) s.eeprom.data = none :=
  ⟨rfl, rfl, epcOfRegisterWord_word _ _ _, epcOfRegisterWord_word _ _ _⟩
theorem witness_DrvAddressRejected : 0x1000 ≤ (0x1000#32 : Word).toNat := by decide

theorem witness_AccessWordLaunches : (stored 7#32 base).mac.eng = .free ∧ (stored 7#32 base).cfg.wf ∧
    (stored 7#32 base).mac.dataWindow ≠ .undefined := by decide
theorem witness_LaunchWhileBusyFaults : (busy (.inflight .read 1#5 2#5 0#16) base).mac.eng ≠ .free := by decide

/-- The engine's turn with a transaction in flight to a PHY whose address-select register holds a word. -/
def completing (rw : Rw) (p r : Field5) (v : Half) : State :=
  turn [.engine] (busy (.inflight rw p r 7#16) (selected v base))

/-- Index 0xE in address mode, in data mode, and another index (with a reserved word selected). -/
theorem witness_EngineCompletesWrite :
    (completing .write 1#5 0xE#5 31#16).env.turns = .engine :: [] ∧
    (completing .write 1#5 0xE#5 31#16).cfg.pins = false ∧ 1#5 ∈ cfg.phyPresent ∧
    (selectReserved (completing .write 1#5 0xE#5 31#16).phys 1#5 = false ∧
      (mmdCtlAt (completing .write 1#5 0xE#5 31#16).phys 1#5).getLsbD 14 = false) ∧
    (selectReserved (completing .write 1#5 0xE#5 0x401F#16).phys 1#5 = false ∧
      (mmdCtlAt (completing .write 1#5 0xE#5 0x401F#16).phys 1#5).getLsbD 14 = true) ∧
    (completing .write 1#5 0xD#5 0x20#16).mac.eng = .inflight .write 1#5 0xD#5 7#16 ∧ 0xD#5 ≠ 0xE#5 := by decide
theorem witness_EngineCompletesRead :
    (completing .read 1#5 0xE#5 31#16).env.turns = .engine :: [] ∧
    (completing .read 1#5 0xE#5 31#16).mac.eng = .inflight .read 1#5 0xE#5 7#16 ∧
    selectReserved (completing .read 1#5 0xE#5 31#16).phys 1#5 = false ∧
    (completing .read 1#5 0xD#5 0x20#16).mac.eng = .inflight .read 1#5 0xD#5 7#16 ∧ 0xD#5 ≠ 0xE#5 := by decide
/-- A read and a write, to address 2, where there is no PHY; and the start of a read frame to address 2. -/
theorem witness_AbsentPhyCompletes :
    (completing .read 2#5 0xE#5 31#16).mac.eng = .inflight .read 2#5 0xE#5 7#16 ∧
    (completing .write 2#5 2#5 31#16).mac.eng = .inflight .write 2#5 2#5 7#16 ∧
    (completing .write 2#5 2#5 31#16).env.turns = .engine :: [] ∧ 2#5 ∉ cfg.phyPresent ∧
    FrameStarted .read 2#5 3#5 0xBEEF#16 (let s := busy (.inflight .read 2#5 3#5 0xBEEF#16) base
      { s with wire := startWire .read 2#5 3#5 0xBEEF#16 s.wire }) :=
  ⟨by decide, by decide, by decide, by decide, by decide, by decide⟩
theorem witness_SelectWordStored :
    (base.mac.eng = .free ∧ base.cfg.wf) ∧
    ((busy (.inflight .write 1#5 0xD#5 0x401F#16) base).mac.eng =
      .inflight .write 1#5 0xD#5 ((31#5).setWidth 16 ||| 0x4000#16) ∧ 1#5 ∈ base.cfg.phyPresent) ∧
    ((busy (.inflight .write 2#5 0xD#5 31#16) base).mac.eng = .inflight .write 2#5 0xD#5 ((31#5).setWidth 16 ||| 0#16) ∧
      2#5 ∉ base.cfg.phyPresent) ∧ base.cfg.pins = false := by decide
theorem witness_DataRegisterAccess :
    1#5 ∈ base.cfg.phyPresent ∧
    (selectReserved (selected 31#16 base).phys 1#5 = false ∧
      (mmdCtlAt (selected 31#16 base).phys 1#5).getLsbD 14 = false) ∧
    (selectReserved (selected 0x401F#16 base).phys 1#5 = false ∧
      (mmdCtlAt (selected 0x401F#16 base).phys 1#5).getLsbD 14 = true) := by decide
theorem witness_FourWritesReachClause45 : 1#5 ∈ base.cfg.phyPresent := by decide
theorem witness_ReservedSelectRefused :
    let s := selected 0x0020#16 base
    1#5 ∈ s.cfg.phyPresent ∧ Memory.read s.phys.c22 (c22Key 1#5 0xD#5) = some 0x0020#16 ∧
      0x0020#16 &&& 0xBFE0#16 ≠ 0#16 := by decide

theorem witness_FrameStarts : base.mac.eng = .free ∧ base.cfg.wf := by decide
theorem witness_RisingEdge_turnaround :
    let s := atSlot 47#6 .low (started .read)
    s.wire.phase = .low ∧ s.wire.slot ≠ 63#6 ∧ s.mac.eng = .inflight .read 1#5 2#5 0xBEEF#16 ∧
      s.wire.slot.toNat = 47 := by decide
theorem witness_RisingEdge_data :
    let s := atSlot 48#6 .low (started .read)
    s.wire.phase = .low ∧ s.wire.slot ≠ 63#6 ∧ s.mac.eng = .inflight .read 1#5 2#5 0xBEEF#16 ∧
      48 ≤ s.wire.slot.toNat := by decide
theorem witness_RisingEdge_write :
    let s := atSlot 62#6 .low (started .write)
    s.wire.phase = .low ∧ s.wire.slot ≠ 63#6 ∧ s.mac.eng = .inflight .write 1#5 2#5 0xBEEF#16 := by decide
theorem witness_WriteFrame : FrameStarted .write 1#5 2#5 0xBEEF#16 (started .write) ∧
    ∃ t, engineComplete (started .write) = .next t := ⟨⟨by decide, by decide⟩, _, rfl⟩
theorem witness_ReadFrame : FrameStarted .read 1#5 2#5 0xBEEF#16 (started .read) ∧
    1#5 ∈ (started .read).cfg.phyPresent ∧ ∃ t, engineComplete (started .read) = .next t :=
  ⟨⟨by decide, by decide⟩, by decide, _, rfl⟩
theorem witness_FrameEnd :
    let s := fun rw => atSlot 63#6 .high (started rw)
    ((s .read).wire.phase = .high ∧ (s .read).wire.slot = 63#6 ∧
      (s .read).mac.eng = .inflight .read 1#5 2#5 0xBEEF#16) ∧
    (s .write).wire.phase = .high ∧ (s .write).wire.slot = 63#6 ∧
      (s .write).mac.eng = .inflight .write 1#5 2#5 0xBEEF#16 := by decide

/-- RUN; in IDLE every phase, with bit 31 read as 1 and as 0, and a failed register command. -/
theorem witness_EpcIssuesRegisterCommands :
    (running 0x08#32 0x040#32 0#32 0#32 0#32 1#5).seq.mode = .run ∧
    (∀ ph, (atPhase ph 0#32 0#32).seq.mode = .idle ∧ (atPhase ph 0#32 0#32).seq.status = 0#32 ∧
      (atPhase ph 0#32 0#32).env.epcPhase = ph ∧ (atPhase ph 0#32 0#32).seq.res.getLsbD 31 = false ∧
      (atPhase ph 0#32 0x80000000#32).seq.res.getLsbD 31 = true) ∧
    (atPhase .data 4#32 0#32).env.epcPhase ≠ .start ∧ (atPhase .data 4#32 0#32).seq.status ≠ 0#32 := by
  refine ⟨by decide, fun ph => ?_, by decide, by decide⟩
  cases ph <;> decide

theorem witness_StepRunsPresented :
    let s := port [.mmd 1#16] base
    s.env.turns = .client :: [] ∧ s.env.port = .mmd 1#16 :: [] ∧ decode s.cfg (.mmd 1#16) = .ok (.mmdAddr 1#5) ∧
      mustWait (.mmdAddr 1#5) s = false := by decide
theorem witness_StepRunsCurrent_sequencer :
    let s := turn [.sequencer] (c45w 0#5)
    s.env.turns = .sequencer :: [] ∧ s.seq.mode = .run ∧ runningInstr s = .ok c45wInstr := by decide
theorem witness_StepRunsCurrent_engine :
    let s := turn [.engine] (pinLevel (started .read))
    let t := turn [.engine] (busy (.inflight .write 1#5 0xD#5 0x401F#16) base)
    (s.env.turns = .engine :: [] ∧ s.cfg.pins = true ∧ s.mac.eng = .inflight .read 1#5 2#5 0xBEEF#16) ∧
    t.env.turns = .engine :: [] ∧ t.cfg.pins = false ∧ t.mac.eng = .inflight .write 1#5 0xD#5 0x401F#16 ∧
      decode t.cfg (.mmd 0x401F#16) = .ok (.mmdData 31#5) := by decide
theorem witness_PhyPassive :
    let s := port [.mmd 0x401F#16] base
    (∃ t, step s = .next t) ∧ (takeTurn s).1 ≠ .engine := ⟨⟨_, rfl⟩, by decide⟩
theorem witness_EngineLeavesSequencer :
    let s := completing .write 1#5 2#5 31#16
    (∃ t, step s = .next t) ∧ (takeTurn s).1 = .engine := ⟨⟨_, rfl⟩, by decide⟩

/-- A state with every counter below its limit, mid-command. -/
theorem witness_InvariantKept :
    Inv (turn [.sequencer] (c45w 0#5)) ∧ ∃ t, step (turn [.sequencer] (c45w 0#5)) = .next t :=
  ⟨⟨by decide, by decide, by decide, by decide, by decide, by decide, by
      refine ⟨?_, by decide⟩; intro n h; cases h; decide⟩, _, rfl⟩
/-- About to write MII_DATA, with a further command and an EPC command at the port. -/
theorem witness_Disciplined_data : Disciplined { turn [.sequencer] (c45w 2#5) with
    env := { (turn [.sequencer] (c45w 2#5)).env with port := [.cmd [8#32, 1#32], .epc 6#32] } } :=
  ⟨by decide, by decide, by decide, by decide, by decide, fun _ _ => by decide, fun _ _ _ => by decide⟩
/-- About to write MII_ACC. -/
theorem witness_Disciplined_access : Disciplined (turn [.sequencer] (c45w 3#5)) ∧
    currentMicroOp (c45w 3#5) = some (.wrAcc (.const 0xD#5) .write) :=
  ⟨⟨by decide, by decide, by decide, by decide, by decide, fun _ _ => by decide, fun _ _ _ => by decide⟩, by decide⟩
/-- Polling while a transaction is in flight. -/
theorem witness_Disciplined_busy : Disciplined (turn [.sequencer] (busy (.inflight .write 1#5 2#5 7#16) (c45w 4#5))) :=
  have h : currentMicroOp (turn [.sequencer] (busy (.inflight .write 1#5 2#5 7#16) (c45w 4#5))) = some .poll := by decide
  ⟨by decide, by decide, by decide, by decide, by decide, fun _ k => absurd (h.symm.trans k) (by simp),
    fun _ _ k => absurd (h.symm.trans k) (by simp)⟩

/-- Ready for so many performed operations over the USB Transport, with items at the port and a script of turns. -/
def ready (n : Nat) (items : List Encoded) (ts : List Agent) : State :=
  { base with env := { base.env with port := items, turns := ts, usbAnswers := List.replicate n .performs } }

/-- The same over the privileged driver. -/
def readyDriver (n : Nat) (items : List Encoded) (ts : List Agent) : State :=
  { base with
    cfg := { cfg with transport := .driver }
    env := { base.env with
      port := items, turns := ts, driverAnswers := (List.replicate n 0#64).map DriverAnswer.performs } }

theorem ready_readyFor (n : Nat) (items : List Encoded) (ts : List Agent) : ReadyFor n (ready n items ts) :=
  ⟨rfl, cfg_wf, rfl, [], by simp [ready]⟩

theorem readyDriver_readyFor (n : Nat) (items : List Encoded) (ts : List Agent) :
    ReadyFor n (readyDriver n items ts) :=
  ⟨rfl, cfg_wf, rfl, List.replicate n 0#64, [], by simp, by simp [readyDriver]⟩

/-- A read of any register at the engine free and MII_DATA stored, nothing in progress in the EEPROM. -/
theorem witness_RegisterCommands_read :
    ∀ a ∈ [0x120#32, 0x124#32, 0x040#32, 0x044#32, 0xFFF#32],
      ReadyFor 1 (stored 7#32 (ready 1 [.cmd [8#32, a]] (.client :: sequencerTurns 3 ++ []))) ∧ a.toNat < 0x1000 ∧
      (stored 7#32 base).mac.eng = .free ∧ (stored 7#32 base).mac.dataWindow = .stored ∧
      (stored 7#32 base).mac.dataWindow ≠ .undefined ∧ base.eeprom.inProgress = none := by
  intro a ha
  refine ⟨⟨rfl, cfg_wf, rfl, [], rfl⟩, ?_, rfl, rfl, by decide, rfl⟩
  simp only [List.mem_cons, List.not_mem_nil, or_false] at ha
  rcases ha with rfl | rfl | rfl | rfl | rfl <;> decide
theorem witness_RegisterCommands_write :
    ∀ a ∈ [0x124#32, 0x044#32, 0xFFF#32],
      ReadyFor 1 (readyDriver 1 [.cmd [9#32, a, 7#32]] (.client :: sequencerTurns 3 ++ [])) ∧ a.toNat < 0x1000 ∧
      a ≠ 0x120#32 ∧ a ≠ 0x040#32 ∧ base.mac.eng = .free := by
  intro a ha
  refine ⟨readyDriver_readyFor 1 _ _, ?_⟩
  simp only [List.mem_cons, List.not_mem_nil, or_false] at ha
  rcases ha with rfl | rfl | rfl <;> decide
theorem witness_RegisterCommands_launch :
    ReadyFor 1 (ready 1 [.cmd [9#32, 0x120#32, 0xB43#32]] (.client :: sequencerTurns 3 ++ [])) ∧
    base.mac.eng = .free ∧ 0xB43#32 = accWord 1#5 0xD#5 (opcodeOf cfg .write) :=
  ⟨ready_readyFor 1 _ _, by decide⟩
/-- One read of BUSY as 1 of a limit of 2, over the USB Transport; address 1, which has a PHY. -/
theorem witness_C22WriteCompletes :
    let s := ready 5 [.cmd [0x11#32, 1#32, 31#32, 0xFFFF#32]] (c22WriteTurns 1 ++ [])
    ReadyFor 5 s ∧ s.mac.eng = .free ∧ pollsAllowed 1 s ∧ (1#32 : Word).setWidth 5 ∈ s.cfg.phyPresent ∧
      31#32 ≠ 0xE#32 ∧ ∃ f, phyWriteRegs s.cfg.phyPresent s.phys 1#5 31#5 0xFFFF#16 = .next f :=
  ⟨ready_readyFor 5 _ _, rfl, by intro n h; cases h; decide, by decide, by decide, _, rfl⟩
/-- No read of BUSY as 1, over the driver; address 2, which has no PHY, and index 0xE. -/
theorem witness_C22WriteCompletes_absent :
    let s := readyDriver 4 [.cmd [0x11#32, 2#32, 0xE#32, 0xFFFF#32]] (c22WriteTurns 0 ++ [])
    ReadyFor 4 s ∧ s.mac.eng = .free ∧ pollsAllowed 0 s ∧
      ∃ f, phyWriteRegs s.cfg.phyPresent s.phys 2#5 0xE#5 0xFFFF#16 = .next f :=
  ⟨readyDriver_readyFor 4 _ _, rfl, by intro n h; cases h; decide, _, rfl⟩
/-- Index 0xE of a PHY whose address-select register holds no reserved word. -/
theorem witness_C22ReadCompletes :
    let s := readyDriver 5 [.cmd [0x10#32, 1#32, 0xE#32]] (c22ReadTurns 1 ++ [])
    ReadyFor 5 s ∧ s.mac.eng = .free ∧ pollsAllowed 1 s ∧ (1#32 : Word).setWidth 5 ∈ s.cfg.phyPresent ∧
      selectReserved s.phys ((1#32 : Word).setWidth 5) = false :=
  ⟨readyDriver_readyFor 5 _ _, rfl, by intro n h; cases h; decide, by decide, by decide⟩
/-- Eight completions, after 1 or 0 reads of BUSY as 1. -/
theorem witness_C45RoundTrip :
    let s := ready 36 [.cmd [0x13#32, 1#32, 31#32, 0xFFFF#32, 0xFFFF#32], .cmd [0x12#32, 1#32, 31#32, 0xFFFF#32]]
      (c45WriteTurns 1 0 0 1 ++ (c45ReadTurns 0 1 0 1 ++ []))
    ReadyFor 36 s ∧ s.mac.eng = .free ∧ (∀ n ∈ [1, 0, 0, 1, 0, 1, 0, 1], pollsAllowed n s) ∧
      (31#32 : Word).toNat < 32 ∧ (0xFFFF#32 : Word).toNat < 0x10000 ∧ (1#32 : Word).setWidth 5 ∈ s.cfg.phyPresent := by
  refine ⟨ready_readyFor 36 _ _, rfl, ?_, by decide, by decide, by decide⟩
  intro n hn limit h; cases h; revert n; decide

/-- Every command, over the driver, its completion found by the second poll after submission; write-enable set. -/
theorem witness_EpcCompletes :
    ∀ op ∈ [EpcOp.read 0x1FF#9, .write 0x1FF#9 7#8, .writeEnable, .writeDisable, .eraseAll],
      let k := epcRegisterCommands op 1
      let e := encode cfg (epcInstr op)
      let r := readyDriver k [e] (epcTurns k ++ [])
      let s := { r with eeprom := { r.eeprom with enabled := true }, env := { r.env with epcPolls := [false, true] } }
      ReadyFor k s ∧ s.env.epcPhase = .start ∧ s.eeprom.inProgress = none ∧ s.eeprom.enabled = true ∧
        s.env.port = e :: [] ∧ s.env.turns = epcTurns k ++ [] ∧ decode s.cfg e = .ok (epcInstr op) ∧
        s.env.epcPolls = List.replicate 1 false ++ true :: [] := by
  intro op ho
  refine ⟨⟨rfl, cfg_wf, rfl, (readyDriver_readyFor (epcRegisterCommands op 1) [] []).answers⟩, rfl, rfl, rfl, rfl, rfl,
    ?_, rfl⟩
  revert op; decide

theorem witness_EditIsIdempotent :
    0x8001#16 &&& 0x8000#16 ≠ 0#16 ∧ 0x2000#16 &&& 0x0040#16 = 0#16 ∧
      editValue 0x0040#16 0x2000#16 0x0040#16 ≠ 0x0040#16 ∧ editValue 0x2000#16 0x2000#16 0x0040#16 = 0x2000#16 := by
  decide
theorem witness_SpeedSet :
    speedMasks 1000 = .ok (0x2000#16, 0x0040#16) ∧ speedMasks 100 = .ok (0x0040#16, 0x2000#16) ∧
      (10 : Nat) ≠ 100 ∧ (10 : Nat) ≠ 1000 := by decide

end Sys2Proof.Tests
end

/-! PROOFS. The reset state (10_state.md R40): the values the spec decides, and the idle wire (R230, R231). -/

namespace Sys2Proof.Proofs

open Sys2Proof.Machine

/-- The pull-up (R230): the wire reads 1 when neither the master nor any PHY drives it. -/
theorem lineLevel_of_released {w : Wire} (hmaster : w.mdioOE = false) (hphys : w.phyOE = 0#32) :
    lineLevel w = true := by
  simp [lineLevel, hmaster, hphys]

/-- The engine is free at reset, and the pins have the levels R231 gives them then. -/
theorem reset_idlePins : idlePins State.reset := fun _ => ⟨rfl, rfl, rfl⟩

theorem reset_lockFollowsMode : lockFollowsMode State.reset := rfl

/-- Settles O50: the rows of R40 for the sequencer and RETRY are read off the reset state, LOCK follows MODE (R26), and the
level of the wire follows from its being released. -/
theorem resetValues : Obligations.ResetValues := by
  unfold Obligations.ResetValues
  have hmode : State.reset.seq.mode = .idle := rfl
  have hlock : State.reset.seq.lock = false := reset_lockFollowsMode
  obtain ⟨hmdc, hmaster, hphys⟩ := reset_idlePins rfl
  exact ⟨hmode, hlock, rfl, rfl, rfl, hmdc, hmaster, hphys, lineLevel_of_released hmaster hphys⟩

end Sys2Proof.Proofs

/-! PROOFS. Whole commands (R25, R171): what each micro-operation does where the Transport performs it, the Clause-22
transaction built of them, and C22_READ and C22_WRITE from the port to their end (R180, R181). -/

namespace Sys2Proof.Proofs

open Sys2Proof.Machine

/-! ### A Transport that performs the next operations (R120, R126) -/

/-- What the Transport performs next is read off the configuration and the scripts. -/
theorem transportPerformsNext_congr {n : Nat} {s t : State} (h : transportPerformsNext n s) (hcfg : t.cfg = s.cfg)
    (husb : t.env.usbAnswers = s.env.usbAnswers) (hdriver : t.env.driverAnswers = s.env.driverAnswers) :
    transportPerformsNext n t := by
  simpa only [transportPerformsNext, hcfg, husb, hdriver] using h

/-- The USB Transport performs the next operation, and one less is left. -/
theorem takeUsbAnswer_performsNext {n : Nat} {s : State} (h : transportPerformsNext (n + 1) s)
    (hu : s.cfg.transport = .usb) : ∃ t, takeUsbAnswer s = (.performs, t) ∧ transportPerformsNext n t := by
  simp only [transportPerformsNext, hu] at h
  obtain ⟨rest, hs⟩ := h
  rw [List.replicate_succ, List.cons_append] at hs
  exact ⟨_, by rw [takeUsbAnswer, hs], by simp only [transportPerformsNext, hu]; exact ⟨rest, rfl⟩⟩

/-- The driver performs the next request, and one less is left. -/
theorem takeDriverAnswer_performsNext {n : Nat} {s : State} (h : transportPerformsNext (n + 1) s)
    (hd : s.cfg.transport = .driver) :
    ∃ hdr t, takeDriverAnswer (startExchange s) = (.performs hdr, t) ∧ transportPerformsNext n t := by
  simp only [transportPerformsNext, hd] at h
  obtain ⟨headers, rest, hlen, hs⟩ := h
  obtain ⟨hdr, tail, rfl⟩ := List.exists_cons_of_length_eq_add_one hlen
  rw [List.map_cons, List.cons_append] at hs
  obtain ⟨h1, h2⟩ := takeDriverAnswer_scripted hs
  refine ⟨hdr, _, Prod.ext h1 h2, ?_⟩
  simp only [transportPerformsNext, hd]
  exact ⟨tail, rest, by simpa using hlen, rfl⟩

/-- Such a Transport performs its next operation. -/
theorem transportPerforms_of_next {n : Nat} {s : State} (h : transportPerformsNext (n + 1) s) :
    transportPerforms s = true := by
  cases hk : s.cfg.transport with
  | usb =>
    simp only [transportPerformsNext, hk] at h
    obtain ⟨rest, hs⟩ := h
    simp [transportPerforms, hk, hs, List.replicate_succ]
  | driver =>
    simp only [transportPerformsNext, hk] at h
    obtain ⟨headers, rest, hlen, hs⟩ := h
    obtain ⟨hdr, tail, rfl⟩ := List.exists_cons_of_length_eq_add_one hlen
    simp [transportPerforms, hk, hs]

/-- Settling an exchange spends no further answer. -/
theorem settleExchange_env (ans : DriverAnswer) (isRead : Bool) (v : Word) (s : State) :
    (settleExchange ans isRead v s).2.env = s.env ∧ (settleExchange ans isRead v s).2.cfg = s.cfg := by
  have conclude : ∀ w, (concludeExchange w s).2.env = s.env ∧ (concludeExchange w s).2.cfg = s.cfg := by
    intro w
    cases w with
    | busy => simp only [concludeExchange]; split <;> exact ⟨rfl, rfl⟩
    | badLength n => exact ⟨rfl, rfl⟩
    | status st => exact ⟨rfl, rfl⟩
    | success x => exact ⟨rfl, rfl⟩
  cases ans with
  | performs hdr => exact conclude _
  | buffer rsp reached => exact conclude _
  | failed code reached => exact ⟨rfl, rfl⟩

/-- Settling an exchange leaves what the Transport performs next. -/
theorem settleExchange_performsNext {n : Nat} {s : State} (h : transportPerformsNext n s) (ans : DriverAnswer)
    (isRead : Bool) (v : Word) : transportPerformsNext n (settleExchange ans isRead v s).2 := by
  obtain ⟨henv, hcfg⟩ := settleExchange_env ans isRead v s
  exact transportPerformsNext_congr h hcfg (by rw [henv]) (by rw [henv])

/-- A register read of the MAC leaves what the Transport performs next. -/
theorem macRead_performsNext {n : Nat} {s : State} (h : transportPerformsNext n s) (a : RegAddr) :
    transportPerformsNext n (macRead a s).2 := by
  obtain ⟨_, husb, hdriver⟩ := (macRead_looked a s).scripts
  exact transportPerformsNext_congr h (macRead_looked a s).touched.outside.1.cfg husb hdriver

/-- A register write of the MAC leaves what the Transport performs next. -/
theorem macWrite_performsNext {n : Nat} {a : RegAddr} {v : Word} {s u : State} (h : transportPerformsNext n s)
    (hw : macWrite a v s = .next u) : transportPerformsNext n u := by
  have hs := macWrite_scripts a v s s.ser s.env.usbAnswers s.env.driverAnswers
  have hu : u = { u with
      ser := s.ser, env := { u.env with usbAnswers := s.env.usbAnswers, driverAnswers := s.env.driverAnswers } } :=
    Host.Outcome.next.inj (hw.symm.trans (hs.trans (by rw [hw, andThen_next])))
  exact transportPerformsNext_congr h (macWriteIf_frame hw).1.cfg (congrArg (·.env.usbAnswers) hu)
    (congrArg (·.env.driverAnswers) hu)

/-- A register read spends one answer. -/
theorem memRead_performsNext {n : Nat} {a : RegAddr} {s t : State} {x : Xfer} (h : transportPerformsNext (n + 1) s)
    (hr : memRead a s = .next (x, t)) : transportPerformsNext n t := by
  cases hk : s.cfg.transport with
  | usb =>
    obtain ⟨u, hu, hn⟩ := takeUsbAnswer_performsNext h hk
    simp only [memRead, hk, usbRead, hu] at hr
    cases hr
    exact macRead_performsNext hn a
  | driver =>
    obtain ⟨hdr, u, hu, hn⟩ := takeDriverAnswer_performsNext h hk
    simp only [memRead, hk, exchange, readRequest, hu, performRequest_read, andThen_next, answerLands, if_true] at hr
    have ht : _ = t := congrArg Prod.snd (Host.Outcome.next.inj hr)
    exact ht ▸ settleExchange_performsNext (macRead_performsNext hn _) _ _ _

/-- A register write spends one answer. -/
theorem memWrite_performsNext {n : Nat} {a : RegAddr} {v : Word} {s t : State} {x : Xfer}
    (h : transportPerformsNext (n + 1) s) (hr : memWrite a v s = .next (x, t)) : transportPerformsNext n t := by
  cases hk : s.cfg.transport with
  | usb =>
    obtain ⟨u, hu, hn⟩ := takeUsbAnswer_performsNext h hk
    simp only [memWrite, hk, usbWrite, hu] at hr
    obtain ⟨w, hw, hx⟩ := andThen_eq_next.mp hr
    cases hx
    exact macWrite_performsNext hn hw
  | driver =>
    obtain ⟨hdr, u, hu, hn⟩ := takeDriverAnswer_performsNext h hk
    simp only [memWrite, hk, exchange, writeRequest, hu, performRequest_write] at hr
    obtain ⟨⟨y, w⟩, hp, hx⟩ := andThen_eq_next.mp hr
    obtain ⟨w', hw, hy⟩ := andThen_eq_next.mp hp
    cases hy
    have ht : _ = t := congrArg Prod.snd (Host.Outcome.next.inj hx)
    exact ht ▸ settleExchange_performsNext (macWrite_performsNext hn hw) _ _ _

/-- A micro-operation's read of a register other than that of the EPC commands, where the Transport performs it: the
register's value, one answer spent and nothing of the device changed. -/
theorem afterTransport_read_performsNext {n : Nat} {a : RegAddr} {s : State} (f : Word → State → State)
    (h : transportPerformsNext (n + 1) s) (ha : a ≠ 0x040#12) :
    ∃ s1 t, Spent s s1 ∧ Spent s t ∧ transportPerformsNext n t ∧
      afterTransport (memRead a s) f = .next (f (macRead a s1).1 t) := by
  obtain ⟨s1, t, hs, _, hr, ht⟩ := memRead_performs a (transportPerforms_of_next h)
  exact ⟨s1, t, hs, hs.trans ((macRead_spent s1 ha).trans ht), memRead_performsNext h hr, afterTransport_value hr⟩

/-- A micro-operation's write, where the Transport performs it: the register write of the MAC, one answer spent. -/
theorem afterTransport_write_performsNext {n : Nat} {a : RegAddr} {v : Word} {s : State} (f : Word → State → State)
    (h : transportPerformsNext (n + 1) s) :
    ∃ s1, Spent s s1 ∧ ∀ u, macWrite a v s1 = .next u →
      ∃ t, Spent u t ∧ transportPerformsNext n t ∧ afterTransport (memWrite a v s) f = .next (f 0#32 t) := by
  obtain ⟨s1, finish, hs, _, hfinish, hw⟩ := memWrite_performs a v (transportPerforms_of_next h)
  refine ⟨s1, hs, fun u hu => ?_⟩
  have hr : memWrite a v s = .next (.value 0#32, finish u) := by rw [hw, hu, andThen_next]
  exact ⟨finish u, hfinish u, memWrite_performsNext h hr, afterTransport_value hr⟩

/-! ### Micro-operations that the Transport performs (R174 to R177) -/

/-- A POLL reads whether the engine is busy, and changes nothing of the device. -/
theorem execMicroOp_poll {n : Nat} {s : State} (c : Command) (h : transportPerformsNext (n + 1) s) :
    ∃ v t, execMicroOp c .poll s = .next (pollIteration v t) ∧ pollBit v = engBusy s.mac.eng ∧ Spent s t ∧
      transportPerformsNext n t := by
  obtain ⟨s1, t, hs, ht, hn, hx⟩ := afterTransport_read_performsNext pollIteration h (a := miiAccAddr) (by decide)
  refine ⟨_, t, hx, ?_, ht, hn⟩
  have hbit := macRead_busy s1
  rwa [hs.device.1.mac] at hbit

/-- A POLL iteration that reads BUSY 0 goes on to the next micro-operation. -/
theorem pollIteration_free {v : Word} {s : State} (h : pollBit v = false) :
    pollIteration v s = nextMicroOp { s with seq := { s.seq with pollCnt := 0 } } := by
  simp [pollIteration, h]

/-- A POLL iteration that reads BUSY 1 below POLL_LIMIT is counted, and the POLL goes on. -/
theorem pollIteration_busy {v : Word} {s : State} (h : pollBit v = true) (hl : pollsAllowed (s.seq.pollCnt + 1) s) :
    pollIteration v s = { s with seq := { s.seq with pollCnt := s.seq.pollCnt + 1 } } := by
  simp only [pollIteration, h, if_true]
  split
  · rfl
  · next limit hlimit => rw [if_neg (Nat.not_le.mpr (hl limit hlimit))]

/-- A WRDATA on a free engine stores its datum in MII_DATA. -/
theorem execMicroOp_wrData {n : Nat} {s : State} (c : Command) (e : Datum) (h : transportPerformsNext (n + 1) s)
    (hf : s.mac.eng = .free) :
    ∃ t, execMicroOp c (.wrData e) s = .next (nextMicroOp t) ∧ transportPerformsNext n t ∧
      Spent { s with mac := { s.mac with miiData := (datumValue s.seq e).setWidth 32, dataWindow := .stored } } t := by
  obtain ⟨s1, hs, hw⟩ := afterTransport_write_performsNext (fun _ t => nextMicroOp t) h
  obtain ⟨ser, ua, da, k, rfl⟩ := hs
  obtain ⟨t, ht, hn, hx⟩ := hw _ (macWrite_data ((datumValue s.seq e).setWidth 32) hf)
  exact ⟨t, hx, hn, Spent.trans ⟨ser, ua, da, k, rfl⟩ ht⟩

/-- An access word written to MII_ACC on a free engine starts its transaction; a write carries MII_DATA[15:0] where R30
defines it (R223). -/
theorem macWrite_access {s : State} (hc : s.cfg.wf) (hf : s.mac.eng = .free) (p i : Field5) (rw : Rw) :
    let w := accWord p i (opcodeOf s.cfg rw)
    ∃ d, macWrite miiAccAddr w s = .next (advance (startTransaction rw p i d w s)) ∧
      (rw = .write → s.mac.dataWindow ≠ .undefined → d = s.mac.miiData.setWidth 16) := by
  intro w
  obtain ⟨d, hl, hd⟩ := launch_spec rw p i w s
  exact ⟨d, (accWrite_launches hc hf p i rw).trans (congrArg _ hl), hd⟩

/-- What starting a transaction does is the same whatever the Transport has spent. -/
theorem startTransaction_spent {s t : State} (h : Spent s t) (rw : Rw) (p i : Field5) (d : Half) (w : Word) :
    Spent (startTransaction rw p i d w s) (startTransaction rw p i d w t) := by
  obtain ⟨ser, ua, da, k, rfl⟩ := h
  exact ⟨ser, ua, da, k, rfl⟩

/-- A WRACC on a free engine launches its transaction; a write carries MII_DATA[15:0] where R30 defines it. -/
theorem execMicroOp_wrAcc {n : Nat} {s : State} (c : Command) (r : RegIndex) (rw : Rw)
    (h : transportPerformsNext (n + 1) s) (hf : s.mac.eng = .free) (hc : s.cfg.wf) :
    ∃ d w t, execMicroOp c (.wrAcc r rw) s = .next (nextMicroOp t) ∧ transportPerformsNext n t ∧
      (rw = .write → s.mac.dataWindow ≠ .undefined → d = s.mac.miiData.setWidth 16) ∧
      Spent (startTransaction rw (s.seq.opa.setWidth 5) (regIndexValue s.seq r) d w s) t := by
  obtain ⟨s1, hs, hw⟩ := afterTransport_write_performsNext (fun _ t => nextMicroOp t) h
  obtain ⟨hdev, hseq⟩ := hs.device
  obtain ⟨d, hl, hd⟩ := macWrite_access (hdev.cfg ▸ hc) (hdev.mac ▸ hf) (s.seq.opa.setWidth 5)
    (regIndexValue s.seq r) rw
  rw [hdev.cfg] at hl
  obtain ⟨t, ht, hn, hx⟩ := hw _ hl
  exact ⟨d, _, t, hx, hn, hdev.mac ▸ hd, ((startTransaction_spent hs ..).trans (advance_spent _)).trans ht⟩

/-- A RDDATA leaves in RES the datum that MII_DATA is defined by. -/
theorem execMicroOp_rdData {n : Nat} {s : State} (c : Command) (h : transportPerformsNext (n + 1) s)
    (hf : s.mac.eng = .free) (hw : s.mac.dataWindow ≠ .undefined) :
    ∃ t, execMicroOp c .rdData s = .next (storeResult ((s.mac.miiData.setWidth 16).setWidth 32) t) ∧ Spent s t ∧
      transportPerformsNext n t := by
  obtain ⟨s1, t, hs, ht, hn, hx⟩ := afterTransport_read_performsNext
    (fun v t => storeResult ((v.setWidth 16).setWidth 32) t) h (a := miiDataAddr) (by decide)
  refine ⟨t, ?_, ht, hn⟩
  have hmac := hs.device.1.mac
  have hdatum := macRead_datum s1 (hmac ▸ hf) (hmac ▸ hw)
  rw [hmac] at hdatum
  rw [← hdatum]
  exact hx

/-! ### Runs of the machine -/

/-- `k` steps lead from `s` to `t`. -/
def Reaches (k : Nat) (s t : State) : Prop := Host.Core.run Sys2Proof.core k s = .next t

theorem Reaches.refl (s : State) : Reaches 0 s s := rfl

theorem Reaches.of_step {s t : State} (h : step s = .next t) : Reaches 1 s t := by
  have hstep : Sys2Proof.core.step s = .next t := h
  simp only [Reaches, Host.Core.run, hstep]

theorem Reaches.trans {j k : Nat} {s t u : State} (h : Reaches j s t) (h' : Reaches k t u) :
    Reaches (j + k) s u := by
  induction j generalizing s with
  | zero =>
    have hst : s = t := Host.Outcome.next.inj h
    rwa [Nat.zero_add, hst]
  | succ j ih =>
    simp only [Reaches, Host.Core.run, Nat.succ_add] at h ⊢
    split at h
    · exact ih h
    · cases h
    · cases h

/-! ### A command on its way (R24, R25) -/

/-- The parts of the state that the run of a command turns on. -/
structure Scene where
  /-- The sequencer, UPC left out. -/
  seq : Seq
  /-- The micro-operations yet to come, from UPC on. -/
  ahead : List MicroOp
  mac : Mac
  phys : Phys
  turns : List Agent
  /-- How many operations the Transport goes on to perform. -/
  answers : Nat

/-- `s` runs command `c` and is at the scene `v`; the EEPROM, the configuration and the port, which no micro-operation of
a Clause-22 transaction changes, are as in `s0`. -/
structure Shows (c : Command) (s0 : State) (v : Scene) (s : State) : Prop where
  mode : s.seq.mode = .run
  command : commandOf s.seq.cmd = some c
  unused : unusedLatchesZero s.seq
  seq : s.seq = { v.seq with upc := s.seq.upc }
  ahead : c.program.drop s.seq.upc.toNat = v.ahead
  mac : s.mac = v.mac
  phys : s.phys = v.phys
  eeprom : s.eeprom = s0.eeprom
  cfg : s.cfg = s0.cfg
  port : s.env.port = s0.env.port
  turns : s.env.turns = v.turns
  answers : transportPerformsNext v.answers s

/-- The six commands and their codes (R91). -/
theorem commandOf_cases {w : Word} {c : Command} (h : commandOf w = some c) :
    (w = 0x08#32 ∧ c = regReadCommand) ∨ (w = 0x09#32 ∧ c = regWriteCommand) ∨
    (w = 0x10#32 ∧ c = c22ReadCommand) ∨ (w = 0x11#32 ∧ c = c22WriteCommand) ∨
    (w = 0x12#32 ∧ c = c45ReadCommand) ∨ (w = 0x13#32 ∧ c = c45WriteCommand) := by
  simp only [commandOf] at h
  repeat' split at h
  all_goals simp_all

/-- No micro-program reaches the end of what UPC can count (R25). -/
theorem program_length_of_commandOf {w : Word} {c : Command} (h : commandOf w = some c) : c.program.length < 32 := by
  rcases commandOf_cases h with ⟨_, rfl⟩ | ⟨_, rfl⟩ | ⟨_, rfl⟩ | ⟨_, rfl⟩ | ⟨_, rfl⟩ | ⟨_, rfl⟩ <;> decide

/-- Latches with a command code in CMD decode to an instruction (R22, R91). -/
theorem runningInstr_of_commandOf {s : State} {c : Command} (h : commandOf s.seq.cmd = some c) :
    ∃ i, runningInstr s = .ok i := by
  rcases commandOf_cases h with ⟨hw, _⟩ | ⟨hw, _⟩ | ⟨hw, _⟩ | ⟨hw, _⟩ | ⟨hw, _⟩ | ⟨hw, _⟩ <;>
    simp [runningInstr, latchedFrame, decodeCmd, hw]

section

variable {c : Command} {s0 s : State} {q : Seq} {ops : List MicroOp} {m : Mac} {f : Phys} {ts : List Agent} {n : Nat}

/-- The sequencer's turn executes the first micro-operation ahead. -/
theorem Shows.sequencerTurn_eq {op : MicroOp} (h : Shows c s0 ⟨q, op :: ops, m, f, ts, n⟩ s) :
    sequencerTurn s = execMicroOp c op s := by
  obtain ⟨i, hi⟩ := runningInstr_of_commandOf h.command
  obtain ⟨c', _, hc', _, hexec⟩ := running_exec h.mode hi h.unused
  have hc : c' = c := Option.some.inj (hc'.symm.trans h.command)
  have hop : c.program[s.seq.upc.toNat]? = some op := by
    rw [← Nat.add_zero s.seq.upc.toNat, ← List.getElem?_drop, h.ahead]; rfl
  simp only [sequencerTurn, h.mode, hi, hexec, hc, runMicroOp, hop]

/-- The sequencer's turn taken: the step is the first micro-operation ahead, of a state at the same scene but for that
turn. -/
theorem Shows.step_eq {op : MicroOp} (h : Shows c s0 ⟨q, op :: ops, m, f, .sequencer :: ts, n⟩ s) :
    ∃ u, step s = execMicroOp c op u ∧ Shows c s0 ⟨q, op :: ops, m, f, ts, n⟩ u := by
  have hu : Shows c s0 ⟨q, op :: ops, m, f, ts, n⟩ { s with env := { s.env with turns := ts } } :=
    { h with turns := rfl }
  exact ⟨_, (step_turn h.turns).trans hu.sequencerTurn_eq, hu⟩

/-- Going on to the next micro-operation. -/
theorem Shows.next {op : MicroOp} (h : Shows c s0 ⟨q, op :: ops, m, f, ts, n⟩ s) :
    Shows c s0 ⟨q, ops, m, f, ts, n⟩ (nextMicroOp s) := by
  have hupc : (s.seq.upc + 1#5).toNat = s.seq.upc.toNat + 1 := by
    have hlength := program_length_of_commandOf h.command
    have hdrop : c.program.length - s.seq.upc.toNat = ops.length + 1 := by
      rw [← List.length_drop, h.ahead]; rfl
    rw [BitVec.toNat_add, BitVec.toNat_one (by decide)]
    omega
  refine { h with seq := ?_, ahead := ?_ }
  · exact congrArg (fun x : Seq => { x with upc := s.seq.upc + 1#5 }) h.seq
  · change c.program.drop (s.seq.upc + 1#5).toNat = ops
    rw [hupc, ← List.drop_drop, h.ahead]; rfl

/-- What the Transport spends changes the scene in the operations left alone. -/
theorem Shows.spent {k : Nat} {t : State} (h : Shows c s0 ⟨q, ops, m, f, ts, n⟩ s) (hs : Spent s t)
    (hk : transportPerformsNext k t) : Shows c s0 ⟨q, ops, m, f, ts, k⟩ t := by
  obtain ⟨ser, ua, da, k, rfl⟩ := hs
  exact { h with answers := hk }

theorem Shows.setPollCnt (h : Shows c s0 ⟨q, ops, m, f, ts, n⟩ s) (k : Nat) :
    Shows c s0 ⟨{ q with pollCnt := k }, ops, m, f, ts, n⟩ { s with seq := { s.seq with pollCnt := k } } :=
  { h with seq := congrArg (fun x : Seq => { x with pollCnt := k }) h.seq }

theorem Shows.setRes (h : Shows c s0 ⟨q, ops, m, f, ts, n⟩ s) (v : Word) :
    Shows c s0 ⟨{ q with res := v }, ops, m, f, ts, n⟩ { s with seq := { s.seq with res := v } } :=
  { h with seq := congrArg (fun x : Seq => { x with res := v }) h.seq }

/-- A change of the MAC, and of the wire with it. -/
theorem Shows.setMac (h : Shows c s0 ⟨q, ops, m, f, ts, n⟩ s) (m' : Mac) (w : Wire) :
    Shows c s0 ⟨q, ops, m', f, ts, n⟩ { s with mac := m', wire := w } :=
  { h with mac := rfl }

/-! ### One micro-operation of a command -/

/-- The operand latches are not UPC. -/
theorem readLatch_upc (q : Seq) (u : BitVec 5) (l : Latch) : readLatch { q with upc := u } l = readLatch q l := by
  cases l <;> rfl

theorem Shows.readLatch_eq (h : Shows c s0 ⟨q, ops, m, f, ts, n⟩ s) (l : Latch) :
    readLatch s.seq l = readLatch q l := by
  rw [h.seq, readLatch_upc]

theorem Shows.datumValue_eq (h : Shows c s0 ⟨q, ops, m, f, ts, n⟩ s) (e : Datum) :
    datumValue s.seq e = datumValue q e := by
  simp only [datumValue, h.readLatch_eq]

theorem Shows.regIndexValue_eq (h : Shows c s0 ⟨q, ops, m, f, ts, n⟩ s) (r : RegIndex) :
    regIndexValue s.seq r = regIndexValue q r := by
  cases r with
  | latch l => simp only [regIndexValue, h.readLatch_eq]
  | const i => rfl

/-- VALIDATE of operands that all pass (R172). -/
theorem Shows.validate (h : Shows c s0 ⟨q, .validate :: ops, m, f, .sequencer :: ts, n⟩ s)
    (hchecks : ∀ x ∈ c.checks, (readLatch q x.1).toNat < operandBound x.2) :
    ∃ t, Reaches 1 s t ∧ Shows c s0 ⟨q, ops, m, f, ts, n⟩ t := by
  obtain ⟨u, hstep, hu⟩ := h.step_eq
  have hpass : firstFailure u.seq c.checks = none :=
    (firstFailure_none _ _).mpr fun x hx => by rw [hu.readLatch_eq]; exact hchecks x hx
  exact ⟨_, .of_step (by rw [hstep, execMicroOp, microValidate, hpass]), hu.next⟩

/-- A POLL that finds the engine free (R174). -/
theorem Shows.poll_free (h : Shows c s0 ⟨q, .poll :: ops, m, f, .sequencer :: ts, n + 1⟩ s) (hf : m.eng = .free) :
    ∃ t, Reaches 1 s t ∧ Shows c s0 ⟨{ q with pollCnt := 0 }, ops, m, f, ts, n⟩ t := by
  obtain ⟨u, hstep, hu⟩ := h.step_eq
  obtain ⟨v, t, hx, hbit, ht, hn⟩ := execMicroOp_poll c hu.answers
  rw [hu.mac, hf] at hbit
  exact ⟨_, .of_step (by rw [hstep, hx, pollIteration_free hbit]), ((hu.spent ht hn).setPollCnt 0).next⟩

/-- A POLL that finds the engine busy, below POLL_LIMIT (R174). -/
theorem Shows.poll_busy (h : Shows c s0 ⟨q, .poll :: ops, m, f, .sequencer :: ts, n + 1⟩ s)
    (hb : engBusy m.eng = true) (hl : pollsAllowed (q.pollCnt + 1) s0) :
    ∃ t, Reaches 1 s t ∧ Shows c s0 ⟨{ q with pollCnt := q.pollCnt + 1 }, .poll :: ops, m, f, ts, n⟩ t := by
  obtain ⟨u, hstep, hu⟩ := h.step_eq
  obtain ⟨v, t, hx, hbit, ht, hn⟩ := execMicroOp_poll c hu.answers
  rw [hu.mac, hb] at hbit
  have hv := hu.spent ht hn
  have hcnt : t.seq.pollCnt = q.pollCnt := by rw [hv.seq]
  have hallowed : pollsAllowed (t.seq.pollCnt + 1) t := by rwa [pollsAllowed, hcnt, hv.cfg]
  exact ⟨_, .of_step (by rw [hstep, hx, pollIteration_busy hbit hallowed, hcnt]), hv.setPollCnt _⟩

/-- A POLL that reads BUSY 1 so many times, all below POLL_LIMIT (R75, R174). -/
theorem Shows.poll_waits {k : Nat} (h : Shows c s0 ⟨q, .poll :: ops, m, f, sequencerTurns k ++ ts, n + k⟩ s)
    (hb : engBusy m.eng = true) (hl : pollsAllowed (q.pollCnt + k) s0) :
    ∃ t, Reaches k s t ∧ Shows c s0 ⟨{ q with pollCnt := q.pollCnt + k }, .poll :: ops, m, f, ts, n⟩ t := by
  induction k generalizing q s with
  | zero => exact ⟨s, .refl s, h⟩
  | succ k ih =>
    obtain ⟨u, hsu, hu⟩ := Shows.poll_busy h hb fun limit hlimit => Nat.lt_of_le_of_lt (by omega) (hl limit hlimit)
    obtain ⟨t, hut, ht⟩ := ih hu fun limit hlimit => Nat.lt_of_le_of_lt (by simp only; omega) (hl limit hlimit)
    rw [Nat.add_comm k 1]
    exact ⟨t, hsu.trans hut, by simpa only [Nat.add_assoc] using ht⟩

/-- A WRDATA on a free engine (R175). -/
theorem Shows.wrData {e : Datum} (h : Shows c s0 ⟨q, .wrData e :: ops, m, f, .sequencer :: ts, n + 1⟩ s)
    (hf : m.eng = .free) :
    ∃ t, Reaches 1 s t ∧ Shows c s0
      ⟨q, ops, { m with miiData := (datumValue q e).setWidth 32, dataWindow := .stored }, f, ts, n⟩ t := by
  obtain ⟨u, hstep, hu⟩ := h.step_eq
  obtain ⟨t, hx, hn, ht⟩ := execMicroOp_wrData c e hu.answers (hu.mac ▸ hf)
  have hmac : u.mac = m := hu.mac
  rw [hu.datumValue_eq, hmac] at ht
  exact ⟨_, .of_step (hstep.trans hx), ((hu.setMac _ _).spent ht hn).next⟩

/-- A WRACC on a free engine: the transaction is in flight, and of a write the datum is MII_DATA[15:0] (R176, R223). -/
theorem Shows.wrAcc {r : RegIndex} {rw : Rw} (h : Shows c s0 ⟨q, .wrAcc r rw :: ops, m, f, .sequencer :: ts, n + 1⟩ s)
    (hf : m.eng = .free) (hc : s0.cfg.wf) :
    ∃ t d w, Reaches 1 s t ∧ (rw = .write → m.dataWindow ≠ .undefined → d = m.miiData.setWidth 16) ∧
      Shows c s0 ⟨q, ops, { m with
        miiAcc := w, dataWindow := .undefined
        eng := .inflight rw (q.opa.setWidth 5) (regIndexValue q r) d }, f, ts, n⟩ t := by
  obtain ⟨u, hstep, hu⟩ := h.step_eq
  obtain ⟨d, w, t, hx, hn, hd, ht⟩ := execMicroOp_wrAcc c r rw hu.answers (hu.mac ▸ hf) (hu.cfg ▸ hc)
  have hopa : u.seq.opa = q.opa := hu.readLatch_eq .opa
  have hmac : u.mac = m := hu.mac
  rw [startTransaction, hu.regIndexValue_eq, hopa, hmac] at ht
  rw [hmac] at hd
  exact ⟨_, d, w, .of_step (hstep.trans hx), hd, ((hu.setMac _ _).spent ht hn).next⟩

/-- A RDDATA where MII_DATA holds a datum (R177). -/
theorem Shows.rdData (h : Shows c s0 ⟨q, .rdData :: ops, m, f, .sequencer :: ts, n + 1⟩ s) (hf : m.eng = .free)
    (hw : m.dataWindow ≠ .undefined) :
    ∃ t, Reaches 1 s t ∧ Shows c s0
      ⟨{ q with res := (m.miiData.setWidth 16).setWidth 32 }, ops, m, f, ts, n⟩ t := by
  obtain ⟨u, hstep, hu⟩ := h.step_eq
  obtain ⟨t, hx, ht, hn⟩ := execMicroOp_rdData c hu.answers (hu.mac ▸ hf) (hu.mac ▸ hw)
  have hmac : u.mac = m := hu.mac
  rw [hmac] at hx
  exact ⟨_, .of_step (hstep.trans hx), ((hu.spent ht hn).setRes _).next⟩

/-! ### The completion of a transaction while the command polls (R226) -/

/-- The engine's turn at the register level is the completion. -/
theorem Shows.engineTurn_eq (h : Shows c s0 ⟨q, ops, m, f, .engine :: ts, n⟩ s) (hpins : s0.cfg.pins = false) :
    ∃ u, step s = engineComplete u ∧ Shows c s0 ⟨q, ops, m, f, ts, n⟩ u := by
  have hu : Shows c s0 ⟨q, ops, m, f, ts, n⟩ { s with env := { s.env with turns := ts } } := { h with turns := rfl }
  refine ⟨_, ?_, hu⟩
  rw [step_turn h.turns, agentTurn, Machine.engineTurn_eq, engineMove, hu.cfg, hpins]
  rfl

/-- A write completes: the PHYs are as `PhyWrite` leaves them. -/
theorem Shows.completes_write {p i : Field5} {d : Half} {g : Phys}
    (h : Shows c s0 ⟨q, ops, m, f, .engine :: ts, n⟩ s) (hpins : s0.cfg.pins = false)
    (he : m.eng = .inflight .write p i d) (hw : phyWriteRegs s0.cfg.phyPresent f p i d = .next g) :
    ∃ t, Reaches 1 s t ∧ Shows c s0
      ⟨q, ops, { m with eng := .free, miiAcc := clearBusy m.miiAcc }, g, ts, n⟩ t := by
  obtain ⟨u, hstep, hu⟩ := h.engineTurn_eq hpins
  have hwrite : phyWrite p i d u = .next { u with phys := g } := by
    rw [phyWrite, hu.cfg, hu.phys, hw, andThen_next]
  have hcomplete : engineComplete u = .next (freeEngine { u with phys := g }) := by
    simp only [engineComplete, hu.mac, he, hwrite, andThen_next]
  exact ⟨_, .of_step (hstep.trans hcomplete), 
    { hu with
      mac := congrArg (fun x : Mac => { x with eng := .free, miiAcc := clearBusy x.miiAcc }) hu.mac
      phys := rfl }⟩

/-- What `PhyRead` gives of a present PHY under no reserved select word (R242, R245). -/
theorem phyReadRegs_value {f : Phys} {p i : Field5} (h : i = mmdDataIdx → selectReserved f p = false) :
    phyReadRegs f p i = .next (if i = mmdDataIdx then mmdDataRead f p else c22At f p i) := by
  by_cases hi : i = mmdDataIdx
  · rw [phyReadRegs, if_pos hi, if_pos hi, h hi, if_neg Bool.false_ne_true]
  · rw [phyReadRegs, if_neg hi, if_neg hi]

/-- A `PhyRead` under no reserved select word answers next, with the register where the PHY is present, and at most draws
(R242, R247). -/
theorem phyRead_value {p i : Field5} {s : State}
    (h : p ∈ s.cfg.phyPresent → i = mmdDataIdx → selectReserved s.phys p = false) :
    ∃ v t, phyRead p i s = .next (v, t) ∧ (t = s ∨ t = advance s) ∧
      (p ∈ s.cfg.phyPresent → v = if i = mmdDataIdx then mmdDataRead s.phys p else c22At s.phys p i) := by
  by_cases hp : p ∈ s.cfg.phyPresent
  · exact ⟨_, s, by simp [phyRead, hp, phyReadRegs_value (h hp)], .inl rfl, fun _ => rfl⟩
  · exact ⟨drawnHalf s, _, by rw [phyRead, if_pos hp], .inr rfl, fun k => absurd k hp⟩

/-- The datum of a completed read is in MII_DATA[15:0] (R226). -/
theorem loadDatum_datum (v : Half) (s : State) : (loadDatum v s).mac.miiData.setWidth 16 = v := by
  simp only [loadDatum, advance_mac]
  rw [BitVec.setWidth_append]
  simp

/-- A read completes: MII_DATA holds what `PhyRead` gives. -/
theorem Shows.completes_read {p i : Field5} {d : Half} (h : Shows c s0 ⟨q, ops, m, f, .engine :: ts, n⟩ s)
    (hpins : s0.cfg.pins = false) (he : m.eng = .inflight .read p i d)
    (hr : p ∈ s0.cfg.phyPresent → i = mmdDataIdx → selectReserved f p = false) :
    ∃ t m', Reaches 1 s t ∧ Shows c s0 ⟨q, ops, m', f, ts, n⟩ t ∧ m'.eng = .free ∧ m'.regs = m.regs ∧
      m'.dataWindow = .completed ∧
      (p ∈ s0.cfg.phyPresent →
        m'.miiData.setWidth 16 = if i = mmdDataIdx then mmdDataRead f p else c22At f p i) := by
  obtain ⟨u, hstep, hu⟩ := h.engineTurn_eq hpins
  obtain ⟨v, w, hread, hw, hv⟩ := phyRead_value (s := u) (p := p) (i := i) (by rwa [hu.cfg, hu.phys])
  rw [hu.cfg, hu.phys] at hv
  have hcomplete : engineComplete u = .next (freeEngine (loadDatum v w)) := by
    simp only [engineComplete, hu.mac, he, hread, andThen_next]
  have hshows : Shows c s0 ⟨q, ops, m, f, ts, n⟩ w := by
    rcases hw with rfl | rfl
    · exact hu
    · exact hu.spent (advance_spent u) hu.answers
  refine ⟨_, (freeEngine (loadDatum v w)).mac, .of_step (hstep.trans hcomplete), { hshows with mac := rfl }, rfl, ?_,
    rfl, ?_⟩
  · rw [freeEngine_regs, loadDatum_regs, hshows.mac]
  · intro hp
    rw [freeEngine_miiData, loadDatum_datum, hv hp]

/-! ### A Clause-22 transaction of a command (R171, R201) -/

/-- POLL; WRDATA; WRACC; POLL on a free engine, the completion anywhere POLL_LIMIT allows (R75): the PHYs are as
`PhyWrite` leaves them, the engine is free again. -/
theorem Shows.writeTransaction {e : Datum} {r : RegIndex} {k : Nat} {g : Phys}
    (h : Shows c s0 ⟨q, .poll :: .wrData e :: .wrAcc r .write :: .poll :: ops, m, f,
      sequencerTurns (3 + k) ++ .engine :: .sequencer :: ts, n + (4 + k)⟩ s)
    (hf : m.eng = .free) (hc : s0.cfg.wf) (hpins : s0.cfg.pins = false) (hl : pollsAllowed k s0)
    (hw : phyWriteRegs s0.cfg.phyPresent f (q.opa.setWidth 5) (regIndexValue q r) (datumValue q e) = .next g) :
    ∃ t m', Reaches (5 + k) s t ∧ Shows c s0 ⟨{ q with pollCnt := 0 }, ops, m', g, ts, n⟩ t ∧
      m'.eng = .free ∧ m'.regs = m.regs := by
  rw [show n + (4 + k) = n + 1 + k + 1 + 1 + 1 by omega, Nat.add_comm 3 k] at h
  obtain ⟨s1, r1, h1⟩ := h.poll_free hf
  obtain ⟨s2, r2, h2⟩ := h1.wrData hf
  obtain ⟨s3, d, w, r3, hd, h3⟩ := h2.wrAcc hf hc
  have hdatum : d = datumValue q e := (hd rfl (by simp)).trans (BitVec.setWidth_setWidth_of_le _ (by decide))
  obtain ⟨s4, r4, h4⟩ := h3.poll_waits rfl (by simpa using hl)
  obtain ⟨s5, r5, h5⟩ := h4.completes_write hpins rfl (hdatum ▸ hw)
  obtain ⟨s6, r6, h6⟩ := h5.poll_free rfl
  have hrun := ((((r1.trans r2).trans r3).trans r4).trans r5).trans r6
  exact ⟨s6, _, (by omega : 1 + 1 + 1 + k + 1 + 1 = 5 + k) ▸ hrun, h6, rfl, rfl⟩

/-- POLL; WRACC; POLL; RDDATA on a free engine, the completion anywhere POLL_LIMIT allows (R75): RES has what `PhyRead`
gives, zero-extended, the engine is free again. -/
theorem Shows.readTransaction {r : RegIndex} {k : Nat}
    (h : Shows c s0 ⟨q, .poll :: .wrAcc r .read :: .poll :: .rdData :: ops, m, f,
      sequencerTurns (2 + k) ++ .engine :: .sequencer :: .sequencer :: ts, n + (4 + k)⟩ s)
    (hf : m.eng = .free) (hc : s0.cfg.wf) (hpins : s0.cfg.pins = false) (hl : pollsAllowed k s0)
    (hr : q.opa.setWidth 5 ∈ s0.cfg.phyPresent → regIndexValue q r = mmdDataIdx →
      selectReserved f (q.opa.setWidth 5) = false) :
    ∃ t m' v, Reaches (5 + k) s t ∧
      Shows c s0 ⟨{ q with pollCnt := 0, res := (v : Half).setWidth 32 }, ops, m', f, ts, n⟩ t ∧
      m'.eng = .free ∧ m'.regs = m.regs ∧
      (q.opa.setWidth 5 ∈ s0.cfg.phyPresent → v = if regIndexValue q r = mmdDataIdx
        then mmdDataRead f (q.opa.setWidth 5) else c22At f (q.opa.setWidth 5) (regIndexValue q r)) := by
  rw [show n + (4 + k) = n + 1 + 1 + k + 1 + 1 by omega, Nat.add_comm 2 k] at h
  obtain ⟨s1, r1, h1⟩ := h.poll_free hf
  obtain ⟨s2, d, w, r2, _, h2⟩ := h1.wrAcc hf hc
  obtain ⟨s3, r3, h3⟩ := h2.poll_waits rfl (by simpa using hl)
  obtain ⟨s4, m', r4, h4, hfree, hregs, hwindow, hvalue⟩ := h3.completes_read hpins rfl hr
  obtain ⟨s5, r5, h5⟩ := h4.poll_free hfree
  obtain ⟨s6, r6, h6⟩ := h5.rdData hfree (by simp [hwindow])
  have hrun := ((((r1.trans r2).trans r3).trans r4).trans r5).trans r6
  exact ⟨s6, m', _, (by omega : 1 + 1 + k + 1 + 1 + 1 = 5 + k) ▸ hrun, h6, hfree, hregs, hvalue⟩

end

/-! ### Whole commands (R24, R178) -/

/-- A command waits at the port exactly while another one runs (R24). -/
theorem mustWait_command {i : Instr} {c : Command} (h : commandOfInstr i = some c) (s : State) :
    mustWait i s = (s.seq.mode == .run) := by
  cases i <;> simp only [commandOfInstr, reduceCtorEq] at h <;> rfl

/-- A command that has been presented leaves the port. -/
theorem retire_command {i : Instr} {c : Command} (h : commandOfInstr i = some c) (s : State) : retire i s = popPort s := by
  cases i <;> simp only [commandOfInstr, reduceCtorEq] at h <;> rfl

/-- A command presented to an idle sequencer is accepted and leaves the port (R24). -/
theorem clientTurn_accepts {c : Command} {i : Instr} {e : Encoded} {items : List Encoded} {opa opb opc opd : Word}
    {s : State} (hidle : s.seq.mode = .idle) (hport : s.env.port = e :: items) (hdecode : decode s.cfg e = .ok i)
    (hi : commandOfInstr i = some c) (hexec : ∀ u, exec i u = execCommand c opa opb opc opd u) :
    clientTurn s = .next (popPort (accept c.code opa opb opc opd s)) := by
  have haccept : exec i s = .next (accept c.code opa opb opc opd s) := by simp only [hexec, execCommand, hidle]
  have hwait : mustWait i s = false := by rw [mustWait_command hi, hidle]; rfl
  simp only [clientTurn, hport, hdecode, hwait, haccept, retire_command hi, andThen_next, Bool.false_eq_true, if_false]

/-- After its acceptance a command has all its micro-operations ahead. -/
theorem accepted_shows {c : Command} {i : Instr} {e : Encoded} {items : List Encoded} {opa opb opc opd : Word}
    {s : State} {ts : List Agent} {n : Nat} (hready : ReadyFor n s) (hturns : s.env.turns = .client :: ts)
    (hport : s.env.port = e :: items) (hdecode : decode s.cfg e = .ok i) (hi : commandOfInstr i = some c)
    (hexec : ∀ u, exec i u = execCommand c opa opb opc opd u)
    (hunused : unusedLatchesZero (accept c.code opa opb opc opd s).seq) :
    ∃ t, Reaches 1 s t ∧ Shows c (popPort s)
      ⟨(accept c.code opa opb opc opd s).seq, c.program, s.mac, s.phys, ts, n⟩ t :=
  ⟨_, .of_step ((step_turn hturns).trans (clientTurn_accepts hready.idle hport hdecode hi hexec)), {
    mode := rfl, command := commandOf_code hi, unused := hunused, seq := rfl, ahead := rfl, mac := rfl, phys := rfl
    eeprom := rfl, cfg := rfl, port := rfl, turns := rfl, answers := hready.answers }⟩

/-- `t` is what RET leaves of the scene `v` of command `c` (R178). -/
structure Returned (c : Command) (s0 : State) (v : Scene) (t : State) : Prop where
  mode : t.seq.mode = .idle
  lock : t.seq.lock = false
  status : t.seq.status = 0#32
  info : t.seq.info = 0#32
  res : t.seq.res = if c.clearsRes then 0#32 else v.seq.res
  mac : t.mac = v.mac
  phys : t.phys = v.phys
  eeprom : t.eeprom = s0.eeprom
  cfg : t.cfg = s0.cfg
  port : t.env.port = s0.env.port
  turns : t.env.turns = v.turns
  answers : transportPerformsNext v.answers t

/-- RET ends the command. -/
theorem Shows.returned {c : Command} {s0 s : State} {q : Seq} {ops : List MicroOp} {m : Mac} {f : Phys}
    {ts : List Agent} {n : Nat} (h : Shows c s0 ⟨q, .ret :: ops, m, f, .sequencer :: ts, n⟩ s) :
    ∃ t, Reaches 1 s t ∧ Returned c s0 ⟨q, .ret :: ops, m, f, ts, n⟩ t := by
  obtain ⟨u, hstep, hu⟩ := h.step_eq
  exact ⟨commandReturn c.clearsRes u, .of_step hstep, {
    mode := rfl, lock := rfl, status := rfl, info := rfl, res := by rw [commandReturn, hu.seq]
    mac := hu.mac, phys := hu.phys, eeprom := hu.eeprom, cfg := hu.cfg, port := hu.port, turns := hu.turns
    answers := transportPerformsNext_congr hu.answers rfl rfl rfl }⟩

/-! ### C22_WRITE and C22_READ (R180, R181) -/

/-- An operand below 32 is a Clause-22 index exactly where it is that index as a word. -/
theorem setWidth5_eq_iff {r : Word} (hr : r.toNat < 32) (k : Field5) : r.setWidth 5 = k ↔ r = k.setWidth 32 := by
  have hk := k.isLt
  constructor
  · rintro rfl
    exact BitVec.eq_of_toNat_eq (by simp only [BitVec.toNat_setWidth]; omega)
  · rintro rfl
    exact BitVec.eq_of_toNat_eq (by simp only [BitVec.toNat_setWidth]; omega)

theorem c22WriteTurns_append (n : Nat) (ts : List Agent) :
    c22WriteTurns n ++ ts =
      .client :: .sequencer :: (sequencerTurns (3 + n) ++ .engine :: .sequencer :: .sequencer :: ts) := by
  simp [c22WriteTurns, sequencerTurns, show 4 + n = 3 + n + 1 by omega, List.replicate_succ]

theorem c22ReadTurns_append (n : Nat) (ts : List Agent) :
    c22ReadTurns n ++ ts =
      .client :: .sequencer :: (sequencerTurns (2 + n) ++ .engine :: .sequencer :: .sequencer :: .sequencer :: ts) := by
  simp [c22ReadTurns, sequencerTurns, show 3 + n = 2 + n + 1 by omega, List.replicate_succ]

/-- C22_WRITE from the port to RET. -/
theorem c22Write_runs {n : Nat} {s : State} {p r d : Word} {f : Phys} {items : List Encoded} {ts : List Agent}
    (hready : ReadyFor (4 + n) s) (hfree : s.mac.eng = .free) (hpolls : pollsAllowed n s)
    (hport : s.env.port = .cmd [0x11#32, p, r, d] :: items) (hturns : s.env.turns = c22WriteTurns n ++ ts)
    (hp : p.toNat < 32) (hr : r.toNat < 32) (hd : d.toNat < 0x10000)
    (hw : phyWriteRegs s.cfg.phyPresent s.phys (p.setWidth 5) (r.setWidth 5) (d.setWidth 16) = .next f) :
    ∃ t q m, Reaches (8 + n) s t ∧ Returned c22WriteCommand (popPort s) ⟨q, [.ret], m, f, ts, 0⟩ t ∧
      m.eng = .free ∧ m.regs = s.mac.regs := by
  rw [c22WriteTurns_append] at hturns
  obtain ⟨s1, r1, h1⟩ := accepted_shows (i := .c22Write p r d) hready hturns hport rfl rfl (fun _ => rfl)
    (by simp [unusedLatchesZero, accept, c22WriteCommand])
  obtain ⟨s2, r2, h2⟩ := h1.validate (by simp [c22WriteCommand, readLatch, accept, hp, hr, hd])
  rw [← Nat.zero_add (4 + n)] at h2
  obtain ⟨s3, m, r3, h3, hfree', hregs⟩ := h2.writeTransaction hfree hready.config hready.atomicEngine hpolls
    (by simpa [regIndexValue, datumValue, readLatch, accept] using hw)
  obtain ⟨t, r4, ht⟩ := h3.returned
  exact ⟨t, _, m, (by omega : 1 + 1 + (5 + n) + 1 = 8 + n) ▸ ((r1.trans r2).trans r3).trans r4, ht, hfree', hregs⟩

/-- Settles O56: the run from the port to RET leaves the PHYs as `PhyWrite` does, which for an index other than 0xE of a
present PHY is the storage of one register. -/
theorem c22WriteCompletes : Obligations.C22WriteCompletes := by
  unfold Obligations.C22WriteCompletes
  intro n s p r d f items ts hready hfree hpolls hport hturns hp hr hd hw
  obtain ⟨t, q, m, hrun, ht, hfree', hregs⟩ := c22Write_runs hready hfree hpolls hport hturns hp hr hd hw
  refine ⟨t, hrun, ht.mode, ht.lock, ht.status, ht.info, ht.res, ht.mac ▸ hfree', ht.mac ▸ hregs, ht.phys, ?_, ht.eeprom,
    ht.cfg, ht.port.trans (congrArg List.tail hport), ht.turns⟩
  intro hpresent hindex
  have hother : r.setWidth 5 ≠ mmdDataIdx := fun h => hindex ((setWidth5_eq_iff hr _).mp h)
  have hstore : t.phys = setC22 s.phys (p.setWidth 5) (r.setWidth 5) (d.setWidth 16) := by
    rw [phyWriteRegs, if_neg hother, if_pos hpresent] at hw
    exact ht.phys.trans (Host.Outcome.next.inj hw).symm
  rw [hstore]
  exact ⟨c22At_setC22_same _ _ _ _, fun _ _ h => c22At_setC22_other _ _ _ _ _ _ h, rfl, rfl⟩

/-- C22_READ from the port to RET. -/
theorem c22Read_runs {n : Nat} {s : State} {p r : Word} {items : List Encoded} {ts : List Agent}
    (hready : ReadyFor (4 + n) s) (hfree : s.mac.eng = .free) (hpolls : pollsAllowed n s)
    (hport : s.env.port = .cmd [0x10#32, p, r] :: items) (hturns : s.env.turns = c22ReadTurns n ++ ts)
    (hp : p.toNat < 32) (hr : r.toNat < 32)
    (hselect : p.setWidth 5 ∈ s.cfg.phyPresent → r.setWidth 5 = mmdDataIdx →
      selectReserved s.phys (p.setWidth 5) = false) :
    ∃ t q m v, Reaches (8 + n) s t ∧ Returned c22ReadCommand (popPort s) ⟨q, [.ret], m, s.phys, ts, 0⟩ t ∧
      m.eng = .free ∧ m.regs = s.mac.regs ∧ q.res = (v : Half).setWidth 32 ∧
      (p.setWidth 5 ∈ s.cfg.phyPresent → v = if r.setWidth 5 = mmdDataIdx
        then mmdDataRead s.phys (p.setWidth 5) else c22At s.phys (p.setWidth 5) (r.setWidth 5)) := by
  rw [c22ReadTurns_append] at hturns
  obtain ⟨s1, r1, h1⟩ := accepted_shows (i := .c22Read p r) hready hturns hport rfl rfl (fun _ => rfl)
    (by simp [unusedLatchesZero, accept, c22ReadCommand])
  obtain ⟨s2, r2, h2⟩ := h1.validate (by simp [c22ReadCommand, readLatch, accept, hp, hr])
  rw [← Nat.zero_add (4 + n)] at h2
  obtain ⟨s3, m, v, r3, h3, hfree', hregs, hv⟩ :=
    h2.readTransaction hfree hready.config hready.atomicEngine hpolls hselect
  obtain ⟨t, r4, ht⟩ := h3.returned
  exact ⟨t, _, m, v, (by omega : 1 + 1 + (5 + n) + 1 = 8 + n) ▸ ((r1.trans r2).trans r3).trans r4, ht, hfree', hregs,
    rfl, hv⟩

/-- Settles O57: the run from the port to RET leaves in RES 16 bits, which for a present PHY are those `PhyRead` gives. -/
theorem c22ReadCompletes : Obligations.C22ReadCompletes := by
  unfold Obligations.C22ReadCompletes
  intro n s p r items ts hready hfree hpolls hport hturns hp hr hselect
  have hindex : r.setWidth 5 = mmdDataIdx ↔ r = 0xE#32 := setWidth5_eq_iff hr _
  obtain ⟨t, q, m, v, hrun, ht, hfree', hregs, hq, hv⟩ := c22Read_runs hready hfree hpolls hport hturns hp hr
    fun hpresent h => hselect hpresent (hindex.mp h)
  have hres : t.seq.res = v.setWidth 32 := ht.res.trans hq
  refine ⟨t, hrun, ht.mode, ht.lock, ht.status, ht.info, ?_, ?_, ht.mac ▸ hfree', ht.mac ▸ hregs, ht.phys, ht.eeprom,
    ht.cfg, ht.port.trans (congrArg List.tail hport), ht.turns⟩
  · have hlt := v.isLt
    rw [hres, BitVec.toNat_setWidth]
    omega
  · intro hpresent
    simp only [hres, hv hpresent, hindex]

end Sys2Proof.Proofs

/-! PROOFS. The encodings (30_encoding.md R91 to R102, R280): the words and buffers as numbers, decoding of what the
encoder writes, and the reserved encodings, which hold no instruction. -/

namespace Sys2Proof.Proofs

open Sys2Proof.Machine

/-! ### The access word and the request buffers as numbers (R92, R95) -/

/-- The OR of the three shifted fields is their sum: no field reaches into the next (R92). -/
theorem accWord_toNat (p r : Field5) (o : BitVec 6) :
    (accWord p r o).toNat = p.toNat * 2 ^ 11 + r.toNat * 2 ^ 6 + o.toNat := by
  have hp := p.isLt
  have hr := r.isLt
  have ho := o.isLt
  have hphyad : (p.setWidth 32 <<< 11).toNat = p.toNat * 2 ^ 11 := by
    simp only [BitVec.toNat_shiftLeft, BitVec.toNat_setWidth, Nat.shiftLeft_eq]; omega
  have hregad : (r.setWidth 32 <<< 6).toNat = r.toNat * 2 ^ 6 := by
    simp only [BitVec.toNat_shiftLeft, BitVec.toNat_setWidth, Nat.shiftLeft_eq]; omega
  have hop : (o.setWidth 32).toNat = o.toNat := by
    simp only [BitVec.toNat_setWidth]; omega
  calc (accWord p r o).toNat
      = p.toNat * 2 ^ 11 ||| r.toNat * 2 ^ 6 ||| o.toNat := by
        simp only [accWord, phyadShift_eq, regadShift_eq, BitVec.toNat_or, hphyad, hregad, hop]
    _ = (p.toNat * 2 ^ 5 + r.toNat) * 2 ^ 6 ||| o.toNat := by
        rw [or_shift_eq_add _ _ 11 (by omega)]
        congr 1; omega
    _ = p.toNat * 2 ^ 11 + r.toNat * 2 ^ 6 + o.toNat := by
        rw [or_shift_eq_add _ _ 6 ho]
        omega

/-- Settles O4: the OR is a sum by `accWord_toNat`, and the fields read back. -/
theorem accessWordFields : Obligations.AccessWordFields := by
  unfold Obligations.AccessWordFields
  exact fun p r o => ⟨accWord_toNat p r o, accWord_fields p r o⟩

/-- The bytes of a word are its digits to base 256, least significant first (R63). -/
theorem le32_map_toNat (v : Word) :
    (le32 v).map BitVec.toNat = (List.range 4).map (fun k => v.toNat / 256 ^ k % 256) := by
  simp [le32, List.range_succ, Nat.shiftRight_eq_div_pow]

/-- A register address keeps its value in the 4-byte address field (R95). -/
theorem setWidth_regAddr_toNat (a : RegAddr) : (a.setWidth 32).toNat = a.toNat := by
  have ha := a.isLt
  rw [BitVec.toNat_setWidth]
  omega

theorem drvReadBytes_map_toNat (sel ifx addr : Word) :
    (drvReadBytes sel ifx addr).map BitVec.toNat =
      (le32 sel).map BitVec.toNat ++ [8, 0, 0, 0] ++ (le32 ifx).map BitVec.toNat ++ (le32 addr).map BitVec.toNat := by
  have hop : (le32 drvOpRead).map BitVec.toNat = [8, 0, 0, 0] := rfl
  simp only [drvReadBytes, List.map_append, hop]

theorem drvWriteBytes_map_toNat (sel ifx addr value : Word) :
    (drvWriteBytes sel ifx addr value).map BitVec.toNat =
      (le32 sel).map BitVec.toNat ++ [9, 0, 0, 0] ++ (le32 ifx).map BitVec.toNat ++ (le32 addr).map BitVec.toNat ++
        (le32 value).map BitVec.toNat := by
  have hop : (le32 drvOpWrite).map BitVec.toNat = [9, 0, 0, 0] := rfl
  simp only [drvWriteBytes, List.map_append, hop]

/-- Settles O6: a request is its little-endian fields one after another, and each field is the digits of its value. -/
theorem driverRequestLayout : Obligations.DriverRequestLayout := by
  unfold Obligations.DriverRequestLayout
  intro c a v
  refine ⟨rfl, rfl, ?_, ?_⟩
  · rw [readRequest, drvReadBytes_map_toNat]
    simp only [le32_map_toNat, setWidth_regAddr_toNat]
  · rw [writeRequest, drvWriteBytes_map_toNat]
    simp only [le32_map_toNat, setWidth_regAddr_toNat]

/-! ### Decoding what the encoder writes -/

theorem decodeAcc_read (c : Config) (p r : Field5) :
    decodeAcc c (accWord p r c.readOpcode) = .ok (.miiRead p r) := by
  obtain ⟨hp, hr, ho, hhigh⟩ := accWord_fields p r c.readOpcode
  simp [decodeAcc, hp, hr, ho, hhigh]

/-- The operation codes tell a write from a read because they differ (R93). -/
theorem decodeAcc_write {c : Config} (h : c.readOpcode ≠ c.writeOpcode) (p r : Field5) :
    decodeAcc c (accWord p r c.writeOpcode) = .ok (.miiWrite p r) := by
  obtain ⟨hp, hr, ho, hhigh⟩ := accWord_fields p r c.writeOpcode
  simp [decodeAcc, hp, hr, ho, hhigh, h.symm]

theorem decodeMmd_mmdWord (m : Bool) (d : Field5) :
    decodeMmd (mmdWord m d) = .ok (if m then .mmdData d else .mmdAddr d) := by
  have hfields : mmdReserved (mmdWord m d) = false ∧ mmdMode (mmdWord m d) = m ∧ mmdDevad (mmdWord m d) = d := by
    revert m d; decide
  obtain ⟨hreserved, hmode, hdevad⟩ := hfields
  cases m <;> simp [decodeMmd, hreserved, hmode, hdevad]

theorem decodeDrv_read (sel ifx a : Word) : decodeDrv (drvReadBytes sel ifx a) = .ok (.drvRead sel ifx a) := by
  obtain ⟨hlen, hsel, hop, hifx, haddr⟩ := drvReadBytes_fields sel ifx a
  simp [decodeDrv, hlen, hsel, hop, hifx, haddr]

theorem decodeDrv_write (sel ifx a v : Word) :
    decodeDrv (drvWriteBytes sel ifx a v) = .ok (.drvWrite sel ifx a v) := by
  obtain ⟨hlen, hsel, hop, hifx, haddr, hvalue⟩ := drvWriteBytes_fields sel ifx a v
  simp [decodeDrv, hlen, hsel, hop, hifx, haddr, hvalue]

/-- Whatever the 18 slots hold that the master of a read frame releases (R97). -/
theorem decodeFrame_read (p r : Field5) (ta : BitVec 2) (d : Half) :
    decodeFrame (frameSlots 0b10#2 p r ta d) = .ok (.frameRead p r) := by
  obtain ⟨hpreamble, hstart, hp, hr, -, -⟩ := frameSlots_fields 0b10#2 p r ta d
  simp [decodeFrame, hpreamble, hstart, hp, hr]

theorem decodeFrame_write (p r : Field5) (d : Half) :
    decodeFrame (frameSlots 0b01#2 p r 0b10#2 d) = .ok (.frameWrite p r d) := by
  obtain ⟨hpreamble, hstart, hp, hr, hta, hdata⟩ := frameSlots_fields 0b01#2 p r 0b10#2 d
  simp [decodeFrame, hpreamble, hstart, hp, hr, hta, hdata]

/-- An EPC word is decided by its code (R280). -/
theorem decodeEpc_epcWord (code : BitVec 3) (a : BitVec 9) (d : Byte) :
    decodeEpc (epcWord code a d) =
      if code = 0b000#3 then .ok (.epcRead a)
      else if code = 0b001#3 then .ok .epcEwds
      else if code = 0b010#3 then .ok .epcEwen
      else if code = 0b011#3 then .ok (.epcWrite a d)
      else if code = 0b110#3 then .ok .epcEraseAll
      else .error (.reservedEpc (epcWord code a d)) := by
  obtain ⟨hcode, haddr, hbyte⟩ := epcWord_fields code a d
  rw [decodeEpc, hcode, haddr, hbyte]

/-- Settles O1, carrier by carrier: the fields of what the encoder assembles read back, and the code among them selects
the instruction. -/
theorem decodeInvertsEncode : Obligations.DecodeInvertsEncode := by
  unfold Obligations.DecodeInvertsEncode
  intro c i hwf _
  obtain ⟨-, -, hne, -, -⟩ := hwf
  cases i with
  | regRead a => rfl
  | regWrite a v => rfl
  | c22Read p r => rfl
  | c22Write p r d => rfl
  | c45Read p v x => rfl
  | c45Write p v x d => rfl
  | miiRead p r => exact decodeAcc_read c p r
  | miiWrite p r => exact decodeAcc_write hne p r
  | mmdAddr d => exact decodeMmd_mmdWord false d
  | mmdData d => exact decodeMmd_mmdWord true d
  | drvRead sel ifx a => exact decodeDrv_read sel ifx a
  | drvWrite sel ifx a v => exact decodeDrv_write sel ifx a v
  | frameRead p r => exact decodeFrame_read p r _ _
  | frameWrite p r d => exact decodeFrame_write p r d
  | epcRead a => exact decodeEpc_epcWord 0b000#3 a 0#8
  | epcEwds => exact decodeEpc_epcWord 0b001#3 0#9 0#8
  | epcEwen => exact decodeEpc_epcWord 0b010#3 0#9 0#8
  | epcWrite a d => exact decodeEpc_epcWord 0b011#3 a d
  | epcEraseAll => exact decodeEpc_epcWord 0b110#3 0#9 0#8

/-! ### Reserved encodings (R101, R102) -/

theorem decodeCmd_unknownCommand {code : Word} (ops : List Word)
    (h : ∀ x ∈ [8#32, 9#32, 0x10#32, 0x11#32, 0x12#32, 0x13#32], code ≠ x) :
    decodeCmd (code :: ops) = .error (.unknownCommand code) := by
  simp only [List.forall_mem_cons] at h
  obtain ⟨h8, h9, h10, h11, h12, h13, -⟩ := h
  simp only [decodeCmd, if_neg h8, if_neg h9, if_neg h10, if_neg h11, if_neg h12, if_neg h13]

/-- Each of the six codes fixes the number of its operands (R91). -/
theorem decodeCmd_badFrameLength {code : Word} {k : Nat} {ops : List Word}
    (hcode : (code, k) ∈ [(8#32, 1), (9#32, 2), (0x10#32, 2), (0x11#32, 3), (0x12#32, 3), (0x13#32, 4)])
    (hlen : ops.length ≠ k) : decodeCmd (code :: ops) = .error (.badFrameLength (ops.length + 1)) := by
  simp only [List.mem_cons, Prod.mk.injEq, List.not_mem_nil, or_false] at hcode
  rcases hcode with ⟨rfl, rfl⟩ | ⟨rfl, rfl⟩ | ⟨rfl, rfl⟩ | ⟨rfl, rfl⟩ | ⟨rfl, rfl⟩ | ⟨rfl, rfl⟩ <;>
  · simp only [decodeCmd, BitVec.reduceEq, if_true, if_false]
    split
    · exact absurd rfl hlen
    · rfl

/-- Bits 31:16 of an access word as a number. -/
theorem accHigh_toNat (w : Word) : (accHigh w).toNat = w.toNat / 2 ^ 16 := by
  have hw := w.isLt
  simp only [accHigh, BitVec.extractLsb'_toNat, Nat.shiftRight_eq_div_pow]
  omega

theorem decodeAcc_reserved {c : Config} {w : Word}
    (h : w.toNat / 2 ^ 16 ≠ 0 ∨ (accOp w ≠ c.readOpcode ∧ accOp w ≠ c.writeOpcode)) :
    decodeAcc c w = .error (.reservedAccess w) := by
  rcases h with hhigh | ⟨hread, hwrite⟩
  · have hne : accHigh w ≠ 0#16 := fun h0 => hhigh (by rw [← accHigh_toNat, h0]; rfl)
    rw [decodeAcc, if_pos hne]
  · simp only [decodeAcc, if_neg hread, if_neg hwrite, ite_self]

/-- Bits 15 and 13:5 of an address-select word are those the mask 0xBFE0 selects (R36): they are 0 in every word that the
two fields alone make. -/
theorem mmdReserved_of_mask {v : Half} (h : v &&& 0xBFE0#16 ≠ 0#16) : mmdReserved v = true := by
  have hmask : ∀ (m : Bool) (d : Field5), mmdWord m d &&& 0xBFE0#16 = 0#16 := by decide
  by_contra hfree
  rw [Bool.not_eq_true] at hfree
  exact h (mmdWord_back hfree ▸ hmask (mmdMode v) (mmdDevad v))

theorem decodeMmd_reserved {v : Half} (h : v &&& 0xBFE0#16 ≠ 0#16) : decodeMmd v = .error (.reservedSelect v) := by
  rw [decodeMmd, if_pos (mmdReserved_of_mask h)]

theorem decodeDrv_badOpcode {bs : List Byte} (hlen : 8 ≤ bs.length) (hread : le32At bs 4 ≠ 8#32)
    (hwrite : le32At bs 4 ≠ 9#32) : decodeDrv bs = .error (.badRequestOpcode (le32At bs 4)) := by
  rw [decodeDrv, if_neg (Nat.not_lt.mpr hlen), drvOpRead_eq, if_neg hread, drvOpWrite_eq, if_neg hwrite]

theorem decodeDrv_badLength {bs : List Byte}
    (h : bs.length < 8 ∨ (le32At bs 4 = 8#32 ∧ bs.length ≠ 16) ∨ (le32At bs 4 = 9#32 ∧ bs.length ≠ 20)) :
    decodeDrv bs = .error (.badRequestLength bs.length) := by
  rcases h with hshort | ⟨hop, hlen⟩ | ⟨hop, hlen⟩
  · rw [decodeDrv, if_pos hshort]
  · simp [decodeDrv, hop, hlen]
  · simp [decodeDrv, hop, hlen]

/-- The fields of 64 slots that say whether they are a frame, as numbers (R97). -/
theorem frameFields_toNat (w : BitVec 64) :
    (w.extractLsb' 32 32).toNat = w.toNat / 2 ^ 32 ∧ (frameStartOp w).toNat = w.toNat / 2 ^ 28 % 16 ∧
    (frameTurnaround w).toNat = w.toNat / 2 ^ 16 % 4 := by
  have hw := w.isLt
  refine ⟨?_, ?_, ?_⟩
  · simp only [BitVec.extractLsb'_toNat, Nat.shiftRight_eq_div_pow]
    omega
  · simp only [frameStartOp, BitVec.extractLsb'_toNat, Nat.shiftRight_eq_div_pow]
  · simp only [frameTurnaround, BitVec.extractLsb'_toNat, Nat.shiftRight_eq_div_pow]

/-- Slots that hold an instruction start with 32 ones and 01, and then the operation of a read, or that of a write and its
turnaround (R97). -/
theorem decodeFrame_badFrame {w : BitVec 64}
    (h : w.toNat / 2 ^ 32 ≠ 0xFFFFFFFF ∨ w.toNat / 2 ^ 30 % 4 ≠ 1 ∨
      (w.toNat / 2 ^ 28 % 4 ≠ 1 ∧ w.toNat / 2 ^ 28 % 4 ≠ 2) ∨
      (w.toNat / 2 ^ 28 % 4 = 1 ∧ w.toNat / 2 ^ 16 % 4 ≠ 2)) :
    decodeFrame w = .error (.badFrame w) := by
  obtain ⟨hpreamble, hstart, hta⟩ := frameFields_toNat w
  by_cases hones : w.extractLsb' 32 32 = 0xFFFFFFFF#32
  · have h32 : w.toNat / 2 ^ 32 = 0xFFFFFFFF := by rw [← hpreamble, hones]; rfl
    have hread : frameStartOp w ≠ 0b0110#4 := by
      intro heq
      have h28 : w.toNat / 2 ^ 28 % 16 = 6 := by rw [← hstart, heq]; rfl
      omega
    have hwrite : ¬ (frameStartOp w = 0b0101#4 ∧ frameTurnaround w = 0b10#2) := by
      rintro ⟨heq, hturn⟩
      have h28 : w.toNat / 2 ^ 28 % 16 = 5 := by rw [← hstart, heq]; rfl
      have h16 : w.toNat / 2 ^ 16 % 4 = 2 := by rw [← hta, hturn]; rfl
      omega
    rw [decodeFrame, if_neg (not_not_intro hones), if_neg hread, if_neg hwrite]
  · rw [decodeFrame, if_pos hones]

/-- The code of an EPC word stands in the three bits that the mask 7 selects (log 21). -/
theorem epcCode_mask (w : Word) : epcCode (w &&& 7#32) = epcCode w := by
  have h7 : (7#32).extractLsb' 0 3 = BitVec.allOnes 3 := rfl
  rw [epcCode, BitVec.extractLsb'_and, h7, BitVec.and_allOnes, epcCode]

theorem decodeEpc_reserved {w : Word} (h : w &&& 7#32 = 4#32 ∨ w &&& 7#32 = 5#32 ∨ w &&& 7#32 = 7#32) :
    decodeEpc w = .error (.reservedEpc w) := by
  have hcode : epcCode w = 0b100#3 ∨ epcCode w = 0b101#3 ∨ epcCode w = 0b111#3 := by
    rw [← epcCode_mask w]
    rcases h with h | h | h <;> rw [h] <;> decide
  rcases hcode with h | h | h <;> simp [decodeEpc, h]

/-- Settles O7: each carrier's rejections. -/
theorem reservedEncodingsRejected : Obligations.ReservedEncodingsRejected := by
  unfold Obligations.ReservedEncodingsRejected
  exact ⟨fun _ _ ops h => decodeCmd_unknownCommand ops h, fun _ _ _ _ hcode hlen => decodeCmd_badFrameLength hcode hlen,
    fun _ _ h => decodeAcc_reserved h, fun _ _ h => decodeMmd_reserved h,
    fun _ _ hlen hread hwrite => decodeDrv_badOpcode hlen hread hwrite, fun _ _ h => decodeDrv_badLength h,
    fun _ _ h => decodeFrame_badFrame h, fun _ _ h => decodeEpc_reserved h⟩

end Sys2Proof.Proofs

/-! PROOFS. The driver serializer (41_driver_serializer.md R140 to R151): what one exchange makes of the driver's answer, for
a request buffer presented by itself and for a Transport operation of the sequencer. -/

namespace Sys2Proof.Proofs

open Sys2Proof.Machine

/-! ### One exchange with a scripted answer (R144, R150) -/

/-- The driver's next answer has been taken, `rest` being left: RETRY is that of the operation in progress (R151). -/
def answerTaken (rest : List DriverAnswer) (s : State) : State :=
  { s with ser := ⟨busyAnswers s, s.ser.pending⟩, env := { s.env with driverAnswers := rest } }

/-- An exchange with a scripted answer: the request is performed as the answer says, and the answer is settled. -/
theorem exchange_scripted {s : State} {ans : DriverAnswer} {rest : List DriverAnswer}
    (h : s.env.driverAnswers = ans :: rest) (isRead : Bool) (req : List Byte) :
    exchange isRead req s = andThen (performRequest (answerLands ans isRead) req (answerTaken rest s))
      fun p => .next (settleExchange ans isRead p.1 p.2) := by
  obtain ⟨hans, hstate⟩ := takeDriverAnswer_scripted h
  have htake : takeDriverAnswer (startExchange s) = (ans, answerTaken rest s) := Prod.ext hans hstate
  rw [exchange, htake]

/-! ### Response buffers (R144 to R148) -/

section
variable {isRead : Bool} {rsp : List Byte}

theorem parseResponse_short (hlen : rsp.length < 12) : parseResponse isRead rsp = .badLength rsp.length := by
  simp [parseResponse, drvPayloadOff, hlen]

theorem parseResponse_busy (hlen : 12 ≤ rsp.length) (hst : le32At rsp 8 = 4#32) : parseResponse isRead rsp = .busy := by
  simp [parseResponse, drvPayloadOff, Nat.not_lt.mpr hlen, hst]

theorem parseResponse_status (hlen : 12 ≤ rsp.length) (hbusy : le32At rsp 8 ≠ 4#32) (hok : le32At rsp 8 ≠ 0#32) :
    parseResponse isRead rsp = .status (le32At rsp 8) := by
  simp [parseResponse, drvPayloadOff, Nat.not_lt.mpr hlen, hbusy, hok]

theorem parseResponse_ok_read (hlen : rsp.length = 16) (hok : le32At rsp 8 = 0#32) :
    parseResponse true rsp = .success (le32At rsp 12) := by
  simp [parseResponse, drvPayloadOff, hlen, hok]

theorem parseResponse_ok_write (hlen : rsp.length = 12) (hok : le32At rsp 8 = 0#32) :
    parseResponse false rsp = .success 0#32 := by
  simp [parseResponse, drvPayloadOff, hlen, hok]

theorem parseResponse_ok_length (hlen : 12 ≤ rsp.length) (hexact : rsp.length ≠ if isRead then 16 else 12)
    (hok : le32At rsp 8 = 0#32) : parseResponse isRead rsp = .badLength rsp.length := by
  cases isRead <;> simp_all [parseResponse, drvPayloadOff, Nat.not_lt.mpr hlen]

end

/-- A response lets a write through where it says that the write has been performed (R67, R148). -/
theorem answerLands_write (rsp : List Byte) (reached : Bool) :
    answerLands (.buffer rsp reached) false = writePerformed rsp reached := by
  simp only [answerLands, writePerformed, Bool.not_false, Bool.and_true]
  by_cases hlen : rsp.length < 12
  · rw [parseResponse_short hlen, if_pos hlen, landed]
  rw [if_neg hlen]
  replace hlen := Nat.not_lt.mp hlen
  by_cases hbusy : le32At rsp 8 = 4#32
  · rw [parseResponse_busy hlen hbusy, if_pos hbusy, landed]
  rw [if_neg hbusy]
  by_cases hok : le32At rsp 8 = 0#32
  · by_cases hexact : rsp.length = 12
    · rw [parseResponse_ok_write hexact hok, if_pos ⟨hok, hexact⟩, landed]
    · rw [parseResponse_ok_length hlen (by simpa using hexact) hok, if_neg (hexact ·.2), landed]
  · rw [parseResponse_status hlen hbusy hok, if_neg (hok ·.1), landed]

/-- A response that is no success of 16 bytes lets no read through (R145, R148, D11). -/
theorem answerLands_read_buffer {rsp : List Byte} (reached : Bool) (h : rsp.length ≠ 16 ∨ le32At rsp 8 ≠ 0#32) :
    answerLands (.buffer rsp reached) true = false := by
  simp only [answerLands, Bool.not_true, Bool.and_false]
  by_cases hlen : rsp.length < 12
  · rw [parseResponse_short hlen, landed]
  replace hlen := Nat.not_lt.mp hlen
  by_cases hbusy : le32At rsp 8 = 4#32
  · rw [parseResponse_busy hlen hbusy, landed]
  by_cases hok : le32At rsp 8 = 0#32
  · rw [parseResponse_ok_length hlen (by simpa using h.resolve_right (· hok)) hok, landed]
  · rw [parseResponse_status hlen hbusy hok, landed]

/-! ### Settling an answer (R144 to R149) -/

section
variable {isRead reached : Bool} {rsp : List Byte} {v : Word} {s : State} {n : Nat}

/-- A response that does not say busy ends the operation. -/
theorem settleExchange_over {verdict : Verdict} {x : Xfer} (hn : s.ser.retry = n)
    (hparse : parseResponse isRead rsp = verdict) (hx : concludeExchange verdict s = (x, endOperation s)) :
    settleExchange (.buffer rsp reached) isRead v s = (x, { s with ser := ⟨n, false⟩ }) := by
  subst hn
  rw [settleExchange, hparse, hx, endOperation]

theorem settleExchange_short (hn : s.ser.retry = n) (hlen : rsp.length < 12) :
    settleExchange (.buffer rsp reached) isRead v s =
      (.raised ⟨.io, 2#32, BitVec.ofNat 32 rsp.length⟩, { s with ser := ⟨n, false⟩ }) :=
  settleExchange_over hn (parseResponse_short hlen) rfl

theorem settleExchange_status (hn : s.ser.retry = n) (hlen : 12 ≤ rsp.length) (hbusy : le32At rsp 8 ≠ 4#32)
    (hok : le32At rsp 8 ≠ 0#32) : settleExchange (.buffer rsp reached) isRead v s =
      (.raised ⟨.io, 3#32, le32At rsp 8⟩, { s with ser := ⟨n, false⟩ }) :=
  settleExchange_over hn (parseResponse_status hlen hbusy hok) rfl

theorem settleExchange_ok_length (hn : s.ser.retry = n) (hlen : 12 ≤ rsp.length)
    (hexact : rsp.length ≠ if isRead then 16 else 12) (hok : le32At rsp 8 = 0#32) :
    settleExchange (.buffer rsp reached) isRead v s =
      (.raised ⟨.io, 2#32, BitVec.ofNat 32 rsp.length⟩, { s with ser := ⟨n, false⟩ }) :=
  settleExchange_over hn (parseResponse_ok_length hlen hexact hok) rfl

theorem settleExchange_ok_read (hn : s.ser.retry = n) (hlen : rsp.length = 16) (hok : le32At rsp 8 = 0#32) :
    settleExchange (.buffer rsp reached) true v s = (.value (le32At rsp 12), { s with ser := ⟨n, false⟩ }) :=
  settleExchange_over hn (parseResponse_ok_read hlen hok) rfl

theorem settleExchange_ok_write (hn : s.ser.retry = n) (hlen : rsp.length = 12) (hok : le32At rsp 8 = 0#32) :
    settleExchange (.buffer rsp reached) false v s = (.value 0#32, { s with ser := ⟨n, false⟩ }) :=
  settleExchange_over hn (parseResponse_ok_write hlen hok) rfl

/-- A busy answer below DRV_RETRY_LIMIT: the request is issued again (R148). -/
theorem settleExchange_again (hn : s.ser.retry = n) (hlen : 12 ≤ rsp.length) (hst : le32At rsp 8 = 4#32)
    (hretry : n + 1 < s.cfg.retryLimit) :
    settleExchange (.buffer rsp reached) isRead v s = (.again, { s with ser := ⟨n + 1, true⟩ }) := by
  subst hn
  simp [settleExchange, parseResponse_busy hlen hst, concludeExchange, Nat.not_le.mpr hretry]

/-- A busy answer at DRV_RETRY_LIMIT: `Timeout(DRIVER_BUSY)` (R148). -/
theorem settleExchange_busyLimit (hn : s.ser.retry = n) (hlen : 12 ≤ rsp.length) (hst : le32At rsp 8 = 4#32)
    (hretry : s.cfg.retryLimit ≤ n + 1) :
    settleExchange (.buffer rsp reached) isRead v s =
      (.raised ⟨.timeout, 1#32, 0#32⟩, { s with ser := ⟨n + 1, false⟩ }) := by
  subst hn
  simp [settleExchange, parseResponse_busy hlen hst, concludeExchange, hretry, excDriverBusy]

/-- A failed exchange: `IoError(EXCHANGE_FAILED)` with its code (R149). -/
theorem settleExchange_failed (hn : s.ser.retry = n) (code : Word) :
    settleExchange (.failed code reached) isRead v s =
      (.raised ⟨.io, 1#32, code⟩, { s with ser := ⟨n, false⟩ }) := by
  subst hn; rfl

/-- A driver that performs a read hands back what the MAC gave (R96, R144). -/
theorem settleExchange_performs_read (hdr : BitVec 64) (v : Word) (s : State) :
    settleExchange (.performs hdr) true v s = (.value v, endOperation s) := by
  rw [settleExchange, parse_successResponse_read, concludeExchange]

theorem settleExchange_performs_write (hdr : BitVec 64) (v : Word) (s : State) :
    settleExchange (.performs hdr) false v s = (.value 0#32, endOperation s) := by
  rw [settleExchange, parse_successResponse_write, concludeExchange]

end

/-! ### Busy answers to the sequencer (R148) -/

/-- A busy answer has been taken: RETRY is counted, and the request is to be issued again (R148). -/
def busyTaken (rest : List DriverAnswer) (s : State) : State :=
  { answerTaken rest s with ser := ⟨busyAnswers s + 1, true⟩ }

/-- A busy answer below DRV_RETRY_LIMIT ends in the state `busyTaken`, the request not having been performed. -/
theorem exchange_again {isRead reached : Bool} {req rsp : List Byte} {rest : List DriverAnswer} {s : State}
    (hans : s.env.driverAnswers = .buffer rsp reached :: rest) (hlen : 12 ≤ rsp.length) (hst : le32At rsp 8 = 4#32)
    (hretry : busyAnswers s + 1 < s.cfg.retryLimit)
    (hreq : performRequest false req (answerTaken rest s) = .next (0#32, answerTaken rest s)) :
    exchange isRead req s = .next (.again, busyTaken rest s) := by
  have hlands : answerLands (.buffer rsp reached) isRead = false := by
    rw [answerLands, parseResponse_busy hlen hst, landed]
  rw [exchange_scripted hans, hlands, hreq, andThen_next]
  exact congrArg _ (settleExchange_again (s := answerTaken rest s) rfl hlen hst hretry)

theorem afterTransport_again {o : Result (Xfer × State)} {f : Word → State → State} {t : State}
    (h : o = .next (.again, t)) : afterTransport o f = .next t := by subst h; rfl

/-- Settles O21: `exchange_again` for the read or the write of the micro-operation, which goes on with nothing. -/
theorem busyAnswerRepeatsOperation : Obligations.BusyAnswerRepeatsOperation := by
  unfold Obligations.BusyAnswerRepeatsOperation
  intro i op s rsp reached rest hat hdriver hop hans hlen hst hretry
  obtain ⟨c, _, _, _, hexec⟩ := exec_atMicroOp hat
  have hread (a : RegAddr) : memRead a s = .next (.again, busyTaken rest s) := by
    simp only [memRead, hdriver]
    exact exchange_again hans hlen hst hretry (performRequest_read ..)
  have hwrite (a : RegAddr) (v : Word) : memWrite a v s = .next (.again, busyTaken rest s) := by
    simp only [memWrite, hdriver]
    refine exchange_again hans hlen hst hretry ?_
    rw [writeRequest, performRequest_write, macWriteIf_false, andThen_next]
  refine ⟨busyTaken rest s, hexec.trans ?_, rfl, rfl, ⟨rfl, rfl, rfl, rfl, rfl, rfl, rfl, rfl, rfl⟩, rfl⟩
  cases op with
  | validate => simp [readsRegister, writesRegister] at hop
  | poll => exact afterTransport_again (hread _)
  | wrData e => exact afterTransport_again (hwrite _ _)
  | wrAcc r rw => exact afterTransport_again (hwrite _ _)
  | rdData => exact afterTransport_again (hread _)
  | rdReg => exact afterTransport_again (hread _)
  | wrReg => exact afterTransport_again (hwrite _ _)
  | ret => simp [readsRegister, writesRegister] at hop

/-! ### A request buffer presented by itself (R142, R143; log 19) -/

/-- The outcome of an exchange goes back to the caller. -/
def handBack (p : Xfer × State) : State := { p.2 with env := { p.2.env with driverReturn := some p.1 } }

theorem handBack_outcome {p : Xfer × State} {s : State} {x : Xfer} {r : Ser} (h : p = (x, { s with ser := r })) :
    (handBack p).env.driverReturn = some x ∧ (handBack p).ser = r := by
  subst h; exact ⟨rfl, rfl⟩

/-- `t` is `s` after one exchange of a request presented by itself, `rest` being the answers left; what the exchange does to
the MAC, the wire and the EEPROM has led to `u`. -/
structure Exchanged (rest : List DriverAnswer) (s u t : State) : Prop where
  seq : t.seq = s.seq
  mac : t.mac = u.mac
  wire : t.wire = u.wire
  phys : t.phys = s.phys
  eeprom : t.eeprom = u.eeprom
  cfg : t.cfg = s.cfg
  driverAnswers : t.env.driverAnswers = rest
  port : t.env.port = s.env.port
  turns : t.env.turns = s.env.turns

/-- Settling an answer and handing its outcome back leaves what the exchange has done. -/
theorem handBack_exchanged {rest : List DriverAnswer} {s w : State} (ans : DriverAnswer) (isRead : Bool) (v : Word)
    (hout : SameOutside s w) (hseq : w.seq = s.seq) (hrest : w.env.driverAnswers = rest) :
    Exchanged rest s w (handBack (settleExchange ans isRead v w)) := by
  obtain ⟨hdev, hseq'⟩ := (settleExchange_spent ans isRead v w).1.device
  have henv := (settleExchange_env ans isRead v w).1
  exact {
    seq := hseq'.trans hseq, mac := hdev.mac, wire := hdev.wire, phys := hdev.phys.trans hout.phys
    eeprom := hdev.eeprom, cfg := hdev.cfg.trans hout.cfg
    driverAnswers := (congrArg Env.driverAnswers henv).trans hrest
    port := hdev.port.trans hout.port, turns := hdev.turns.trans hout.turns }

theorem driverOperation_accepted {isRead : Bool} {req : List Byte} {a : Word} {s : State} (ha : a.toNat < 0x1000) :
    driverOperation isRead req a s = andThen (exchange isRead req s) fun p => .next (handBack p) := by
  simp only [driverOperation, wellFormedAddr, regAddrBound_eq, ha, decide_true, if_true]
  rfl

/-- An address below the bound is read off its low 12 bits (R60). -/
theorem setWidth_eq_iff {a : Word} (ha : a.toNat < 0x1000) (k : RegAddr) : a.setWidth 12 = k ↔ a = k.setWidth 32 := by
  have hk := k.isLt
  simp only [← BitVec.toNat_inj, BitVec.toNat_setWidth]
  omega

/-! ### DRV_READ (R142) -/

/-- What the MAC makes of a read request: a register read, or nothing where it does not get through. -/
def requestRead (lands : Bool) (a : RegAddr) (s : State) : Word × State := if lands then macRead a s else (0#32, s)

/-- A read that does not get through, or of another register than that of the EPC commands, leaves the EEPROM. -/
theorem requestRead_eeprom {lands : Bool} {a : RegAddr} (s : State) (h : lands = false ∨ a ≠ 0x040#12) :
    (requestRead lands a s).2.eeprom = s.eeprom := by
  cases lands with
  | false => rfl
  | true =>
    rw [requestRead, if_pos rfl, macRead_state s (h.resolve_left (by decide))]
    rfl

theorem requestRead_looked (lands : Bool) (a : RegAddr) (s : State) : Looked s (requestRead lands a s).2 := by
  cases lands with
  | false => exact Looked.refl s
  | true => exact macRead_looked a s

section
variable {sel ifx a : Word} {s : State} {ans : DriverAnswer} {rest : List DriverAnswer}

/-- The state after DRV_READ with a scripted answer. -/
def drvReadState (ans : DriverAnswer) (rest : List DriverAnswer) (a : RegAddr) (s : State) : State :=
  let p := requestRead (answerLands ans true) a (answerTaken rest s)
  handBack (settleExchange ans true p.1 p.2)

theorem exec_drvRead (ha : a.toNat < 0x1000) (hans : s.env.driverAnswers = ans :: rest) :
    exec (.drvRead sel ifx a) s = .next (drvReadState ans rest (a.setWidth 12) s) := by
  show driverOperation true (drvReadBytes sel ifx a) a s = _
  rw [driverOperation_accepted ha, exchange_scripted hans, performRequest_read]
  rfl

/-- RETRY of the operation, whatever the read has done. -/
theorem requestRead_retry (lands : Bool) (a : RegAddr) :
    (requestRead lands a (answerTaken rest s)).2.ser.retry = busyAnswers s :=
  congrArg Ser.retry (requestRead_looked lands a (answerTaken rest s)).scripts.1

/-- DRV_READ touches the EEPROM alone of the device. -/
theorem drvReadState_exchanged (ans : DriverAnswer) (rest : List DriverAnswer) (a : RegAddr) (s : State) :
    Exchanged rest s { s with eeprom := (requestRead (answerLands ans true) a (answerTaken rest s)).2.eeprom }
      (drvReadState ans rest a s) := by
  have hlook := requestRead_looked (answerLands ans true) a (answerTaken rest s)
  obtain ⟨hout, hseq, hmac, hwire⟩ := hlook.touched.outside
  have h := handBack_exchanged ans true (requestRead (answerLands ans true) a (answerTaken rest s)).1
    (SameOutside.trans (a := s) (b := answerTaken rest s) ⟨rfl, rfl, rfl, rfl, rfl, rfl⟩ hout) hseq hlook.scripts.2.2
  exact { h with mac := h.mac.trans hmac, wire := h.wire.trans hwire }

end

/-- Settles O22: the state after the exchange is `drvReadState`; each clause is the settling of its response. -/
theorem drvReadParsesResponse : Obligations.DrvReadParsesResponse := by
  unfold Obligations.DrvReadParsesResponse
  intro sel ifx a s reached rest ha
  refine ⟨fun rsp hans => ?_, fun code hans => ?_⟩
  · have h := drvReadState_exchanged (.buffer rsp reached) rest (a.setWidth 12) s
    have hn := requestRead_retry (s := s) (rest := rest) (answerLands (.buffer rsp reached) true) (a.setWidth 12)
    have hcfg := (requestRead_looked (answerLands (.buffer rsp reached) true) (a.setWidth 12)
      (answerTaken rest s)).touched.outside.1.cfg
    refine ⟨_, exec_drvRead ha hans, h.seq, h.mac, h.wire, h.phys, fun hno => ?_, h.cfg, h.driverAnswers, h.port, h.turns,
      fun hlen => handBack_outcome (settleExchange_short hn hlen),
      fun hlen hst hretry => handBack_outcome (settleExchange_again hn hlen hst (hcfg ▸ hretry)),
      fun hlen hst hretry => handBack_outcome (settleExchange_busyLimit hn hlen hst (hcfg ▸ hretry)),
      fun hlen hbusy hok => handBack_outcome (settleExchange_status hn hlen hbusy hok),
      fun hlen hok => handBack_outcome (settleExchange_ok_read hn hlen hok),
      fun hlen hexact hok => handBack_outcome (settleExchange_ok_length hn hlen hexact hok)⟩
    refine h.eeprom.trans (requestRead_eeprom _ ?_)
    rcases hno with hother | hno
    · exact .inr (mt (setWidth_eq_iff ha _).mp hother)
    · exact .inl (answerLands_read_buffer reached hno)
  · have h := drvReadState_exchanged (.failed code reached) rest (a.setWidth 12) s
    have hlands : answerLands (.failed code reached) true = false := Bool.and_false reached
    have heeprom := h.eeprom.trans (requestRead_eeprom _ (.inl hlands))
    exact ⟨_, exec_drvRead ha hans, h.seq, h.mac, h.wire, h.phys, heeprom, h.cfg, h.driverAnswers, h.port, h.turns,
      handBack_outcome (settleExchange_failed (requestRead_retry _ _) code)⟩

/-- A read of MII_DATA as stored gives all 32 bits (R222). -/
theorem macRead_stored {s : State} (hfree : s.mac.eng = .free) (hwindow : s.mac.dataWindow = .stored) :
    (macRead 0x124#12 s).1 = s.mac.miiData := by
  simp [macRead, dataReadWord, hfree, engBusy, hwindow]

/-- A read of a register other than the two MII registers and the two EPC registers is a draw (R28, log 23). -/
theorem macRead_other {a : RegAddr} (s : State) (h1 : a ≠ 0x120#12) (h2 : a ≠ 0x124#12) (h3 : a ≠ 0x040#12)
    (h4 : a ≠ 0x044#12) :
    (macRead a s).1 = Config.freeMacRegister s.env.tick a (Memory.read s.mac.regs a.toNat) := by
  simp [macRead, h1, h2, h3, h4]

/-- Settles O24: the driver performs the register read of the MAC, whose value is handed back. -/
theorem drvReadReturnsRegister : Obligations.DrvReadReturnsRegister := by
  unfold Obligations.DrvReadReturnsRegister
  intro sel ifx a s hdr rest ha hans
  have h := drvReadState_exchanged (.performs hdr) rest (a.setWidth 12) s
  have hsettle := settleExchange_performs_read hdr (macRead (a.setWidth 12) (answerTaken rest s)).1
    (macRead (a.setWidth 12) (answerTaken rest s)).2
  obtain ⟨hreturn, hser⟩ := handBack_outcome hsettle
  refine ⟨_, (macRead (a.setWidth 12) (answerTaken rest s)).1, exec_drvRead ha hans, hreturn, ?_, ?_, ?_, ?_, ?_,
    fun hne => ?_, fun h1 h2 h3 h4 => ?_, h.seq, congrArg Ser.pending hser, h.mac, h.wire, h.phys, h.cfg, h.port, h.turns⟩
  · rintro rfl
    exact macRead_busy (answerTaken rest s)
  · rintro rfl hfree hwindow
    exact macRead_stored (s := answerTaken rest s) hfree hwindow
  · rintro rfl hfree hwindow
    exact macRead_datum (answerTaken rest s) hfree hwindow
  · rintro rfl
    rw [h.eeprom]
    exact macRead_epcBusy (answerTaken rest s)
  · rintro rfl hidle
    exact macRead_epcData (s := answerTaken rest s) hidle
  · exact h.eeprom.trans (requestRead_eeprom _ (.inr (mt (setWidth_eq_iff ha _).mp hne)))
  · have hlow : (a.setWidth 12).toNat = a.toNat := by rw [BitVec.toNat_setWidth]; omega
    have hvalue := macRead_other (answerTaken rest s) (mt (setWidth_eq_iff ha _).mp h1) (mt (setWidth_eq_iff ha _).mp h2)
      (mt (setWidth_eq_iff ha _).mp h3) (mt (setWidth_eq_iff ha _).mp h4)
    rwa [hlow] at hvalue

/-! ### DRV_WRITE (R143) -/

/-- The register write of the MAC is the same whatever the driver has answered so far. -/
theorem macWriteIf_answerTaken (yes : Bool) (a : RegAddr) (v : Word) (rest : List DriverAnswer) (s : State) :
    macWriteIf yes a v (answerTaken rest s) = andThen (macWriteIf yes a v s) fun u => .next (answerTaken rest u) := by
  cases yes with
  | false => rw [macWriteIf_false, macWriteIf_false, andThen_next]
  | true =>
    have hscript := macWrite_scripts a v s ⟨busyAnswers s, s.ser.pending⟩ s.env.usbAnswers rest
    have hself := macWrite_scripts a v s s.ser s.env.usbAnswers s.env.driverAnswers
    refine hscript.trans ?_
    rw [← macWrite]
    cases hw : macWrite a v s with
    | fault r => rfl
    | refused r => rfl
    | next u =>
      rw [hw, andThen_next] at hself
      have hu := Host.Outcome.next.inj hself
      obtain ⟨_, _, hser⟩ := macWriteIf_frame hw
      have husb : u.env.usbAnswers = s.env.usbAnswers := congrArg (·.env.usbAnswers) hu
      simp only [andThen_next, answerTaken, busyAnswers, hser, ← husb]

section
variable {sel ifx a v : Word} {s u : State} {ans : DriverAnswer} {rest : List DriverAnswer}

/-- The state after DRV_WRITE with a scripted answer, `u` being what the register write has led to. -/
def drvWriteState (ans : DriverAnswer) (rest : List DriverAnswer) (u : State) : State :=
  handBack (settleExchange ans false 0#32 (answerTaken rest u))

theorem exec_drvWrite (ha : a.toNat < 0x1000) (hans : s.env.driverAnswers = ans :: rest) :
    exec (.drvWrite sel ifx a v) s = andThen (macWriteIf (answerLands ans false) (a.setWidth 12) v s)
      fun u => .next (drvWriteState ans rest u) := by
  show driverOperation false (drvWriteBytes sel ifx a v) a s = _
  rw [driverOperation_accepted ha, exchange_scripted hans, performRequest_write, macWriteIf_answerTaken]
  cases macWriteIf (answerLands ans false) (a.setWidth 12) v s <;> rfl

/-- DRV_WRITE does to the device what its register write does. -/
theorem drvWriteState_exchanged {yes : Bool} {a : RegAddr} (ans : DriverAnswer) (rest : List DriverAnswer)
    (hw : macWriteIf yes a v s = .next u) : Exchanged rest s u (drvWriteState ans rest u) := by
  obtain ⟨hout, hseq, _⟩ := macWriteIf_frame hw
  have h := handBack_exchanged (w := answerTaken rest u) ans false 0#32
    (hout.trans ⟨rfl, rfl, rfl, rfl, rfl, rfl⟩) hseq rfl
  exact { h with mac := h.mac, wire := h.wire, eeprom := h.eeprom }

/-- RETRY of the operation, whatever the write has done. -/
theorem answerTaken_retry {yes : Bool} {a : RegAddr} (hw : macWriteIf yes a v s = .next u) :
    (answerTaken rest u).ser.retry = busyAnswers s := by
  obtain ⟨_, _, hser⟩ := macWriteIf_frame hw
  simp only [answerTaken, busyAnswers, hser]

/-- The register write of a request, as the answer lets it through or not. -/
theorem macWriteIf_of_ite {yes : Bool} {a : RegAddr} (h : if yes then macWrite a v s = .next u else u = s) :
    macWriteIf yes a v s = .next u := by
  cases yes with
  | true => exact h
  | false => rw [macWriteIf_false, show u = s from h]

end

/-- Settles O23: the register write that the answer lets through leads to `u`; each clause is the settling of its
response. -/
theorem drvWriteParsesResponse : Obligations.DrvWriteParsesResponse := by
  unfold Obligations.DrvWriteParsesResponse
  intro sel ifx a v s u reached rest ha
  refine ⟨fun rsp hans hu => ?_, fun code hans hu => ?_⟩
  · have hw := macWriteIf_of_ite (answerLands_write rsp reached ▸ hu)
    have h := drvWriteState_exchanged (.buffer rsp reached) rest hw
    have hn := answerTaken_retry (rest := rest) hw
    obtain ⟨hout, -, -⟩ := macWriteIf_frame hw
    have hcfg : (answerTaken rest u).cfg = s.cfg := hout.cfg
    exact ⟨_, by rw [exec_drvWrite ha hans, hw, andThen_next], h.seq, h.mac, h.wire, h.phys, h.eeprom, h.cfg,
      h.driverAnswers, h.port, h.turns,
      fun hlen => handBack_outcome (settleExchange_short hn hlen),
      fun hlen hst hretry => handBack_outcome (settleExchange_again hn hlen hst (hcfg ▸ hretry)),
      fun hlen hst hretry => handBack_outcome (settleExchange_busyLimit hn hlen hst (hcfg ▸ hretry)),
      fun hlen hbusy hok => handBack_outcome (settleExchange_status hn hlen hbusy hok),
      fun hlen hok => handBack_outcome (settleExchange_ok_write hn hlen hok),
      fun hlen hok => handBack_outcome (settleExchange_ok_length hn hlen.le hlen.ne' hok)⟩
  · have hlands : answerLands (.failed code reached) false = reached := Bool.and_true reached
    have hw := macWriteIf_of_ite (hlands.symm ▸ hu)
    have h := drvWriteState_exchanged (.failed code reached) rest hw
    have hn := answerTaken_retry (rest := rest) hw
    exact ⟨_, by rw [exec_drvWrite ha hans, hw, andThen_next], h.seq, h.mac, h.wire, h.phys, h.eeprom, h.cfg,
      h.driverAnswers, h.port, h.turns, handBack_outcome (settleExchange_failed hn code)⟩

/-- A write that the driver performs (R143, R144): the register write, once, and its outcome handed back. -/
theorem drvWrite_performed {sel ifx a v : Word} {s u : State} {hdr : BitVec 64} {rest : List DriverAnswer}
    (ha : a.toNat < 0x1000) (hans : s.env.driverAnswers = .performs hdr :: rest)
    (hw : macWrite (a.setWidth 12) v s = .next u) :
    ∃ t, exec (.drvWrite sel ifx a v) s = .next t ∧ t.env.driverReturn = some (.value 0#32) ∧ t.ser.pending = false ∧
      Exchanged rest s u t := by
  obtain ⟨hreturn, hser⟩ := handBack_outcome (settleExchange_performs_write hdr 0#32 (answerTaken rest u))
  refine ⟨drvWriteState (.performs hdr) rest u, ?_, hreturn, congrArg Ser.pending hser, drvWriteState_exchanged _ rest hw⟩
  rw [exec_drvWrite ha hans, answerLands, ← macWrite, hw, andThen_next]

/-- A register write to a register that neither launches nor submits a command: MII_DATA on a free engine, the EPC-data
register, or one that records the value (R28, R222, R280). -/
theorem macWrite_stores {a : Word} (v : Word) {s : State} (ha : a.toNat < 0x1000) (hacc : a ≠ 0x120#32)
    (hcmd : a ≠ 0x040#32) (hfree : a = 0x124#32 → s.mac.eng = .free) :
    ∃ u, macWrite (a.setWidth 12) v s = .next u ∧ u.wire = s.wire ∧
      (a = 0x124#32 → u.mac = { s.mac with miiData := v, dataWindow := .stored }) ∧
      (a = 0x044#32 → u.mac = s.mac ∧ u.eeprom = { s.eeprom with data := v.setWidth 8 }) ∧
      (a ≠ 0x044#32 → u.eeprom = s.eeprom) ∧
      (a ≠ 0x124#32 → a ≠ 0x044#32 → u.mac = { s.mac with regs := Memory.write s.mac.regs a.toNat v }) := by
  by_cases hdata : a = 0x124#32
  · subst hdata
    exact ⟨_, macWrite_data v (hfree rfl), rfl, fun _ => rfl, fun h => absurd h (by decide), fun _ => rfl,
      fun h => absurd rfl h⟩
  by_cases hbyte : a = 0x044#32
  · subst hbyte
    exact ⟨_, macWrite_epcData v s, rfl, fun h => absurd h (by decide), fun _ => ⟨rfl, rfl⟩, fun h => absurd rfl h,
      fun _ h => absurd rfl h⟩
  · have hlow : (a.setWidth 12).toNat = a.toNat := by rw [BitVec.toNat_setWidth]; omega
    have hw := macWrite_other v s (mt (setWidth_eq_iff ha _).mp hacc) (mt (setWidth_eq_iff ha _).mp hdata)
      (mt (setWidth_eq_iff ha _).mp hcmd) (mt (setWidth_eq_iff ha _).mp hbyte)
    exact ⟨_, hw, rfl, (absurd · hdata), (absurd · hbyte), fun _ => rfl, fun _ _ => by rw [hlow]⟩

/-- An access word of a legal configuration has BUSY set (R29, R92). -/
theorem accWord_busy {c : Config} (hc : c.wf) (p r : Field5) (rw : Rw) :
    (accWord p r (opcodeOf c rw)).getLsbD 0 = true := by
  obtain ⟨hread, hwrite, _⟩ := hc
  cases rw <;> simp [accWord, opcodeOf, hread, hwrite]

/-- Settles O25: the driver performs the register write of the MAC, by the register: one that stores, MII_ACC, or that of
the EPC commands. -/
theorem drvWriteWritesRegister : Obligations.DrvWriteWritesRegister := by
  unfold Obligations.DrvWriteWritesRegister
  intro sel ifx a v s hdr rest ha hans
  refine ⟨fun hacc hcmd hfree => ?stores, fun p r rw haddr hfree hc hv => ?launches, fun haddr => ⟨fun hword => ?refused,
    fun op hword => ?submits⟩⟩
  case stores =>
    obtain ⟨u, hw, hwire, hdata, hbyte, heeprom, hregs⟩ := macWrite_stores v ha hacc hcmd hfree
    obtain ⟨t, hexec, hreturn, hpending, h⟩ := drvWrite_performed (sel := sel) (ifx := ifx) ha hans hw
    simp only [← h.mac, ← h.eeprom] at hdata hbyte heeprom hregs
    refine ⟨t, hexec, hreturn, hdata, hbyte, heeprom, fun h1 h2 => ?_, h.seq, hpending, h.wire.trans hwire, h.phys, h.cfg,
      h.port, h.turns⟩
    rw [hregs h1 h2]
    exact ⟨rfl, memory_read_write_same _ _ _, fun b hb => memory_read_write_other _ _ _ _ hb⟩
  case launches =>
    subst haddr hv
    obtain ⟨d, hw, hd⟩ := macWrite_access hc hfree p r rw
    obtain ⟨t, hexec, hreturn, hpending, h⟩ := drvWrite_performed (sel := sel) (ifx := ifx) ha hans hw
    have hmac := h.mac
    exact ⟨t, d, hexec, hreturn, by rw [hmac]; rfl, hd, by rw [hmac]; rfl, by rw [hmac]; exact accWord_busy hc p r rw,
      by rw [hmac]; rfl, by rw [hmac]; rfl, h.seq, hpending, h.phys, h.eeprom, h.cfg, h.port, h.turns⟩
  case refused =>
    subst haddr
    rw [exec_drvWrite ha hans]
    exact congrArg (andThen · _) (epcCommandWrite_reserved hword)
  case submits =>
    subst haddr
    obtain ⟨o, hw, hnew, hor⟩ := epcCommandWrite_legal hword
    obtain ⟨t, hexec, hreturn, hpending, h⟩ := drvWrite_performed (sel := sel) (ifx := ifx) ha hans hw
    have ho : t.eeprom.inProgress = o := congrArg Eeprom.inProgress h.eeprom
    exact ⟨t, hexec, hreturn, ho ▸ h.eeprom, ho ▸ hnew, ho ▸ hor, h.seq, hpending, h.mac, h.wire, h.phys, h.cfg, h.port,
      h.turns⟩

end Sys2Proof.Proofs

/-! PROOFS. The micro-operations VALIDATE, POLL, WRDATA and RET of the six commands (42_mdio_c22.md R172, R174, R175, R178),
wherever in a micro-program one of them stands. -/

namespace Sys2Proof.Proofs

open Sys2Proof.Machine

/-! ### The running command -/

/-- A command's decoded instruction carries the operand latches (R22, R23). -/
theorem runningInstr_cases {i : Instr} {c : Command} {s : State} (hc : commandOf s.seq.cmd = some c)
    (hi : runningInstr s = .ok i) :
    (c = regReadCommand ∧ i = .regRead s.seq.opa) ∨
    (c = regWriteCommand ∧ i = .regWrite s.seq.opa s.seq.opb) ∨
    (c = c22ReadCommand ∧ i = .c22Read s.seq.opa s.seq.opb) ∨
    (c = c22WriteCommand ∧ i = .c22Write s.seq.opa s.seq.opb s.seq.opc) ∨
    (c = c45ReadCommand ∧ i = .c45Read s.seq.opa s.seq.opb s.seq.opc) ∨
    (c = c45WriteCommand ∧ i = .c45Write s.seq.opa s.seq.opb s.seq.opc s.seq.opd) := by
  rcases commandOf_cases hc with ⟨hw, rfl⟩ | ⟨hw, rfl⟩ | ⟨hw, rfl⟩ | ⟨hw, rfl⟩ | ⟨hw, rfl⟩ | ⟨hw, rfl⟩ <;>
    simp [runningInstr, latchedFrame, decodeCmd, hw] at hi <;> simp [← hi]

/-- A Transport that performs its next operation performs a row of one (R120, R126). -/
theorem transportPerformsNext_one {s : State} (h : transportPerforms s = true) : transportPerformsNext 1 s := by
  cases hk : s.cfg.transport with
  | usb =>
    obtain ⟨rest, hs⟩ := transportPerforms_usb h hk
    simp only [transportPerformsNext, hk]
    exact ⟨rest, hs⟩
  | driver =>
    obtain ⟨hdr, rest, hs⟩ := transportPerforms_driver h hk
    simp only [transportPerformsNext, hk]
    exact ⟨[hdr], rest, rfl, hs⟩

/-! ### VALIDATE (R172) -/

/-- The exception of a failing check, made of its sub-cause and the operand (R301, R302). -/
def validationExc (p : Word × Word) : Exc := ⟨.validation, p.1, p.2⟩

/-- A command's own checks, made on the latches, fail first where its instruction's operands do (R122, R123, R172). -/
theorem firstFailure_eq_operandFailure {i : Instr} {c : Command} {s : State} (hc : commandOf s.seq.cmd = some c)
    (hi : runningInstr s = .ok i) : firstFailure s.seq c.checks = (operandFailure i).map validationExc := by
  have hpass : firstFailure s.seq [] = none := rfl
  rcases runningInstr_cases hc hi with
    ⟨rfl, rfl⟩ | ⟨rfl, rfl⟩ | ⟨rfl, rfl⟩ | ⟨rfl, rfl⟩ | ⟨rfl, rfl⟩ | ⟨rfl, rfl⟩
  · simp only [regReadCommand, firstFailure_regAddr, hpass, readLatch, operandFailure]
    split_ifs <;> rfl
  · simp only [regWriteCommand, firstFailure_regAddr, hpass, readLatch, operandFailure]
    split_ifs <;> rfl
  · simp only [c22ReadCommand, firstFailure_phyAddr, firstFailure_regIndex, hpass, readLatch, operandFailure]
    split_ifs <;> rfl
  · simp only [c22WriteCommand, firstFailure_phyAddr, firstFailure_regIndex, firstFailure_data, hpass, readLatch,
      operandFailure]
    split_ifs <;> rfl
  · simp only [c45ReadCommand, firstFailure_phyAddr, firstFailure_devad, firstFailure_c45Index, hpass, readLatch,
      operandFailure]
    split_ifs <;> rfl
  · simp only [c45WriteCommand, firstFailure_phyAddr, firstFailure_devad, firstFailure_c45Index, firstFailure_data, hpass,
      readLatch, operandFailure]
    split_ifs <;> rfl

theorem microValidate_fails {cs : Checks} {e : Exc} {s : State} (h : firstFailure s.seq cs = some e) :
    microValidate cs s = raise e s := by
  rw [microValidate, h]

theorem microValidate_passes {cs : Checks} {s : State} (h : firstFailure s.seq cs = none) :
    microValidate cs s = nextMicroOp s := by
  rw [microValidate, h]

/-- Settles O11: the checks of the latches report what the operands of the instruction fail by, and VALIDATE raises that
exception or goes on; neither touches anything but the sequencer and the serializer's flag. -/
theorem validateReportsFirstFailure : Obligations.ValidateReportsFirstFailure := by
  unfold Obligations.ValidateReportsFirstFailure
  intro i s hat
  obtain ⟨c, _, hc, _, hexec⟩ := exec_atMicroOp hat
  have hchecks := firstFailure_eq_operandFailure hc hat.latched
  cases hfail : operandFailure i with
  | none =>
    rw [hfail] at hchecks
    exact ⟨nextMicroOp s, hexec.trans (congrArg _ (microValidate_passes hchecks)),
      ⟨rfl, rfl, rfl, rfl, rfl, rfl, rfl, rfl, rfl⟩, rfl, rfl, rfl⟩
  | some p =>
    rw [hfail] at hchecks
    exact ⟨raise (validationExc p) s, hexec.trans (congrArg _ (microValidate_fails hchecks)),
      ⟨rfl, rfl, rfl, rfl, rfl, rfl, rfl, rfl, rfl⟩, rfl, rfl, rfl⟩

/-! ### POLL (R174) -/

/-- A POLL iteration that reads BUSY 1 and reaches POLL_LIMIT raises Timeout(MII_BUSY). -/
theorem pollIteration_limit {v : Word} {n : Nat} {s : State} (h : pollBit v = true) (hl : s.cfg.pollLimit = some n)
    (hn : n ≤ s.seq.pollCnt + 1) :
    pollIteration v s =
      raise (excMiiBusy s.seq.upc) { s with seq := { s.seq with pollCnt := s.seq.pollCnt + 1 } } := by
  simp only [pollIteration, h, hl, hn, if_true]

/-- The end of a POLL iteration changes the sequencer and the serializer alone. -/
theorem pollIteration_frame (v : Word) (s : State) :
    ∃ q r, pollIteration v s = { s with seq := q, ser := r } := by
  simp only [pollIteration]
  repeat' split
  all_goals exact ⟨_, _, rfl⟩

theorem sameDevice_pollIteration {s t : State} (h : SameDevice s t) (v : Word) : SameDevice s (pollIteration v t) := by
  obtain ⟨q, r, hpoll⟩ := pollIteration_frame v t
  rw [hpoll]
  exact { h with }

theorem engBusy_of_ne_free {e : Eng} (h : e ≠ .free) : engBusy e = true := by
  cases e with
  | free => exact absurd rfl h
  | inflight => rfl

/-- Settles O12: the bit that POLL looks at is whether ENG is free, and each outcome of an iteration is one of its three
equations. -/
theorem pollWaitsForFreeEngine : Obligations.PollWaitsForFreeEngine := by
  unfold Obligations.PollWaitsForFreeEngine
  intro i s hat hperforms
  obtain ⟨c, _, _, _, hexec⟩ := exec_atMicroOp hat
  obtain ⟨v, t, hpoll, hbit, hspent, _⟩ := execMicroOp_poll c (transportPerformsNext_one hperforms)
  obtain ⟨hdevice, hseq⟩ := hspent.device
  refine ⟨pollIteration v t, hexec.trans hpoll, sameDevice_pollIteration hdevice v, fun hfree => ?free,
    fun hbusy hbelow => ?repeats, fun hbusy ⟨n, hlimit, hreached⟩ => ?raises⟩
  case free =>
    rw [hfree] at hbit
    rw [pollIteration_free hbit, ← hseq]
    rfl
  case repeats =>
    have hallowed : pollsAllowed (t.seq.pollCnt + 1) t := by rwa [pollsAllowed, hdevice.cfg, hseq]
    rw [pollIteration_busy (hbit.trans (engBusy_of_ne_free hbusy)) hallowed, ← hseq]
  case raises =>
    rw [pollIteration_limit (hbit.trans (engBusy_of_ne_free hbusy)) (hdevice.cfg ▸ hlimit) (hseq ▸ hreached), ← hseq]
    rfl

/-! ### WRDATA (R175) -/

/-- Settles O13: the write of `execMicroOp_wrData` is the whole change, but for what the Transport spends and UPC. -/
theorem wrDataStoresDatum : Obligations.WrDataStoresDatum := by
  unfold Obligations.WrDataStoresDatum
  intro i e s hat hperforms hfree
  obtain ⟨c, _, _, _, hexec⟩ := exec_atMicroOp hat
  obtain ⟨t, hwrite, _, hspent⟩ := execMicroOp_wrData c e (transportPerformsNext_one hperforms) hfree
  obtain ⟨hdevice, hseq⟩ := hspent.device
  have hnext : (nextMicroOp t).seq = { s.seq with upc := s.seq.upc + 1#5 } :=
    congrArg (fun q : Seq => { q with upc := q.upc + 1#5 }) hseq
  exact ⟨nextMicroOp t, hexec.trans hwrite,
    ⟨hdevice.phys, hdevice.eeprom, hdevice.cfg, hdevice.port, hdevice.turns, hdevice.driverReturn, hdevice.epcPhase⟩,
    hdevice.wire, hnext, hdevice.mac⟩

/-! ### RET (R178) -/

/-- The commands whose RET clears RES are the writes. -/
theorem clearsRes_eq_isWriteCommand {i : Instr} {c : Command} (h : commandOfInstr i = some c) :
    c.clearsRes = isWriteCommand i := by
  cases i <;> simp only [commandOfInstr, Option.some.injEq, reduceCtorEq] at h <;> subst h <;> rfl

/-- Every micro-program ends in RET (R25). -/
theorem program_getLast {w : Word} {c : Command} (h : commandOf w = some c) : c.program.getLast? = some .ret := by
  rcases commandOf_cases h with ⟨_, rfl⟩ | ⟨_, rfl⟩ | ⟨_, rfl⟩ | ⟨_, rfl⟩ | ⟨_, rfl⟩ | ⟨_, rfl⟩ <;> rfl

/-- Settles O19: RET is `commandReturn`, which clears RES for the commands that write. -/
theorem returnEndsCommand : Obligations.ReturnEndsCommand := by
  unfold Obligations.ReturnEndsCommand
  refine ⟨fun i s hat => ?_, fun i c hi => program_getLast (commandOf_code hi)⟩
  obtain ⟨c, hi, _, _, hexec⟩ := exec_atMicroOp hat
  rw [hexec, ← clearsRes_eq_isWriteCommand hi]
  rfl

end Sys2Proof.Proofs

/-! PROOFS. C45_WRITE and C45_READ as whole commands (43_mdio_c45.md R200 to R210): what the three address steps leave
in the PHY, the run of either command from the port to RET, and the round trip of a datum. -/

namespace Sys2Proof.Proofs

open Sys2Proof.Machine

/-! ### The PHY under an address-select word (R94, R242 to R245) -/

/-- The fields of an address-select word read back, and no reserved bit is set (R94). -/
theorem mmdWord_fields (b : Bool) (e : Field5) :
    mmdReserved (mmdWord b e) = false ∧ mmdMode (mmdWord b e) = b ∧ mmdDevad (mmdWord b e) = e := by
  revert b e; decide

/-- `f` after the address-select word of mode `b` and device `e` has been written to index 0xD of PHY `p`. -/
def selecting (f : Phys) (p : Field5) (b : Bool) (e : Field5) : Phys := setC22 f p mmdCtrlIdx (mmdWord b e)

theorem mmdCtlAt_selecting (f : Phys) (p : Field5) (b : Bool) (e : Field5) :
    mmdCtlAt (selecting f p b e) p = mmdWord b e :=
  c22At_setC22_same _ _ _ _

@[simp] theorem mmdAddrAt_selecting (f : Phys) (p : Field5) (b : Bool) (e q e' : Field5) :
    mmdAddrAt (selecting f p b e) q e' = mmdAddrAt f q e' := rfl

@[simp] theorem c45At_selecting (f : Phys) (p : Field5) (b : Bool) (e q e' : Field5) (y : Half) :
    c45At (selecting f p b e) q e' y = c45At f q e' y := rfl

theorem selectReserved_selecting (f : Phys) (p : Field5) (b : Bool) (e : Field5) :
    selectReserved (selecting f p b e) p = false := by
  simp only [selectReserved, selecting, setC22, memory_read_write_same]
  exact (mmdWord_fields b e).1

/-- A select word written to index 0xD of a present PHY (R244). -/
theorem phyWriteRegs_select {present : List Field5} {p : Field5} (hp : p ∈ present) (f : Phys) (b : Bool) (e : Field5) :
    phyWriteRegs present f p mmdCtrlIdx (mmdWord b e) = .next (selecting f p b e) := by
  rw [phyWriteRegs, if_neg (by decide), if_pos hp, selecting]

/-- Index 0xE written in address mode is MMDADDR of the selected device (R245). -/
theorem phyWriteRegs_addressMode {present : List Field5} {p : Field5} (hp : p ∈ present) (f : Phys) (e : Field5)
    (y : Half) :
    phyWriteRegs present (selecting f p false e) p mmdDataIdx y = .next (setMmdAddr (selecting f p false e) p e y) := by
  obtain ⟨_, hmode, hdevad⟩ := mmdWord_fields false e
  simp [phyWriteRegs, hp, selectReserved_selecting, mmdDataWrite, selectedDevice, mmdCtlAt_selecting, hmode, hdevad]

/-- Index 0xE written in data mode is the Clause-45 register at MMDADDR of the selected device (R245). -/
theorem phyWriteRegs_dataMode {present : List Field5} {p : Field5} (hp : p ∈ present) (f : Phys) (e : Field5)
    (v : Half) :
    phyWriteRegs present (selecting f p true e) p mmdDataIdx v =
      .next (setC45 (selecting f p true e) p e (mmdAddrAt f p e) v) := by
  obtain ⟨_, hmode, hdevad⟩ := mmdWord_fields true e
  simp [phyWriteRegs, hp, selectReserved_selecting, mmdDataWrite, selectedDevice, mmdCtlAt_selecting, hmode, hdevad]

/-- Index 0xE read in data mode is the Clause-45 register at MMDADDR of the selected device (R245). -/
theorem mmdDataRead_dataMode (f : Phys) (p e : Field5) :
    mmdDataRead (selecting f p true e) p = c45At f p e (mmdAddrAt f p e) := by
  obtain ⟨_, hmode, hdevad⟩ := mmdWord_fields true e
  simp [mmdDataRead, selectedDevice, mmdCtlAt_selecting, hmode, hdevad]

/-- A device operand, as WRDATA writes it to 0xD, is the select word of that device (R94, R175, R200). -/
theorem device_mmdWord {v : Word} (hv : v.toNat < 32) (b : Bool) :
    v.setWidth 16 ||| (if b then mmdDataMode else 0#16) = mmdWord b (v.setWidth 5) := by
  have hwidth : (v.setWidth 5).setWidth 16 = v.setWidth 16 :=
    BitVec.eq_of_toNat_eq (by simp only [BitVec.toNat_setWidth]; omega)
  rw [mmdWord, hwidth, BitVec.or_comm]

/-! ### The three address steps (R200 to R203) -/

/-- `f` after the address steps to register `y` of device `e` of PHY `p`: the state of the indirection registers that
R210 gives. -/
def addressed (f : Phys) (p e : Field5) (y : Half) : Phys :=
  selecting (setMmdAddr (selecting f p false e) p e y) p true e

theorem mmdCtlAt_addressed (f : Phys) (p e : Field5) (y : Half) :
    mmdCtlAt (addressed f p e y) p = mmdWord true e :=
  mmdCtlAt_selecting _ _ _ _

theorem mmdAddrAt_addressed (f : Phys) (p e : Field5) (y : Half) : mmdAddrAt (addressed f p e y) p e = y := by
  rw [addressed, mmdAddrAt_selecting, mmdAddrAt_setMmdAddr_same]

/-- Addressing a Clause-45 register changes none (R209). -/
@[simp] theorem c45At_addressed (f : Phys) (p e : Field5) (y : Half) (q e' : Field5) (y' : Half) :
    c45At (addressed f p e y) q e' y' = c45At f q e' y' := rfl

/-- Once a register has been addressed, index 0xE written is that register (R206). -/
theorem phyWriteRegs_addressed {present : List Field5} {p : Field5} (hp : p ∈ present) (f : Phys) (e : Field5)
    (y v : Half) :
    phyWriteRegs present (addressed f p e y) p mmdDataIdx v = .next (setC45 (addressed f p e y) p e y v) := by
  rw [addressed, phyWriteRegs_dataMode hp, mmdAddrAt_setMmdAddr_same]

/-- Once a register has been addressed, index 0xE read is that register (R205). -/
theorem mmdDataRead_addressed (f : Phys) (p e : Field5) (y : Half) :
    mmdDataRead (addressed f p e y) p = c45At f p e y := by
  rw [addressed, mmdDataRead_dataMode, mmdAddrAt_setMmdAddr_same, c45At_setMmdAddr, c45At_selecting]

/-- The turns of a Clause-22 write of a command, whose completion falls after k reads of BUSY by the closing POLL. -/
def writeTurns (k : Nat) (ts : List Agent) : List Agent := sequencerTurns (3 + k) ++ .engine :: .sequencer :: ts

section

variable {c : Command} {s0 s : State} {q : Seq} {ops : List MicroOp} {m : Mac} {f : Phys} {ts : List Agent} {n : Nat}

/-- The three address steps, their completions anywhere POLL_LIMIT allows: the PHY addresses the register that the
operands name. -/
theorem Shows.addressSteps {k1 k2 k3 : Nat}
    (h : Shows c s0 ⟨q, addressSteps ++ ops, m, f, writeTurns k1 (writeTurns k2 (writeTurns k3 ts)),
      n + (12 + (k1 + k2 + k3))⟩ s)
    (hf : m.eng = .free) (hc : s0.cfg.wf) (hpins : s0.cfg.pins = false) (hl : ∀ k ∈ [k1, k2, k3], pollsAllowed k s0)
    (hp : q.opa.setWidth 5 ∈ s0.cfg.phyPresent) (hv : q.opb.toNat < 32) :
    ∃ t m', Reaches (15 + (k1 + k2 + k3)) s t ∧
      Shows c s0 ⟨{ q with pollCnt := 0 }, ops, m',
        addressed f (q.opa.setWidth 5) (q.opb.setWidth 5) (q.opc.setWidth 16), ts, n⟩ t ∧
      m'.eng = .free ∧ m'.regs = m.regs := by
  have hdevice (b : Bool) : datumValue q ⟨.opb, b⟩ = mmdWord b (q.opb.setWidth 5) := device_mmdWord hv b
  have hindex : datumValue q ⟨.opc, false⟩ = q.opc.setWidth 16 := BitVec.or_zero
  rw [show n + (12 + (k1 + k2 + k3)) = n + (4 + k3) + (4 + k2) + (4 + k1) by omega] at h
  obtain ⟨s1, m1, r1, h1, hfree1, hregs1⟩ := h.writeTransaction hf hc hpins (hl k1 (by simp))
    ((congrArg _ (hdevice false)).trans (phyWriteRegs_select hp _ _ _))
  obtain ⟨s2, m2, r2, h2, hfree2, hregs2⟩ := h1.writeTransaction hfree1 hc hpins (hl k2 (by simp))
    ((congrArg _ hindex).trans (phyWriteRegs_addressMode hp _ _ _))
  obtain ⟨s3, m3, r3, h3, hfree3, hregs3⟩ := h2.writeTransaction hfree2 hc hpins (hl k3 (by simp))
    ((congrArg _ (hdevice true)).trans (phyWriteRegs_select hp _ _ _))
  exact ⟨s3, m3, (by omega : 5 + k1 + (5 + k2) + (5 + k3) = 15 + (k1 + k2 + k3)) ▸ (r1.trans r2).trans r3, h3, hfree3,
    hregs3.trans (hregs2.trans hregs1)⟩

end

/-! ### C45_WRITE and C45_READ (R205, R206) -/

theorem sequencerTurns_four_add (k : Nat) : sequencerTurns (4 + k) = .sequencer :: sequencerTurns (3 + k) := by
  rw [show 4 + k = 3 + k + 1 by omega]; rfl

theorem sequencerTurns_three_add (k : Nat) : sequencerTurns (3 + k) = .sequencer :: sequencerTurns (2 + k) := by
  rw [show 3 + k = 2 + k + 1 by omega]; rfl

theorem c45WriteTurns_append (n1 n2 n3 n4 : Nat) (ts : List Agent) :
    c45WriteTurns n1 n2 n3 n4 ++ ts = .client :: .sequencer ::
      writeTurns n1 (writeTurns n2 (writeTurns n3 (writeTurns n4 (.sequencer :: ts)))) := by
  simp [c45WriteTurns, writeTurns, sequencerTurns_four_add, show sequencerTurns 2 = [.sequencer, .sequencer] from rfl]

theorem c45ReadTurns_append (n1 n2 n3 n4 : Nat) (ts : List Agent) :
    c45ReadTurns n1 n2 n3 n4 ++ ts = .client :: .sequencer :: writeTurns n1 (writeTurns n2 (writeTurns n3
      (sequencerTurns (2 + n4) ++ .engine :: .sequencer :: .sequencer :: .sequencer :: ts))) := by
  simp [c45ReadTurns, writeTurns, sequencerTurns_four_add, sequencerTurns_three_add n4,
    show sequencerTurns 3 = [.sequencer, .sequencer, .sequencer] from rfl]

/-- After a command that left the engine at the register level the block is idle again, over the same Transport. -/
theorem Returned.readyFor {c : Command} {s t : State} {v : Scene} (h : Returned c s v t) (hc : s.cfg.wf)
    (hpins : s.cfg.pins = false) : ReadyFor v.answers t where
  idle := h.mode
  config := h.cfg ▸ hc
  atomicEngine := h.cfg ▸ hpins
  answers := h.answers

section

variable {n1 n2 n3 n4 n : Nat} {s : State} {p v x : Word} {items : List Encoded} {ts : List Agent}

/-- C45_WRITE from the port to RET: the register has been addressed, then stored. -/
theorem c45Write_runs {d : Word} (hready : ReadyFor (n + (16 + (n1 + n2 + n3 + n4))) s) (hfree : s.mac.eng = .free)
    (hpolls : ∀ k ∈ [n1, n2, n3, n4], pollsAllowed k s) (hport : s.env.port = .cmd [0x13#32, p, v, x, d] :: items)
    (hturns : s.env.turns = c45WriteTurns n1 n2 n3 n4 ++ ts) (hp : p.toNat < 32) (hv : v.toNat < 32)
    (hx : x.toNat < 0x10000) (hd : d.toNat < 0x10000) (hpresent : p.setWidth 5 ∈ s.cfg.phyPresent) :
    ∃ t q m, Reaches (23 + (n1 + n2 + n3 + n4)) s t ∧
      Returned c45WriteCommand (popPort s) ⟨q, [.ret], m,
        setC45 (addressed s.phys (p.setWidth 5) (v.setWidth 5) (x.setWidth 16))
          (p.setWidth 5) (v.setWidth 5) (x.setWidth 16) (d.setWidth 16), ts, n⟩ t ∧
      m.eng = .free ∧ m.regs = s.mac.regs := by
  rw [c45WriteTurns_append] at hturns
  obtain ⟨s1, r1, h1⟩ := accepted_shows (i := .c45Write p v x d) hready hturns hport rfl rfl (fun _ => rfl)
    (by simp [unusedLatchesZero, accept, c45WriteCommand])
  obtain ⟨s2, r2, h2⟩ := h1.validate (by simp [c45WriteCommand, readLatch, accept, hp, hv, hx, hd])
  rw [show n + (16 + (n1 + n2 + n3 + n4)) = n + (4 + n4) + (12 + (n1 + n2 + n3)) by omega] at h2
  obtain ⟨s3, m3, r3, h3, hfree3, hregs3⟩ := h2.addressSteps hfree hready.config hready.atomicEngine
    (fun k hk => hpolls k (List.mem_append_left [n4] hk)) hpresent hv
  have hdatum : d.setWidth 16 ||| 0#16 = d.setWidth 16 := BitVec.or_zero
  obtain ⟨s4, m4, r4, h4, hfree4, hregs4⟩ := h3.writeTransaction hfree3 hready.config hready.atomicEngine
    (hpolls n4 (by simp)) ((congrArg _ hdatum).trans (phyWriteRegs_addressed hpresent _ _ _ _))
  obtain ⟨t, r5, ht⟩ := h4.returned
  have hrun := (((r1.trans r2).trans r3).trans r4).trans r5
  exact ⟨t, _, m4, (by omega : 1 + 1 + (15 + (n1 + n2 + n3)) + (5 + n4) + 1 = 23 + (n1 + n2 + n3 + n4)) ▸ hrun, ht,
    hfree4, hregs4.trans hregs3⟩

/-- C45_READ from the port to RET: the register has been addressed, and RES has its content. -/
theorem c45Read_runs (hready : ReadyFor (n + (16 + (n1 + n2 + n3 + n4))) s) (hfree : s.mac.eng = .free)
    (hpolls : ∀ k ∈ [n1, n2, n3, n4], pollsAllowed k s) (hport : s.env.port = .cmd [0x12#32, p, v, x] :: items)
    (hturns : s.env.turns = c45ReadTurns n1 n2 n3 n4 ++ ts) (hp : p.toNat < 32) (hv : v.toNat < 32)
    (hx : x.toNat < 0x10000) (hpresent : p.setWidth 5 ∈ s.cfg.phyPresent) :
    ∃ t q m, Reaches (23 + (n1 + n2 + n3 + n4)) s t ∧
      Returned c45ReadCommand (popPort s) ⟨q, [.ret], m,
        addressed s.phys (p.setWidth 5) (v.setWidth 5) (x.setWidth 16), ts, n⟩ t ∧
      m.eng = .free ∧ m.regs = s.mac.regs ∧
      q.res = (c45At s.phys (p.setWidth 5) (v.setWidth 5) (x.setWidth 16)).setWidth 32 := by
  rw [c45ReadTurns_append] at hturns
  obtain ⟨s1, r1, h1⟩ := accepted_shows (i := .c45Read p v x) hready hturns hport rfl rfl (fun _ => rfl)
    (by simp [unusedLatchesZero, accept, c45ReadCommand])
  obtain ⟨s2, r2, h2⟩ := h1.validate (by simp [c45ReadCommand, readLatch, accept, hp, hv, hx])
  rw [show n + (16 + (n1 + n2 + n3 + n4)) = n + (4 + n4) + (12 + (n1 + n2 + n3)) by omega] at h2
  obtain ⟨s3, m3, r3, h3, hfree3, hregs3⟩ := h2.addressSteps hfree hready.config hready.atomicEngine
    (fun k hk => hpolls k (List.mem_append_left [n4] hk)) hpresent hv
  obtain ⟨s4, m4, w, r4, h4, hfree4, hregs4, hw⟩ := h3.readTransaction hfree3 hready.config hready.atomicEngine
    (hpolls n4 (by simp)) fun _ _ => selectReserved_selecting _ _ _ _
  obtain ⟨t, r5, ht⟩ := h4.returned
  have hvalue : w = c45At s.phys (p.setWidth 5) (v.setWidth 5) (x.setWidth 16) :=
    (hw hpresent).trans (mmdDataRead_addressed _ _ _ _)
  have hrun := (((r1.trans r2).trans r3).trans r4).trans r5
  exact ⟨t, _, m4, (by omega : 1 + 1 + (15 + (n1 + n2 + n3)) + (5 + n4) + 1 = 23 + (n1 + n2 + n3 + n4)) ▸ hrun, ht,
    hfree4, hregs4.trans hregs3, congrArg (BitVec.setWidth 32) hvalue⟩

end

/-! ### The round trip (R209, R210) -/

/-- Settles O58: the read starts in the state the write has returned, and addresses the register that the write has
stored; addressing changes no Clause-45 register. -/
theorem c45RoundTrip : Obligations.C45RoundTrip := by
  unfold Obligations.C45RoundTrip
  intro n1 n2 n3 n4 m1 m2 m3 m4 s p v x d items ts hready hfree hpolls hport hturns hp hv hx hd hpresent
  rw [show 32 + (n1 + n2 + n3 + n4) + (m1 + m2 + m3 + m4) =
    0 + (16 + (m1 + m2 + m3 + m4)) + (16 + (n1 + n2 + n3 + n4)) by omega] at hready
  obtain ⟨t, q, mac, hrun, ht, hfreeW, hregsW⟩ := c45Write_runs hready hfree
    (fun k hk => hpolls k (List.mem_append_left [m1, m2, m3, m4] hk)) hport hturns hp hv hx hd hpresent
  have hcfg : t.cfg = s.cfg := ht.cfg
  obtain ⟨u, q', mac', hrun', hu, hfreeR, hregsR, hres⟩ := c45Read_runs
    (ht.readyFor hready.config hready.atomicEngine) (ht.mac ▸ hfreeW)
    (fun k hk => by rw [pollsAllowed, hcfg]; exact hpolls k (List.mem_append_right [n1, n2, n3, n4] hk))
    (ht.port.trans (congrArg List.tail hport)) ht.turns hp hv hx (hcfg ▸ hpresent)
  have hstored : c45At t.phys (p.setWidth 5) (v.setWidth 5) (x.setWidth 16) = d.setWidth 16 := by
    rw [ht.phys, c45At_setC45_same]
  have hdatum : (d.setWidth 16).setWidth 32 = d :=
    BitVec.eq_of_toNat_eq (by simp only [BitVec.toNat_setWidth]; omega)
  have hother : ∀ q e y, ¬(q = p.setWidth 5 ∧ e = v.setWidth 5 ∧ y = x.setWidth 16) →
      c45At u.phys q e y = c45At s.phys q e y := fun _ _ _ hne => by
    rw [hu.phys, c45At_addressed, ht.phys, c45At_setC45_other _ _ _ _ _ _ _ _ hne, c45At_addressed]
  have hsteps : 23 + (n1 + n2 + n3 + n4) + (23 + (m1 + m2 + m3 + m4)) =
    46 + (n1 + n2 + n3 + n4) + (m1 + m2 + m3 + m4) := by omega
  refine ⟨⟨t, hrun, ht.mode, ht.status, ht.res, ht.mac ▸ hfreeW, hstored⟩,
    u, hsteps ▸ hrun.trans hrun', hu.mode, hu.lock, hu.status, ?res, hu.mac ▸ hfreeR, ?regs, ?control, ?address,
    ?register, hother, hu.eeprom.trans ht.eeprom, hu.cfg.trans hcfg, ?port, hu.turns⟩
  case res => exact hu.res.trans (hres.trans (by rw [hstored, hdatum]))
  case regs => rw [hu.mac, hregsR, ht.mac, hregsW]
  case control => rw [hu.phys, mmdCtlAt_addressed]; exact (device_mmdWord hv true).symm
  case address => rw [hu.phys, mmdAddrAt_addressed]
  case register => rw [hu.phys, c45At_addressed, hstored]
  case port => exact hu.port.trans (congrArg List.tail (ht.port.trans (congrArg List.tail hport)))

end Sys2Proof.Proofs

/-! PROOFS. The MDIO master and the PHY (44_mdio_master_and_phy.md): MII_DATA on a busy engine, the start of a
transaction, index 0xE, and what a write's completion does at the register level. -/

namespace Sys2Proof.Proofs

open Sys2Proof.Machine

/-! ### MII_DATA while a transaction is in flight (R225) -/

theorem macWrite_data_busy {s : State} (h : engBusy s.mac.eng = true) (v : Word) :
    macWrite 0x124#12 v s = .fault .dataWriteWhileBusy := by
  simp [macWrite, macWriteIf, dataWrite, h]

theorem macRead_data_busy {s : State} (h : engBusy s.mac.eng = true) :
    macRead 0x124#12 s = (drawnWord s, advance s) := by
  simp [macRead, dataReadWord, h]

/-- Settles O29: an ENG that is not free is busy, whatever is in flight. -/
theorem dataAccessWhileBusy : Obligations.DataAccessWhileBusy := by
  unfold Obligations.DataAccessWhileBusy
  intro s hne
  have hbusy := engBusy_of_ne_free hne
  exact ⟨macWrite_data_busy hbusy, macRead_data_busy hbusy⟩

/-! ### The start of a transaction (R223, R233) -/

/-- A read started on a free engine (R223). -/
theorem startRead_free {s : State} (hfree : s.mac.eng = .free) (p r : Field5) :
    ∃ x, startRead p r s = .next (advance (startTransaction .read p r x (accWord p r s.cfg.readOpcode) s)) := by
  obtain ⟨x, hlaunch, _⟩ := launch_spec .read p r (accWord p r s.cfg.readOpcode) s
  refine ⟨x, ?_⟩
  rw [← hlaunch]
  simp [startRead, startAccess, hfree, engBusy, opcodeOf]

theorem exec_frameRead_free {s : State} (hfree : s.mac.eng = .free) (p r : Field5) :
    exec (.frameRead p r) s = startRead p r s := by
  simp only [exec, execFrameRead, hfree]

theorem exec_frameWrite_free {s : State} (hfree : s.mac.eng = .free) (p r : Field5) (d : Half) :
    exec (.frameWrite p r d) s = startWrite p r d s := by
  simp only [exec, execFrameWrite, hfree]

/-- The pins at the start of a frame: the clock is low in slot 0, the master drives the first preamble bit (R232). -/
theorem startWire_pins (rw : Rw) (p r : Field5) (d : Half) (w : Wire) :
    (startWire rw p r d w).slot = 0#6 ∧ (startWire rw p r d w).phase = .low ∧ (startWire rw p r d w).mdc = false ∧
    (startWire rw p r d w).mdioOE = true ∧ (startWire rw p r d w).mdioO = true :=
  ⟨rfl, rfl, rfl, rfl, rfl⟩

/-- Settles O37: a frame on a free engine starts its transaction, by MII_ACC alone or through MII_DATA, and the wire is
that of a start. -/
theorem frameStarts : Obligations.FrameStarts := by
  unfold Obligations.FrameStarts
  intro p r d s hfree hc
  refine ⟨?read, ?write⟩
  case read =>
    obtain ⟨x, hstart⟩ := startRead_free hfree p r
    obtain ⟨hslot, hphase, hmdc, hdriven, hlevel⟩ := startWire_pins .read p r x s.wire
    exact ⟨_, x, (exec_frameRead_free hfree p r).trans hstart, rfl, rfl, accWord_busy hc p r .read,
      hslot, hphase, hmdc, hdriven, hlevel, rfl, rfl, rfl, rfl, ⟨rfl, rfl, rfl, rfl, rfl, rfl, rfl⟩⟩
  case write =>
    obtain ⟨hslot, hphase, hmdc, hdriven, hlevel⟩ := startWire_pins .write p r d s.wire
    exact ⟨_, (exec_frameWrite_free hfree p r d).trans (startWrite_free hfree p r d), rfl, rfl,
      accWord_busy hc p r .write, hslot, hphase, hmdc, hdriven, hlevel, rfl, rfl, rfl, rfl,
      ⟨rfl, rfl, rfl, rfl, rfl, rfl, rfl⟩⟩

/-! ### `PhyWrite` and `PhyRead` (R242 to R247) -/

/-- The device that the statements take from MMDCTL is the one the model selects (R36, R245). -/
theorem selectedDevice_eq (f : Phys) (p : Field5) : selectedDevice f p = (mmdCtlAt f p).setWidth 5 :=
  (BitVec.setWidth_eq_extractLsb' (by decide)).symm

/-- An absent PHY changes nothing (R247). -/
theorem phyWriteRegs_absent {present : List Field5} {p : Field5} (hp : p ∉ present) (f : Phys) (i : Field5) (v : Half) :
    phyWriteRegs present f p i v = .next f := by
  simp [phyWriteRegs, hp]

/-- An index other than 0xE is storage (R242, R244). -/
theorem phyWriteRegs_storage {present : List Field5} {p i : Field5} (hp : p ∈ present) (hi : i ≠ mmdDataIdx) (f : Phys)
    (v : Half) : phyWriteRegs present f p i v = .next (setC22 f p i v) := by
  rw [phyWriteRegs, if_neg hi, if_pos hp]

/-- Index 0xE under no reserved select word is `mmdDataWrite` (R245). -/
theorem phyWriteRegs_data {present : List Field5} {f : Phys} {p : Field5} (hp : p ∈ present)
    (hlegal : selectReserved f p = false) (v : Half) :
    phyWriteRegs present f p mmdDataIdx v = .next (mmdDataWrite f p v) := by
  simp [phyWriteRegs, hp, hlegal]

/-- A `PhyRead` of index 0xE of a present PHY under no reserved select word (R245). -/
theorem phyRead_data {p : Field5} {s : State} (hp : p ∈ s.cfg.phyPresent) (hlegal : selectReserved s.phys p = false) :
    phyRead p mmdDataIdx s = .next (mmdDataRead s.phys p, s) := by
  simp [phyRead, hp, phyReadRegs_value fun _ => hlegal]

section
variable {f : Phys} {p : Field5}

/-! Index 0xE in address mode is the address latch of the selected device (R245). -/

theorem mmdDataWrite_of_addressMode (h : (mmdCtlAt f p).getLsbD 14 = false) (v : Half) :
    mmdDataWrite f p v = setMmdAddr f p ((mmdCtlAt f p).setWidth 5) v := by
  simp only [mmdDataWrite, mmdMode, h, selectedDevice_eq, Bool.false_eq_true, if_false]

theorem mmdDataRead_of_addressMode (h : (mmdCtlAt f p).getLsbD 14 = false) :
    mmdDataRead f p = mmdAddrAt f p ((mmdCtlAt f p).setWidth 5) := by
  simp only [mmdDataRead, mmdMode, h, selectedDevice_eq, Bool.false_eq_true, if_false]

/-! Index 0xE in data mode is the Clause-45 register that the address latch points to (R245). -/

theorem mmdDataWrite_of_dataMode (h : (mmdCtlAt f p).getLsbD 14 = true) (v : Half) :
    mmdDataWrite f p v =
      setC45 f p ((mmdCtlAt f p).setWidth 5) (mmdAddrAt f p ((mmdCtlAt f p).setWidth 5)) v := by
  simp only [mmdDataWrite, mmdMode, h, selectedDevice_eq, if_true]

theorem mmdDataRead_of_dataMode (h : (mmdCtlAt f p).getLsbD 14 = true) :
    mmdDataRead f p =
      c45At f p ((mmdCtlAt f p).setWidth 5) (mmdAddrAt f p ((mmdCtlAt f p).setWidth 5)) := by
  simp only [mmdDataRead, mmdMode, h, selectedDevice_eq, if_true]

/-- In either mode index 0xE written leaves the Clause-22 registers, the select word among them (R245). -/
theorem mmdDataWrite_c22 (v : Half) : (mmdDataWrite f p v).c22 = f.c22 := by
  simp only [mmdDataWrite]
  split <;> rfl

end

/-- Settles O34: index 0xE is the address latch in address mode and the register it points to in data mode, for a write
and for a read. -/
theorem dataRegisterAccess : Obligations.DataRegisterAccess := by
  unfold Obligations.DataRegisterAccess
  intro p v s hp hlegal d a
  have hwrite : phyWrite p mmdDataIdx v s = .next { s with phys := mmdDataWrite s.phys p v } := by
    rw [phyWrite, phyWriteRegs_data hp hlegal, andThen_next]
  have hread := phyRead_data hp hlegal
  refine ⟨mmdDataWrite s.phys p v, hwrite, mmdDataWrite_c22 v, fun hmode => ?address, fun hmode => ?data⟩
  case address =>
    rw [mmdDataRead_of_addressMode hmode] at hread
    rw [mmdDataWrite_of_addressMode hmode]
    exact ⟨mmdAddrAt_setMmdAddr_same _ _ _ _, rfl, fun _ _ => mmdAddrAt_setMmdAddr_other _ _ _ _ _ _, hread⟩
  case data =>
    rw [mmdDataRead_of_dataMode hmode] at hread
    rw [mmdDataWrite_of_dataMode hmode]
    exact ⟨c45At_setC45_same _ _ _ _ _, rfl, fun _ _ _ => c45At_setC45_other _ _ _ _ _ _ _ _, hread⟩

/-! ### Completion at the register level (R226) -/

/-- The engine's turn at the register level is the completion. -/
theorem step_completes {s : State} {ts : List Agent} (hturn : s.env.turns = .engine :: ts)
    (hpins : s.cfg.pins = false) :
    step s = engineComplete { s with env := { s.env with turns := ts } } := by
  rw [step_turn hturn, agentTurn, engineTurn_eq, engineMove, if_neg (by simp [hpins])]

/-- A write completes: the PHYs are as `PhyWrite` leaves them, the engine is free. -/
theorem engineComplete_write {s : State} {p r : Field5} {d : Half} {g : Phys} (he : s.mac.eng = .inflight .write p r d)
    (hwrite : phyWriteRegs s.cfg.phyPresent s.phys p r d = .next g) :
    engineComplete s = .next (freeEngine { s with phys := g }) := by
  simp only [engineComplete, he, phyWrite, hwrite, andThen_next]

/-- A read from an absent PHY completes with a draw (R247). -/
theorem engineComplete_read_absent {s : State} {p r : Field5} {d : Half} (he : s.mac.eng = .inflight .read p r d)
    (hp : p ∉ s.cfg.phyPresent) :
    engineComplete s = .next (freeEngine (loadDatum (drawnHalf s) (advance s))) := by
  simp only [engineComplete, he, phyRead, if_pos hp, andThen_next]

/-- Settles O30: the step is the completion, and what it changes of the PHYs is `PhyWrite`, which stores at an index
other than 0xE and goes by the mode of MMDCTL at 0xE. -/
theorem engineCompletesWrite : Obligations.EngineCompletesWrite := by
  unfold Obligations.EngineCompletesWrite
  intro s p r d ts hturn hpins he hp hlegal dev target
  have completes : ∀ g, phyWriteRegs s.cfg.phyPresent s.phys p r d = .next g →
      step s = .next (freeEngine { s with env := { s.env with turns := ts }, phys := g }) := fun g hg =>
    (step_completes hturn hpins).trans (engineComplete_write he hg)
  by_cases hr : r = 0xE#5
  case neg =>
    refine ⟨_, completes _ (phyWriteRegs_storage hp hr s.phys d), rfl, clearBusy_busy _, rfl, rfl, fun _ => ?_,
      (absurd · hr), (absurd · hr), rfl, rfl, rfl, rfl, rfl⟩
    exact ⟨c22At_setC22_same _ _ _ _, fun _ _ => c22At_setC22_other _ _ _ _ _ _, rfl, rfl⟩
  case pos =>
    have hdata : phyWriteRegs s.cfg.phyPresent s.phys p r d = .next (mmdDataWrite s.phys p d) :=
      hr ▸ phyWriteRegs_data hp (hlegal hr) d
    refine ⟨_, completes _ hdata, rfl, clearBusy_busy _, rfl, rfl, (absurd hr ·), fun _ hmode => ?address,
      fun _ hmode => ?data, rfl, rfl, rfl, rfl, rfl⟩
    case address =>
      rw [mmdDataWrite_of_addressMode hmode]
      exact ⟨mmdAddrAt_setMmdAddr_same _ _ _ _, fun _ _ => mmdAddrAt_setMmdAddr_other _ _ _ _ _ _, rfl, rfl⟩
    case data =>
      rw [mmdDataWrite_of_dataMode hmode]
      exact ⟨c45At_setC45_same _ _ _ _ _, fun _ _ _ => c45At_setC45_other _ _ _ _ _ _ _ _, rfl, rfl⟩

/-! ### The address-select words (R244) -/

/-- The two address-select instructions are the select word of their mode (R94). -/
theorem exec_select (m : Bool) (devad : Field5) (s : State) :
    exec (if m then .mmdData devad else .mmdAddr devad) s = selectCommand (mmdWord m devad) s := by
  cases m <;> rfl

theorem selectCommand_free {s : State} (hfree : s.mac.eng = .free) (v : Half) :
    selectCommand v s = startWrite s.cfg.phyAddr mmdCtrlIdx v s := by
  simp only [selectCommand, hfree]

/-- A select word whose write is in flight, at the register level, is the completion of that write (R226, R244). -/
theorem selectCommand_inflight {s : State} {p : Field5} {v : Half} (he : s.mac.eng = .inflight .write p mmdCtrlIdx v)
    (hpins : s.cfg.pins = false) : selectCommand v s = engineComplete s := by
  simp [selectCommand, he, engineMove, hpins]

/-- Settles O33: on a free engine the word starts its write; in flight, `PhyWrite` of index 0xD stores it where there is
a PHY. -/
theorem selectWordStored : Obligations.SelectWordStored := by
  unfold Obligations.SelectWordStored
  intro devad m s i v
  have hv : v = mmdWord m devad := BitVec.or_comm _ _
  have hexec : exec i s = selectCommand v s := hv ▸ exec_select m devad s
  refine ⟨fun hfree hc => ?starts, fun p he hpins => ?completes⟩
  case starts =>
    exact ⟨_, hexec.trans ((selectCommand_free hfree v).trans (startWrite_free hfree _ _ v)), rfl,
      accWord_busy hc _ _ .write, ⟨rfl, rfl, rfl, rfl, rfl, rfl, rfl⟩, rfl, rfl⟩
  case completes =>
    have hcomplete := hexec.trans (selectCommand_inflight he hpins)
    by_cases hp : p ∈ s.cfg.phyPresent
    case pos =>
      refine ⟨_, hcomplete.trans (engineComplete_write he (phyWriteRegs_storage hp (by decide) s.phys v)),
        fun _ => c22At_setC22_same _ _ _ _, fun q j hother => ?_, rfl, rfl, rfl, clearBusy_busy _, rfl, rfl, rfl, rfl,
        rfl, rfl, rfl⟩
      exact c22At_setC22_other _ _ _ _ _ _ fun ⟨hq, hj⟩ => hother ⟨hq, hj, hp⟩
    case neg =>
      exact ⟨_, hcomplete.trans (engineComplete_write he (phyWriteRegs_absent hp s.phys _ v)), (absurd · hp),
        fun _ _ _ => rfl, rfl, rfl, rfl, clearBusy_busy _, rfl, rfl, rfl, rfl, rfl, rfl, rfl⟩

end Sys2Proof.Proofs

/-! PROOFS. A PHY is passive (44_mdio_master_and_phy.md R240): no step but the engine's changes a PHY register. -/

namespace Sys2Proof.Proofs

open Sys2Proof.Machine

/-! ### What an instruction does to the PHYs where it does not move the engine -/

theorem eng_free_of_not_busy {e : Eng} (h : engBusy e = false) : e = .free := by
  cases e with
  | free => rfl
  | inflight => cases h

theorem accWrite_phys {w : Word} {s t : State} (h : accWrite w s = .next t) : t.phys = s.phys := by
  obtain ⟨_, rw, _, rfl⟩ := accWrite_cases h
  obtain ⟨d, hlaunch, _⟩ := launch_spec rw (accPhyad w) (accRegad w) w s
  rw [hlaunch]
  rfl

theorem startWrite_phys {p r : Field5} {v : Half} {s t : State} (h : startWrite p r v s = .next t) :
    t.phys = s.phys := by
  obtain ⟨_, rfl⟩ := startWrite_cases h
  rfl

theorem startRead_phys {p r : Field5} {s t : State} (h : startRead p r s = .next t) : t.phys = s.phys := by
  obtain ⟨hfree, _⟩ := startAccess_cases h
  obtain ⟨x, hstart⟩ := startRead_free hfree p r
  cases hstart.symm.trans h
  rfl

/-- Any of the six commands, accepted, waiting or running (R24, R25). -/
theorem exec_command_phys {i : Instr} {c : Command} {s t : State} (hc : commandOfInstr i = some c)
    (h : exec i s = .next t) : t.phys = s.phys := by
  obtain ⟨opa, opb, opc, opd, hexec⟩ := exec_command hc
  rw [hexec] at h
  rcases execCommand_cases h with ⟨_, rfl⟩ | ⟨_, rfl⟩ | ⟨_, _, op, _, hop⟩
  · rfl
  · rfl
  · exact (execMicroOp_outside hop).phys

/-- A select word that does not wait (R244): it starts its write. -/
theorem selectCommand_phys {v : Half} {s t : State} (hwait : engBusy s.mac.eng = false)
    (h : selectCommand v s = .next t) : t.phys = s.phys := by
  rw [selectCommand_free (eng_free_of_not_busy hwait)] at h
  exact startWrite_phys h

/-- An operation of U2 that leaves the PHYs does so with its caller's outcome too (R140). -/
theorem driverOperation_phys {isRead : Bool} {req : List Byte} {a : Word} {s t : State}
    (hexchange : ∀ x u, exchange isRead req s = .next (x, u) → u.phys = s.phys)
    (h : driverOperation isRead req a s = .next t) : t.phys = s.phys := by
  simp only [driverOperation] at h
  split at h
  · obtain ⟨⟨x, u⟩, hx, hu⟩ := andThen_eq_next.mp h
    cases hu
    exact hexchange x u hx
  · cases h
    rfl

theorem exchange_read_phys {sel ifx a : Word} {s u : State} {x : Xfer}
    (h : exchange true (drvReadBytes sel ifx a) s = .next (x, u)) : u.phys = s.phys := by
  obtain ⟨x', u', hx, htouched, _⟩ := exchange_read sel ifx a s
  cases hx.symm.trans h
  exact htouched.outside.1.phys

theorem exchange_write_phys {sel ifx a v : Word} {s u : State} {x : Xfer}
    (h : exchange false (drvWriteBytes sel ifx a v) s = .next (x, u)) : u.phys = s.phys := by
  obtain ⟨yes, s1, hs1, _, hnext, _⟩ := exchange_write (sel := sel) (ifx := ifx) (a := a) (v := v) (s := s)
  obtain ⟨w, hw, hu, _⟩ := hnext x u h
  exact hu.device.1.phys.trans ((macWriteIf_frame hw).1.phys.trans hs1.device.1.phys)

/-- An EPC command issues register commands only (R280). -/
theorem epcCommand_phys {code : BitVec 3} {a : BitVec 9} {byte : Option Byte} {s t : State}
    (h : epcCommand code a byte s = .next t) : t.phys = s.phys := by
  rw [epcCommand_spec] at h
  cases h
  split
  · rcases epcContinue_cases code a byte s with ⟨ph, he⟩ | ⟨d, _, he⟩ | he | he <;> rw [he] <;> rfl
  · rfl

/-- An instruction that the client presents and that does not wait: the ones for the engine only start a transaction
(R61, R223). -/
theorem exec_presented_phys {i : Instr} {s t : State} (hwait : mustWait i s = false) (h : exec i s = .next t) :
    t.phys = s.phys := by
  cases i with
  | regRead | regWrite | c22Read | c22Write | c45Read | c45Write => exact exec_command_phys rfl h
  | miiRead | miiWrite => exact accWrite_phys h
  | mmdAddr | mmdData => exact selectCommand_phys hwait h
  | drvRead => exact driverOperation_phys (fun _ _ => exchange_read_phys) h
  | drvWrite => exact driverOperation_phys (fun _ _ => exchange_write_phys) h
  | frameRead p r => exact startRead_phys ((exec_frameRead_free (eng_free_of_not_busy hwait) p r).symm.trans h)
  | frameWrite p r d => exact startWrite_phys ((exec_frameWrite_free (eng_free_of_not_busy hwait) p r d).symm.trans h)
  | epcRead | epcEwds | epcEwen | epcWrite | epcEraseAll => exact epcCommand_phys h

/-- A presented item that holds no instruction (R101, R311, U3, U5). -/
theorem presentRejected_phys {e : Encoded} {r : Reject} {s t : State} (hwait : rejectedWaits e s = false)
    (h : presentRejected e r s = .next t) : t.phys = s.phys := by
  cases e with
  | cmd ws => cases h; rfl
  | acc w => exact accWrite_phys h
  | mmd v => exact selectCommand_phys hwait h
  | drv | frame | epc => cases h

/-! ### The turns (R6) -/

theorem clientTurn_phys {s t : State} (h : clientTurn s = .next t) : t.phys = s.phys := by
  simp only [clientTurn] at h
  split at h
  · cases h; rfl
  · split at h
    · next i _ =>
      split at h
      · cases h; rfl
      · next hwait =>
        obtain ⟨u, hexec, hretire⟩ := andThen_eq_next.mp h
        cases hretire
        have hu := exec_presented_phys (by simpa using hwait) hexec
        rcases retire_spec i u with hr | hr <;> rw [hr] <;> exact hu
    · split at h
      · cases h; rfl
      · next hwait =>
        obtain ⟨u, hreject, hpop⟩ := andThen_eq_next.mp h
        have hu := presentRejected_phys (by simpa using hwait) hreject
        cases hpop
        exact hu

/-- What a frame of command words decodes to is one of the six commands (R91). -/
theorem commandOfInstr_of_decodeCmd {ws : List Word} {i : Instr} (h : decodeCmd ws = .ok i) :
    ∃ c, commandOfInstr i = some c := by
  simp only [decodeCmd] at h
  repeat' split at h
  all_goals cases h
  all_goals exact ⟨_, rfl⟩

theorem sequencerTurn_phys {s t : State} (h : sequencerTurn s = .next t) : t.phys = s.phys := by
  simp only [sequencerTurn] at h
  split at h
  · cases h; rfl
  · split at h
    · next i hi =>
      obtain ⟨c, hc⟩ := commandOfInstr_of_decodeCmd hi
      exact exec_command_phys hc h
    · cases h; rfl

/-- Settles O47: a step that is not the engine's is the client's or the sequencer's turn, and taking a turn leaves the
PHYs. -/
theorem phyPassive : Obligations.PhyPassive := by
  unfold Obligations.PhyPassive
  intro s t hstep hagent
  obtain ⟨ts, n, htake⟩ := takeTurn_spec s
  have htaken : (takeTurn s).2.phys = s.phys := by rw [htake]
  rw [step] at hstep
  cases ha : (takeTurn s).1 with
  | client =>
    rw [ha] at hstep
    exact (clientTurn_phys hstep).trans htaken
  | sequencer =>
    rw [ha] at hstep
    exact (sequencerTurn_phys hstep).trans htaken
  | engine => exact absurd ha hagent

end Sys2Proof.Proofs

/-! PROOFS. A transaction to an address without a PHY (44_mdio_master_and_phy.md R247): at the register level its
completion, at pin level the half clocks of a read frame that nobody answers (R230 to R235). -/

namespace Sys2Proof.Proofs

open Sys2Proof.Machine

/-! ### Half clocks (R233) -/

/-- The rising edge of a slot before the last samples the wire, and does no more. -/
theorem halfClock_rises {s : State} (hphase : s.wire.phase = .low) (hslot : s.wire.slot ≠ 63#6) (rw : Rw) (p r : Field5)
    (d : Half) : halfClock rw p r d s = .next { s with wire := sampleWire rw s.wire } := by
  simp only [halfClock, hphase, risingEdge, if_neg hslot]

/-- The rising edge of the last slot samples the wire, and a PHY addressed by a write stores. -/
theorem halfClock_rises_last {s : State} (hphase : s.wire.phase = .low) (hslot : s.wire.slot = 63#6) (rw : Rw)
    (p r : Field5) (d : Half) : halfClock rw p r d s = phyStore { s with wire := sampleWire rw s.wire } := by
  simp only [halfClock, hphase, risingEdge, if_pos hslot]

/-- The wire at the beginning of the next slot, before any PHY applies its bit. -/
def nextSlotWire (rw : Rw) (p r : Field5) (d : Half) (w : Wire) : Wire :=
  applyMaster (masterBit rw p r d (w.slot + 1#6).toNat) { w with mdc := false, phase := .low, slot := w.slot + 1#6 }

/-- The clock falls, the slot is counted, and what the listeners hold is as it was. -/
theorem nextSlotWire_fields (rw : Rw) (p r : Field5) (d : Half) (w : Wire) :
    (nextSlotWire rw p r d w).slot = w.slot + 1#6 ∧ (nextSlotWire rw p r d w).phase = .low ∧
    (nextSlotWire rw p r d w).phyOE = w.phyOE ∧ (nextSlotWire rw p r d w).rx = w.rx ∧
    (nextSlotWire rw p r d w).taOk = w.taOk ∧ (nextSlotWire rw p r d w).shift = w.shift := by
  simp only [nextSlotWire, applyMaster]
  split <;> exact ⟨rfl, rfl, rfl, rfl, rfl, rfl⟩

/-- The falling edge of a slot before the last begins the next slot. -/
theorem halfClock_falls {s : State} (hphase : s.wire.phase = .high) (hslot : s.wire.slot ≠ 63#6) (rw : Rw)
    (p r : Field5) (d : Half) :
    halfClock rw p r d s =
      phyApply (s.wire.slot + 1#6).toNat { s with wire := nextSlotWire rw p r d s.wire } := by
  simp only [halfClock, hphase, fallingEdge, if_neg hslot, nextSlotWire]

/-- The falling edge of the last slot ends the frame (R235). -/
theorem halfClock_falls_last {s : State} (hphase : s.wire.phase = .high) (hslot : s.wire.slot = 63#6) (rw : Rw)
    (p r : Field5) (d : Half) : halfClock rw p r d s = .next (frameEnd rw s) := by
  simp only [halfClock, hphase, fallingEdge, if_pos hslot]

/-- FRAME_READ, while its record is in flight, is a half clock of its frame. -/
theorem exec_frameRead_inflight {s : State} {p r : Field5} {d : Half} (he : s.mac.eng = .inflight .read p r d) :
    exec (.frameRead p r) s = halfClock .read p r d s := by
  simp [exec, execFrameRead, he]

theorem execTimes_one (i : Instr) (s : State) : execTimes i 1 s = exec i s := by
  simp only [execTimes]
  cases exec i s <;> rfl

/-! ### The wire of a read frame that nobody answers (R230, R232) -/

/-- The 64 levels of a read frame that no PHY answers: the released slots read 1 (R230). -/
def unansweredFrame (p r : Field5) : BitVec 64 := frameSlots 0b10#2 p r 0b11#2 0xFFFF#16

/-- From the turnaround on the level is 1. -/
theorem unansweredFrame_released (p r : Field5) {k : Nat} (hk : 46 ≤ k) (hlast : k < 64) :
    (unansweredFrame p r).getLsbD (63 - k) = true := by
  have hta : ∀ j < 2, (0b11#2).getLsbD j = true := by decide
  have hdata : ∀ j < 16, (0xFFFF#16).getLsbD j = true := by decide
  rw [unansweredFrame, frameSlots_bit _ _ _ _ _ _ hlast]
  rw [if_neg (by omega), if_neg (by omega), if_neg (by omega), if_neg (by omega), if_neg (by omega)]
  split
  · exact hta _ (by omega)
  · exact hdata _ (by omega)

/-- With no PHY driving, the wire has the master's level, or the pull-up's (R230). -/
theorem lineLevel_unanswered {w : Wire} (hphys : w.phyOE = 0#32) :
    lineLevel w = if w.mdioOE then w.mdioO else true := by
  simp [lineLevel, hphys]

theorem lineLevel_phyO_unanswered {w : Wire} (hphys : w.phyOE = 0#32) (o : BitVec 32) :
    lineLevel { w with phyO := o } = lineLevel w := by
  rw [lineLevel_unanswered hphys, lineLevel_unanswered (w := { w with phyO := o }) hphys]

/-- The master's bit of a slot, or the pull-up's, is the frame's level of that slot. -/
theorem lineLevel_applyMaster_read {p r : Field5} {k : Nat} {w : Wire} (d : Half) (hk : k < 64)
    (hphys : w.phyOE = 0#32) :
    lineLevel (applyMaster (masterBit .read p r d k) w) = (unansweredFrame p r).getLsbD (63 - k) := by
  rw [masterBit_read p r d k hk]
  split
  · exact lineLevel_unanswered hphys
  · next hreleased =>
    rw [unansweredFrame_released p r (by omega) hk]
    exact lineLevel_unanswered hphys

/-- At the beginning of slot 47 the PHYs have the PHYAD of the frame in their receive words (R241). -/
theorem rxPhyad_unansweredFrame (p r : Field5) : rxPhyad (unansweredFrame p r >>> 17) = p := by
  obtain ⟨_, _, hphyad, _⟩ := frameSlots_fields 0b10#2 p r 0b11#2 0xFFFF#16
  refine Eq.trans (BitVec.eq_of_toNat_eq ?_) hphyad
  simp only [rxPhyad, framePhyad, unansweredFrame, BitVec.extractLsb'_toNat, BitVec.toNat_ushiftRight,
    ← Nat.shiftRight_add]

/-- TA_OK in a read frame is sampled in slot 47 (R234). -/
theorem sampleWire_read_taOk (w : Wire) :
    (sampleWire .read w).taOk = if w.slot.toNat = 47 then !lineLevel w else w.taOk := by
  simp [sampleWire]

/-- SHIFT in a read frame takes the levels from slot 48 on (R234). -/
theorem sampleWire_read_shift (w : Wire) :
    (sampleWire .read w).shift =
      if 48 ≤ w.slot.toNat then (w.shift <<< 1) ||| (BitVec.ofBool (lineLevel w)).setWidth 16 else w.shift := by
  simp [sampleWire]

/-- `s` is in slot `k` of the read frame, begun in `s0`, to an address without a PHY, `n` levels having been sampled. -/
structure Unanswered (p r : Field5) (s0 : State) (k n : Nat) (ph : Phase) (s : State) : Prop where
  rest : s = { s0 with wire := s.wire }
  slot : s.wire.slot.toNat = k
  phase : s.wire.phase = ph
  phys : s.wire.phyOE = 0#32
  line : lineLevel s.wire = (unansweredFrame p r).getLsbD (63 - k)
  rx : s.wire.rx = unansweredFrame p r >>> (64 - n)
  taOk : 47 < n → s.wire.taOk = false
  shift : ∀ i < n - 48, s.wire.shift.getLsbD i = true

section
variable {p r : Field5} {d : Half} {s0 s : State} {k : Nat}

/-- The start of the frame (R233). -/
theorem Unanswered.start (h : FrameStarted .read p r d s0) : Unanswered p r s0 0 0 .low s0 := by
  obtain ⟨hslot, hphase, _, hdriven, hlevel⟩ := startWire_pins .read p r d s0.wire
  rw [← h.wire] at hslot hphase hdriven hlevel
  have hphys : s0.wire.phyOE = 0#32 := congrArg Wire.phyOE h.wire
  have hrx : s0.wire.rx = 0#64 := congrArg Wire.rx h.wire
  have hfirst : (unansweredFrame p r).getLsbD 63 = true := frameSlots_bit _ _ _ _ _ 0 (by decide)
  exact {
    rest := rfl
    slot := by rw [hslot]; rfl
    phase := hphase
    phys := hphys
    line := by rw [lineLevel_unanswered hphys, hdriven, hlevel, hfirst]; rfl
    rx := by rw [hrx, BitVec.ushiftRight_eq_zero (by decide)]
    taOk := (absurd · (by decide))
    shift := fun i hi => absurd hi (by omega) }

theorem Unanswered.slot_ne {n : Nat} {ph : Phase} (h : Unanswered p r s0 k n ph s) (hk : k < 63) :
    s.wire.slot ≠ 63#6 := by
  intro hslot
  have hcount : 63 = k := (congrArg BitVec.toNat hslot).symm.trans h.slot
  omega

theorem Unanswered.slot_last {n : Nat} {ph : Phase} (h : Unanswered p r s0 63 n ph s) : s.wire.slot = 63#6 :=
  BitVec.eq_of_toNat_eq h.slot

/-- Sampling the level of the running slot (R233, R234): in slot 47 the released wire leaves TA_OK 0, and from slot 48
on a 1 is shifted into SHIFT. -/
theorem Unanswered.samples (h : Unanswered p r s0 k k .low s) (hk : k < 64) :
    Unanswered p r s0 k (k + 1) .high { s with wire := sampleWire .read s.wire } := by
  have hreleased : 46 ≤ k → lineLevel s.wire = true := fun hj => h.line.trans (unansweredFrame_released p r hj hk)
  refine {
    rest := by rw [h.rest]
    slot := h.slot
    phase := rfl
    phys := h.phys
    line := h.line
    rx := ?rx
    taOk := fun hn => ?taOk
    shift := fun i hi => ?shift }
  case rx =>
    show (s.wire.rx <<< 1) ||| _ = _
    rw [h.rx, h.line, sample_next _ _ hk]
    congr 1
    omega
  case taOk =>
    show (sampleWire .read s.wire).taOk = false
    rw [sampleWire_read_taOk, h.slot]
    split
    · rw [hreleased (by omega)]; rfl
    · exact h.taOk (by omega)
  case shift =>
    show (sampleWire .read s.wire).shift.getLsbD i = true
    rw [sampleWire_read_shift, h.slot, if_pos (by omega), hreleased (by omega)]
    cases i with
    | zero => simp
    | succ j =>
      have hj : s.wire.shift.getLsbD j = true := h.shift j (by omega)
      simp [hj, show j + 1 < 16 by omega]

/-- No PHY begins to drive but one that the turnaround finds addressed. -/
theorem phyApply_unanswered {n : Nat} {s : State}
    (haddr : n = 47 → rxPhyad s.wire.rx ∉ s.cfg.phyPresent) :
    ∃ o, phyApply n s = .next { s with wire := { s.wire with phyO := o } } := by
  simp only [phyApply]
  split
  · next hn =>
    simp only [phyTurnaround, haddr hn, and_false, if_false]
    exact ⟨s.wire.phyO, rfl⟩
  · split
    · exact ⟨_, rfl⟩
    · exact ⟨s.wire.phyO, rfl⟩

/-- The next slot begins: the master's bit of it, or the pull-up's, is on the wire, and nobody answers (R233, R241). -/
theorem Unanswered.nextSlot (h : Unanswered p r s0 k (k + 1) .high s) (hk : k < 63) (hp : p ∉ s0.cfg.phyPresent)
    (d : Half) : ∃ t, halfClock .read p r d s = .next t ∧ Unanswered p r s0 (k + 1) (k + 1) .low t := by
  have hcfg : s.cfg = s0.cfg := by rw [h.rest]
  obtain ⟨hcount, hphase, hphys, hrx, htaOk, hshift⟩ := nextSlotWire_fields .read p r d s.wire
  have hnext : (s.wire.slot + 1#6).toNat = k + 1 := by
    rw [BitVec.toNat_add, h.slot]
    exact Nat.mod_eq_of_lt (show k + 1 < 64 by omega)
  have hline : lineLevel (nextSlotWire .read p r d s.wire) = (unansweredFrame p r).getLsbD (63 - (k + 1)) := by
    rw [nextSlotWire, hnext]
    exact lineLevel_applyMaster_read d (by omega) h.phys
  have haddr : k + 1 = 47 → rxPhyad (nextSlotWire .read p r d s.wire).rx ∉ s.cfg.phyPresent := fun hturnaround => by
    rw [hrx, h.rx, hturnaround, rxPhyad_unansweredFrame, hcfg]
    exact hp
  have hfalls := halfClock_falls h.phase (h.slot_ne hk) .read p r d
  rw [hnext] at hfalls
  obtain ⟨o, happly⟩ := phyApply_unanswered (s := { s with wire := nextSlotWire .read p r d s.wire }) haddr
  exact ⟨_, hfalls.trans happly, {
    rest := by rw [h.rest]
    slot := (congrArg BitVec.toNat hcount).trans hnext
    phase := hphase
    phys := hphys.trans h.phys
    line := (lineLevel_phyO_unanswered (hphys.trans h.phys) o).trans hline
    rx := hrx.trans h.rx
    taOk := fun hn => htaOk.trans (h.taOk hn)
    shift := fun i hi => (congrArg (·.getLsbD i) hshift).trans (h.shift i hi) }⟩

/-- At the last falling edge all sixteen bits of SHIFT are 1. -/
theorem Unanswered.shift_ones {ph : Phase} (h : Unanswered p r s0 63 64 ph s) : s.wire.shift = 0xFFFF#16 := by
  have hones : ∀ i < 16, (0xFFFF#16).getLsbD i = true := by decide
  exact BitVec.eq_of_getLsbD_eq fun i hi => (h.shift i hi).trans (hones i hi).symm

/-- The frame's levels are a read frame, at whose end no PHY stores (R241). -/
theorem Unanswered.phyStore_eq {ph : Phase} (h : Unanswered p r s0 63 64 ph s) : phyStore s = .next s := by
  have hrx : s.wire.rx = unansweredFrame p r := h.rx
  simp only [phyStore, hrx, unansweredFrame, decodeFrame_read]

/-! ### The whole frame -/

/-- Before the frame ends its record is in flight, and FRAME_READ is a half clock of it. -/
theorem Unanswered.exec_eq {n : Nat} {ph : Phase} (h : Unanswered p r s0 k n ph s)
    (he : s0.mac.eng = .inflight .read p r d) : exec (.frameRead p r) s = halfClock .read p r d s :=
  exec_frameRead_inflight (by rw [h.rest]; exact he)

/-- Two half clocks a slot lead to the beginning of any slot. -/
theorem Unanswered.reached (hstart : FrameStarted .read p r d s0) (hp : p ∉ s0.cfg.phyPresent) (hk : k ≤ 63) :
    ∃ t, execTimes (.frameRead p r) (2 * k) s0 = .next t ∧ Unanswered p r s0 k k .low t := by
  induction k with
  | zero => exact ⟨s0, rfl, .start hstart⟩
  | succ k ih =>
    obtain ⟨t, hrun, ht⟩ := ih (by omega)
    have hu := ht.samples (by omega)
    obtain ⟨v, hfalls, hv⟩ := hu.nextSlot (by omega) hp d
    refine ⟨v, ?_, hv⟩
    rw [show 2 * (k + 1) = 2 * k + (1 + 1) by omega, execTimes_add, hrun, andThen_next, execTimes_add, execTimes_one,
      ht.exec_eq hstart.eng, halfClock_rises ht.phase (ht.slot_ne (by omega)), andThen_next, execTimes_one,
      hu.exec_eq hstart.eng, hfalls]

/-- The 128 half clocks of the frame: SHIFT is loaded as the falling edge of slot 63 finds it (R235). -/
theorem readFrame_unanswered (hstart : FrameStarted .read p r d s0) (hp : p ∉ s0.cfg.phyPresent) :
    ∃ u, execTimes (.frameRead p r) 128 s0 = .next (frameEnd .read u) ∧ Unanswered p r s0 63 64 .high u := by
  obtain ⟨t, hrun, ht⟩ := Unanswered.reached hstart hp (Nat.le_refl 63)
  have hu := ht.samples (by decide)
  refine ⟨_, ?_, hu⟩
  rw [show 128 = 2 * 63 + (1 + 1) by rfl, execTimes_add, hrun, andThen_next, execTimes_add, execTimes_one,
    ht.exec_eq hstart.eng, halfClock_rises_last ht.phase ht.slot_last, hu.phyStore_eq, andThen_next, execTimes_one,
    hu.exec_eq hstart.eng, halfClock_falls_last hu.phase hu.slot_last]

end

/-- Settles O32: at the register level the completion of a write leaves the PHYs and that of a read draws its datum; at
pin level the frame is one that nobody answers. -/
theorem absentPhyCompletes : Obligations.AbsentPhyCompletes := by
  unfold Obligations.AbsentPhyCompletes
  refine ⟨fun s p r rw d ts hturn hpins he hp => ?register, fun s p r d hstart hp => ?pins⟩
  case register =>
    have hstep := step_completes hturn hpins
    cases rw with
    | read =>
      exact ⟨_, hstep.trans (engineComplete_read_absent he hp), rfl, clearBusy_busy _, rfl, rfl, rfl, rfl, rfl, rfl,
        nofun, fun _ => loadDatum_datum _ _⟩
    | write =>
      exact ⟨_, hstep.trans (engineComplete_write he (phyWriteRegs_absent hp _ r d)), rfl, clearBusy_busy _, rfl, rfl,
        rfl, rfl, rfl, rfl, fun _ => rfl, nofun⟩
  case pins =>
    obtain ⟨u, hrun, hu⟩ := readFrame_unanswered hstart hp
    have hrest := hu.rest
    refine ⟨_, hrun, rfl, clearBusy_busy _, (loadDatum_datum _ _).trans hu.shift_ones, hu.shift_ones,
      hu.taOk (by decide), ?_, ?_, ?_, ?_, ?_, ?_⟩
    all_goals rw [hrest]; rfl

end Sys2Proof.Proofs

/-! PROOFS. Encoding what the decoder reads (30_encoding.md R91 to R97; of the EPC word log 21): the fields of an item put
together again are the item. -/

namespace Sys2Proof.Proofs

open Sys2Proof.Machine

/-! ### Command frames (R91) -/

theorem encode_of_decodeCmd {ws : List Word} {i : Instr} (h : decodeCmd ws = .ok i) (c : Config) :
    encode c i = .cmd ws := by
  simp only [decodeCmd] at h
  repeat' split at h
  all_goals cases h
  all_goals subst_vars; rfl

/-! ### The access word and the address-select word (R92, R94) -/

/-- An access word whose bits 31:16 are 0 is the word of its fields. -/
theorem accWord_back {w : Word} (h : accHigh w = 0#16) : accWord (accPhyad w) (accRegad w) (accOp w) = w := by
  have hhigh : w.toNat / 2 ^ 16 = 0 := by rw [← accHigh_toNat, h]; rfl
  apply BitVec.eq_of_toNat_eq
  rw [accWord_toNat]
  simp only [accPhyad, accRegad, accOp, phyadShift_eq, regadShift_eq, BitVec.extractLsb'_toNat,
    Nat.shiftRight_eq_div_pow]
  omega

theorem encode_of_decodeAcc {c : Config} {w : Word} {i : Instr} (h : decodeAcc c w = .ok i) : encode c i = .acc w := by
  obtain ⟨hhigh, ⟨rfl, hop⟩ | ⟨rfl, hop⟩⟩ := decodeAcc_cases h
  · rw [encode, ← hop, accWord_back hhigh]
  · rw [encode, ← hop, accWord_back hhigh]

theorem encode_of_decodeMmd {v : Half} {i : Instr} (h : decodeMmd v = .ok i) (c : Config) : encode c i = .mmd v := by
  rw [decodeMmd] at h
  split at h
  · cases h
  · next hreserved =>
    have hback := mmdWord_back (Bool.eq_false_of_not_eq_true hreserved)
    split at h <;> next hmode => cases h; simpa only [encode, hmode] using congrArg Encoded.mmd hback

/-! ### Request buffers (R95) -/

/-- The word that four bytes make has these bytes. -/
theorem le32_of_bytes (a b c d : Byte) :
    le32 (a.setWidth 32 ||| (b.setWidth 32 <<< 8) ||| (c.setWidth 32 <<< 16) ||| (d.setWidth 32 <<< 24)) =
      [a, b, c, d] := by
  simp only [le32, List.cons.injEq, and_true]
  refine ⟨?_, ?_, ?_, ?_⟩ <;> apply BitVec.eq_of_getLsbD_eq <;> intro i hi <;>
    simp only [BitVec.getLsbD_extractLsb', BitVec.getLsbD_or, BitVec.getLsbD_shiftLeft, BitVec.getLsbD_setWidth]
  · simp [hi, show i < 16 by omega, show i < 24 by omega, show i < 32 by omega]
  · simp [hi, show 8 + i < 16 by omega, show 8 + i < 24 by omega, show 8 + i < 32 by omega, show i < 32 by omega]
  · have ha : 8 ≤ 16 + i := by omega
    have hb : 8 ≤ 16 + i - 8 := by omega
    simp [hi, BitVec.getLsbD_of_ge a _ ha, BitVec.getLsbD_of_ge b _ hb, show 16 + i < 24 by omega,
      show 16 + i < 32 by omega, show i < 32 by omega]
  · have ha : 8 ≤ 24 + i := by omega
    have hb : 8 ≤ 24 + i - 8 := by omega
    have hc : 8 ≤ 24 + i - 16 := by omega
    simp [hi, BitVec.getLsbD_of_ge a _ ha, BitVec.getLsbD_of_ge b _ hb, BitVec.getLsbD_of_ge c _ hc,
      show 24 + i < 32 by omega, show i < 32 by omega]

/-- A word read from a buffer and written again stands for the four bytes it was read from (R142, R144). -/
theorem le32_le32At_append {bytes : List Byte} {k : Nat} (h : k + 4 ≤ bytes.length) :
    le32 (le32At bytes k) ++ bytes.drop (k + 4) = bytes.drop k := by
  have h0 : k < bytes.length := by omega
  have h1 : k + 1 < bytes.length := by omega
  have h2 : k + 2 < bytes.length := by omega
  have h3 : k + 3 < bytes.length := by omega
  rw [le32At, List.getD_eq_getElem _ _ h0, List.getD_eq_getElem _ _ h1, List.getD_eq_getElem _ _ h2,
    List.getD_eq_getElem _ _ h3, le32_of_bytes, List.drop_eq_getElem_cons h0, List.drop_eq_getElem_cons h1,
    List.drop_eq_getElem_cons h2, List.drop_eq_getElem_cons h3]
  rfl

/-- A read request of 16 bytes is the buffer of its fields. -/
theorem drvReadBytes_back {bytes : List Byte} (hlen : bytes.length = 16) (hop : le32At bytes 4 = drvOpRead) :
    drvReadBytes (le32At bytes 0) (le32At bytes 8) (le32At bytes 12) = bytes := by
  have hend : bytes.drop 16 = [] := List.drop_eq_nil_of_le (by omega)
  calc drvReadBytes (le32At bytes 0) (le32At bytes 8) (le32At bytes 12)
      = le32 (le32At bytes 0) ++ (le32 (le32At bytes 4) ++ (le32 (le32At bytes 8) ++
          (le32 (le32At bytes 12) ++ bytes.drop 16))) := by
        simp only [drvReadBytes, hop, hend, List.append_nil, List.append_assoc]
    _ = bytes := by
        rw [le32_le32At_append (k := 12) (by omega), le32_le32At_append (k := 8) (by omega),
          le32_le32At_append (k := 4) (by omega), le32_le32At_append (k := 0) (by omega), List.drop_zero]

/-- A write request of 20 bytes is the buffer of its fields. -/
theorem drvWriteBytes_back {bytes : List Byte} (hlen : bytes.length = 20) (hop : le32At bytes 4 = drvOpWrite) :
    drvWriteBytes (le32At bytes 0) (le32At bytes 8) (le32At bytes 12) (le32At bytes 16) = bytes := by
  have hend : bytes.drop 20 = [] := List.drop_eq_nil_of_le (by omega)
  calc drvWriteBytes (le32At bytes 0) (le32At bytes 8) (le32At bytes 12) (le32At bytes 16)
      = le32 (le32At bytes 0) ++ (le32 (le32At bytes 4) ++ (le32 (le32At bytes 8) ++
          (le32 (le32At bytes 12) ++ (le32 (le32At bytes 16) ++ bytes.drop 20)))) := by
        simp only [drvWriteBytes, hop, hend, List.append_nil, List.append_assoc]
    _ = bytes := by
        rw [le32_le32At_append (k := 16) (by omega), le32_le32At_append (k := 12) (by omega),
          le32_le32At_append (k := 8) (by omega), le32_le32At_append (k := 4) (by omega),
          le32_le32At_append (k := 0) (by omega), List.drop_zero]

theorem encode_of_decodeDrv {bytes : List Byte} {i : Instr} (h : decodeDrv bytes = .ok i) (c : Config) :
    encode c i = .drv bytes := by
  simp only [decodeDrv] at h
  split at h
  · cases h
  · split at h
    · next hop =>
      split at h
      · next hlen => cases h; rw [encode, drvReadBytes_back hlen hop]
      · cases h
    · split at h
      · next hop =>
        split at h
        · next hlen => cases h; rw [encode, drvWriteBytes_back hlen hop]
        · cases h
      · cases h

/-! ### Frames (R97) -/

/-- Slots with the preamble and the start of a frame are the frame of their fields. -/
theorem frameSlots_back {w : BitVec 64} {op : BitVec 2} (hpreamble : w.extractLsb' 32 32 = 0xFFFFFFFF#32)
    (hstart : frameStartOp w = (0b01#2 ++ op : BitVec (2 + 2))) :
    frameSlots op (framePhyad w) (frameRegad w) (frameTurnaround w) (frameData w) = w := by
  obtain ⟨hones, hcode, hta⟩ := frameFields_toNat w
  rw [hpreamble] at hones
  rw [hstart, BitVec.toNat_append, Nat.shiftLeft_eq, or_shift_eq_add _ _ 2 op.isLt] at hcode
  apply BitVec.eq_of_toNat_eq
  rw [frameSlots_toNat, hta]
  simp only [framePhyad, frameRegad, frameData, BitVec.extractLsb'_toNat, Nat.shiftRight_eq_div_pow,
    BitVec.toNat_ofNat] at hones hcode ⊢
  omega

/-- The slots that the master of a read frame releases are the low 18 bits. -/
theorem frameFields_or_released (w : BitVec 64) :
    (w ||| 0x3FFFF#64).extractLsb' 32 32 = w.extractLsb' 32 32 ∧ frameStartOp (w ||| 0x3FFFF#64) = frameStartOp w ∧
    framePhyad (w ||| 0x3FFFF#64) = framePhyad w ∧ frameRegad (w ||| 0x3FFFF#64) = frameRegad w ∧
    frameTurnaround (w ||| 0x3FFFF#64) = 0b11#2 ∧ frameData (w ||| 0x3FFFF#64) = 0xFFFF#16 := by
  have hzero : ∀ start len, (0x3FFFF#64).extractLsb' start len = 0#len →
      (w ||| 0x3FFFF#64).extractLsb' start len = w.extractLsb' start len := fun start len h => by
    rw [BitVec.extractLsb'_or, h, BitVec.or_zero]
  have hones : ∀ start len, (0x3FFFF#64).extractLsb' start len = BitVec.allOnes len →
      (w ||| 0x3FFFF#64).extractLsb' start len = BitVec.allOnes len := fun start len h => by
    rw [BitVec.extractLsb'_or, h, BitVec.or_allOnes]
  exact ⟨hzero _ _ rfl, hzero _ _ rfl, hzero _ _ rfl, hzero _ _ rfl, hones _ _ rfl, hones _ _ rfl⟩

theorem encode_of_decodeFrame {w : BitVec 64} {i : Instr} (h : decodeFrame w = .ok i) (c : Config) :
    encode c i = canonicalItem i (.frame w) := by
  rw [decodeFrame] at h
  split at h
  · cases h
  · next hpreamble =>
    replace hpreamble := not_not.mp hpreamble
    split at h
    · next hread =>
      cases h
      obtain ⟨hones, hstart, hp, hr, hta, hdata⟩ := frameFields_or_released w
      have hback := frameSlots_back (op := 0b10#2) (hones.trans hpreamble) (hstart.trans hread)
      rw [hp, hr, hta, hdata] at hback
      exact congrArg Encoded.frame hback
    · split at h
      · next hwrite =>
        cases h
        obtain ⟨hstart, hta⟩ := hwrite
        have hback := frameSlots_back (op := 0b01#2) hpreamble hstart
        rw [hta] at hback
        exact congrArg Encoded.frame hback
      · cases h

/-! ### The EPC word (log 21) -/

/-- The fields of an EPC word are its bits 2:0, 16:8 and 31:24. -/
theorem epcWord_back (w : Word) : epcWord (epcCode w) (epcAddr w) (epcByte w) = w &&& 0xFF01FF07#32 := by
  have hmask : ∀ k < 32, (0xFF01FF07#32).getLsbD k =
      (decide (k < 3) || (decide (8 ≤ k) && decide (k < 17)) || decide (24 ≤ k)) := by decide
  apply BitVec.eq_of_getLsbD_eq
  intro k hk
  rw [BitVec.getLsbD_and, hmask k hk]
  simp only [epcWord, epcCode, epcAddr, epcByte, BitVec.getLsbD_or, BitVec.getLsbD_shiftLeft, BitVec.getLsbD_setWidth,
    BitVec.getLsbD_extractLsb']
  by_cases h3 : k < 3
  · simp [h3, hk, show k < 8 by omega, show k < 24 by omega]
  by_cases h8 : k < 8
  · simp [h3, h8, show k < 24 by omega, show ¬ 8 ≤ k by omega, show ¬ 24 ≤ k by omega]
  have hback : 8 + (k - 8) = k := by omega
  by_cases h24 : k < 24
  · have hfield : k - 8 < 9 ↔ k < 17 := by omega
    simp [h3, h8, h24, hk, hback, hfield, show k - 8 < 32 by omega, show 8 ≤ k by omega, show ¬ 24 ≤ k by omega,
      Bool.and_comm]
  · simp [h3, h8, h24, hk, show ¬ k - 8 < 9 by omega, show k - 24 < 8 by omega, show k - 24 < 32 by omega,
      show 24 + (k - 24) = k by omega, show 24 ≤ k by omega]

/-- A mask that has every bit of a field leaves the field. -/
theorem extractLsb'_and_kept {m : Word} {start len : Nat} (h : m.extractLsb' start len = BitVec.allOnes len) (w : Word) :
    (w &&& m).extractLsb' start len = w.extractLsb' start len := by
  rw [BitVec.extractLsb'_and, h, BitVec.and_allOnes]

/-- A mask that has no bit of a field clears the field. -/
theorem extractLsb'_and_cleared {m : Word} {start len : Nat} (h : m.extractLsb' start len = 0#len) (w : Word) :
    (w &&& m).extractLsb' start len = 0#len := by
  rw [BitVec.extractLsb'_and, h, BitVec.and_zero]

/-- The word of the code and the address alone. -/
theorem epcWord_code_addr (w : Word) : epcWord (epcCode w) (epcAddr w) 0#8 = w &&& 0x0001FF07#32 := by
  have hcode : epcCode (w &&& 0x0001FF07#32) = epcCode w := extractLsb'_and_kept rfl w
  have haddr : epcAddr (w &&& 0x0001FF07#32) = epcAddr w := extractLsb'_and_kept rfl w
  have hbyte : epcByte (w &&& 0x0001FF07#32) = 0#8 := extractLsb'_and_cleared rfl w
  have hback := epcWord_back (w &&& 0x0001FF07#32)
  rwa [hcode, haddr, hbyte, BitVec.and_assoc] at hback

/-- The word of the code alone. -/
theorem epcWord_code (w : Word) : epcWord (epcCode w) 0#9 0#8 = w &&& 7#32 := by
  have haddr : epcAddr (w &&& 7#32) = 0#9 := extractLsb'_and_cleared rfl w
  have hbyte : epcByte (w &&& 7#32) = 0#8 := extractLsb'_and_cleared rfl w
  have hback := epcWord_back (w &&& 7#32)
  rwa [epcCode_mask, haddr, hbyte, BitVec.and_assoc] at hback

theorem encode_of_decodeEpc {w : Word} {i : Instr} (h : decodeEpc w = .ok i) (c : Config) :
    encode c i = canonicalItem i (.epc w) := by
  have hcode := epcWord_code w
  rw [decodeEpc] at h
  split at h
  · next h0 => cases h; rw [encode, ← h0, epcWord_code_addr]; rfl
  split at h
  · next h1 => cases h; rw [encode, ← h1, hcode]; rfl
  split at h
  · next h2 => cases h; rw [encode, ← h2, hcode]; rfl
  split at h
  · next h3 => cases h; rw [encode, ← h3, epcWord_back]; rfl
  split at h
  · next h6 => cases h; rw [encode, ← h6, hcode]; rfl
  · cases h

/-- Settles O2, carrier by carrier: what the decoder has read the fields of, put together again, is the item, but for the
slots and the bits that the encoder chooses. -/
theorem encodeInvertsDecode : Obligations.EncodeInvertsDecode := by
  unfold Obligations.EncodeInvertsDecode
  intro c e i h
  cases e with
  | cmd ws => exact encode_of_decodeCmd h c
  | acc w => exact encode_of_decodeAcc h
  | mmd v => exact encode_of_decodeMmd h c
  | drv bytes => exact encode_of_decodeDrv h c
  | frame w => exact encode_of_decodeFrame h c
  | epc w => exact encode_of_decodeEpc h c

end Sys2Proof.Proofs

/-! PROOFS. The client operations on PHY registers (45_client_context.md R270 to R277): an edit bit by bit, and the masks of
PHY_SET_SPEED and PHY_SET_MASTER, which the classifiers read back. -/

namespace Sys2Proof.Proofs

open Sys2Proof.Machine

/-! ### The value of an edit (R271) -/

theorem editValue_getLsbD (old setMask clearMask : Half) (k : Nat) :
    (editValue old setMask clearMask).getLsbD k =
      if setMask.getLsbD k then true else if clearMask.getLsbD k then false else old.getLsbD k := by
  by_cases hk : k < 16
  · simp only [editValue, BitVec.getLsbD_or, BitVec.getLsbD_and, BitVec.getLsbD_not, hk, decide_true, Bool.true_and]
    cases setMask.getLsbD k <;> cases clearMask.getLsbD k <;> simp
  · simp [BitVec.getLsbD_of_ge _ k (Nat.not_lt.mp hk)]

/-- An edit repeated finds its bits as it has left them. -/
theorem editValue_idem (old setMask clearMask : Half) :
    editValue (editValue old setMask clearMask) setMask clearMask = editValue old setMask clearMask := by
  apply BitVec.eq_of_getLsbD_eq
  intro k _
  simp only [editValue_getLsbD]
  split <;> simp

/-- In the bits of its masks the value of an edit is the set mask. -/
theorem editValue_and_masks (old setMask clearMask : Half) :
    editValue old setMask clearMask &&& (setMask ||| clearMask) = setMask := by
  apply BitVec.eq_of_getLsbD_eq
  intro k _
  simp only [BitVec.getLsbD_and, BitVec.getLsbD_or, editValue_getLsbD]
  cases setMask.getLsbD k <;> cases clearMask.getLsbD k <;> simp

/-- Outside its masks an edit leaves the register. -/
theorem editValue_and_not_masks (old setMask clearMask : Half) :
    editValue old setMask clearMask &&& ~~~(setMask ||| clearMask) = old &&& ~~~(setMask ||| clearMask) := by
  apply BitVec.eq_of_getLsbD_eq
  intro k _
  simp only [BitVec.getLsbD_and, BitVec.getLsbD_not, BitVec.getLsbD_or, editValue_getLsbD]
  cases setMask.getLsbD k <;> cases clearMask.getLsbD k <;> simp

theorem editWrite_of_ne {old setMask clearMask : Half} (h : editValue old setMask clearMask ≠ old) (c : Config)
    (d r : Word) : editWrite c d r old setMask clearMask = some (phySet c d r (editValue old setMask clearMask)) :=
  if_pos h

theorem editWrite_of_eq {old setMask clearMask : Half} (h : editValue old setMask clearMask = old) (c : Config)
    (d r : Word) : editWrite c d r old setMask clearMask = none :=
  if_neg (not_not_intro h)

/-! ### PHY_EDIT (R104, R271) -/

theorem phyEdit_conflict {setMask clearMask : Half} (h : setMask &&& clearMask ≠ 0#16) (c : Config) (d r : Word) :
    phyEdit c d r setMask clearMask = .error (excMaskConflict (setMask &&& clearMask)) := by
  rw [phyEdit, editCheck, if_pos h]

theorem phyEdit_disjoint {setMask clearMask : Half} (h : setMask &&& clearMask = 0#16) (c : Config) (d r : Word) :
    phyEdit c d r setMask clearMask = .ok ⟨c, d, r, setMask, clearMask⟩ := by
  rw [phyEdit, editCheck, if_neg (not_not_intro h)]

/-- Settles O59: the masks decide whether there is an edit; its value is `editValue_getLsbD` in each bit, and an edit of that
value changes nothing. -/
theorem editIsIdempotent : Obligations.EditIsIdempotent := by
  unfold Obligations.EditIsIdempotent
  intro c d r setMask clearMask
  refine ⟨fun hconflict => phyEdit_conflict hconflict c d r,
    fun hdisjoint => ⟨_, phyEdit_disjoint hdisjoint c d r, rfl, ?_⟩⟩
  exact fun old => ⟨fun k _ => editValue_getLsbD old setMask clearMask k, fun hne => editWrite_of_ne hne c d r,
    fun heq => editWrite_of_eq heq c d r, editWrite_of_eq (editValue_idem old setMask clearMask) c d r⟩

/-! ### PHY_SET_SPEED and PHY_SET_MASTER (R273, R274, R276, R277) -/

theorem phySetSpeed_rejected {speed : Nat} (h100 : speed ≠ 100) (h1000 : speed ≠ 1000) (c : Config) :
    phySetSpeed c speed = .error excSpeed := by
  rw [phySetSpeed, speedMasks, if_neg h1000, if_neg h100]

/-- The masks of a legal speed are bits 13 and 6, one set and one cleared. -/
theorem speedMasks_legal {speed : Nat} (h : speed = 100 ∨ speed = 1000) :
    ∃ setMask clearMask, speedMasks speed = .ok (setMask, clearMask) ∧ setMask &&& clearMask = 0#16 ∧
      setMask ||| clearMask = 0x2040#16 ∧ ∀ v : Half, v &&& 0x2040#16 = setMask → classifySpeed v = some speed := by
  rcases h with rfl | rfl
  · exact ⟨_, _, rfl, by decide, by decide, fun v hv => by simp [classifySpeed, hv]⟩
  · exact ⟨_, _, rfl, by decide, by decide, fun v hv => by simp [classifySpeed, hv]⟩

/-- The masks of either role are bit 14, set or cleared. -/
theorem masterMasks_spec (master : Bool) :
    (masterMasks master).1 &&& (masterMasks master).2 = 0#16 ∧
    (masterMasks master).1 ||| (masterMasks master).2 = 0x4000#16 ∧
    ∀ v : Half, v &&& 0x4000#16 = (masterMasks master).1 → classifyMaster v = master := by
  cases master with
  | false => exact ⟨by decide, by decide, fun v hv => by rw [classifyMaster, hv]; rfl⟩
  | true => exact ⟨by decide, by decide, fun v hv => by rw [classifyMaster, hv]; rfl⟩

theorem phySetSpeed_legal {speed : Nat} (h : speed = 100 ∨ speed = 1000) (c : Config) (old : Half) :
    ∃ e, phySetSpeed c speed = .ok e ∧ editGet e = phyGetSpeed c ∧ classifySpeed (editResult e old) = some speed ∧
      editResult e old &&& 0xDFBF#16 = old &&& 0xDFBF#16 := by
  obtain ⟨setMask, clearMask, hmasks, hdisjoint, hbits, hclassify⟩ := speedMasks_legal h
  have hset := editValue_and_masks old setMask clearMask
  have hrest := editValue_and_not_masks old setMask clearMask
  rw [hbits] at hset hrest
  have hedit : phySetSpeed c speed = phyEdit c 1#32 0x0000#32 setMask clearMask := by rw [phySetSpeed, hmasks]
  exact ⟨_, hedit.trans (phyEdit_disjoint hdisjoint c _ _), rfl, hclassify _ hset, hrest⟩

theorem phySetMaster_spec (master : Bool) (c : Config) (old : Half) :
    ∃ e, phySetMaster c master = .ok e ∧ editGet e = phyGetMaster c ∧ classifyMaster (editResult e old) = master ∧
      editResult e old &&& 0xBFFF#16 = old &&& 0xBFFF#16 := by
  obtain ⟨hdisjoint, hbits, hclassify⟩ := masterMasks_spec master
  have hset := editValue_and_masks old (masterMasks master).1 (masterMasks master).2
  have hrest := editValue_and_not_masks old (masterMasks master).1 (masterMasks master).2
  rw [hbits] at hset hrest
  exact ⟨_, phyEdit_disjoint hdisjoint c _ _, rfl, hclassify _ hset, hrest⟩

/-- Settles O60: each operation is the edit of its masks, in whose bits the value is the set mask, which the classifiers read,
and outside of which it is the old value. -/
theorem speedSetIsSpeedGot : Obligations.SpeedSetIsSpeedGot := by
  unfold Obligations.SpeedSetIsSpeedGot
  intro c old
  refine ⟨fun enable => ?_, fun speed h100 h1000 => phySetSpeed_rejected h100 h1000 c, fun speed hspeed => ?_,
    fun master => ?_⟩
  · cases enable <;> rfl
  · obtain ⟨e, hset, hget, hclassify, hrest⟩ := phySetSpeed_legal hspeed c old
    exact ⟨e, hset, hget, hget, hclassify, hrest⟩
  · obtain ⟨e, hset, hget, hclassify, hrest⟩ := phySetMaster_spec master c old
    exact ⟨e, hset, hget, hget, hclassify, hrest⟩

end Sys2Proof.Proofs

/-! PROOFS. The EPC commands (45_client_context.md R280): the register command that each move of one issues. -/

namespace Sys2Proof.Proofs

open Sys2Proof.Machine

/-! ### What an EPC command issues in each phase -/

/-- The byte that a command hands over before it is submitted. -/
def epcDatum : EpcOp → Option Byte
  | .write _ d => some d
  | _ => none

/-- The five EPC commands are one protocol, of a code, an address and for a write a byte. -/
theorem exec_epcInstr (op : EpcOp) (s : State) :
    exec (epcInstr op) s = epcCommand (epcSubmission op).1 (epcSubmission op).2 (epcDatum op) s := by
  cases op <;> rfl

theorem epcHandOver_eq (op : EpcOp) :
    epcHandOver op = (epcDatum op).map fun d => .regWrite 0x044#32 (d.setWidth 32) := by
  cases op <;> rfl

theorem exec_regRead_idle {s : State} (h : s.seq.mode = .idle) (a : Word) :
    exec (.regRead a) s = .next (accept regReadCommand.code a 0#32 0#32 0#32 s) := by
  simp only [exec, execRegRead, execCommand, h]

theorem exec_regWrite_idle {s : State} (h : s.seq.mode = .idle) (a v : Word) :
    exec (.regWrite a v) s = .next (accept regWriteCommand.code a v 0#32 0#32 s) := by
  simp only [exec, execRegWrite, execCommand, h]

section

variable {op : EpcOp} {s : State} {ph : EpcPhase}

theorem exec_epcInstr_idle (hidle : s.seq.mode = .idle) :
    exec (epcInstr op) s = .next (epcContinue (epcSubmission op).1 (epcSubmission op).2 (epcDatum op) s) := by
  rw [exec_epcInstr, epcCommand_spec, hidle]

/-- A move that issues a REG_READ does what the REG_READ does. -/
theorem issues_regRead {a : RegAddr} (hidle : s.seq.mode = .idle)
    (h : epcContinue (epcSubmission op).1 (epcSubmission op).2 (epcDatum op) s = issueRead a ph s) :
    issues (epcInstr op) (.regRead (a.setWidth 32)) ph s :=
  ⟨_, exec_regRead_idle hidle _, by rw [exec_epcInstr_idle hidle, h]; rfl⟩

/-- A move that issues a REG_WRITE does what the REG_WRITE does. -/
theorem issues_regWrite {a : RegAddr} {v : Word} (hidle : s.seq.mode = .idle)
    (h : epcContinue (epcSubmission op).1 (epcSubmission op).2 (epcDatum op) s = issueWrite a v ph s) :
    issues (epcInstr op) (.regWrite (a.setWidth 32) v) ph s :=
  ⟨_, exec_regWrite_idle hidle _ _, by rw [exec_epcInstr_idle hidle, h]; rfl⟩

end

section

variable {code : BitVec 3} {a : BitVec 9} {byte : Option Byte} {s : State}

theorem epcContinue_start (hph : s.env.epcPhase = .start) :
    epcContinue code a byte s = issueRead epcCommandAddr .polling s := by
  simp only [epcContinue, hph]

/-- A register command that has failed ends the EPC command (R312). -/
theorem epcContinue_failed (hph : s.env.epcPhase ≠ .start) (hst : s.seq.status ≠ 0#32) :
    epcContinue code a byte s = setPhase .start s := by
  cases h : s.env.epcPhase with
  | start => exact absurd h hph
  | polling | data | submitted | settling => simp [epcContinue, h, hst]

theorem epcContinue_polling_busy (hph : s.env.epcPhase = .polling) (hst : s.seq.status = 0#32)
    (hbusy : epcReadBusy s = true) : epcContinue code a byte s = issueRead epcCommandAddr .polling s := by
  simp [epcContinue, hph, hst, hbusy]

theorem epcContinue_polling_handOver {d : Byte} (hph : s.env.epcPhase = .polling) (hst : s.seq.status = 0#32)
    (hclear : epcReadBusy s = false) :
    epcContinue code a (some d) s = issueWrite epcDataAddr (d.setWidth 32) .data s := by
  simp [epcContinue, hph, hst, hclear]

theorem epcContinue_polling_submit (hph : s.env.epcPhase = .polling) (hst : s.seq.status = 0#32)
    (hclear : epcReadBusy s = false) :
    epcContinue code a none s = issueWrite epcCommandAddr (epcRegisterWord code a) .submitted s := by
  simp [epcContinue, hph, hst, hclear]

theorem epcContinue_data (hph : s.env.epcPhase = .data) (hst : s.seq.status = 0#32) :
    epcContinue code a byte s = issueWrite epcCommandAddr (epcRegisterWord code a) .submitted s := by
  simp [epcContinue, hph, hst]

theorem epcContinue_submitted (hph : s.env.epcPhase = .submitted) (hst : s.seq.status = 0#32) :
    epcContinue code a byte s = issueRead epcCommandAddr .settling s := by
  simp [epcContinue, hph, hst]

theorem epcContinue_settling_busy (hph : s.env.epcPhase = .settling) (hst : s.seq.status = 0#32)
    (hbusy : epcReadBusy s = true) : epcContinue code a byte s = issueRead epcCommandAddr .settling s := by
  simp [epcContinue, hph, hst, hbusy]

theorem epcContinue_settling_clear (hph : s.env.epcPhase = .settling) (hclear : epcReadBusy s = false) :
    epcContinue code a byte s = setPhase .start s := by
  simp [epcContinue, hph, hclear]

end

/-- Settles O43: each phase's move is one equation of `epcContinue`, and it issues a register command or ends. -/
theorem epcIssuesRegisterCommands : Obligations.EpcIssuesRegisterCommands := by
  unfold Obligations.EpcIssuesRegisterCommands
  intro op s
  refine ⟨fun hrun => by rw [exec_epcInstr, epcCommand_spec, hrun], fun hidle => ⟨fun hph => ?_, fun hph hst => ?_,
    fun _ hst => ⟨fun hph hbusy => ?_, fun hph hclear => ?_, fun hph => ?_, fun hph => ?_, fun hph hbusy => ?_,
      fun hph hclear => ?_⟩⟩⟩
  · exact issues_regRead hidle (epcContinue_start hph)
  · exact (exec_epcInstr_idle hidle).trans (congrArg _ (epcContinue_failed hph hst))
  · exact issues_regRead hidle (epcContinue_polling_busy hph hst hbusy)
  · rw [epcHandOver_eq]
    cases hdatum : epcDatum op with
    | some d =>
      exact issues_regWrite (a := epcDataAddr) hidle (by rw [hdatum, epcContinue_polling_handOver hph hst hclear])
    | none =>
      exact issues_regWrite (a := epcCommandAddr) hidle (by rw [hdatum, epcContinue_polling_submit hph hst hclear])
  · exact issues_regWrite hidle (epcContinue_data hph hst)
  · exact issues_regRead hidle (epcContinue_submitted hph hst)
  · exact issues_regRead hidle (epcContinue_settling_busy hph hst hbusy)
  · exact (exec_epcInstr_idle hidle).trans (congrArg _ (epcContinue_settling_clear hph hclear))

end Sys2Proof.Proofs

/-! PROOFS. An EPC command from the port to its end (45_client_context.md R280): the run of one register command of it, what
a look at bit 31 and the two register writes do to the EEPROM, and the polls after submission. -/

namespace Sys2Proof.Proofs

open Sys2Proof.Machine

/-! ### The run of a register command (R122, R123) -/

/-- A micro-operation's read of any register, where the Transport performs it: the register read of the MAC, one answer
spent. -/
theorem afterTransport_macRead_performsNext {n : Nat} {s : State} (a : RegAddr) (f : Word → State → State)
    (h : transportPerformsNext (n + 1) s) :
    ∃ s1 t, Spent s s1 ∧ Spent (macRead a s1).2 t ∧ transportPerformsNext n t ∧
      afterTransport (memRead a s) f = .next (f (macRead a s1).1 t) := by
  obtain ⟨s1, t, hs, _, hr, ht⟩ := memRead_performs a (transportPerforms_of_next h)
  exact ⟨s1, t, hs, ht, memRead_performsNext h hr, afterTransport_value hr⟩

/-- The EEPROM, the phase of the EPC command, the looks at bit 31 still scripted and the schedule are as given; the MAC, the
wire, the PHYs, the configuration and the port, which no register command of an EPC command changes, are as in `s0`. -/
structure EpcAt (s0 : State) (e : Eeprom) (ph : EpcPhase) (polls : List Bool) (ts : List Agent) (s : State) : Prop where
  eeprom : s.eeprom = e
  phase : s.env.epcPhase = ph
  polls : s.env.epcPolls = polls
  turns : s.env.turns = ts
  mac : s.mac = s0.mac
  wire : s.wire = s0.wire
  phys : s.phys = s0.phys
  cfg : s.cfg = s0.cfg
  port : s.env.port = s0.env.port

/-- The sequencer runs the register command `c` of address `a` and value `v`, at UPC `k`. -/
structure RunsRegister (c : Command) (a v : Word) (k : BitVec 5) (s : State) : Prop where
  mode : s.seq.mode = .run
  command : commandOf s.seq.cmd = some c
  unused : unusedLatchesZero s.seq
  opa : s.seq.opa = a
  opb : s.seq.opb = v
  upc : s.seq.upc = k

/-- A register command has ended well, with `busy` in bit 31 of RES (R178). -/
structure RegisterDone (busy : Bool) (s : State) : Prop where
  mode : s.seq.mode = .idle
  lock : s.seq.lock = false
  status : s.seq.status = 0#32
  info : s.seq.info = 0#32
  bit : s.seq.res.getLsbD 31 = busy

/-- The next turn has been taken, `ts` being left. -/
def turnTaken (ts : List Agent) (s : State) : State := { s with env := { s.env with turns := ts } }

@[simp] theorem turnTaken_seq (ts : List Agent) (s : State) : (turnTaken ts s).seq = s.seq := rfl

theorem step_turnTaken {s : State} {agent : Agent} {ts : List Agent} (h : s.env.turns = agent :: ts) :
    step s = agentTurn agent (turnTaken ts s) := step_turn h

/-- A step of the sequencer's in RUN executes the micro-operation at UPC. -/
theorem step_microOp {s : State} {c : Command} {op : MicroOp} {ts : List Agent}
    (hturns : s.env.turns = .sequencer :: ts) (hmode : s.seq.mode = .run) (hc : commandOf s.seq.cmd = some c)
    (hunused : unusedLatchesZero s.seq) (hop : c.program[s.seq.upc.toNat]? = some op) :
    step s = execMicroOp c op (turnTaken ts s) := by
  obtain ⟨i, hi⟩ := runningInstr_of_commandOf hc
  have hat : AtMicroOp i op (turnTaken ts s) :=
    ⟨hmode, hi, hunused, by simp only [currentMicroOp, turnTaken_seq, hmode, hc, Option.bind_some, hop]⟩
  obtain ⟨c', _, hc', _, hexec⟩ := exec_atMicroOp hat
  obtain rfl : c' = c := Option.some.inj (hc'.symm.trans hc)
  rw [step_turnTaken hturns, ← hexec]
  simp only [agentTurn, sequencerTurn, turnTaken_seq, hmode, hat.latched]

section

variable {s0 s t : State} {e e' : Eeprom} {ph : EpcPhase} {polls : List Bool} {ts : List Agent} {n : Nat} {c : Command}
  {a v : Word} {k : BitVec 5}

theorem EpcAt.spent (h : EpcAt s0 e ph polls ts s) (hs : Spent s t) : EpcAt s0 e ph polls ts t := by
  obtain ⟨ser, ua, da, i, rfl⟩ := hs
  exact { h with }

/-- A look at bit 31 changes the EEPROM and the script of the looks alone. -/
theorem EpcAt.looked (h : EpcAt s0 e ph polls ts s) (hs : Looked s t) : EpcAt s0 t.eeprom ph t.env.epcPolls ts t := by
  obtain ⟨⟨e', ep, i, rfl⟩, _⟩ := hs
  exact { h with eeprom := rfl, polls := rfl }

theorem EpcAt.taken {agent : Agent} (h : EpcAt s0 e ph polls (agent :: ts) s) :
    EpcAt s0 e ph polls ts (turnTaken ts s) :=
  { h with turns := rfl }

theorem RegisterDone.taken {busy : Bool} (h : RegisterDone busy s) (ts : List Agent) :
    RegisterDone busy (turnTaken ts s) :=
  { h with }

theorem EpcAt.setSeq (h : EpcAt s0 e ph polls ts s) (q : Seq) : EpcAt s0 e ph polls ts { s with seq := q } := { h with }

theorem RunsRegister.of_seq (h : RunsRegister c a v k s) (hseq : t.seq = s.seq) : RunsRegister c a v k t := by
  obtain ⟨hmode, hcommand, hunused, hopa, hopb, hupc⟩ := h
  rw [← hseq] at hmode hcommand hunused hopa hopb hupc
  exact ⟨hmode, hcommand, hunused, hopa, hopb, hupc⟩

theorem RunsRegister.next (h : RunsRegister c a v k s) : RunsRegister c a v (k + 1#5) (nextMicroOp s) :=
  { h with upc := congrArg (· + 1#5) h.upc }

/-- The sequencer's turn taken: the step is the micro-operation at UPC. -/
theorem RunsRegister.step_eq {op : MicroOp} (h : RunsRegister c a v k s) (hop : c.program[k.toNat]? = some op)
    (hat : EpcAt s0 e ph polls (.sequencer :: ts) s) (hn : transportPerformsNext n s) :
    ∃ u, step s = execMicroOp c op u ∧ RunsRegister c a v k u ∧ EpcAt s0 e ph polls ts u ∧ transportPerformsNext n u :=
  ⟨_, step_microOp hat.turns h.mode h.command h.unused (h.upc ▸ hop), { h with }, hat.taken, hn⟩

/-- VALIDATE of an address below 0x1000 (R122, R123). -/
theorem RunsRegister.validate (h : RunsRegister c a v 0#5 s) (hop : c.program[0]? = some .validate)
    (hchecks : c.checks = [(.opa, .regAddr)]) (ha : a.toNat < 0x1000)
    (hat : EpcAt s0 e ph polls (.sequencer :: ts) s) (hn : transportPerformsNext n s) :
    ∃ t, Reaches 1 s t ∧ RunsRegister c a v 1#5 t ∧ EpcAt s0 e ph polls ts t ∧ transportPerformsNext n t := by
  obtain ⟨u, hstep, hu, hatu, hnu⟩ := h.step_eq hop hat hn
  have hpass : firstFailure u.seq c.checks = none := by
    rw [hchecks, firstFailure_none]
    simpa [readLatch, hu.opa] using ha
  exact ⟨nextMicroOp u, .of_step (by rw [hstep, execMicroOp, microValidate, hpass]), hu.next, hatu.setSeq _, hnu⟩

/-- RDREG of the EPC-command register: a look at bit 31 (R124, R280). -/
theorem RunsRegister.look (h : RunsRegister regReadCommand 0x040#32 v 1#5 s)
    (hat : EpcAt s0 e ph polls (.sequencer :: ts) s) (hn : transportPerformsNext (n + 1) s) :
    ∃ s1 t, s1.eeprom = e ∧ s1.env.epcPolls = polls ∧ Reaches 1 s t ∧ RunsRegister regReadCommand 0x040#32 v 2#5 t ∧
      t.seq.res.getLsbD 31 = (epcPoll s1).1 ∧
      EpcAt s0 (epcPoll s1).2.eeprom ph (epcPoll s1).2.env.epcPolls ts t ∧ transportPerformsNext n t := by
  obtain ⟨u, hstep, hu, hatu, hnu⟩ := h.step_eq rfl hat hn
  obtain ⟨s1, t, hs1, ht, hnt, hx⟩ := afterTransport_macRead_performsNext 0x040#12 storeResult hnu
  have hats1 := hatu.spent hs1
  have hlook : Looked s1 (macRead 0x040#12 s1).2 := macRead_looked _ s1
  have hseq : t.seq = u.seq := ht.device.2.trans (hlook.touched.outside.2.1.trans hs1.device.2)
  refine ⟨s1, storeResult (macRead 0x040#12 s1).1 t, hats1.eeprom, hats1.polls, .of_step ?_, ?_, ?_, ?_, hnt⟩
  · rw [hstep, execMicroOp, hu.opa]; exact hx
  · exact { (hu.of_seq hseq).next with }
  · exact withBit_same _ _ (by decide)
  · exact ((hats1.looked hlook).spent ht).setSeq _

/-- The register write of `v` to `a` changes the EEPROM from `e` to `e'`, and nothing else but the count of draws. -/
def WritesEeprom (a v : Word) (e e' : Eeprom) : Prop :=
  ∀ u : State, u.eeprom = e → ∃ i, macWrite (a.setWidth 12) v u =
    .next { u with eeprom := e', env := { u.env with tick := i } }

/-- WRREG of a register of the EEPROM (R125, R280). -/
theorem RunsRegister.write (h : RunsRegister regWriteCommand a v 1#5 s) (hw : WritesEeprom a v e e')
    (hat : EpcAt s0 e ph polls (.sequencer :: ts) s) (hn : transportPerformsNext (n + 1) s) :
    ∃ t, Reaches 1 s t ∧ RunsRegister regWriteCommand a v 2#5 t ∧ EpcAt s0 e' ph polls ts t ∧
      transportPerformsNext n t := by
  obtain ⟨u, hstep, hu, hatu, hnu⟩ := h.step_eq rfl hat hn
  obtain ⟨s1, hs1, hwrite⟩ := afterTransport_write_performsNext (fun _ t => nextMicroOp t) hnu
  have hats1 := hatu.spent hs1
  obtain ⟨i, hmac⟩ := hw s1 hats1.eeprom
  obtain ⟨t, ht, hnt, hx⟩ := hwrite _ hmac
  have hstored : EpcAt s0 e' ph polls ts { s1 with eeprom := e', env := { s1.env with tick := i } } :=
    { hats1 with eeprom := rfl }
  have hseq : t.seq = u.seq := ht.device.2.trans hs1.device.2
  refine ⟨nextMicroOp t, .of_step ?_, (hu.of_seq hseq).next, (hstored.spent ht).setSeq _, hnt⟩
  rw [hstep, execMicroOp, hu.opa, hu.opb]; exact hx

/-- RET (R178). -/
theorem RunsRegister.returned {busy : Bool} (h : RunsRegister c a v 2#5 s) (hop : c.program[2]? = some .ret)
    (hbit : (if c.clearsRes then 0#32 else s.seq.res).getLsbD 31 = busy)
    (hat : EpcAt s0 e ph polls (.sequencer :: ts) s) (hn : transportPerformsNext n s) :
    ∃ t, Reaches 1 s t ∧ RegisterDone busy t ∧ EpcAt s0 e ph polls ts t ∧ transportPerformsNext n t := by
  have hret : c.program[s.seq.upc.toNat]? = some .ret := by rw [h.upc]; exact hop
  exact ⟨_, .of_step (step_microOp hat.turns h.mode h.command h.unused hret), ⟨rfl, rfl, rfl, rfl, hbit⟩,
    EpcAt.setSeq hat.taken _, hn⟩

end

/-! ### The register commands of an EPC command, from the client's turn on -/

/-- An EPC command waits at the port exactly while a register command runs (R24). -/
theorem mustWait_epcInstr (op : EpcOp) (s : State) : mustWait (epcInstr op) s = (s.seq.mode == .run) := by
  cases op <;> rfl

/-- An EPC command stays at the port until its phase is that of none (R280). -/
theorem staysAtPort_epcInstr (op : EpcOp) (s : State) :
    staysAtPort (epcInstr op) s = (s.env.epcPhase != .start) := by
  cases op <;> rfl

/-- The EPC command is at the head of the port. -/
def Presents (op : EpcOp) (s : State) : Prop :=
  ∃ item items, s.env.port = item :: items ∧ decode s.cfg item = .ok (epcInstr op)

/-- The client's turn in IDLE moves the EPC command at the head of the port. -/
theorem clientTurn_epcInstr {op : EpcOp} {s t : State} (hp : Presents op s) (hidle : s.seq.mode = .idle)
    (hexec : exec (epcInstr op) s = .next t) : clientTurn s = .next (retire (epcInstr op) t) := by
  obtain ⟨item, items, hport, hdecode⟩ := hp
  have hwait : mustWait (epcInstr op) s = false := by rw [mustWait_epcInstr, hidle]; rfl
  simp only [clientTurn, hport, hdecode, hwait, hexec, andThen_next, Bool.false_eq_true, if_false]

/-- A step of the client's that finds the sequencer idle. -/
theorem step_epcInstr {op : EpcOp} {s t : State} {ts : List Agent} (hp : Presents op s)
    (hturns : s.env.turns = .client :: ts) (hidle : s.seq.mode = .idle)
    (hexec : exec (epcInstr op) (turnTaken ts s) = .next t) :
    step s = .next (retire (epcInstr op) t) :=
  (step_turnTaken hturns).trans (clientTurn_epcInstr (s := turnTaken ts s) hp hidle hexec)

section

variable {s0 s : State} {op : EpcOp} {e e' : Eeprom} {ph ph' : EpcPhase} {polls : List Bool} {ts : List Agent} {n : Nat}
  {a v : Word}

theorem EpcAt.presents (hat : EpcAt s0 e ph polls ts s) (hp : Presents op s0) : Presents op s := by
  rwa [Presents, hat.port, hat.cfg]

/-- The client issues a register command, which is accepted (R24). -/
theorem EpcAt.issue {c : Command} {j : Instr} (hat : EpcAt s0 e ph polls (.client :: ts) s) (hp : Presents op s0)
    (hidle : s.seq.mode = .idle) (hn : transportPerformsNext n s) (hph : ph' ≠ .start)
    (hissues : issues (epcInstr op) j ph' (turnTaken ts s))
    (hj : ∀ u, u.seq.mode = .idle → exec j u = .next (accept c.code a v 0#32 0#32 u))
    (hc : commandOf c.code = some c) (hunused : ∀ u, unusedLatchesZero (accept c.code a v 0#32 0#32 u).seq) :
    ∃ t, Reaches 1 s t ∧ RunsRegister c a v 0#5 t ∧ EpcAt s0 e ph' polls ts t ∧ transportPerformsNext n t := by
  obtain ⟨t, hexec, hissue⟩ := hissues
  have hstep := step_epcInstr (hat.presents hp) hat.turns hidle hissue
  cases (hj (turnTaken ts s) hidle).symm.trans hexec
  rw [retire, staysAtPort_epcInstr, if_pos (by simpa using hph)] at hstep
  exact ⟨_, .of_step hstep, ⟨rfl, hc, hunused s, rfl, rfl, rfl⟩, { hat with phase := rfl, turns := rfl }, hn⟩

/-- A REG_READ of the EPC-command register that an EPC command issues, run to its end. -/
theorem EpcAt.looks (hat : EpcAt s0 e ph polls (.client :: sequencerTurns 3 ++ ts) s) (hp : Presents op s0)
    (hidle : s.seq.mode = .idle) (hn : transportPerformsNext (n + 1) s) (hph : ph' ≠ .start)
    (hissues : issues (epcInstr op) (.regRead 0x040#32) ph' (turnTaken (sequencerTurns 3 ++ ts) s)) :
    ∃ s1 t, s1.eeprom = e ∧ s1.env.epcPolls = polls ∧ Reaches 4 s t ∧ RegisterDone (epcPoll s1).1 t ∧
      EpcAt s0 (epcPoll s1).2.eeprom ph' (epcPoll s1).2.env.epcPolls ts t ∧ transportPerformsNext n t := by
  obtain ⟨t1, r1, h1, hat1, hn1⟩ := hat.issue (c := regReadCommand) hp hidle hn hph hissues
    (fun _ h => exec_regRead_idle h _) rfl (fun u => by simp [unusedLatchesZero, accept, regReadCommand])
  obtain ⟨t2, r2, h2, hat2, hn2⟩ := h1.validate rfl rfl (by decide) hat1 hn1
  obtain ⟨s1, t3, he, hpolls, r3, h3, hbit, hat3, hn3⟩ := h2.look hat2 hn2
  obtain ⟨t4, r4, h4, hat4, hn4⟩ := h3.returned rfl hbit hat3 hn3
  exact ⟨s1, t4, he, hpolls, ((r1.trans r2).trans r3).trans r4, h4, hat4, hn4⟩

/-- A REG_WRITE to a register of the EEPROM that an EPC command issues, run to its end. -/
theorem EpcAt.writes (hat : EpcAt s0 e ph polls (.client :: sequencerTurns 3 ++ ts) s) (hp : Presents op s0)
    (hidle : s.seq.mode = .idle) (hn : transportPerformsNext (n + 1) s) (hph : ph' ≠ .start)
    (hissues : issues (epcInstr op) (.regWrite a v) ph' (turnTaken (sequencerTurns 3 ++ ts) s))
    (ha : a.toNat < 0x1000) (hw : WritesEeprom a v e e') :
    ∃ t, Reaches 4 s t ∧ RegisterDone false t ∧ EpcAt s0 e' ph' polls ts t ∧ transportPerformsNext n t := by
  obtain ⟨t1, r1, h1, hat1, hn1⟩ := hat.issue (c := regWriteCommand) hp hidle hn hph hissues
    (fun _ h => exec_regWrite_idle h _ _) rfl (fun u => by simp [unusedLatchesZero, accept, regWriteCommand])
  obtain ⟨t2, r2, h2, hat2, hn2⟩ := h1.validate rfl rfl ha hat1 hn1
  obtain ⟨t3, r3, h3, hat3, hn3⟩ := h2.write hw hat2 hn2
  obtain ⟨t4, r4, h4, hat4, hn4⟩ := h3.returned (busy := false) rfl (by simp [regWriteCommand]) hat3 hn3
  exact ⟨t4, ((r1.trans r2).trans r3).trans r4, h4, hat4, hn4⟩

end

/-! ### The EEPROM's registers (log 21, log 22) -/

/-- A look that finds the command still in progress. -/
theorem epcPoll_waits {s : State} {op : EpcOp} {rest : List Bool} (h : s.eeprom.inProgress = some op)
    (hpolls : s.env.epcPolls = false :: rest) :
    epcPoll s = (true, { s with env := { s.env with epcPolls := rest } }) := by
  simp [epcPoll, takeEpcPoll, h, hpolls]

/-- A look that finds the command completed. -/
theorem epcPoll_completes {s : State} {op : EpcOp} {rest : List Bool} (h : s.eeprom.inProgress = some op)
    (hpolls : s.env.epcPolls = true :: rest) :
    epcPoll s = (false, epcComplete op { s with env := { s.env with epcPolls := rest } }) := by
  simp [epcPoll, takeEpcPoll, h, hpolls]

theorem writesEeprom_data (d : Byte) (e : Eeprom) :
    WritesEeprom 0x044#32 (d.setWidth 32) e { e with data := d } := by
  rintro u rfl
  have hd : (d.setWidth 32).setWidth 8 = d := BitVec.setWidth_setWidth_of_le d (by decide)
  exact ⟨u.env.tick, (macWrite_epcData _ u).trans (by rw [hd])⟩

/-- The fields that a command is submitted with, the data register holding its byte, are those of the command (R280). -/
theorem epcOfFields_submission (op : EpcOp) (b : Byte) :
    epcOfFields (epcSubmission op).1 (epcSubmission op).2 ((epcDatum op).getD b) = some op := by
  cases op <;> rfl

/-- The EEPROM once a command has been submitted: the data register has the byte of a write. -/
def submittedEeprom (op : EpcOp) (e : Eeprom) : Eeprom :=
  { e with data := (epcDatum op).getD e.data, inProgress := some op }

/-- The word of a command submits it where none is in progress, whatever the layout (log 21). -/
theorem writesEeprom_submit {op : EpcOp} {e : Eeprom} (h : e.inProgress = none) :
    WritesEeprom 0x040#32 (epcRegisterWord (epcSubmission op).1 (epcSubmission op).2)
      { e with data := (epcDatum op).getD e.data } (submittedEeprom op e) := by
  intro u hu
  have hword : epcOfRegisterWord (epcRegisterWord (epcSubmission op).1 (epcSubmission op).2) u.eeprom.data = some op := by
    rw [epcOfRegisterWord_word, hu, epcOfFields_submission]
  obtain ⟨o, hwrite, hnew, _⟩ := epcCommandWrite_legal hword
  obtain rfl := hnew (by rw [hu]; exact h)
  rw [hu] at hwrite
  exact ⟨u.env.tick + 1, hwrite⟩

/-- The EEPROM once a command has completed, some free values drawn (R280). -/
def completedEeprom (op : EpcOp) (drawn : Byte) (erases : Bool) (fresh : Nat) (e : Eeprom) : Eeprom :=
  { epcEffect op drawn erases fresh (submittedEeprom op e) with inProgress := none }

/-! ### From the port to the end -/

/-- The register writes of a submission: the byte of a write, and the command. -/
def submissionWrites (op : EpcOp) : Nat := if (epcDatum op).isSome then 2 else 1

theorem epcRegisterCommands_eq (op : EpcOp) (n : Nat) :
    epcRegisterCommands op n = n + 1 + submissionWrites op + 1 := by
  cases op <;> simp only [epcRegisterCommands, epcHandOver, submissionWrites, epcDatum, Option.isSome, if_true,
    Bool.false_eq_true, if_false] <;> omega

section

variable {s0 s : State} {op : EpcOp} {e : Eeprom} {ph : EpcPhase} {polls rest : List Bool} {ts : List Agent} {k : Nat}
  {busy : Bool}

/-- The first poll finds no command in progress. -/
theorem EpcAt.polls_clear (hat : EpcAt s0 e .start polls (epcTurns (k + 1) ++ ts) s) (hp : Presents op s0)
    (hidle : s.seq.mode = .idle) (hn : transportPerformsNext (k + 1) s) (hnone : e.inProgress = none) :
    ∃ t, Reaches 4 s t ∧ RegisterDone false t ∧ EpcAt s0 e .polling polls (epcTurns k ++ ts) t ∧
      transportPerformsNext k t := by
  obtain ⟨s1, t, he, hpolls, hrun, hdone, hatt, hnt⟩ := EpcAt.looks (ph' := .polling) (ts := epcTurns k ++ ts) hat hp
    hidle hn (by decide) (issues_regRead (a := epcCommandAddr) hidle (epcContinue_start hat.phase))
  rw [epcPoll_none (he ▸ hnone)] at hdone hatt
  rw [he, hpolls] at hatt
  exact ⟨t, hrun, hdone, hatt, hnt⟩

/-- A write hands over its byte. -/
theorem EpcAt.hands_over {d : Byte} (hat : EpcAt s0 e .polling polls (epcTurns (k + 1) ++ ts) s) (hp : Presents op s0)
    (hdone : RegisterDone false s) (hn : transportPerformsNext (k + 1) s) (hdatum : epcDatum op = some d) :
    ∃ t, Reaches 4 s t ∧ RegisterDone false t ∧ EpcAt s0 { e with data := d } .data polls (epcTurns k ++ ts) t ∧
      transportPerformsNext k t :=
  EpcAt.writes (ts := epcTurns k ++ ts) hat hp hdone.mode hn (by decide)
    (issues_regWrite (a := epcDataAddr) hdone.mode
      (by rw [hdatum]; exact epcContinue_polling_handOver hat.phase hdone.status hdone.bit))
    (by decide) (writesEeprom_data d e)

/-- The command is submitted, a write after its byte. -/
theorem EpcAt.submits (hat : EpcAt s0 { e with data := (epcDatum op).getD e.data } ph polls (epcTurns (k + 1) ++ ts) s)
    (hp : Presents op s0) (hdone : RegisterDone false s) (hn : transportPerformsNext (k + 1) s)
    (hph : ph = .data ∨ ph = .polling ∧ epcDatum op = none) (hnone : e.inProgress = none) :
    ∃ t, Reaches 4 s t ∧ RegisterDone false t ∧
      EpcAt s0 (submittedEeprom op e) .submitted polls (epcTurns k ++ ts) t ∧ transportPerformsNext k t := by
  refine EpcAt.writes (ts := epcTurns k ++ ts) hat hp hdone.mode hn (by decide)
    (issues_regWrite (a := epcCommandAddr) hdone.mode ?_) (by decide) (writesEeprom_submit hnone)
  rcases hph with rfl | ⟨rfl, hdatum⟩
  · exact epcContinue_data hat.phase hdone.status
  · rw [hdatum]
    exact epcContinue_polling_submit hat.phase hdone.status hdone.bit

/-- A poll after submission is issued where the command has just been submitted, and where the last one read bit 31 set. -/
theorem EpcAt.issues_poll (hat : EpcAt s0 e ph polls ts s) (hdone : RegisterDone busy s)
    (hph : ph = .submitted ∨ ph = .settling ∧ busy = true) :
    issues (epcInstr op) (.regRead 0x040#32) .settling s := by
  rcases hph with rfl | ⟨rfl, rfl⟩
  · exact issues_regRead hdone.mode (epcContinue_submitted hat.phase hdone.status)
  · exact issues_regRead hdone.mode (epcContinue_settling_busy hat.phase hdone.status hdone.bit)

/-- The polls after submission: `k` find the command in progress, and the next one finds it completed (R280, log 22). -/
theorem EpcAt.settles (hat : EpcAt s0 e ph (List.replicate k false ++ true :: rest) (epcTurns (k + 1) ++ ts) s)
    (hp : Presents op s0) (hdone : RegisterDone busy s) (hn : transportPerformsNext (k + 1) s)
    (hph : ph = .submitted ∨ ph = .settling ∧ busy = true) (hop : e.inProgress = some op) :
    ∃ t drawn erases fresh, Reaches (4 * (k + 1)) s t ∧ RegisterDone false t ∧
      EpcAt s0 { epcEffect op drawn erases fresh e with inProgress := none } .settling rest (.client :: ts) t := by
  induction k generalizing s ph busy with
  | zero =>
    obtain ⟨s1, t, he, hpolls, hrun, hdone', hatt, _⟩ := EpcAt.looks (ph' := .settling) (ts := .client :: ts) hat hp
      hdone.mode hn (by decide) (EpcAt.issues_poll (EpcAt.taken hat) (hdone.taken _) hph)
    rw [epcPoll_completes (he ▸ hop) hpolls] at hdone' hatt
    subst he
    exact ⟨t, _, _, _, hrun, hdone', hatt⟩
  | succ k ih =>
    obtain ⟨s1, t, he, hpolls, hrun, hdone', hatt, hnt⟩ := EpcAt.looks (ph' := .settling) (ts := epcTurns (k + 1) ++ ts)
      hat hp hdone.mode hn (by decide) (EpcAt.issues_poll (EpcAt.taken hat) (hdone.taken _) hph)
    rw [epcPoll_waits (he ▸ hop) hpolls] at hdone' hatt
    subst he
    obtain ⟨u, drawn, erases, fresh, hrun', hu⟩ := ih hatt hdone' hnt (.inr ⟨rfl, rfl⟩)
    exact ⟨u, drawn, erases, fresh, (by omega : 4 + 4 * (k + 1) = 4 * (k + 1 + 1)) ▸ hrun.trans hrun', hu⟩

/-- The poll that has read bit 31 clear ends the command, which leaves the port. -/
theorem EpcAt.ends (hat : EpcAt s0 e .settling polls (.client :: ts) s) (hp : Presents op s0)
    (hdone : RegisterDone false s) :
    ∃ t, Reaches 1 s t ∧ RegisterDone false t ∧ EpcAt (popPort s0) e .start polls ts t := by
  have hexec := exec_epcInstr_idle (op := op) (hdone.taken ts).mode
  rw [epcContinue_settling_clear hat.taken.phase (hdone.taken ts).bit] at hexec
  have hstep := step_epcInstr (hat.presents hp) hat.turns hdone.mode hexec
  rw [retire, staysAtPort_epcInstr, if_neg (by simp)] at hstep
  exact ⟨_, .of_step hstep, { hdone with }, { hat with
    phase := rfl, turns := rfl, port := congrArg List.tail hat.port }⟩

/-- From the poll that has read bit 31 clear to the submission: the byte of a write, then the command. -/
theorem EpcAt.hands_over_submits
    (hat : EpcAt s0 e .polling polls (epcTurns (k + submissionWrites op) ++ ts) s) (hp : Presents op s0)
    (hdone : RegisterDone false s) (hn : transportPerformsNext (k + submissionWrites op) s)
    (hnone : e.inProgress = none) :
    ∃ t, Reaches (4 * submissionWrites op) s t ∧ RegisterDone false t ∧
      EpcAt s0 (submittedEeprom op e) .submitted polls (epcTurns k ++ ts) t ∧ transportPerformsNext k t := by
  cases hdatum : epcDatum op with
  | none =>
    have hcount : submissionWrites op = 1 := by rw [submissionWrites, hdatum]; rfl
    have hsame : e = { e with data := (epcDatum op).getD e.data } := by rw [hdatum]; rfl
    rw [hcount] at hat hn ⊢
    rw [hsame] at hat
    exact hat.submits hp hdone hn (.inr ⟨rfl, hdatum⟩) hnone
  | some d =>
    have hcount : submissionWrites op = 2 := by rw [submissionWrites, hdatum]; rfl
    have hbyte : d = (epcDatum op).getD e.data := by rw [hdatum]; rfl
    rw [hcount] at hat hn ⊢
    obtain ⟨t, hrun, hdone', hatt, hnt⟩ := hat.hands_over (k := k + 1) hp hdone hn hdatum
    rw [hbyte] at hatt
    obtain ⟨u, hrun', hu⟩ := hatt.submits hp hdone' hnt (.inl rfl) hnone
    exact ⟨u, hrun.trans hrun', hu⟩

/-- An EPC command from the port to its end. -/
theorem epcCommand_runs {n : Nat} (hready : ReadyFor (epcRegisterCommands op n) s) (hphase : s.env.epcPhase = .start)
    (hnone : s.eeprom.inProgress = none) (hp : Presents op s)
    (hturns : s.env.turns = epcTurns (epcRegisterCommands op n) ++ ts)
    (hpolls : s.env.epcPolls = List.replicate n false ++ true :: rest) :
    ∃ t drawn erases fresh, Reaches (4 * epcRegisterCommands op n + 1) s t ∧ RegisterDone false t ∧
      EpcAt (popPort s) (completedEeprom op drawn erases fresh s.eeprom) .start rest ts t := by
  have hn := hready.answers
  rw [epcRegisterCommands_eq] at hturns hn ⊢
  have hat : EpcAt s s.eeprom .start (List.replicate n false ++ true :: rest)
      (epcTurns (n + 1 + submissionWrites op + 1) ++ ts) s := ⟨rfl, hphase, hpolls, hturns, rfl, rfl, rfl, rfl, rfl⟩
  obtain ⟨t1, r1, h1, hat1, hn1⟩ := hat.polls_clear hp hready.idle hn hnone
  obtain ⟨t2, r2, h2, hat2, hn2⟩ := hat1.hands_over_submits hp h1 hn1 hnone
  obtain ⟨t3, drawn, erases, fresh, r3, h3, hat3⟩ := hat2.settles hp h2 hn2 (.inl rfl) rfl
  obtain ⟨t4, r4, h4, hat4⟩ := hat3.ends hp h3
  have hrun := ((r1.trans r2).trans r3).trans r4
  exact ⟨t4, drawn, erases, fresh, (by omega : 4 + 4 * submissionWrites op + 4 * (n + 1) + 1 =
    4 * (n + 1 + submissionWrites op + 1) + 1) ▸ hrun, h4, hat4⟩

end

/-! ### The effect of each command (R280) -/

section

variable {drawn : Byte} {erases : Bool} {fresh : Nat} {e : Eeprom}

theorem completedEeprom_read (a : BitVec 9) (h : e.inProgress = none) :
    completedEeprom (.read a) drawn erases fresh e = { e with data := eepromAt e a } := by
  cases e; cases h; rfl

theorem completedEeprom_writeEnable (h : e.inProgress = none) :
    completedEeprom .writeEnable drawn erases fresh e = { e with enabled := true } := by
  cases e; cases h; rfl

theorem completedEeprom_writeDisable (h : e.inProgress = none) :
    completedEeprom .writeDisable drawn erases fresh e = { e with enabled := false } := by
  cases e; cases h; rfl

theorem eepromAt_setEeprom_same (e : Eeprom) (a : BitVec 9) (d : Byte) : eepromAt (setEeprom a d e) a = d := by
  simp [eepromAt, setEeprom, memory_read_write_same]

theorem eepromAt_setEeprom_other (e : Eeprom) {a b : BitVec 9} (d : Byte) (h : b ≠ a) :
    eepromAt (setEeprom a d e) b = eepromAt e b := by
  have hkey : b.toNat ≠ a.toNat := fun k => h (BitVec.eq_of_toNat_eq k)
  simp [eepromAt, setEeprom, memory_read_write_other _ _ _ _ hkey]

/-- EPC_WRITE stores its byte where write-enable is set; the data register has it in any case. -/
theorem completedEeprom_write (a : BitVec 9) (d : Byte) :
    (completedEeprom (.write a d) drawn erases fresh e).data = d ∧
    (completedEeprom (.write a d) drawn erases fresh e).enabled = e.enabled ∧
    (e.enabled = true → eepromAt (completedEeprom (.write a d) drawn erases fresh e) a = d) ∧
    ∀ b, b ≠ a → eepromAt (completedEeprom (.write a d) drawn erases fresh e) b = eepromAt e b := by
  refine ⟨rfl, rfl, fun henabled => ?_, fun b hb => ?_⟩
  · exact (eepromAt_setEeprom_same _ a _).trans (if_pos henabled)
  · exact eepromAt_setEeprom_other (submittedEeprom (.write a d) e) _ hb

theorem completedEeprom_eraseAll_eq :
    completedEeprom .eraseAll drawn erases fresh e =
      if (e.enabled || erases) = true then { e with cells := [], epoch := fresh, inProgress := none }
      else { e with inProgress := none } := by
  have henabled : (submittedEeprom .eraseAll e).enabled = e.enabled := rfl
  rw [completedEeprom, epcEffect, henabled]
  split <;> rfl

/-- EPC_ERASE_ALL leaves the EEPROM with no byte written, or as it was; with write-enable the former. -/
theorem completedEeprom_eraseAll :
    (completedEeprom .eraseAll drawn erases fresh e).data = e.data ∧
    (completedEeprom .eraseAll drawn erases fresh e).enabled = e.enabled ∧
    (e.enabled = true → (completedEeprom .eraseAll drawn erases fresh e).cells = []) ∧
    ((completedEeprom .eraseAll drawn erases fresh e).cells = [] ∨
      (completedEeprom .eraseAll drawn erases fresh e).cells = e.cells ∧
      (completedEeprom .eraseAll drawn erases fresh e).epoch = e.epoch) := by
  rw [completedEeprom_eraseAll_eq]
  split
  · exact ⟨rfl, rfl, fun _ => rfl, .inl rfl⟩
  · next h => exact ⟨rfl, rfl, fun henabled => absurd (by rw [henabled]; rfl) h, .inr ⟨rfl, rfl⟩⟩

/-- A byte where none is written since the last erasure. -/
theorem eepromAt_of_erased (h : e.cells = []) (a : BitVec 9) : eepromAt e a = Config.unwrittenEeprom e.epoch a := by
  simp [eepromAt, h, Memory.read]

end

/-- Settles O44: the run from the port to the end leaves the EEPROM as the command's effect does, once its register has
taken the byte of a write. -/
theorem epcCompletes : Obligations.EpcCompletes := by
  unfold Obligations.EpcCompletes
  intro op n s item items ts rest k hready hphase hnone hport hdecode hturns hpolls
  obtain ⟨t, drawn, erases, fresh, hrun, hdone, hat⟩ :=
    epcCommand_runs hready hphase hnone ⟨item, items, hport, hdecode⟩ hturns hpolls
  have heeprom := hat.eeprom
  refine ⟨t, hrun, hdone.mode, hdone.lock, hdone.status, hdone.info, hdone.bit, by rw [heeprom]; rfl, ?_, ?_, ?_, ?_, ?_,
    hat.mac, hat.wire, hat.phys, hat.cfg, hat.port.trans (congrArg List.tail hport), hat.turns, hat.polls, hat.phase⟩ <;>
    rw [heeprom]
  · rintro a rfl
    exact completedEeprom_read a hnone
  · rintro a d rfl
    exact completedEeprom_write a d
  · rintro rfl
    exact completedEeprom_writeEnable hnone
  · rintro rfl
    exact completedEeprom_writeDisable hnone
  · rintro rfl
    obtain ⟨hdata, henabled, herased, hcells⟩ := completedEeprom_eraseAll (drawn := drawn) (erases := erases)
      (fresh := fresh) (e := s.eeprom)
    exact ⟨hdata, henabled, fun h a => eepromAt_of_erased (herased h) a, hcells⟩

end Sys2Proof.Proofs

/-! PROOFS. Transport errors (60_exceptions.md R312, R320; R67, R144 to R149): an IoError or Timeout of either Transport
ends the command with its own exception, whatever a failed write has done to its register. -/

namespace Sys2Proof.Proofs

open Sys2Proof.Machine

/-! ### A register write that an error may have let through (R67) -/

/-- A register write, let through or not, sees neither the serializer nor the scripts, and leaves them. -/
theorem macWriteIf_scripts {yes : Bool} {a : RegAddr} {v : Word} {s u : State} (hw : macWriteIf yes a v s = .next u)
    (ser : Ser) (ua : List UsbAnswer) (da : List DriverAnswer) :
    macWriteIf yes a v { s with ser := ser, env := { s.env with usbAnswers := ua, driverAnswers := da } } =
      .next { u with ser := ser, env := { u.env with usbAnswers := ua, driverAnswers := da } } := by
  cases yes with
  | false =>
    rw [macWriteIf_false] at hw ⊢
    rw [Host.Outcome.next.inj hw]
  | true =>
    have hscripts := macWrite_scripts a v s ser ua da
    rwa [macWrite, macWrite, hw, andThen_next] at hscripts

/-! ### What a raising answer comes to -/

section
variable {isRead reached : Bool} {a : RegAddr} {v : Word} {e : Exc} {s u : State}

/-- The USB Transport's next answer has been taken, `rest` being left. -/
def usbTaken (rest : List UsbAnswer) (s : State) : State := { s with env := { s.env with usbAnswers := rest } }

/-- A USB answer that raises is handed on with its class, sub-cause and detail; the write is made where it has reached
the register (R126, R67). -/
theorem usb_raises (a : RegAddr) (v : Word) (hu : s.cfg.transport = .usb)
    (h : transportRaises isRead s = some (e, reached)) :
    ∃ rest, usbRead a s = (.raised e, usbTaken rest s) ∧
      usbWrite a v s = andThen (macWriteIf reached a v (usbTaken rest s)) fun u => .next (.raised e, u) := by
  simp only [transportRaises, hu] at h
  split at h
  · next rest hans =>
    cases h
    refine ⟨rest, ?_, ?_⟩ <;> simp only [usbRead, usbWrite, takeUsbAnswer, hans, usbTaken]
  · next rest hans =>
    cases h
    refine ⟨rest, ?_, ?_⟩ <;> simp only [usbRead, usbWrite, takeUsbAnswer, hans, usbTaken]
  · cases h

/-- A driver's answer that raises lets through what has reached the register, no read ever, and settles as its exception
(R144 to R149). -/
theorem driverAnswer_of_raises (hd : s.cfg.transport = .driver) (h : transportRaises isRead s = some (e, reached)) :
    ∃ ans rest, s.env.driverAnswers = ans :: rest ∧ answerLands ans isRead = (reached && !isRead) ∧
      ∀ (w : Word) (t : State), t.ser.retry = busyAnswers s → t.cfg = s.cfg →
        ∃ r, settleExchange ans isRead w t = (.raised e, { t with ser := r }) := by
  simp only [transportRaises, hd] at h
  split at h
  · next code _ rest hans =>
    cases h
    exact ⟨_, rest, hans, rfl, fun w t hn _ => ⟨_, settleExchange_failed hn code⟩⟩
  · next rsp landing rest hans =>
    refine ⟨_, rest, hans, ?_⟩
    by_cases hshort : rsp.length < 12
    · rw [if_pos hshort] at h
      cases h
      exact ⟨by rw [answerLands, parseResponse_short hshort, landed],
        fun w t hn _ => ⟨_, settleExchange_short hn hshort⟩⟩
    rw [if_neg hshort] at h
    have hlen := Nat.not_lt.mp hshort
    by_cases hbusy : le32At rsp 8 = 4#32
    · rw [if_pos hbusy] at h
      split at h
      · next hlimit =>
        cases h
        exact ⟨by rw [answerLands, parseResponse_busy hlen hbusy, landed, Bool.false_and],
          fun w t hn hcfg => ⟨_, settleExchange_busyLimit hn hlen hbusy (hcfg ▸ hlimit)⟩⟩
      · cases h
    rw [if_neg hbusy] at h
    by_cases hok : le32At rsp 8 = 0#32
    · rw [if_neg (not_not_intro hok)] at h
      by_cases hexact : rsp.length ≠ if isRead then 16 else 12
      · rw [if_pos hexact] at h
        cases h
        exact ⟨by rw [answerLands, parseResponse_ok_length hlen hexact hok, landed],
          fun w t hn _ => ⟨_, settleExchange_ok_length hn hlen hexact hok⟩⟩
      · rw [if_neg hexact] at h
        cases h
    · rw [if_pos hok] at h
      cases h
      exact ⟨by rw [answerLands, parseResponse_status hlen hbusy hok, landed],
        fun w t hn _ => ⟨_, settleExchange_status hn hlen hbusy hok⟩⟩
  · cases h

/-! ### A Transport operation that raises -/

/-- A register read that the Transport answers with an exception: nothing of the device changes. -/
theorem memRead_raises (a : RegAddr) (h : transportRaises true s = some (e, reached)) :
    ∃ t, memRead a s = .next (.raised e, t) ∧ Spent s t := by
  cases hk : s.cfg.transport with
  | usb =>
    obtain ⟨rest, hread, -⟩ := usb_raises a 0#32 hk h
    exact ⟨usbTaken rest s, by rw [memRead, hk, hread], ⟨s.ser, rest, s.env.driverAnswers, s.env.tick, rfl⟩⟩
  | driver =>
    obtain ⟨ans, rest, hans, hlands, hsettle⟩ := driverAnswer_of_raises hk h
    rw [Bool.not_true, Bool.and_false] at hlands
    obtain ⟨r, hx⟩ := hsettle 0#32 (answerTaken rest s) rfl rfl
    refine ⟨_, ?_, ⟨r, s.env.usbAnswers, rest, s.env.tick, rfl⟩⟩
    rw [memRead, hk, readRequest, exchange_scripted hans, performRequest_read, hlands, andThen_next]
    exact congrArg _ hx

/-- A register write that the Transport answers with an exception: the device is as the register write leaves it, where
that has reached the register (R67). -/
theorem memWrite_raises (h : transportRaises false s = some (e, reached)) (hw : macWriteIf reached a v s = .next u) :
    ∃ t, memWrite a v s = .next (.raised e, t) ∧ Spent u t := by
  cases hk : s.cfg.transport with
  | usb =>
    obtain ⟨rest, -, hwrite⟩ := usb_raises a v hk h
    have htaken := macWriteIf_scripts hw s.ser rest s.env.driverAnswers
    refine ⟨_, ?_, ⟨s.ser, rest, s.env.driverAnswers, u.env.tick, rfl⟩⟩
    rw [memWrite, hk, hwrite]
    exact congrArg (andThen · _) htaken
  | driver =>
    obtain ⟨ans, rest, hans, hlands, hsettle⟩ := driverAnswer_of_raises hk h
    rw [Bool.not_false, Bool.and_true] at hlands
    obtain ⟨r, hx⟩ := hsettle 0#32 (answerTaken rest u) (answerTaken_retry hw) (macWriteIf_frame hw).1.cfg
    refine ⟨_, ?_, ⟨r, u.env.usbAnswers, rest, u.env.tick, rfl⟩⟩
    rw [memWrite, hk, writeRequest, exchange_scripted hans, performRequest_write, hlands, setWidth_regAddr,
      macWriteIf_answerTaken, hw]
    exact congrArg _ hx

/-! ### The micro-operations (R124, R125, R174 to R177) -/

variable {i : Instr} {op : MicroOp}

/-- A reading micro-operation is a register read of the Transport and what is made of its value. -/
theorem execMicroOp_reads (c : Command) (s : State) (hop : readsRegister op = true) :
    ∃ a f, execMicroOp c op s = afterTransport (memRead a s) f := by
  cases op with
  | poll => exact ⟨_, _, rfl⟩
  | rdData => exact ⟨_, _, rfl⟩
  | rdReg => exact ⟨_, _, rfl⟩
  | validate | wrData | wrAcc | wrReg | ret => cases hop

/-- A writing micro-operation is a register write of the Transport and what follows it. -/
theorem execMicroOp_writes (c : Command) (hop : writtenRegister op s = some (a, v)) :
    ∃ f, execMicroOp c op s = afterTransport (memWrite a v s) f := by
  cases op with
  | wrData => cases hop; exact ⟨_, rfl⟩
  | wrAcc => cases hop; exact ⟨_, rfl⟩
  | wrReg => cases hop; exact ⟨_, rfl⟩
  | validate | poll | rdData | rdReg | ret => cases hop

theorem writtenRegister_of_writes (s : State) (hop : writesRegister op = true) :
    ∃ a v, writtenRegister op s = some (a, v) := by
  cases op with
  | wrData => exact ⟨_, _, rfl⟩
  | wrAcc => exact ⟨_, _, rfl⟩
  | wrReg => exact ⟨_, _, rfl⟩
  | validate | poll | rdData | rdReg | ret => cases hop

/-- No micro-operation both reads and writes. -/
theorem readsRegister_of_written (hop : writtenRegister op s = some (a, v)) : readsRegister op = false := by
  cases op with
  | wrData | wrAcc | wrReg => rfl
  | validate | poll | rdData | rdReg | ret => cases hop

/-- A reading micro-operation whose answer raises takes that exception, the device unchanged. -/
theorem exec_read_raises (hat : AtMicroOp i op s) (hop : readsRegister op = true)
    (h : transportRaises (readsRegister op) s = some (e, reached)) : ∃ t, exec i s = .next (raise e t) ∧ Spent s t := by
  obtain ⟨c, -, -, -, hexec⟩ := exec_atMicroOp hat
  obtain ⟨a, f, hmicro⟩ := execMicroOp_reads c s hop
  obtain ⟨t, hread, hspent⟩ := memRead_raises a (hop ▸ h)
  exact ⟨t, by rw [hexec, hmicro, afterTransport_raised hread], hspent⟩

/-- A writing micro-operation whose answer raises takes that exception, the register write having been made or not. -/
theorem exec_write_raises (hat : AtMicroOp i op s) (hop : writtenRegister op s = some (a, v))
    (h : transportRaises (readsRegister op) s = some (e, reached)) (hw : macWriteIf reached a v s = .next u) :
    ∃ t, exec i s = .next (raise e t) ∧ Spent u t := by
  obtain ⟨c, -, -, -, hexec⟩ := exec_atMicroOp hat
  obtain ⟨f, hmicro⟩ := execMicroOp_writes c hop
  obtain ⟨t, hwrite, hspent⟩ := memWrite_raises (readsRegister_of_written hop ▸ h) hw
  exact ⟨t, by rw [hexec, hmicro, afterTransport_raised hwrite], hspent⟩

end

/-! ### The exception taken (R320) -/

/-- The sequencer after an exception (R320): UPC and the latches stay. -/
def stoppedSeq (e : Exc) (q : Seq) : Seq :=
  { q with status := statusCode e.cls, info := e.info, res := e.detail, mode := .idle, lock := false, pollCnt := 0 }

/-- An exception taken where only the Transport has been used leaves the device as it was. -/
theorem raise_spent {s t : State} (e : Exc) (h : Spent s t) :
    (raise e t).seq = stoppedSeq e s.seq ∧ SameDevice s (raise e t) := by
  obtain ⟨hdevice, hseq⟩ := h.device
  exact ⟨congrArg (stoppedSeq e) hseq, { hdevice with }⟩

/-- Settles O20: a raising answer is taken unchanged by `raise`, which leaves the device as the Transport operation has;
that is as it was, or, for a write that has reached its register, as the register write leaves it. -/
theorem transportErrorEndsCommand : Obligations.TransportErrorEndsCommand := by
  unfold Obligations.TransportErrorEndsCommand
  intro i op s e reached hat h
  refine ⟨fun hread => ?reads, fun hwrite hlost => ?lost, fun a v u hwritten hreached hw => ?reaches⟩
  case reads =>
    obtain ⟨t, hexec, hspent⟩ := exec_read_raises hat hread h
    exact ⟨_, hexec, raise_spent e hspent⟩
  case lost =>
    subst hlost
    obtain ⟨a, v, hwritten⟩ := writtenRegister_of_writes s hwrite
    obtain ⟨t, hexec, hspent⟩ := exec_write_raises hat hwritten h (macWriteIf_false a v s)
    exact ⟨_, hexec, raise_spent e hspent⟩
  case reaches =>
    subst hreached
    obtain ⟨t, hexec, hspent⟩ := exec_write_raises hat hwritten h hw
    obtain ⟨hseq, hdevice⟩ := raise_spent e hspent
    obtain ⟨hout, hsame, -⟩ := macWriteIf_frame hw
    exact ⟨_, hexec, hseq.trans (congrArg (stoppedSeq e) hsame), hdevice.mac, hdevice.wire, hdevice.phys,
      hdevice.eeprom, hdevice.cfg.trans hout.cfg, hdevice.port.trans hout.port, hdevice.turns.trans hout.turns⟩

end Sys2Proof.Proofs

/-! PROOFS. What a step leaves alone (00_scope.md R6, 10_state.md R21): the configuration in every step, and in a step of the
engine the sequencer, the serializer, the port, the other MAC registers and the EEPROM. -/

namespace Sys2Proof.Proofs

open Sys2Proof.Machine

/-! ### The configuration, the port and the schedule -/

/-- What no instruction changes: the configuration, what the client presents and who moves next. -/
structure SameScript (s t : State) : Prop where
  cfg : t.cfg = s.cfg
  port : t.env.port = s.env.port
  turns : t.env.turns = s.env.turns

theorem SameScript.refl (s : State) : SameScript s s := ⟨rfl, rfl, rfl⟩

theorem SameScript.trans {s t u : State} (h : SameScript s t) (k : SameScript t u) : SameScript s u :=
  ⟨k.cfg.trans h.cfg, k.port.trans h.port, k.turns.trans h.turns⟩

theorem sameScript_of_outside {s t : State} (h : SameOutside s t) : SameScript s t := ⟨h.cfg, h.port, h.turns⟩

/-! ### The engine's move (R226, R233) -/

/-- What a move of the engine leaves: everything of the sequencer's and of the client's side, and the MAC but for MII_DATA,
BUSY and ENG, which at most becomes free. -/
structure EngineMoved (s t : State) : Prop where
  seq : t.seq = s.seq
  ser : t.ser = s.ser
  regs : t.mac.regs = s.mac.regs
  eeprom : t.eeprom = s.eeprom
  script : SameScript s t
  eng : t.mac.eng = s.mac.eng ∨ t.mac.eng = .free

theorem EngineMoved.refl (s : State) : EngineMoved s s := ⟨rfl, rfl, rfl, rfl, SameScript.refl s, .inl rfl⟩

theorem engineComplete_moved {s t : State} (h : engineComplete s = .next t) : EngineMoved s t := by
  rcases engineComplete_cases h with ⟨_, rfl⟩ | ⟨p, r, d, v, u, _, hread, rfl⟩ | ⟨p, r, d, u, _, hwrite, rfl⟩
  · exact EngineMoved.refl t
  · rcases phyRead_cases hread with ⟨_, _, rfl⟩ | ⟨_, _, rfl⟩ <;> exact ⟨rfl, rfl, rfl, rfl, ⟨rfl, rfl, rfl⟩, .inr rfl⟩
  · obtain ⟨f, _, rfl⟩ := phyWrite_cases hwrite
    exact ⟨rfl, rfl, rfl, rfl, ⟨rfl, rfl, rfl⟩, .inr rfl⟩

theorem frameEnd_moved (rw : Rw) (s : State) : EngineMoved s (frameEnd rw s) := by
  cases rw <;> exact ⟨rfl, rfl, rfl, rfl, ⟨rfl, rfl, rfl⟩, .inr rfl⟩

theorem halfClock_moved {rw : Rw} {p r : Field5} {d : Half} {s t : State} (h : halfClock rw p r d s = .next t) :
    EngineMoved s t := by
  rcases halfClock_cases h with ⟨w, f, n, rfl, _⟩ | rfl
  · exact ⟨rfl, rfl, rfl, rfl, ⟨rfl, rfl, rfl⟩, .inl rfl⟩
  · exact frameEnd_moved rw s

theorem engineMove_moved {s t : State} (h : engineMove s = .next t) : EngineMoved s t := by
  rcases engineMove_cases h with ⟨_, rfl⟩ | ⟨rw, p, r, d, _, _, hhalf⟩ | ⟨_, hcomplete⟩
  · exact EngineMoved.refl t
  · exact halfClock_moved hhalf
  · exact engineComplete_moved hcomplete

/-- Settles O48: the engine's turn is its move, and taking the turn spends the schedule and the count of draws alone. -/
theorem engineLeavesSequencer : Obligations.EngineLeavesSequencer := by
  unfold Obligations.EngineLeavesSequencer
  intro s t hstep hagent
  obtain ⟨ts, n, htake⟩ := takeTurn_spec s
  rw [step, hagent, agentTurn, engineTurn_eq, htake] at hstep
  have hmoved := engineMove_moved hstep
  exact ⟨hmoved.seq, hmoved.ser, hmoved.script.port, hmoved.regs, hmoved.eeprom⟩

/-! ### The instructions -/

theorem startAccess_script {rw : Rw} {p r : Field5} {s t : State} (h : startAccess rw p r s = .next t) :
    SameScript s t := by
  obtain ⟨_, rfl⟩ := startAccess_cases h
  obtain ⟨d, hlaunch, _⟩ := launch_spec rw p r (accWord p r (opcodeOf s.cfg rw)) s
  rw [hlaunch]
  exact ⟨rfl, rfl, rfl⟩

theorem startWrite_script {p r : Field5} {v : Half} {s t : State} (h : startWrite p r v s = .next t) :
    SameScript s t := by
  obtain ⟨_, rfl⟩ := startWrite_cases h
  exact ⟨rfl, rfl, rfl⟩

/-- A write to MII_ACC is a register write of the MAC (R28). -/
theorem accWrite_outside {w : Word} {s t : State} (h : accWrite w s = .next t) :
    SameOutside s t ∧ t.seq = s.seq ∧ t.ser = s.ser :=
  macWriteIf_frame (yes := true) (a := miiAccAddr) (v := w) h

theorem selectCommand_script {v : Half} {s t : State} (h : selectCommand v s = .next t) : SameScript s t := by
  rcases selectCommand_cases h with ⟨_, hstart⟩ | rfl | hmove
  · exact startWrite_script hstart
  · exact SameScript.refl t
  · exact (engineMove_moved hmove).script

/-- Any of the six commands, accepted, waiting or running (R24, R25). -/
theorem exec_command_outside {i : Instr} {c : Command} {s t : State} (hc : commandOfInstr i = some c)
    (h : exec i s = .next t) : SameOutside s t := by
  obtain ⟨opa, opb, opc, opd, hexec⟩ := exec_command hc
  rw [hexec] at h
  rcases execCommand_cases h with ⟨_, rfl⟩ | ⟨_, rfl⟩ | ⟨_, _, op, _, hop⟩
  · exact ⟨rfl, rfl, rfl, rfl, rfl, rfl⟩
  · exact SameOutside.refl t
  · exact execMicroOp_outside hop

/-- What an exchange leaves, an operation of U2 leaves, but for its caller's outcome (R140). -/
theorem driverOperation_outcome {isRead : Bool} {req : List Byte} {a : Word} {s t : State}
    (h : driverOperation isRead req a s = .next t) :
    ∃ x u, t = { u with env := { u.env with driverReturn := some x } } ∧
      (u = s ∨ exchange isRead req s = .next (x, u)) := by
  simp only [driverOperation] at h
  split at h
  · obtain ⟨⟨x, u⟩, hx, hu⟩ := andThen_eq_next.mp h
    cases hu
    exact ⟨x, u, rfl, .inr hx⟩
  · cases h
    exact ⟨_, s, rfl, .inl rfl⟩

/-- A read request that U2 exchanges touches of the device the EEPROM alone (R142). -/
theorem drvRead_exchanges {sel ifx a : Word} {s t : State} (h : exec (.drvRead sel ifx a) s = .next t) :
    ∃ x u, t = { u with env := { u.env with driverReturn := some x } } ∧ Touched s u ∧ (u = s ∨ retryBounded u) := by
  obtain ⟨x, u, ht, rfl | hx⟩ := driverOperation_outcome h
  · exact ⟨x, u, ht, Touched.refl u, .inl rfl⟩
  · obtain ⟨x', u', hx', htouched, _, hbound⟩ := exchange_read sel ifx a s
    cases hx'.symm.trans hx
    exact ⟨x, u, ht, htouched, .inr hbound⟩

/-- A write request that U2 exchanges is at most one register write of the MAC (R143). -/
theorem drvWrite_exchanges {sel ifx a v : Word} {s t : State} (h : exec (.drvWrite sel ifx a v) s = .next t) :
    ∃ x u s1 w, t = { u with env := { u.env with driverReturn := some x } } ∧ Spent s s1 ∧
      (∃ yes, macWriteIf yes (a.setWidth 12) v s1 = .next w) ∧ Spent w u ∧ (u = s ∨ retryBounded u) := by
  obtain ⟨x, u, ht, rfl | hx⟩ := driverOperation_outcome h
  · exact ⟨x, u, u, u, ht, Spent.refl u, ⟨false, macWriteIf_false _ _ _⟩, Spent.refl u, .inl rfl⟩
  · obtain ⟨yes, s1, hs1, _, hnext, _⟩ := exchange_write (sel := sel) (ifx := ifx) (a := a) (v := v) (s := s)
    obtain ⟨w, hw, hu, hbound⟩ := hnext x u hx
    exact ⟨x, u, s1, w, ht, hs1, ⟨yes, hw⟩, hu, .inr hbound⟩

/-- An EPC command issues a register command, or only its phase changes (R280). -/
theorem epcCommand_script {code : BitVec 3} {a : BitVec 9} {byte : Option Byte} {s t : State}
    (h : epcCommand code a byte s = .next t) : SameScript s t := by
  rw [epcCommand_spec] at h
  cases h
  split
  · rcases epcContinue_cases code a byte s with ⟨ph, he⟩ | ⟨d, _, he⟩ | he | he <;> rw [he] <;> exact ⟨rfl, rfl, rfl⟩
  · exact SameScript.refl s

theorem execFrameRead_script {p r : Field5} {s t : State} (h : execFrameRead p r s = .next t) : SameScript s t := by
  simp only [execFrameRead] at h
  split at h
  · exact startAccess_script h
  · split at h
    · exact (halfClock_moved h).script
    · cases h; exact SameScript.refl s
  · cases h; exact SameScript.refl s

theorem execFrameWrite_script {p r : Field5} {d : Half} {s t : State} (h : execFrameWrite p r d s = .next t) :
    SameScript s t := by
  simp only [execFrameWrite] at h
  split at h
  · exact startWrite_script h
  · split at h
    · exact (halfClock_moved h).script
    · cases h; exact SameScript.refl s
  · cases h; exact SameScript.refl s

theorem exec_script {i : Instr} {s t : State} (h : exec i s = .next t) : SameScript s t := by
  cases i with
  | regRead | regWrite | c22Read | c22Write | c45Read | c45Write =>
    exact sameScript_of_outside (exec_command_outside rfl h)
  | miiRead | miiWrite => exact sameScript_of_outside (accWrite_outside h).1
  | mmdAddr | mmdData => exact selectCommand_script h
  | drvRead =>
    obtain ⟨x, u, rfl, htouched, _⟩ := drvRead_exchanges h
    exact { sameScript_of_outside htouched.outside.1 with }
  | drvWrite =>
    obtain ⟨x, u, s1, w, rfl, hs1, ⟨yes, hw⟩, hu, _⟩ := drvWrite_exchanges h
    have hout := (hs1.touched.outside.1.trans (macWriteIf_frame hw).1).trans hu.touched.outside.1
    exact { sameScript_of_outside hout with }
  | frameRead => exact execFrameRead_script h
  | frameWrite => exact execFrameWrite_script h
  | epcRead | epcEwds | epcEwen | epcWrite | epcEraseAll => exact epcCommand_script h

/-! ### The turns -/

/-- Everything a client's turn can do: nothing, or the item at the head of the port is executed, or answered as one that
holds no instruction, and stays or leaves. -/
theorem clientTurn_cases {s t : State} (h : clientTurn s = .next t) :
    t = s ∨ ∃ e items u, s.env.port = e :: items ∧ (t = u ∨ t = popPort u) ∧
      ((∃ i, decode s.cfg e = .ok i ∧ mustWait i s = false ∧ exec i s = .next u) ∨
       (∃ r, decode s.cfg e = .error r ∧ rejectedWaits e s = false ∧ presentRejected e r s = .next u)) := by
  simp only [clientTurn] at h
  split at h
  · cases h; exact .inl rfl
  · next e items hport =>
    split at h
    · next i hi =>
      split at h
      · cases h; exact .inl rfl
      · next hwait =>
        obtain ⟨u, hexec, hretire⟩ := andThen_eq_next.mp h
        cases hretire
        exact .inr ⟨e, items, u, hport, retire_spec i u, .inl ⟨i, hi, by simpa using hwait, hexec⟩⟩
    · next r hr =>
      split at h
      · cases h; exact .inl rfl
      · next hwait =>
        obtain ⟨u, hreject, hpop⟩ := andThen_eq_next.mp h
        cases hpop
        exact .inr ⟨e, items, u, hport, .inr rfl, .inr ⟨r, hr, by simpa using hwait, hreject⟩⟩

/-- Everything a sequencer's turn can do. -/
theorem sequencerTurn_cases {s t : State} (h : sequencerTurn s = .next t) :
    t = s ∨ s.seq.mode = .run ∧ ((∃ i, runningInstr s = .ok i ∧ exec i s = .next t) ∨ ∃ e, t = raise e s) := by
  simp only [sequencerTurn] at h
  split at h
  · cases h; exact .inl rfl
  · next hmode =>
    split at h
    · next i hi => exact .inr ⟨hmode, .inl ⟨i, hi, h⟩⟩
    · cases h; exact .inr ⟨hmode, .inr ⟨_, rfl⟩⟩

theorem presentRejected_script {e : Encoded} {r : Reject} {s t : State} (h : presentRejected e r s = .next t) :
    SameScript s t := by
  cases e with
  | cmd ws => cases h; exact ⟨rfl, rfl, rfl⟩
  | acc w => exact sameScript_of_outside (accWrite_outside h).1
  | mmd v => exact selectCommand_script h
  | drv | frame | epc => cases h

/-- What an agent's turn keeps: whatever an instruction, the answer to an item that holds none, an exception of the
sequencer's, the engine's move and an item's leaving the port all keep. -/
theorem agentTurn_keeps {P : State → Prop} {a : Agent} {s t : State} (hs : P s)
    (hexec : ∀ i u, exec i s = .next u → P u) (hreject : ∀ e r u, presentRejected e r s = .next u → P u)
    (hraise : ∀ e, P (raise e s)) (hengine : ∀ u, engineMove s = .next u → P u) (hpop : ∀ u, P u → P (popPort u))
    (h : agentTurn a s = .next t) : P t := by
  cases a with
  | client =>
    rcases clientTurn_cases h with rfl | ⟨e, items, u, _, ht, hcase⟩
    · exact hs
    · have hu : P u := by
        rcases hcase with ⟨i, _, _, hi⟩ | ⟨r, _, _, hr⟩
        · exact hexec i u hi
        · exact hreject e r u hr
      rcases ht with rfl | rfl
      · exact hu
      · exact hpop u hu
  | sequencer =>
    rcases sequencerTurn_cases h with rfl | ⟨_, ⟨i, _, hi⟩ | ⟨e, rfl⟩⟩
    · exact hs
    · exact hexec i t hi
    · exact hraise e
  | engine => exact hengine t ((engineTurn_eq s).symm.trans h)

theorem agentTurn_cfg {a : Agent} {s t : State} (h : agentTurn a s = .next t) : t.cfg = s.cfg :=
  agentTurn_keeps (P := fun u => u.cfg = s.cfg) rfl (fun _ _ hi => (exec_script hi).cfg)
    (fun _ _ _ hr => (presentRejected_script hr).cfg) (fun _ => rfl) (fun _ hm => (engineMove_moved hm).script.cfg)
    (fun _ hu => hu) h

/-- Settles O49: no turn changes the configuration, and neither does taking it. -/
theorem configurationConstant : Obligations.ConfigurationConstant := by
  unfold Obligations.ConfigurationConstant
  intro s t hstep
  obtain ⟨ts, n, htake⟩ := takeTurn_spec s
  rw [step, htake] at hstep
  have hcfg := agentTurn_cfg hstep
  exact hcfg

end Sys2Proof.Proofs

/-! PROOFS. The invariant of the machine (R22 to R26, R31, R99, R231; log 25): it holds at reset, and every step keeps it. Its
parts are kept apart: the device, the sequencer, and the serializer's counter. -/

namespace Sys2Proof.Proofs

open Sys2Proof.Machine

/-! ### The device: BUSY, the register spaces and the idle pins (R31, R231; log 25) -/

/-- The part of the invariant that is about the MAC, the wire, the PHYs and the EEPROM. -/
structure DeviceInv (s : State) : Prop where
  busy : busyFollowsEngine s
  memories : memoriesWellFormed s
  pins : idlePins s

section
variable {s t : State}

/-- The device part is read off the device, of the EEPROM off its bytes. -/
theorem DeviceInv.congr (h : DeviceInv s) (hmac : t.mac = s.mac) (hwire : t.wire = s.wire) (hphys : t.phys = s.phys)
    (hcells : Memory.wf 0x200 s.eeprom.cells = true → Memory.wf 0x200 t.eeprom.cells = true) : DeviceInv t := by
  obtain ⟨hbusy, ⟨hregs, hc22, hmmd, hc45, hbytes⟩, hpins⟩ := h
  refine ⟨?_, ⟨?_, ?_, ?_, ?_, hcells hbytes⟩, ?_⟩
  · rwa [busyFollowsEngine, hmac]
  · rwa [hmac]
  · rwa [hphys]
  · rwa [hphys]
  · rwa [hphys]
  · rwa [idlePins, hmac, hwire]

theorem DeviceInv.touched (h : DeviceInv s) (ht : Touched s t) : DeviceInv t := by
  obtain ⟨hout, _, hmac, hwire⟩ := ht.outside
  exact h.congr hmac hwire hout.phys ht.2

theorem DeviceInv.spent (h : DeviceInv s) (ht : Spent s t) : DeviceInv t := h.touched ht.touched

/-- The PHY spaces may be replaced by others of canonical form, and the pins by any where ENG is not free. -/
theorem DeviceInv.setPhys (h : DeviceInv s) {f : Phys} (hf : physWf f) : DeviceInv { s with phys := f } := by
  obtain ⟨hbusy, ⟨hregs, _, _, _, hbytes⟩, hpins⟩ := h
  obtain ⟨hc22, hmmd, hc45⟩ := hf
  exact ⟨hbusy, ⟨hregs, hc22, hmmd, hc45, hbytes⟩, hpins⟩

theorem DeviceInv.physWf (h : DeviceInv s) : physWf s.phys := ⟨h.memories.2.1, h.memories.2.2.1, h.memories.2.2.2.1⟩

/-- A transaction started with BUSY in its access word (R223). -/
theorem DeviceInv.startTransaction (h : DeviceInv s) {w : Word} (hw : w.getLsbD 0 = true) (rw : Rw) (p r : Field5)
    (d : Half) : DeviceInv (startTransaction rw p r d w s) :=
  ⟨hw, h.memories, nofun⟩

theorem DeviceInv.launch (h : DeviceInv s) {w : Word} (hw : w.getLsbD 0 = true) (rw : Rw) (p r : Field5) :
    DeviceInv (launch rw p r w s) := by
  obtain ⟨d, hlaunch, _⟩ := launch_spec rw p r w s
  rw [hlaunch]
  exact (h.startTransaction hw rw p r d).spent (advance_spent _)

/-- The engine freed: BUSY reads 0 and the pins are idle (R226, R235). -/
theorem DeviceInv.freeEngine (h : DeviceInv s) : DeviceInv (freeEngine s) :=
  ⟨clearBusy_busy _, h.memories, fun _ => ⟨rfl, rfl, rfl⟩⟩

theorem DeviceInv.loadDatum (h : DeviceInv s) (v : Half) : DeviceInv (loadDatum v s) :=
  ⟨h.busy, h.memories, h.pins⟩

theorem DeviceInv.storeData (h : DeviceInv s) (v : Word) :
    DeviceInv { s with mac := { s.mac with miiData := v, dataWindow := .stored } } :=
  ⟨h.busy, h.memories, h.pins⟩

/-- A legal operation code puts BUSY into its access word (R29, R93). -/
theorem busy_of_accOp {c : Config} {w : Word} {rw : Rw} (hc : c.wf) (h : accOp w = opcodeOf c rw) :
    w.getLsbD 0 = true := by
  obtain ⟨hread, hwrite, _⟩ := hc
  have hbit : (accOp w).getLsbD 0 = w.getLsbD 0 := by simp [accOp]
  rw [← hbit, h]
  cases rw <;> assumption

theorem DeviceInv.accWrite {w : Word} (h : DeviceInv s) (hc : s.cfg.wf) (hw : accWrite w s = .next t) :
    DeviceInv t := by
  obtain ⟨_, rw, hop, rfl⟩ := accWrite_cases hw
  exact h.launch (busy_of_accOp hc hop) rw _ _

theorem DeviceInv.macWriteIf {yes : Bool} {a : RegAddr} {v : Word} (h : DeviceInv s) (hc : s.cfg.wf)
    (hw : macWriteIf yes a v s = .next t) : DeviceInv t := by
  rcases macWriteIf_cases hw with
    rfl | ⟨_, _, hacc⟩ | ⟨_, _, _, rfl⟩ | ⟨_, _, hcommand⟩ | ⟨_, _, rfl⟩ | ⟨_, _, _, _, _, rfl⟩
  · exact h
  · exact h.accWrite hc hacc
  · exact h.storeData v
  · obtain ⟨o, rfl⟩ := epcCommandWrite_cases hcommand
    exact h.congr rfl rfl rfl id
  · exact h.congr rfl rfl rfl id
  · obtain ⟨hbusy, ⟨hregs, hrest⟩, hpins⟩ := h
    exact ⟨hbusy, ⟨memory_write_wf _ _ _ _ hregs a.isLt, hrest⟩, hpins⟩

theorem DeviceInv.startAccess {rw : Rw} {p r : Field5} (h : DeviceInv s) (hc : s.cfg.wf)
    (hs : startAccess rw p r s = .next t) : DeviceInv t := by
  obtain ⟨_, rfl⟩ := startAccess_cases hs
  exact h.launch (accWord_busy hc p r rw) rw p r

theorem DeviceInv.startWrite {p r : Field5} {v : Half} (h : DeviceInv s) (hc : s.cfg.wf)
    (hs : startWrite p r v s = .next t) : DeviceInv t := by
  obtain ⟨_, rfl⟩ := startWrite_cases hs
  exact ((h.storeData _).startTransaction (accWord_busy hc p r .write) _ _ _ _).spent (advance_spent _)

theorem DeviceInv.phyWrite {p i : Field5} {v : Half} (h : DeviceInv s) (hw : phyWrite p i v s = .next t) :
    DeviceInv t := by
  obtain ⟨f, hregs, rfl⟩ := phyWrite_cases hw
  exact h.setPhys (phyWriteRegs_wf hregs h.physWf)

theorem DeviceInv.engineComplete (h : DeviceInv s) (hm : engineComplete s = .next t) : DeviceInv t := by
  rcases engineComplete_cases hm with ⟨_, rfl⟩ | ⟨p, r, d, v, u, _, hread, rfl⟩ | ⟨p, r, d, u, _, hwrite, rfl⟩
  · exact h
  · have hu : DeviceInv u := by
      rcases phyRead_cases hread with ⟨_, _, rfl⟩ | ⟨_, _, rfl⟩
      · exact h.spent (advance_spent s)
      · exact h
    exact (hu.loadDatum v).freeEngine
  · exact (h.phyWrite hwrite).freeEngine

/-- While a frame is on the wire the pins are not idle; at its end they are (R235). -/
theorem DeviceInv.halfClock {rw : Rw} {p r : Field5} {d : Half} (h : DeviceInv s)
    (he : s.mac.eng ≠ .free) (hm : halfClock rw p r d s = .next t) : DeviceInv t := by
  rcases halfClock_cases hm with ⟨w, f, n, rfl, hf⟩ | rfl
  · have hwf : Machine.physWf f := by
      rcases hf with rfl | ⟨q, i, v, hregs⟩
      · exact h.physWf
      · exact phyWriteRegs_wf hregs h.physWf
    obtain ⟨hbusy, hmemories, _⟩ := h.setPhys hwf
    exact ⟨hbusy, hmemories, fun hfree => absurd hfree he⟩
  · cases rw
    · exact (h.loadDatum _).freeEngine
    · exact h.freeEngine

theorem DeviceInv.engineMove (h : DeviceInv s) (hm : engineMove s = .next t) : DeviceInv t := by
  rcases engineMove_cases hm with ⟨_, rfl⟩ | ⟨rw, p, r, d, he, _, hhalf⟩ | ⟨_, hcomplete⟩
  · exact h
  · exact h.halfClock (by simp [he]) hhalf
  · exact h.engineComplete hcomplete

theorem DeviceInv.selectCommand {v : Half} (h : DeviceInv s) (hc : s.cfg.wf) (hm : selectCommand v s = .next t) :
    DeviceInv t := by
  rcases selectCommand_cases hm with ⟨_, hstart⟩ | rfl | hmove
  · exact h.startWrite hc hstart
  · exact h
  · exact h.engineMove hmove

theorem pollIteration_device (h : DeviceInv s) (v : Word) : DeviceInv (pollIteration v s) := by
  obtain ⟨q, r, hpoll⟩ := pollIteration_frame v s
  rw [hpoll]
  exact h.congr rfl rfl rfl id

theorem readFinish_device {op : MicroOp} {f : Word → State → State} (hf : readFinish op = some f) (h : DeviceInv s)
    (v : Word) : DeviceInv (f v s) := by
  cases op with
  | poll => cases hf; exact pollIteration_device h v
  | rdData | rdReg => cases hf; exact h.congr rfl rfl rfl id
  | validate | wrData | wrAcc | wrReg | ret => cases hf

theorem microValidate_device (h : DeviceInv s) (cs : Checks) : DeviceInv (microValidate cs s) := by
  simp only [microValidate]
  split <;> exact h.congr rfl rfl rfl id

/-- Everything a micro-operation does to the device is a register write of the MAC. -/
theorem DeviceInv.execMicroOp {c : Command} {op : MicroOp} (h : DeviceInv s) (hc : s.cfg.wf)
    (hm : execMicroOp c op s = .next t) : DeviceInv t := by
  rcases execMicroOp_cases hm with
    ⟨_, rfl⟩ | ⟨_, rfl⟩ | ⟨f, u, hf, hu, _, _, ht⟩ | ⟨a, v, yes, s1, u, w, _, hs1, _, hwrite, hw, _, ht⟩
  · exact microValidate_device h _
  · exact h.congr rfl rfl rfl id
  · have hread := h.touched hu
    rcases ht with ⟨_, rfl⟩ | ⟨e, rfl⟩ | ⟨v, rfl⟩
    · exact hread
    · exact hread.congr rfl rfl rfl id
    · exact readFinish_device hf hread v
  · have hwritten := ((h.spent hs1).macWriteIf (hs1.device.1.cfg ▸ hc) hwrite).spent hw
    rcases ht with ⟨_, rfl⟩ | ⟨e, rfl⟩ | rfl
    · exact hwritten
    · exact hwritten.congr rfl rfl rfl id
    · exact hwritten.congr rfl rfl rfl id

theorem DeviceInv.exec_command {i : Instr} {c : Command} (h : DeviceInv s) (hc : s.cfg.wf)
    (hi : commandOfInstr i = some c) (hm : exec i s = .next t) : DeviceInv t := by
  obtain ⟨opa, opb, opc, opd, hexec⟩ := Machine.exec_command hi
  rw [hexec] at hm
  rcases execCommand_cases hm with ⟨_, rfl⟩ | ⟨_, rfl⟩ | ⟨_, _, op, _, hop⟩
  · exact h.congr rfl rfl rfl id
  · exact h
  · exact h.execMicroOp hc hop

theorem DeviceInv.epcCommand {code : BitVec 3} {a : BitVec 9} {byte : Option Byte} (h : DeviceInv s)
    (hm : epcCommand code a byte s = .next t) : DeviceInv t := by
  rw [epcCommand_spec] at hm
  cases hm
  split
  · rcases epcContinue_cases code a byte s with ⟨ph, he⟩ | ⟨d, _, he⟩ | he | he <;> rw [he] <;>
      exact h.congr rfl rfl rfl id
  · exact h

theorem DeviceInv.execFrameRead {p r : Field5} (h : DeviceInv s) (hc : s.cfg.wf)
    (hm : execFrameRead p r s = .next t) : DeviceInv t := by
  simp only [Machine.execFrameRead] at hm
  split at hm
  · exact h.startAccess hc hm
  · next he =>
    split at hm
    · exact h.halfClock (by simp [he]) hm
    · cases hm; exact h
  · cases hm; exact h

theorem DeviceInv.execFrameWrite {p r : Field5} {d : Half} (h : DeviceInv s) (hc : s.cfg.wf)
    (hm : execFrameWrite p r d s = .next t) : DeviceInv t := by
  simp only [Machine.execFrameWrite] at hm
  split at hm
  · exact h.startWrite hc hm
  · next he =>
    split at hm
    · exact h.halfClock (by simp [he]) hm
    · cases hm; exact h
  · cases hm; exact h

theorem DeviceInv.exec {i : Instr} (h : DeviceInv s) (hc : s.cfg.wf) (hm : exec i s = .next t) : DeviceInv t := by
  cases i with
  | regRead | regWrite | c22Read | c22Write | c45Read | c45Write => exact h.exec_command hc rfl hm
  | miiRead | miiWrite => exact h.accWrite hc hm
  | mmdAddr | mmdData => exact h.selectCommand hc hm
  | drvRead =>
    obtain ⟨x, u, rfl, hu, _⟩ := drvRead_exchanges hm
    exact (h.touched hu).congr rfl rfl rfl id
  | drvWrite =>
    obtain ⟨x, u, s1, w, rfl, hs1, ⟨yes, hw⟩, hu, _⟩ := drvWrite_exchanges hm
    exact (((h.spent hs1).macWriteIf (hs1.device.1.cfg ▸ hc) hw).spent hu).congr rfl rfl rfl id
  | frameRead => exact h.execFrameRead hc hm
  | frameWrite => exact h.execFrameWrite hc hm
  | epcRead | epcEwds | epcEwen | epcWrite | epcEraseAll => exact h.epcCommand hm

theorem DeviceInv.presentRejected {e : Encoded} {r : Reject} (h : DeviceInv s) (hc : s.cfg.wf)
    (hm : presentRejected e r s = .next t) : DeviceInv t := by
  cases e with
  | cmd ws => cases hm; exact h.congr rfl rfl rfl id
  | acc w => exact h.accWrite hc hm
  | mmd v => exact h.selectCommand hc hm
  | drv | frame | epc => cases hm

theorem DeviceInv.agentTurn {a : Agent} (h : DeviceInv s) (hc : s.cfg.wf) (hm : agentTurn a s = .next t) :
    DeviceInv t :=
  agentTurn_keeps h (fun _ _ hi => h.exec hc hi) (fun _ _ _ hr => h.presentRejected hc hr)
    (fun _ => h.congr rfl rfl rfl id) (fun _ he => h.engineMove he) (fun _ hu => hu.congr rfl rfl rfl id) hm

end

end Sys2Proof.Proofs

/-! PROOFS. The sequencer's and the serializer's part of the invariant (R22, R24 to R26, R99), and the invariant as a whole. -/

namespace Sys2Proof.Proofs

open Sys2Proof.Machine

/-! ### The micro-programs (R25) -/

/-- Every command begins with VALIDATE. -/
theorem program_head {w : Word} {c : Command} (h : commandOf w = some c) : c.program[0]? = some .validate := by
  rcases commandOf_cases h with ⟨_, rfl⟩ | ⟨_, rfl⟩ | ⟨_, rfl⟩ | ⟨_, rfl⟩ | ⟨_, rfl⟩ | ⟨_, rfl⟩ <;> rfl

/-- A micro-operation other than RET has one after it. -/
theorem program_next {w : Word} {c : Command} {k : BitVec 5} {op : MicroOp} (h : commandOf w = some c)
    (hop : c.program[k.toNat]? = some op) (hret : op ≠ .ret) : ∃ next, c.program[(k + 1#5).toNat]? = some next := by
  have hsucc : (k + 1#5).toNat = k.toNat + 1 := by
    have hlength := program_length_of_commandOf h
    have hk := (List.getElem?_eq_some_iff.mp hop).1
    rw [BitVec.toNat_add, BitVec.toNat_one (by decide)]
    omega
  have hlast : k.toNat + 1 ≠ c.program.length := fun hend => by
    have hgetLast := program_getLast h
    rw [List.getLast?_eq_getElem?, ← hend, Nat.add_sub_cancel, hop] at hgetLast
    exact hret (Option.some.inj hgetLast)
  have hk := (List.getElem?_eq_some_iff.mp hop).1
  rw [hsucc]
  exact ⟨_, List.getElem?_eq_getElem (by omega)⟩

/-! ### The running command (R22, R24, R25) -/

section
variable {s t : State}

theorem currentMicroOp_of_seq (h : t.seq = s.seq) : currentMicroOp t = currentMicroOp s := by
  rw [currentMicroOp, currentMicroOp, h]

/-- The micro-operation at UPC of a running command, with that command. -/
theorem currentMicroOp_eq_some {op : MicroOp} :
    currentMicroOp s = some op ↔
      s.seq.mode = .run ∧ ∃ c, commandOf s.seq.cmd = some c ∧ c.program[s.seq.upc.toNat]? = some op := by
  cases hm : s.seq.mode <;> simp [currentMicroOp, hm, Option.bind_eq_some_iff]

/-- The running-command part is read off the sequencer. -/
theorem runningIsCommand_of_seq (h : runningIsCommand s) (hseq : t.seq = s.seq) : runningIsCommand t := by
  rw [runningIsCommand, currentMicroOp_of_seq hseq, hseq]
  exact h

theorem runningIsCommand_idle (h : s.seq.mode = .idle) : runningIsCommand s := fun hrun => by rw [h] at hrun; cases hrun

/-- A command instruction and its operands: the latches that it does not use are loaded with 0 (R22, R24). -/
theorem exec_command_operands {i : Instr} {c : Command} (h : commandOfInstr i = some c) :
    ∃ opa opb opc opd, (∀ s, exec i s = execCommand c opa opb opc opd s) ∧
      ∀ s, unusedLatchesZero (accept c.code opa opb opc opd s).seq := by
  cases i <;> simp only [commandOfInstr, Option.some.injEq, reduceCtorEq] at h <;> subst h
  case regRead a =>
    exact ⟨a, 0#32, 0#32, 0#32, fun _ => rfl, fun _ => by simp [unusedLatchesZero, accept, regReadCommand]⟩
  case regWrite a v =>
    exact ⟨a, v, 0#32, 0#32, fun _ => rfl, fun _ => by simp [unusedLatchesZero, accept, regWriteCommand]⟩
  case c22Read p r =>
    exact ⟨p, r, 0#32, 0#32, fun _ => rfl, fun _ => by simp [unusedLatchesZero, accept, c22ReadCommand]⟩
  case c22Write p r d =>
    exact ⟨p, r, d, 0#32, fun _ => rfl, fun _ => by simp [unusedLatchesZero, accept, c22WriteCommand]⟩
  case c45Read p v x =>
    exact ⟨p, v, x, 0#32, fun _ => rfl, fun _ => by simp [unusedLatchesZero, accept, c45ReadCommand]⟩
  case c45Write p v x d =>
    exact ⟨p, v, x, d, fun _ => rfl, fun _ => by simp [unusedLatchesZero, accept, c45WriteCommand]⟩

/-- A command accepted with its unused latches 0 stands at its VALIDATE (R24, R25). -/
theorem runningIsCommand_accept {c : Command} {opa opb opc opd : Word} (hc : commandOf c.code = some c)
    (hunused : unusedLatchesZero (accept c.code opa opb opc opd s).seq) :
    currentMicroOp (accept c.code opa opb opc opd s) = some .validate ∧
    runningIsCommand (accept c.code opa opb opc opd s) := by
  have hcurrent : currentMicroOp (accept c.code opa opb opc opd s) = some .validate :=
    currentMicroOp_eq_some.mpr ⟨rfl, c, hc, program_head hc⟩
  exact ⟨hcurrent, fun _ => ⟨by rw [hcurrent]; rfl, hunused⟩⟩

/-- Going on to the next micro-operation, from any but RET. -/
theorem runningIsCommand_next {c : Command} {op : MicroOp} (h : runningIsCommand s)
    (hc : commandOf s.seq.cmd = some c) (hop : c.program[s.seq.upc.toNat]? = some op) (hret : op ≠ .ret) :
    runningIsCommand (nextMicroOp s) := by
  intro hmode
  obtain ⟨next, hnext⟩ := program_next hc hop hret
  have hcurrent : currentMicroOp (nextMicroOp s) = some next := currentMicroOp_eq_some.mpr ⟨hmode, c, hc, hnext⟩
  exact ⟨by rw [hcurrent]; rfl, (h hmode).2⟩

/-! ### LOCK, POLLCNT and the running command (R24 to R26, R99) -/

/-- The sequencer's part of the invariant. -/
structure SequencerInv (s : State) : Prop where
  lock : lockFollowsMode s
  running : runningIsCommand s
  polls : ∀ n, s.cfg.pollLimit = some n → s.seq.pollCnt < n

/-- The sequencer's part is read off the sequencer and POLL_LIMIT. -/
theorem SequencerInv.congr (h : SequencerInv s) (hseq : t.seq = s.seq) (hcfg : t.cfg = s.cfg) : SequencerInv t := by
  refine ⟨?_, runningIsCommand_of_seq h.running hseq, ?_⟩
  · rw [lockFollowsMode, hseq]; exact h.lock
  · rw [hseq, hcfg]; exact h.polls

theorem pollCnt_zero_lt {c : Config} (hc : c.wf) (n : Nat) (h : c.pollLimit = some n) : 0 < n := by
  obtain ⟨_, _, _, hlimit, _⟩ := hc
  exact Nat.pos_of_ne_zero fun hzero => hlimit (hzero ▸ h)

theorem SequencerInv.raise (e : Exc) (hc : s.cfg.wf) : SequencerInv (raise e s) :=
  ⟨rfl, runningIsCommand_idle rfl, pollCnt_zero_lt hc⟩

theorem SequencerInv.commandReturn (h : SequencerInv s) (b : Bool) : SequencerInv (commandReturn b s) :=
  ⟨rfl, runningIsCommand_idle rfl, h.polls⟩

theorem SequencerInv.accept {c : Command} {opa opb opc opd : Word} (hwf : s.cfg.wf) (hc : commandOf c.code = some c)
    (hunused : unusedLatchesZero (accept c.code opa opb opc opd s).seq) :
    SequencerInv (accept c.code opa opb opc opd s) :=
  ⟨rfl, (runningIsCommand_accept hc hunused).2, pollCnt_zero_lt hwf⟩

/-- RES and a POLLCNT below its limit may change. -/
theorem SequencerInv.setPollCnt (h : SequencerInv s) {n : Nat} (hn : ∀ k, s.cfg.pollLimit = some k → n < k) :
    SequencerInv { s with seq := { s.seq with pollCnt := n } } :=
  ⟨h.lock, h.running, hn⟩

theorem SequencerInv.setRes (h : SequencerInv s) (v : Word) : SequencerInv { s with seq := { s.seq with res := v } } :=
  ⟨h.lock, h.running, h.polls⟩

theorem SequencerInv.next {c : Command} {op : MicroOp} (h : SequencerInv s) (hc : commandOf s.seq.cmd = some c)
    (hop : c.program[s.seq.upc.toNat]? = some op) (hret : op ≠ .ret) : SequencerInv (nextMicroOp s) :=
  ⟨h.lock, runningIsCommand_next h.running hc hop hret, h.polls⟩

/-- The end of a POLL iteration keeps POLLCNT below its limit (R174). -/
theorem SequencerInv.pollIteration {c : Command} (h : SequencerInv s) (hwf : s.cfg.wf)
    (hc : commandOf s.seq.cmd = some c) (hop : c.program[s.seq.upc.toNat]? = some .poll) (v : Word) :
    SequencerInv (pollIteration v s) := by
  by_cases hbit : pollBit v = true
  · by_cases hallowed : pollsAllowed (s.seq.pollCnt + 1) s
    · rw [pollIteration_busy hbit hallowed]
      exact h.setPollCnt hallowed
    · obtain ⟨n, hn⟩ := not_forall.mp hallowed
      obtain ⟨hlimit, hreached⟩ := Classical.not_imp.mp hn
      rw [pollIteration_limit hbit hlimit (Nat.not_lt.mp hreached)]
      exact SequencerInv.raise _ hwf
  · rw [pollIteration_free (by simpa using hbit)]
    exact (h.setPollCnt (pollCnt_zero_lt hwf)).next hc hop (by decide)

theorem SequencerInv.readFinish {c : Command} {op : MicroOp} {f : Word → State → State} (h : SequencerInv s)
    (hwf : s.cfg.wf) (hc : commandOf s.seq.cmd = some c) (hop : c.program[s.seq.upc.toNat]? = some op)
    (hf : readFinish op = some f) (v : Word) : SequencerInv (f v s) := by
  cases op with
  | poll => cases hf; exact h.pollIteration hwf hc hop v
  | rdData | rdReg => cases hf; exact (h.setRes _).next hc hop (by decide)
  | validate | wrData | wrAcc | wrReg | ret => cases hf

theorem ne_ret_of_writeTarget {op : MicroOp} {a : RegAddr} {v : Word} (h : writeTarget op s = some (a, v)) :
    op ≠ .ret := by
  rintro rfl
  cases h

/-- The micro-operation at UPC of the running command leaves the sequencer's part of the invariant. -/
theorem SequencerInv.execMicroOp {c : Command} {op : MicroOp} (h : SequencerInv s) (hwf : s.cfg.wf)
    (hc : commandOf s.seq.cmd = some c) (hop : c.program[s.seq.upc.toNat]? = some op)
    (hm : execMicroOp c op s = .next t) : SequencerInv t := by
  rcases execMicroOp_cases hm with
    ⟨rfl, rfl⟩ | ⟨_, rfl⟩ | ⟨f, u, hf, hu, _, _, ht⟩ | ⟨a, v, yes, s1, u, w, htarget, hs1, _, hwrite, hw, _, ht⟩
  · simp only [microValidate]
    split
    · exact SequencerInv.raise _ hwf
    · exact h.next hc hop (by decide)
  · exact h.commandReturn _
  · obtain ⟨hout, hseq, _, _⟩ := hu.outside
    have hread := h.congr hseq hout.cfg
    rcases ht with ⟨_, rfl⟩ | ⟨e, rfl⟩ | ⟨v, rfl⟩
    · exact hread
    · exact SequencerInv.raise e (hout.cfg ▸ hwf)
    · exact hread.readFinish (hout.cfg ▸ hwf) (hseq ▸ hc) (hseq ▸ hop) hf v
  · obtain ⟨hdev1, hseq1⟩ := hs1.device
    obtain ⟨hout, hsame, _⟩ := macWriteIf_frame hwrite
    obtain ⟨hdev2, hseq2⟩ := hw.device
    have hseq : w.seq = s.seq := hseq2.trans (hsame.trans hseq1)
    have hcfg : w.cfg = s.cfg := hdev2.cfg.trans (hout.cfg.trans hdev1.cfg)
    have hwritten := h.congr hseq hcfg
    rcases ht with ⟨_, rfl⟩ | ⟨e, rfl⟩ | rfl
    · exact hwritten
    · exact SequencerInv.raise e (hcfg ▸ hwf)
    · exact hwritten.next (hseq ▸ hc) (hseq ▸ hop) (ne_ret_of_writeTarget htarget)

theorem SequencerInv.exec_command {i : Instr} {c : Command} (h : SequencerInv s) (hwf : s.cfg.wf)
    (hi : commandOfInstr i = some c) (hm : exec i s = .next t) : SequencerInv t := by
  obtain ⟨opa, opb, opc, opd, hexec, hunused⟩ := exec_command_operands hi
  have hcode := commandOf_code hi
  rw [hexec] at hm
  rcases execCommand_cases hm with ⟨_, rfl⟩ | ⟨_, rfl⟩ | ⟨_, hcmd, op, hop, hmicro⟩
  · exact SequencerInv.accept hwf hcode (hunused s)
  · exact h
  · exact h.execMicroOp hwf (hcmd ▸ hcode) hop hmicro

/-- A register command that an EPC command issues (R280). -/
theorem SequencerInv.epcCommand {code : BitVec 3} {a : BitVec 9} {byte : Option Byte} (h : SequencerInv s)
    (hwf : s.cfg.wf) (hm : epcCommand code a byte s = .next t) : SequencerInv t := by
  have hread : ∀ b ph, SequencerInv (issueRead b ph s) := fun b ph =>
    (SequencerInv.accept (c := regReadCommand) (s := s) (opa := b.setWidth 32) hwf rfl
      (by simp [unusedLatchesZero, Machine.accept, regReadCommand])).congr rfl rfl
  have hwrite : ∀ b v ph, SequencerInv (issueWrite b v ph s) := fun b v ph =>
    (SequencerInv.accept (c := regWriteCommand) (s := s) (opa := b.setWidth 32) (opb := v) hwf rfl
      (by simp [unusedLatchesZero, Machine.accept, regWriteCommand])).congr rfl rfl
  rw [epcCommand_spec] at hm
  cases hm
  split
  · rcases epcContinue_cases code a byte s with ⟨ph, he⟩ | ⟨d, _, he⟩ | he | he <;> rw [he]
    · exact hread _ _
    · exact hwrite _ _ _
    · exact hwrite _ _ _
    · exact h.congr rfl rfl
  · exact h

/-! ### What leaves the sequencer and the serializer alone -/

/-- The sequencer and the serializer, which no access to the engine reaches. -/
def SameUnits (s t : State) : Prop := t.seq = s.seq ∧ t.ser = s.ser

theorem engineMove_units (h : engineMove s = .next t) : SameUnits s t :=
  ⟨(engineMove_moved h).seq, (engineMove_moved h).ser⟩

theorem startAccess_units {rw : Rw} {p r : Field5} (h : startAccess rw p r s = .next t) : SameUnits s t := by
  obtain ⟨_, rfl⟩ := startAccess_cases h
  obtain ⟨d, hlaunch, _⟩ := launch_spec rw p r (accWord p r (opcodeOf s.cfg rw)) s
  rw [hlaunch]
  exact ⟨rfl, rfl⟩

theorem startWrite_units {p r : Field5} {v : Half} (h : startWrite p r v s = .next t) : SameUnits s t := by
  obtain ⟨_, rfl⟩ := startWrite_cases h
  exact ⟨rfl, rfl⟩

theorem selectCommand_units {v : Half} (h : selectCommand v s = .next t) : SameUnits s t := by
  rcases selectCommand_cases h with ⟨_, hstart⟩ | rfl | hmove
  · exact startWrite_units hstart
  · exact ⟨rfl, rfl⟩
  · exact engineMove_units hmove

theorem execFrameRead_units {p r : Field5} (h : execFrameRead p r s = .next t) : SameUnits s t := by
  simp only [execFrameRead] at h
  split at h
  · exact startAccess_units h
  · split at h
    · exact ⟨(halfClock_moved h).seq, (halfClock_moved h).ser⟩
    · cases h; exact ⟨rfl, rfl⟩
  · cases h; exact ⟨rfl, rfl⟩

theorem execFrameWrite_units {p r : Field5} {d : Half} (h : execFrameWrite p r d s = .next t) : SameUnits s t := by
  simp only [execFrameWrite] at h
  split at h
  · exact startWrite_units h
  · split at h
    · exact ⟨(halfClock_moved h).seq, (halfClock_moved h).ser⟩
    · cases h; exact ⟨rfl, rfl⟩
  · cases h; exact ⟨rfl, rfl⟩

/-- The items that are for the engine. -/
def isEngineItem : Instr → Bool
  | .miiRead _ _ | .miiWrite _ _ | .mmdAddr _ | .mmdData _ | .frameRead _ _ | .frameWrite _ _ _ => true
  | _ => false

theorem exec_engineItem_units {i : Instr} (hi : isEngineItem i = true) (h : exec i s = .next t) : SameUnits s t := by
  cases i with
  | miiRead | miiWrite => exact (accWrite_outside h).2
  | mmdAddr | mmdData => exact selectCommand_units h
  | frameRead => exact execFrameRead_units h
  | frameWrite => exact execFrameWrite_units h
  | regRead | regWrite | c22Read | c22Write | c45Read | c45Write | drvRead | drvWrite | epcRead | epcEwds | epcEwen
  | epcWrite | epcEraseAll => cases hi

theorem driverRequest_seq {i : Instr} (hi : isDriverRequest i = true) (h : exec i s = .next t) : t.seq = s.seq := by
  cases i with
  | drvRead =>
    obtain ⟨x, u, rfl, hu, _⟩ := drvRead_exchanges h
    exact hu.outside.2.1
  | drvWrite =>
    obtain ⟨x, u, s1, w, rfl, hs1, ⟨yes, hw⟩, hu, _⟩ := drvWrite_exchanges h
    exact hu.device.2.trans ((macWriteIf_frame hw).2.1.trans hs1.device.2)
  | regRead | regWrite | c22Read | c22Write | c45Read | c45Write | miiRead | miiWrite | mmdAddr | mmdData | frameRead
  | frameWrite | epcRead | epcEwds | epcEwen | epcWrite | epcEraseAll => cases hi

theorem SequencerInv.exec {i : Instr} (h : SequencerInv s) (hwf : s.cfg.wf) (hm : exec i s = .next t) :
    SequencerInv t := by
  cases i with
  | regRead | regWrite | c22Read | c22Write | c45Read | c45Write => exact h.exec_command hwf rfl hm
  | miiRead | miiWrite | mmdAddr | mmdData | frameRead | frameWrite =>
    exact h.congr (exec_engineItem_units rfl hm).1 (exec_script hm).cfg
  | drvRead | drvWrite => exact h.congr (driverRequest_seq rfl hm) (exec_script hm).cfg
  | epcRead | epcEwds | epcEwen | epcWrite | epcEraseAll => exact h.epcCommand hwf hm

theorem SequencerInv.presentRejected {e : Encoded} {r : Reject} (h : SequencerInv s) (hwf : s.cfg.wf)
    (hm : presentRejected e r s = .next t) : SequencerInv t := by
  cases e with
  | cmd ws => cases hm; exact SequencerInv.raise _ hwf
  | acc w =>
    obtain ⟨hout, hseq, _⟩ := accWrite_outside hm
    exact h.congr hseq hout.cfg
  | mmd v => exact h.congr (selectCommand_units hm).1 (selectCommand_script hm).cfg
  | drv | frame | epc => cases hm

theorem SequencerInv.engineMove (h : SequencerInv s) (hm : engineMove s = .next t) : SequencerInv t :=
  h.congr (engineMove_moved hm).seq (engineMove_moved hm).script.cfg

theorem SequencerInv.agentTurn {a : Agent} (h : SequencerInv s) (hwf : s.cfg.wf) (hm : agentTurn a s = .next t) :
    SequencerInv t :=
  agentTurn_keeps h (fun _ _ hi => h.exec hwf hi) (fun _ _ _ hr => h.presentRejected hwf hr)
    (fun e => SequencerInv.raise e hwf) (fun _ he => h.engineMove he) (fun _ hu => hu.congr rfl rfl) hm

/-! ### RETRY (R99) -/

/-- The bound on RETRY is read off the serializer and its limit. -/
theorem retryBounded_congr (h : retryBounded s) (hser : t.ser = s.ser) (hcfg : t.cfg = s.cfg) : retryBounded t := by
  rwa [retryBounded, hser, hcfg]

/-- No operation is going on. -/
theorem retryBounded_over (h : t.ser.pending = false) : retryBounded t := fun hpending => by
  rw [h] at hpending; cases hpending

theorem pollIteration_retry (h : retryBounded s) (v : Word) : retryBounded (pollIteration v s) := by
  simp only [pollIteration]
  repeat' split
  · exact h
  · exact retryBounded_over rfl
  · exact h
  · exact h

theorem readFinish_retry {op : MicroOp} {f : Word → State → State} (hf : readFinish op = some f) (h : retryBounded s)
    (v : Word) : retryBounded (f v s) := by
  cases op with
  | poll => cases hf; exact pollIteration_retry h v
  | rdData | rdReg => cases hf; exact h
  | validate | wrData | wrAcc | wrReg | ret => cases hf

theorem execMicroOp_retry {c : Command} {op : MicroOp} (h : retryBounded s) (hm : execMicroOp c op s = .next t) :
    retryBounded t := by
  rcases execMicroOp_cases hm with
    ⟨_, rfl⟩ | ⟨_, rfl⟩ | ⟨f, u, hf, _, _, hu, ht⟩ | ⟨a, v, yes, s1, u, w, _, hs1, _, hwrite, hw, hser, ht⟩
  · simp only [microValidate]
    split
    · exact retryBounded_over rfl
    · exact h
  · exact h
  · rcases ht with ⟨_, rfl⟩ | ⟨e, rfl⟩ | ⟨v, rfl⟩
    · exact hu h
    · exact retryBounded_over rfl
    · exact readFinish_retry hf (hu h) v
  · have hcfg : w.cfg = s.cfg := hw.device.1.cfg.trans ((macWriteIf_frame hwrite).1.cfg.trans hs1.device.1.cfg)
    have hwritten : retryBounded w := hser.elim (fun hsame => retryBounded_congr h hsame hcfg) id
    rcases ht with ⟨_, rfl⟩ | ⟨e, rfl⟩ | rfl
    · exact hwritten
    · exact retryBounded_over rfl
    · exact hwritten

theorem epcCommand_retry {code : BitVec 3} {a : BitVec 9} {byte : Option Byte} (h : retryBounded s)
    (hm : epcCommand code a byte s = .next t) : retryBounded t := by
  rw [epcCommand_spec] at hm
  cases hm
  split
  · rcases epcContinue_cases code a byte s with ⟨ph, he⟩ | ⟨d, _, he⟩ | he | he <;> rw [he]
    · exact retryBounded_over rfl
    · exact retryBounded_over rfl
    · exact retryBounded_over rfl
    · exact h
  · exact h

theorem exec_command_retry {i : Instr} {c : Command} (h : retryBounded s) (hi : commandOfInstr i = some c)
    (hm : exec i s = .next t) : retryBounded t := by
  obtain ⟨opa, opb, opc, opd, hexec⟩ := exec_command hi
  rw [hexec] at hm
  rcases execCommand_cases hm with ⟨_, rfl⟩ | ⟨_, rfl⟩ | ⟨_, _, op, _, hmicro⟩
  · exact retryBounded_over rfl
  · exact h
  · exact execMicroOp_retry h hmicro

theorem exec_retry {i : Instr} (h : retryBounded s) (hm : exec i s = .next t) : retryBounded t := by
  cases i with
  | regRead | regWrite | c22Read | c22Write | c45Read | c45Write => exact exec_command_retry h rfl hm
  | miiRead | miiWrite | mmdAddr | mmdData | frameRead | frameWrite =>
    exact retryBounded_congr h (exec_engineItem_units rfl hm).2 (exec_script hm).cfg
  | drvRead =>
    obtain ⟨x, u, rfl, _, hu⟩ := drvRead_exchanges hm
    exact hu.elim (fun hsame => hsame ▸ h) id
  | drvWrite =>
    obtain ⟨x, u, s1, w, rfl, _, _, _, hu⟩ := drvWrite_exchanges hm
    exact hu.elim (fun hsame => hsame ▸ h) id
  | epcRead | epcEwds | epcEwen | epcWrite | epcEraseAll => exact epcCommand_retry h hm

theorem presentRejected_retry {e : Encoded} {r : Reject} (h : retryBounded s) (hm : presentRejected e r s = .next t) :
    retryBounded t := by
  cases e with
  | cmd ws => cases hm; exact retryBounded_over rfl
  | acc w =>
    obtain ⟨hout, _, hser⟩ := accWrite_outside hm
    exact retryBounded_congr h hser hout.cfg
  | mmd v => exact retryBounded_congr h (selectCommand_units hm).2 (selectCommand_script hm).cfg
  | drv | frame | epc => cases hm

theorem engineMove_retry (h : retryBounded s) (hm : engineMove s = .next t) : retryBounded t :=
  retryBounded_congr h (engineMove_moved hm).ser (engineMove_moved hm).script.cfg

theorem agentTurn_retry {a : Agent} (h : retryBounded s) (hm : agentTurn a s = .next t) : retryBounded t :=
  agentTurn_keeps h (fun _ _ hi => exec_retry h hi) (fun _ _ _ hr => presentRejected_retry h hr)
    (fun _ => retryBounded_over rfl) (fun _ he => engineMove_retry h he) (fun _ hu => hu) hm

/-! ### The invariant -/

/-- The invariant is its parts. -/
theorem inv_iff : Inv s ↔ s.cfg.wf ∧ DeviceInv s ∧ SequencerInv s ∧ retryBounded s := by
  constructor
  · rintro ⟨hconfig, hlock, hbusy, hmemories, hpins, hrunning, hpolls, hretry⟩
    exact ⟨hconfig, ⟨hbusy, hmemories, hpins⟩, ⟨hlock, hrunning, hpolls⟩, hretry⟩
  · rintro ⟨hconfig, ⟨hbusy, hmemories, hpins⟩, ⟨hlock, hrunning, hpolls⟩, hretry⟩
    exact ⟨hconfig, hlock, hbusy, hmemories, hpins, hrunning, hpolls, hretry⟩

theorem inv_takeTurn (h : Inv s) : Inv (takeTurn s).2 := by
  obtain ⟨ts, n, htake⟩ := takeTurn_spec s
  rw [htake]
  exact { h with }

theorem inv_agentTurn {a : Agent} (h : Inv s) (hm : agentTurn a s = .next t) : Inv t := by
  obtain ⟨hwf, hdevice, hsequencer, hretry⟩ := inv_iff.mp h
  have hcfg := agentTurn_cfg hm
  exact inv_iff.mpr ⟨hcfg ▸ hwf, hdevice.agentTurn hwf hm, hsequencer.agentTurn hwf hm, agentTurn_retry hretry hm⟩

end

/-- Settles O52: taking a turn leaves every part of the invariant, and the turn of each agent keeps it, part by part. -/
theorem invariantKept : Obligations.InvariantKept := by
  unfold Obligations.InvariantKept
  intro s t hinv hstep
  exact inv_agentTurn (inv_takeTurn hinv) hstep

/-- Settles O51: the device is at rest and the sequencer idle, and the defaults of R8 are legal. -/
theorem invariantAtReset : Obligations.InvariantAtReset := by
  unfold Obligations.InvariantAtReset
  have hconfig : State.reset.cfg.wf :=
    ⟨by decide, by decide, by decide, nofun, Nat.le_add_left 1 Config.openRetryLimitPred⟩
  exact ⟨hconfig, reset_lockFollowsMode, rfl, reset_memories_wf, reset_idlePins, nofun, nofun, nofun⟩

end Sys2Proof.Proofs

/-! PROOFS. The poll discipline over the USB Transport (42_mdio_c22.md R171, R175; 70_reset_and_hazards.md R350 Z1): every step
keeps it, and under it no step is a fault (R224, R225). The order of the micro-programs is what it rests on: a WRDATA comes
after a POLL, and a WRACC after a POLL or after the WRDATA that does. -/

namespace Sys2Proof.Proofs

open Sys2Proof.Machine

/-! ### The order of the micro-programs (R25, R171) -/

/-- The micro-operations that write an MII register by themselves (R175, R176). -/
def writesMii : MicroOp → Bool
  | .wrData _ => true
  | .wrAcc _ _ => true
  | _ => false

/-- The micro-operations after which one of them may come: ENG is free behind them. -/
def leavesFree : MicroOp → Bool
  | .poll => true
  | .wrData _ => true
  | _ => false

/-- In every micro-program an MII register is written only behind a POLL or a WRDATA. -/
theorem program_order {w : Word} {c : Command} {k : BitVec 5} {op next : MicroOp} (h : commandOf w = some c)
    (hop : c.program[k.toNat]? = some op) (hnext : c.program[(k + 1#5).toNat]? = some next)
    (hwrites : writesMii next = true) : leavesFree op = true := by
  have order : ∀ c ∈ [regReadCommand, regWriteCommand, c22ReadCommand, c22WriteCommand, c45ReadCommand, c45WriteCommand],
      ∀ k : BitVec 5, ∀ op ∈ c.program[k.toNat]?, ∀ next ∈ c.program[(k + 1#5).toNat]?,
        writesMii next = true → leavesFree op = true := by decide
  refine order c ?_ k op hop next hnext hwrites
  rcases commandOf_cases h with ⟨_, rfl⟩ | ⟨_, rfl⟩ | ⟨_, rfl⟩ | ⟨_, rfl⟩ | ⟨_, rfl⟩ | ⟨_, rfl⟩ <;> simp

/-- WRREG is a micro-operation of REG_WRITE alone. -/
theorem command_of_wrReg {w : Word} {c : Command} {k : Nat} (h : commandOf w = some c)
    (hop : c.program[k]? = some .wrReg) : w = 0x09#32 := by
  have hmem := List.mem_of_getElem? hop
  rcases commandOf_cases h with ⟨_, rfl⟩ | ⟨hw, rfl⟩ | ⟨_, rfl⟩ | ⟨_, rfl⟩ | ⟨_, rfl⟩ | ⟨_, rfl⟩
  · exact absurd hmem (by decide)
  · exact hw
  · exact absurd hmem (by decide)
  · exact absurd hmem (by decide)
  · exact absurd hmem (by decide)
  · exact absurd hmem (by decide)

/-! ### The discipline of the sequencer -/

/-- A latched REG_WRITE addresses no MII register. -/
abbrev latchedLeavesMii (s : State) : Prop :=
  s.seq.mode = .run → s.seq.cmd = 0x09#32 →
    s.seq.opa.setWidth 12 ≠ miiAccAddr ∧ s.seq.opa.setWidth 12 ≠ miiDataAddr

/-- The sequencer's part of the discipline: a running command, a latched REG_WRITE to no MII register, and ENG free where
an MII register is about to be written. -/
structure OrderedAccess (s : State) : Prop where
  running : runningIsCommand s
  latchedWrite : latchedLeavesMii s
  afterPoll : ∀ op, currentMicroOp s = some op → writesMii op = true → s.mac.eng = .free

/-- The discipline is the sequencer's part and what is asked of the inputs. -/
theorem disciplined_iff {s : State} : Disciplined s ↔ s.cfg.wf ∧ s.cfg.transport = .usb ∧
    (∀ e ∈ s.env.port, leavesMiiToSequencer e = true) ∧ OrderedAccess s := by
  constructor
  · intro h
    refine ⟨h.config, h.usb, h.items, h.running, h.latchedWrite, fun op hop hwrites => ?_⟩
    cases op with
    | wrData e => exact h.dataAfterPoll e hop
    | wrAcc r rw => exact h.accessAfterPoll r rw hop
    | validate | poll | rdData | rdReg | wrReg | ret => cases hwrites
  · rintro ⟨hconfig, husb, hitems, h⟩
    exact ⟨hconfig, husb, hitems, h.running, h.latchedWrite, fun e hop => h.afterPoll _ hop rfl,
      fun r rw hop => h.afterPoll _ hop rfl⟩

section
variable {s t : State}

/-- An idle sequencer is about to write nothing. -/
theorem OrderedAccess.idle (h : s.seq.mode = .idle) : OrderedAccess s := by
  refine ⟨runningIsCommand_idle h, fun hrun => ?_, fun op hop => ?_⟩
  · rw [h] at hrun; cases hrun
  · rw [currentMicroOp, h] at hop; cases hop

/-- An engine that at most becomes free does not disturb it. -/
theorem OrderedAccess.congr (h : OrderedAccess s) (hseq : t.seq = s.seq)
    (heng : t.mac.eng = s.mac.eng ∨ t.mac.eng = .free) : OrderedAccess t := by
  refine ⟨runningIsCommand_of_seq h.running hseq, ?_, fun op hop hwrites => ?_⟩
  · rw [latchedLeavesMii, hseq]; exact h.latchedWrite
  · rw [currentMicroOp_of_seq hseq] at hop
    exact heng.elim (fun hsame => hsame.trans (h.afterPoll op hop hwrites)) id

/-- A command accepted stands at its VALIDATE. -/
theorem OrderedAccess.accept {c : Command} {opa opb opc opd : Word} (hc : commandOf c.code = some c)
    (hunused : unusedLatchesZero (accept c.code opa opb opc opd s).seq)
    (hmii : c.code = 0x09#32 → opa.setWidth 12 ≠ miiAccAddr ∧ opa.setWidth 12 ≠ miiDataAddr) :
    OrderedAccess (accept c.code opa opb opc opd s) := by
  obtain ⟨hcurrent, hrunning⟩ := runningIsCommand_accept hc hunused
  refine ⟨hrunning, fun _ => hmii, fun op hop hwrites => ?_⟩
  cases hcurrent.symm.trans hop
  cases hwrites

theorem OrderedAccess.setPollCnt (h : OrderedAccess s) (n : Nat) :
    OrderedAccess { s with seq := { s.seq with pollCnt := n } } := { h with }

theorem OrderedAccess.setRes (h : OrderedAccess s) (v : Word) :
    OrderedAccess { s with seq := { s.seq with res := v } } := { h with }

/-- Going on to the next micro-operation: behind a POLL or a WRDATA ENG has to be free. -/
theorem orderedAccess_next {c : Command} {op : MicroOp} (hrunning : runningIsCommand s) (hlatched : latchedLeavesMii s)
    (hc : commandOf s.seq.cmd = some c) (hop : c.program[s.seq.upc.toNat]? = some op) (hret : op ≠ .ret)
    (hfree : leavesFree op = true → s.mac.eng = .free) : OrderedAccess (nextMicroOp s) := by
  refine ⟨runningIsCommand_next hrunning hc hop hret, hlatched, fun next hnext hwrites => ?_⟩
  obtain ⟨_, c', hc', hnext'⟩ := currentMicroOp_eq_some.mp hnext
  obtain rfl : c' = c := Option.some.inj (hc'.symm.trans hc)
  exact hfree (program_order hc hop hnext' hwrites)

theorem OrderedAccess.next {c : Command} {op : MicroOp} (h : OrderedAccess s) (hc : commandOf s.seq.cmd = some c)
    (hop : c.program[s.seq.upc.toNat]? = some op) (hret : op ≠ .ret)
    (hfree : leavesFree op = true → s.mac.eng = .free) : OrderedAccess (nextMicroOp s) :=
  orderedAccess_next h.running h.latchedWrite hc hop hret hfree

/-! ### The micro-operations over the USB Transport (R120, R126) -/

/-- A POLL over the USB Transport reads whether the engine is busy, or raises. -/
theorem execMicroOp_poll_usb {c : Command} (husb : s.cfg.transport = .usb) (h : execMicroOp c .poll s = .next t) :
    (∃ e u, t = raise e u) ∨ ∃ v u, Spent s u ∧ pollBit v = engBusy s.mac.eng ∧ t = pollIteration v u := by
  obtain ⟨x, u, hread, hx⟩ := afterTransport_cases h
  obtain ⟨x', u', hread', -, hspent, -⟩ := memRead_spec miiAccAddr s
  cases hread'.symm.trans hread
  rcases hx with ⟨rfl, _⟩ | ⟨e, _, rfl⟩ | ⟨v, rfl, rfl⟩
  · exact absurd (again_driver (v := 0#32) (.inl hread)) (by simp [husb])
  · exact .inl ⟨e, u, rfl⟩
  · refine .inr ⟨v, u, hspent (.inl (by decide)), ?_, rfl⟩
    have husbRead : usbRead miiAccAddr s = (.value v, u) := by
      rw [memRead, husb] at hread
      exact Host.Outcome.next.inj hread
    obtain ⟨htaken, _⟩ := takeUsbAnswer_spent s
    simp only [usbRead] at husbRead
    split at husbRead <;> cases husbRead
    next w hanswer =>
      rw [hanswer] at htaken
      have hbusy := macRead_busy w
      rwa [htaken.device.1.mac] at hbusy

/-- The end of a POLL iteration that has read BUSY (R174). -/
theorem OrderedAccess.pollIteration {c : Command} {v : Word} (h : OrderedAccess s) (hc : commandOf s.seq.cmd = some c)
    (hop : c.program[s.seq.upc.toNat]? = some .poll) (hbit : pollBit v = engBusy s.mac.eng) :
    OrderedAccess (pollIteration v s) := by
  cases hb : engBusy s.mac.eng with
  | false =>
    rw [pollIteration_free (hbit.trans hb)]
    exact (h.setPollCnt 0).next hc hop (by decide) fun _ => eng_free_of_not_busy hb
  | true =>
    by_cases hallowed : pollsAllowed (s.seq.pollCnt + 1) s
    · rw [pollIteration_busy (hbit.trans hb) hallowed]
      exact h.setPollCnt _
    · obtain ⟨n, hn⟩ := not_forall.mp hallowed
      obtain ⟨hlimit, hreached⟩ := Classical.not_imp.mp hn
      rw [pollIteration_limit (hbit.trans hb) hlimit (Nat.not_lt.mp hreached)]
      exact OrderedAccess.idle rfl

/-- Only a write of MII_ACC launches. -/
theorem macWriteIf_eng {yes : Bool} {a : RegAddr} {v : Word} (ha : a ≠ miiAccAddr)
    (h : macWriteIf yes a v s = .next t) : t.mac.eng = s.mac.eng := by
  rcases macWriteIf_cases h with
    rfl | ⟨hacc, _⟩ | ⟨_, _, _, rfl⟩ | ⟨_, _, hcommand⟩ | ⟨_, _, rfl⟩ | ⟨_, _, _, _, _, rfl⟩
  · rfl
  · exact absurd hacc ha
  · rfl
  · obtain ⟨o, rfl⟩ := epcCommandWrite_cases hcommand
    rfl
  · rfl
  · rfl

/-- A micro-operation of the running command keeps the order, whatever the USB Transport answers. -/
theorem OrderedAccess.execMicroOp {c : Command} {op : MicroOp} (h : OrderedAccess s) (husb : s.cfg.transport = .usb)
    (hcurrent : currentMicroOp s = some op) (hc : commandOf s.seq.cmd = some c)
    (hop : c.program[s.seq.upc.toNat]? = some op) (hm : execMicroOp c op s = .next t) : OrderedAccess t := by
  rcases execMicroOp_cases hm with
    ⟨rfl, rfl⟩ | ⟨_, rfl⟩ | ⟨f, u, hf, hu, _, _, ht⟩ | ⟨a, v, yes, s1, u, w, htarget, hs1, _, hwrite, hw, _, ht⟩
  · simp only [microValidate]
    split
    · exact OrderedAccess.idle rfl
    · exact h.next hc hop (by decide) nofun
  · exact OrderedAccess.idle rfl
  · obtain ⟨_, hseq, hmac, _⟩ := hu.outside
    have hread : OrderedAccess u := h.congr hseq (.inl (by rw [hmac]))
    rcases ht with ⟨hdriver, _⟩ | ⟨e, rfl⟩ | ⟨v, rfl⟩
    · rw [husb] at hdriver; cases hdriver
    · exact OrderedAccess.idle rfl
    · cases op with
      | poll =>
        rcases execMicroOp_poll_usb husb hm with ⟨e, x, ht⟩ | ⟨w, x, hx, hbit, ht⟩
        · rw [ht]; exact OrderedAccess.idle rfl
        · obtain ⟨hdev, hsame⟩ := hx.device
          rw [ht]
          exact (h.congr hsame (.inl (by rw [hdev.mac]))).pollIteration (hsame ▸ hc) (hsame ▸ hop)
            (by rw [hbit, hdev.mac])
      | rdData | rdReg => cases hf; exact (hread.setRes _).next (hseq ▸ hc) (hseq ▸ hop) (by decide) fun hfree => by cases hfree
      | validate | wrData | wrAcc | wrReg | ret => cases hf
  · have hseq : w.seq = s.seq := hw.device.2.trans ((macWriteIf_frame hwrite).2.1.trans hs1.device.2)
    rcases ht with ⟨hdriver, _⟩ | ⟨e, rfl⟩ | rfl
    · rw [husb] at hdriver; cases hdriver
    · exact OrderedAccess.idle rfl
    · have hlatched : latchedLeavesMii w := by rw [latchedLeavesMii, hseq]; exact h.latchedWrite
      refine orderedAccess_next (runningIsCommand_of_seq h.running hseq) hlatched (hseq ▸ hc) (hseq ▸ hop)
        (ne_ret_of_writeTarget htarget) fun hfree => ?_
      cases op with
      | wrData e =>
        cases htarget
        rw [hw.device.1.mac, macWriteIf_eng (by decide) hwrite, hs1.device.1.mac]
        exact h.afterPoll _ hcurrent rfl
      | poll => cases htarget
      | validate | wrAcc | rdData | rdReg | wrReg | ret => cases hfree

/-! ### The turns -/

/-- The running command decodes, and its step is the micro-operation at UPC (R24, R25). -/
theorem sequencerTurn_run (hrunning : runningIsCommand s) (hmode : s.seq.mode = .run) :
    ∃ c op, commandOf s.seq.cmd = some c ∧ c.program[s.seq.upc.toNat]? = some op ∧ currentMicroOp s = some op ∧
      sequencerTurn s = execMicroOp c op s := by
  obtain ⟨hsome, hunused⟩ := hrunning hmode
  obtain ⟨op, hcurrent⟩ := Option.isSome_iff_exists.mp hsome
  obtain ⟨_, c, hc, hop⟩ := currentMicroOp_eq_some.mp hcurrent
  obtain ⟨i, hi⟩ := runningInstr_of_commandOf hc
  obtain ⟨c', _, hc', _, hexec⟩ := exec_atMicroOp ⟨hmode, hi, hunused, hcurrent⟩
  obtain rfl : c' = c := Option.some.inj (hc'.symm.trans hc)
  refine ⟨c', op, hc, hop, hcurrent, ?_⟩
  rw [← hexec]
  simp only [sequencerTurn, hmode, hi]

/-- A command frame that addresses no MII register with a REG_WRITE is accepted in order. -/
theorem OrderedAccess.exec_command {ws : List Word} {i : Instr} (hitem : leavesMiiToSequencer (.cmd ws) = true)
    (hi : decodeCmd ws = .ok i) (hidle : s.seq.mode = .idle) : ∃ u, exec i s = .next u ∧ OrderedAccess u := by
  obtain ⟨c, hc⟩ := commandOfInstr_of_decodeCmd hi
  obtain ⟨opa, opb, opc, opd, hexec, hunused⟩ := exec_command_operands hc
  have haccept : exec i s = .next (Machine.accept c.code opa opb opc opd s) := by
    rw [hexec, execCommand, hidle]
  refine ⟨_, haccept, OrderedAccess.accept (commandOf_code hc) (hunused s) fun hcode => ?_⟩
  simp only [leavesMiiToSequencer, hi] at hitem
  cases i with
  | regWrite a v =>
    have hopa : opa = a :=
      (congrArg (fun u : State => u.seq.opa) (Host.Outcome.next.inj (haccept.symm.trans (exec_regWrite_idle hidle a v))))
    simpa [hopa] using hitem
  | regRead | c22Read | c22Write | c45Read | c45Write => cases hc; cases hcode
  | miiRead | miiWrite | mmdAddr | mmdData | drvRead | drvWrite | frameRead | frameWrite | epcRead | epcEwds | epcEwen
  | epcWrite | epcEraseAll => cases hc

/-- An EPC command issues register commands to the registers of the EEPROM only (R280). -/
theorem OrderedAccess.epcCommand (code : BitVec 3) (a : BitVec 9) (byte : Option Byte) (hidle : s.seq.mode = .idle) :
    ∃ u, epcCommand code a byte s = .next u ∧ OrderedAccess u := by
  have hread : ∀ ph, OrderedAccess (issueRead 0x040#12 ph s) := fun ph =>
    (OrderedAccess.accept (c := regReadCommand) (s := s) rfl
      (by simp [unusedLatchesZero, Machine.accept, regReadCommand]) nofun).congr rfl (.inl rfl)
  have hwrite : ∀ b v ph, b ≠ miiAccAddr → b ≠ miiDataAddr → OrderedAccess (issueWrite b v ph s) := fun b v ph h1 h2 =>
    (OrderedAccess.accept (c := regWriteCommand) (s := s) (opa := b.setWidth 32) (opb := v) rfl
      (by simp [unusedLatchesZero, Machine.accept, regWriteCommand])
      fun _ => by rw [setWidth_regAddr]; exact ⟨h1, h2⟩).congr rfl (.inl rfl)
  have hnext := epcCommand_spec code a byte s
  rw [hidle] at hnext
  refine ⟨_, hnext, ?_⟩
  show OrderedAccess (epcContinue code a byte s)
  rcases epcContinue_cases code a byte s with ⟨ph, he⟩ | ⟨d, _, he⟩ | he | he <;> rw [he]
  · exact hread ph
  · exact hwrite _ _ _ (by decide) (by decide)
  · exact hwrite _ _ _ (by decide) (by decide)
  · exact OrderedAccess.idle hidle

/-- What an EPC word decodes to is an EPC command, which waits while a register command runs (R24, R280). -/
theorem decodeEpc_cases {w : Word} {i : Instr} (h : decodeEpc w = .ok i) :
    (∀ s, mustWait i s = (s.seq.mode == .run)) ∧ ∃ code a byte, ∀ s, exec i s = epcCommand code a byte s := by
  simp only [decodeEpc] at h
  repeat' split at h
  all_goals cases h
  all_goals exact ⟨fun _ => rfl, _, _, _, fun _ => rfl⟩

theorem idle_of_not_run (h : (s.seq.mode == .run) = false) : s.seq.mode = .idle := by
  cases hm : s.seq.mode with
  | idle => rfl
  | run => rw [hm] at h; cases h

/-- An instruction that a disciplined client presents is accepted or issued in order (R24, R280). -/
theorem OrderedAccess.presented {e : Encoded} {i : Instr} (hitem : leavesMiiToSequencer e = true)
    (hi : decode s.cfg e = .ok i) (hwait : mustWait i s = false) : ∃ u, exec i s = .next u ∧ OrderedAccess u := by
  cases e with
  | cmd ws =>
    obtain ⟨c, hc⟩ := commandOfInstr_of_decodeCmd hi
    rw [mustWait_command hc] at hwait
    exact OrderedAccess.exec_command hitem hi (idle_of_not_run hwait)
  | epc w =>
    obtain ⟨hmust, code, a, byte, hexec⟩ := decodeEpc_cases hi
    rw [hmust] at hwait
    rw [hexec]
    exact OrderedAccess.epcCommand code a byte (idle_of_not_run hwait)
  | acc | mmd | drv | frame => cases hitem

/-- An item of a disciplined client that holds no instruction raises or is refused (R101, U9). -/
theorem presentRejected_disciplined {e : Encoded} (r : Reject) (s : State) (hitem : leavesMiiToSequencer e = true) :
    (∃ u, presentRejected e r s = .next u ∧ OrderedAccess u) ∨ ∃ x, presentRejected e r s = .refused x := by
  cases e with
  | cmd ws => exact .inl ⟨_, rfl, OrderedAccess.idle rfl⟩
  | epc w => exact .inr ⟨_, rfl⟩
  | acc | mmd | drv | frame => cases hitem

theorem OrderedAccess.agentTurn {a : Agent} (h : OrderedAccess s) (husb : s.cfg.transport = .usb)
    (hitems : ∀ e ∈ s.env.port, leavesMiiToSequencer e = true) (hm : agentTurn a s = .next t) : OrderedAccess t := by
  cases a with
  | client =>
    rcases clientTurn_cases hm with rfl | ⟨e, items, u, hport, ht, hcase⟩
    · exact h
    · have hitem : leavesMiiToSequencer e = true := hitems e (by rw [hport]; exact List.mem_cons_self)
      have hu : OrderedAccess u := by
        rcases hcase with ⟨i, hi, hwait, hexec⟩ | ⟨r, _, _, hreject⟩
        · obtain ⟨u', hexec', hordered⟩ := OrderedAccess.presented hitem hi hwait
          cases hexec.symm.trans hexec'
          exact hordered
        · rcases presentRejected_disciplined r s hitem with ⟨u', hu', hordered⟩ | ⟨x, hx⟩
          · cases hreject.symm.trans hu'
            exact hordered
          · cases hreject.symm.trans hx
      rcases ht with rfl | rfl
      · exact hu
      · exact hu.congr rfl (.inl rfl)
  | sequencer =>
    change sequencerTurn s = .next t at hm
    cases hmode : s.seq.mode with
    | idle =>
      simp only [sequencerTurn, hmode] at hm
      cases hm; exact h
    | run =>
      obtain ⟨c, op, hc, hop, hcurrent, hturn⟩ := sequencerTurn_run h.running hmode
      exact h.execMicroOp husb hcurrent hc hop (hturn.symm.trans hm)
  | engine =>
    have hmoved := engineMove_moved ((engineTurn_eq s).symm.trans hm)
    exact h.congr hmoved.seq hmoved.eng

/-- A turn adds nothing to the port. -/
theorem agentTurn_port {a : Agent} (h : agentTurn a s = .next t) : t.env.port ⊆ s.env.port :=
  agentTurn_keeps (P := fun u => u.env.port ⊆ s.env.port) (List.Subset.refl _)
    (fun _ _ hi => by rw [(exec_script hi).port]; exact List.Subset.refl _)
    (fun _ _ _ hr => by rw [(presentRejected_script hr).port]; exact List.Subset.refl _)
    (fun _ => List.Subset.refl _)
    (fun _ hm => by rw [(engineMove_moved hm).script.port]; exact List.Subset.refl _)
    (fun _ hu _ he => hu (List.mem_of_mem_tail he)) h

theorem disciplined_takeTurn (h : Disciplined s) : Disciplined (takeTurn s).2 := by
  obtain ⟨ts, n, htake⟩ := takeTurn_spec s
  rw [htake]
  exact { h with }

theorem disciplined_agentTurn {a : Agent} (h : Disciplined s) (hm : agentTurn a s = .next t) : Disciplined t := by
  obtain ⟨hconfig, husb, hitems, hordered⟩ := disciplined_iff.mp h
  have hcfg := agentTurn_cfg hm
  exact disciplined_iff.mpr ⟨hcfg ▸ hconfig, hcfg ▸ husb, fun e he => hitems e (agentTurn_port hm he),
    hordered.agentTurn husb hitems hm⟩

/-! ### No fault (R224, R225) -/

/-- A micro-operation is a fault only where its register write is. -/
theorem execMicroOp_fault {c : Command} {op : MicroOp} {r : Fault} (h : execMicroOp c op s = .fault r) :
    ∃ a v yes s1, writeTarget op s = some (a, v) ∧ Spent s s1 ∧ macWriteIf yes a v s1 = .fault r := by
  have after : ∀ (o : Result (Xfer × State)) f, afterTransport o f = .fault r → o = .fault r := by
    intro o f ho
    rcases andThen_eq_fault.mp ho with hfault | ⟨⟨x, u⟩, _, hx⟩
    · exact hfault
    · cases x <;> cases hx
  have read : ∀ a f, afterTransport (memRead a s) f ≠ .fault r := fun a f hread => by
    obtain ⟨x, u, hnext, _⟩ := memRead_spec a s
    cases hnext.symm.trans (after _ _ hread)
  have write : ∀ a v f, writeTarget op s = some (a, v) → afterTransport (memWrite a v s) f = .fault r →
      ∃ a v yes s1, writeTarget op s = some (a, v) ∧ Spent s s1 ∧ macWriteIf yes a v s1 = .fault r := by
    intro a v f htarget hwrite
    obtain ⟨yes, s1, hs1, _, _, hfault⟩ := memWrite_spec a v s
    exact ⟨a, v, yes, s1, htarget, hs1, hfault r (after _ _ hwrite)⟩
  cases op with
  | validate | ret => cases h
  | poll | rdData | rdReg => exact absurd h (read _ _)
  | wrData | wrAcc | wrReg => exact write _ _ _ rfl h

/-- The register that a disciplined sequencer writes is no MII register, or ENG is free. -/
theorem execMicroOp_no_fault {c : Command} {op : MicroOp} (h : OrderedAccess s) (hcurrent : currentMicroOp s = some op)
    (hc : commandOf s.seq.cmd = some c) (hop : c.program[s.seq.upc.toNat]? = some op) (r : Fault) :
    execMicroOp c op s ≠ .fault r := by
  intro hfault
  obtain ⟨a, v, yes, s1, htarget, hs1, hwrite⟩ := execMicroOp_fault hfault
  refine macWriteIf_no_fault yes a v s1 r (fun ha => ?_) hwrite
  rw [hs1.device.1.mac]
  cases op with
  | wrData | wrAcc => exact h.afterPoll _ hcurrent rfl
  | wrReg =>
    cases htarget
    obtain ⟨hmode, _⟩ := currentMicroOp_eq_some.mp hcurrent
    obtain ⟨hacc, hdata⟩ := h.latchedWrite hmode (command_of_wrReg hc hop)
    exact absurd ha (not_or.mpr ⟨hacc, hdata⟩)
  | validate | poll | rdData | rdReg | ret => cases htarget

theorem clientTurn_no_fault (hitems : ∀ e ∈ s.env.port, leavesMiiToSequencer e = true) (r : Fault) :
    clientTurn s ≠ .fault r := by
  intro h
  simp only [clientTurn] at h
  split at h
  · cases h
  · next e items hport =>
    have hitem : leavesMiiToSequencer e = true := hitems e (by rw [hport]; exact List.mem_cons_self)
    split at h
    · next i hi =>
      split at h
      · cases h
      · next hwait =>
        obtain ⟨u, hexec, _⟩ := OrderedAccess.presented hitem hi (by simpa using hwait)
        rw [hexec] at h
        cases h
    · next x hx =>
      split at h
      · cases h
      · rcases presentRejected_disciplined x s hitem with ⟨u, hu, _⟩ | ⟨y, hy⟩
        · rw [hu] at h; cases h
        · rw [hy] at h; cases h

theorem agentTurn_no_fault {a : Agent} (h : Disciplined s) (r : Fault) : agentTurn a s ≠ .fault r := by
  obtain ⟨_, _, hitems, hordered⟩ := disciplined_iff.mp h
  cases a with
  | client => exact clientTurn_no_fault hitems r
  | sequencer =>
    show sequencerTurn s ≠ .fault r
    cases hmode : s.seq.mode with
    | idle => simp [sequencerTurn, hmode]
    | run =>
      obtain ⟨c, op, hc, hop, hcurrent, hturn⟩ := sequencerTurn_run hordered.running hmode
      rw [hturn]
      exact execMicroOp_no_fault hordered hcurrent hc hop r
  | engine =>
    show engineTurn s ≠ .fault r
    rw [engineTurn_eq]
    exact engineMove_no_fault s r

end

/-- Settles O54: a micro-operation that writes an MII register comes only behind a POLL that has read BUSY 0 or behind a
WRDATA, and no other agent makes ENG busy. -/
theorem disciplineKept : Obligations.DisciplineKept := by
  unfold Obligations.DisciplineKept
  intro s t h hstep
  exact disciplined_agentTurn (disciplined_takeTurn h) hstep

/-- Settles O53: the only writes of an MII register are those that the discipline has put behind a free ENG. -/
theorem disciplineExcludesFaults : Obligations.DisciplineExcludesFaults := by
  unfold Obligations.DisciplineExcludesFaults
  intro s h r
  exact agentTurn_no_fault (disciplined_takeTurn h) r

end Sys2Proof.Proofs

/-! PROOFS. The command port (10_state.md R24, 30_encoding.md R101; log 5, log 24, log 29): a command accepted, one that waits, and
a frame that is no command; and which instruction each agent's step runs. -/

namespace Sys2Proof.Proofs

open Sys2Proof.Machine

/-! ### Which instruction a step runs (R6, R75; log 9, log 10) -/

/-- The client's turn with an instruction at the head of the port that need not wait. -/
theorem clientTurn_presents {s : State} {e : Encoded} {items : List Encoded} {i : Instr} (hport : s.env.port = e :: items)
    (hi : decode s.cfg e = .ok i) (hwait : mustWait i s = false) :
    clientTurn s = andThen (exec i s) fun t => .next (retire i t) := by
  simp only [clientTurn, hport, hi, hwait, Bool.false_eq_true, if_false]

/-- Settles O45: the client's turn is the presentation of the item, whose waiting does not turn on the schedule. -/
theorem stepRunsPresented : Obligations.StepRunsPresented := by
  unfold Obligations.StepRunsPresented
  intro s e items ts i hturns hport hi hwait s'
  have hwait' : mustWait i s' = false := (mustWait_env i s _).trans hwait
  rw [step_turn hturns, agentTurn]
  exact clientTurn_presents (s := s') hport hi hwait'

/-- The engine's turn runs the instruction of its record. -/
theorem engineTurn_of_instr {s : State} {i : Instr} (h : engineInstr s = some i) : engineTurn s = exec i s := by
  rw [engineTurn, h]

/-- Settles O46: the sequencer's turn in RUN is `exec` of the decoded latches, and the engine's turn is `exec` of the
instruction of its record. -/
theorem stepRunsCurrent : Obligations.StepRunsCurrent := by
  unfold Obligations.StepRunsCurrent
  intro s ts
  refine ⟨fun i hturns hmode hi => ?sequencer, fun rw p r d hturns hpins he => ?pins, fun p v i hturns hpins he hi => ?word⟩
  case sequencer =>
    rw [step_turn hturns, agentTurn, sequencerTurn]
    have hrunning : runningInstr { s with env := { s.env with turns := ts } } = .ok i := hi
    simp only [hmode, hrunning]
  case pins =>
    rw [step_turn hturns, agentTurn]
    exact engineTurn_of_instr (by simp only [engineInstr, he, hpins, if_true])
  case word =>
    have hword : decodeMmd v = .ok i := hi
    rw [step_turn hturns, agentTurn]
    exact engineTurn_of_instr (by simp [engineInstr, he, hpins, hword])

/-! ### A command that waits (R24; log 5, log 29) -/

/-- In RUN a client's turn with a command frame, legal or not, changes nothing. -/
theorem clientTurn_waits {s : State} {ws : List Word} {items : List Encoded} (hmode : s.seq.mode = .run)
    (hport : s.env.port = .cmd ws :: items) : clientTurn s = .next s := by
  have hrun : (s.seq.mode == .run) = true := by rw [hmode]; rfl
  cases hi : decodeCmd ws with
  | ok i =>
    obtain ⟨c, hc⟩ := commandOfInstr_of_decodeCmd hi
    simp only [clientTurn, hport, decode, hi, mustWait_command hc, hrun, if_true]
  | error r => simp only [clientTurn, hport, decode, hi, rejectedWaits, hrun, if_true]

/-- Settles O9: the turn is spent, and the waiting frame changes nothing. -/
theorem secondCommandWaits : Obligations.SecondCommandWaits := by
  unfold Obligations.SecondCommandWaits
  intro s ws items ts hmode hport hturns
  rw [step_turn hturns, agentTurn]
  exact clientTurn_waits (s := { s with env := { s.env with turns := ts } }) hmode hport

/-! ### A command accepted (R24) -/

/-- A command frame that the encoder writes: its words are the operands of the command, in order, and 0 where there is none
(R22, R91). -/
theorem encode_command {c : Config} {i : Instr} {code : Word} {ops : List Word} (h : encode c i = .cmd (code :: ops)) :
    ∃ cmd : Command, cmd.code = code ∧ (∀ s, exec i s =
        execCommand cmd (ops.getD 0 0#32) (ops.getD 1 0#32) (ops.getD 2 0#32) (ops.getD 3 0#32) s) ∧
      ∀ q : Seq, latchesHold q code (ops.getD 0 0#32) (ops.getD 1 0#32) (ops.getD 2 0#32) (ops.getD 3 0#32) = true →
        decodeCmd (latchedFrame q) = .ok i := by
  have holds : ∀ {q : Seq} {w a b x d : Word}, latchesHold q w a b x d = true →
      q.cmd = w ∧ q.opa = a ∧ q.opb = b ∧ q.opc = x ∧ q.opd = d := fun hl => by
    simpa [latchesHold, and_assoc] using hl
  cases i with
  | regRead | regWrite | c22Read | c22Write | c45Read | c45Write =>
    cases h
    refine ⟨_, rfl, fun _ => rfl, fun q hq => ?_⟩
    obtain ⟨hcmd, hopa, hopb, hopc, hopd⟩ := holds hq
    simp [latchedFrame, hcmd, hopa, hopb, hopc, hopd, decodeCmd]
  | miiRead | miiWrite | mmdAddr | mmdData | drvRead | drvWrite | frameRead | frameWrite | epcRead | epcEwds | epcEwen
  | epcWrite | epcEraseAll => cases h

/-- Settles O8: in IDLE the command is accepted; in RUN only the command that the latches hold has a step. -/
theorem commandAccepted : Obligations.CommandAccepted := by
  unfold Obligations.CommandAccepted
  intro i code ops s hi
  obtain ⟨c, rfl, hexec, hholds⟩ := encode_command hi
  refine ⟨fun hidle => ?accepted, fun hrun hother => ?waits⟩
  case accepted =>
    refine ⟨accept c.code (ops.getD 0 0#32) (ops.getD 1 0#32) (ops.getD 2 0#32) (ops.getD 3 0#32) s, ?_, rfl, rfl,
      ⟨rfl, rfl, rfl, rfl, rfl, rfl, rfl, rfl, rfl⟩, rfl⟩
    rw [hexec, execCommand, hidle]
  case waits =>
    rw [hexec, execCommand, hrun]
    exact if_neg fun hlatched => hother (hholds s.seq hlatched)

/-! ### A frame that is no command (R101, R302, R311; log 24) -/

/-- A command frame is rejected for its code or for its length. -/
theorem decodeCmd_error {ws : List Word} {r : Reject} (h : decodeCmd ws = .error r) :
    (∃ w0 ops, ws = w0 :: ops ∧ r = .unknownCommand w0) ∨ r = .badFrameLength ws.length := by
  cases ws with
  | nil => cases h; exact .inr rfl
  | cons w0 ops =>
    simp only [decodeCmd] at h
    repeat' split at h
    all_goals cases h
    all_goals first
      | exact .inr rfl
      | exact .inl ⟨w0, ops, rfl, rfl⟩

/-- In IDLE the client's turn takes such a frame from the port and raises. -/
theorem clientTurn_rejects {s : State} {ws : List Word} {items : List Encoded} {r : Reject} (hidle : s.seq.mode = .idle)
    (hport : s.env.port = .cmd ws :: items) (hr : decodeCmd ws = .error r) :
    clientTurn s = .next (popPort (raise (frameExc r)
      (accept (ws.getD 0 0#32) (ws.getD 1 0#32) (ws.getD 2 0#32) (ws.getD 3 0#32) (ws.getD 4 0#32) s))) := by
  have hrun : (s.seq.mode == .run) = false := by rw [hidle]; rfl
  simp only [clientTurn, hport, decode, hr, rejectedWaits, hrun, presentRejected, andThen_next, Bool.false_eq_true,
    if_false]

/-- Settles O10: the exception is that of the code or of the length, taken in a state that is but for the latches as it
was. -/
theorem badFrameRaises : Obligations.BadFrameRaises := by
  unfold Obligations.BadFrameRaises
  intro s ws items ts r hidle hport hturns hr
  have hclient := clientTurn_rejects (s := { s with env := { s.env with turns := ts } }) hidle hport hr
  have htail : s.env.port.tail = items := congrArg List.tail hport
  refine ⟨_, (step_turn hturns).trans hclient, ?_, rfl, rfl, ?_, rfl, rfl, rfl, rfl, rfl, ?_⟩
  · rcases decodeCmd_error hr with ⟨w0, ops, _, rfl⟩ | rfl <;> rfl
  · rcases decodeCmd_error hr with ⟨w0, ops, hws, rfl⟩ | rfl
    · exact .inl ⟨w0, ops, hws, rfl, rfl, rfl⟩
    · exact .inr ⟨rfl, rfl, rfl⟩
  · simp only [popPort, raise, accept, htail]

end Sys2Proof.Proofs

/-! PROOFS. Words written out, the address-select word as a number (30_encoding.md R91 to R97), and the accesses that are turned
away: of the serializer (R121), of a busy engine (R224) and under a reserved select word (U5). -/

namespace Sys2Proof.Proofs

open Sys2Proof.Machine

/-- Settles O3, carrier by carrier, by evaluation of the decoder. -/
theorem writtenWordsDecode : Obligations.WrittenWordsDecode := by
  unfold Obligations.WrittenWordsDecode
  have hmiiWrite : accWord 1#5 0xD#5 Config.default.writeOpcode = 0x00000B43#32 := by decide
  have hmiiRead : accWord 5#5 2#5 Config.default.readOpcode = 0x00002881#32 := by decide
  have hframe : frameSlots 0b01#2 1#5 0xD#5 0b10#2 0x4001#16 = 0xFFFFFFFF50B64001#64 := by decide
  refine ⟨rfl, ?_, ?_, decodeMmd_mmdWord true 31#5, decodeDrv_read 0x11223344#32 0#32 0xFFF#32, ?_,
    decodeEpc_epcWord 0b110#3 0#9 0#8⟩
  · rw [← hmiiWrite]; exact decodeAcc_write (by decide) 1#5 0xD#5
  · rw [← hmiiRead]; exact decodeAcc_read Config.default 5#5 2#5
  · rw [← hframe]; exact decodeFrame_write 1#5 0xD#5 0x4001#16

/-- Settles O5: the fields read back as `mmdWord_fields` says; the mode and the device number do not overlap. -/
theorem selectWordFields : Obligations.SelectWordFields := by
  unfold Obligations.SelectWordFields
  intro m d
  obtain ⟨hreserved, hmode, hdevad⟩ := mmdWord_fields m d
  have hnumber : ∀ (m : Bool) (d : Field5), (mmdWord m d).toNat = m.toNat * 2 ^ 14 + d.toNat := by decide
  exact ⟨hnumber m d, hmode, hdevad, hreserved, rfl⟩

/-- An address of 0x1000 or more is handed back before any exchange (R121; log 19). -/
theorem driverOperation_rejected {a : Word} (ha : 0x1000 ≤ a.toNat) (isRead : Bool) (req : List Byte) (s : State) :
    driverOperation isRead req a s =
      .next { s with env := { s.env with driverReturn := some (.raised (excRegAddr a)) } } := by
  have hbad : wellFormedAddr a = false := decide_eq_false (by rw [regAddrBound_eq]; omega)
  rw [driverOperation, hbad]
  rfl

/-- Settles O26: both requests are operations of U2 on the address, which it rejects. -/
theorem drvAddressRejected : Obligations.DrvAddressRejected := by
  unfold Obligations.DrvAddressRejected
  intro sel ifx a v s ha
  exact ⟨driverOperation_rejected ha true _ s, driverOperation_rejected ha false _ s⟩

theorem accWrite_busy {s : State} (h : engBusy s.mac.eng = true) (w : Word) : accWrite w s = .fault .launchWhileBusy := by
  rw [accWrite, if_pos h]

/-- Settles O28: a register write to MII_ACC and the two access words are one operation, which a busy engine answers with the
fault. -/
theorem launchWhileBusyFaults : Obligations.LaunchWhileBusyFaults := by
  unfold Obligations.LaunchWhileBusyFaults
  intro s hne
  have hbusy := engBusy_of_ne_free hne
  exact ⟨fun w => accWrite_busy hbusy w, fun p r => ⟨accWrite_busy hbusy _, accWrite_busy hbusy _⟩⟩

/-- A written word with reserved bits in MMDCTL is what the select register holds, and it is reserved (R36, U5). -/
theorem selectReserved_of_written {f : Phys} {p : Field5} {w : Half}
    (hw : Memory.read f.c22 (c22Key p mmdCtrlIdx) = some w) (hbits : w &&& 0xBFE0#16 ≠ 0#16) :
    selectReserved f p = true ∧ mmdCtlAt f p = w := by
  refine ⟨?_, ?_⟩
  · rw [selectReserved, hw]
    exact mmdReserved_of_mask hbits
  · rw [mmdCtlAt, c22At, hw]
    rfl

/-- Settles O36: index 0xE of a present PHY under a reserved select word is refused, written or read. -/
theorem reservedSelectRefused : Obligations.ReservedSelectRefused := by
  unfold Obligations.ReservedSelectRefused
  intro p v w s hp hw hbits
  obtain ⟨hreserved, hctl⟩ := selectReserved_of_written hw hbits
  refine ⟨?_, ?_⟩
  · simp [phyWrite, phyWriteRegs, hp, hreserved, hctl]
  · simp [phyRead, phyReadRegs, hp, hreserved, hctl]

end Sys2Proof.Proofs

/-! PROOFS. The micro-operations WRACC, RDDATA, RDREG and WRREG (42_mdio_c22.md R176, R177; 40_register_ops.md R122 to R125), and
REG_READ and REG_WRITE as whole commands: what the MAC's own register read and write do, seen through the Transport. -/

namespace Sys2Proof.Proofs

open Sys2Proof.Machine

/-! ### An access word written by a micro-operation (R176, R123) -/

/-- What a launch leaves of the state where a micro-operation has written the access word, whatever the Transport has
spent: the transaction is in flight, UPC advances. -/
structure Launched (rw : Rw) (p r : Field5) (d : Half) (w : Word) (s t : State) : Prop where
  beyond : SameBeyondMac s t
  seq : t.seq = { s.seq with upc := s.seq.upc + 1#5 }
  eng : t.mac.eng = .inflight rw p r d
  datum : rw = .write → s.mac.dataWindow ≠ .undefined → d = s.mac.miiData.setWidth 16
  miiAcc : t.mac.miiAcc = w
  regs : t.mac.regs = s.mac.regs
  miiData : t.mac.miiData = s.mac.miiData

/-- A micro-operation's write of a legal access word to MII_ACC, performed on a free engine (R223). -/
theorem accessWord_launches {s : State} (hperforms : transportPerforms s = true) (hfree : s.mac.eng = .free)
    (hc : s.cfg.wf) (p r : Field5) (rw : Rw) :
    let w := accWord p r (opcodeOf s.cfg rw)
    ∃ t d, afterTransport (memWrite miiAccAddr w s) (fun _ t => nextMicroOp t) = .next t ∧ Launched rw p r d w s t := by
  intro w
  obtain ⟨s1, hs1, _, hnext⟩ := afterTransport_write_next miiAccAddr w (fun _ t => nextMicroOp t) hperforms
  obtain ⟨hdev1, hseq1⟩ := hs1.device
  obtain ⟨d, hlaunch, hd⟩ := macWrite_access (hdev1.cfg ▸ hc) (hdev1.mac ▸ hfree) p r rw
  rw [hdev1.cfg] at hlaunch
  rw [hdev1.mac] at hd
  obtain ⟨t, ht, hx⟩ := hnext _ hlaunch
  obtain ⟨hdev, hseq⟩ := (((startTransaction_spent hs1 rw p r d w).trans (advance_spent _)).trans ht).device
  exact ⟨nextMicroOp t, d, hx, {
    beyond := ⟨hdev.phys, hdev.eeprom, hdev.cfg, hdev.port, hdev.turns, hdev.driverReturn, hdev.epcPhase⟩
    seq := congrArg (fun q : Seq => { q with upc := q.upc + 1#5 }) hseq
    eng := congrArg Mac.eng hdev.mac
    datum := hd
    miiAcc := congrArg Mac.miiAcc hdev.mac
    regs := (congrArg Mac.regs hdev.mac :)
    miiData := (congrArg Mac.miiData hdev.mac :) }⟩

/-- Settles O14: WRACC writes the access word of its PHY, index and direction, which has BUSY set. -/
theorem wrAccLaunches : Obligations.WrAccLaunches := by
  unfold Obligations.WrAccLaunches
  intro i r rw s hat hperforms hfree hc
  obtain ⟨c, _, _, _, hexec⟩ := exec_atMicroOp hat
  obtain ⟨t, d, hlaunch, h⟩ := accessWord_launches hperforms hfree hc (s.seq.opa.setWidth 5) (regIndexValue s.seq r) rw
  exact ⟨t, d, hexec.trans hlaunch, h.beyond, h.seq, h.eng, h.datum, h.miiAcc, by rw [h.miiAcc]; exact accWord_busy hc _ _ rw,
    h.regs, h.miiData⟩

/-- Settles O18: WRREG to MII_ACC writes the operand, which is the access word. -/
theorem regWriteOfAccessWordLaunches : Obligations.RegWriteOfAccessWordLaunches := by
  unfold Obligations.RegWriteOfAccessWordLaunches
  intro i p r rw s hat hperforms hfree hc haddr hword
  obtain ⟨c, _, _, _, hexec⟩ := exec_atMicroOp hat
  obtain ⟨t, d, hlaunch, h⟩ := accessWord_launches hperforms hfree hc p r rw
  have hmicro : exec i s = .next t := by
    rw [hexec, execMicroOp, haddr, hword]
    exact hlaunch
  exact ⟨t, d, hmicro, h.beyond, h.seq, h.eng, h.miiAcc.trans hword.symm, h.regs, h.miiData, h.datum⟩

/-- Settles O27: the access words of a legal configuration decode to their transactions, which a free engine launches. -/
theorem accessWordLaunches : Obligations.AccessWordLaunches := by
  unfold Obligations.AccessWordLaunches
  intro p r s hfree hc
  refine ⟨?read, ?write⟩
  case read =>
    obtain ⟨d, hlaunch, _⟩ := macWrite_access hc hfree p r .read
    exact ⟨_, d, hlaunch, rfl, rfl, accWord_busy hc p r .read, rfl, rfl, ⟨rfl, rfl, rfl, rfl, rfl, rfl, rfl⟩, rfl, rfl⟩
  case write =>
    obtain ⟨d, hlaunch, hd⟩ := macWrite_access hc hfree p r .write
    exact ⟨_, d, hlaunch, rfl, hd rfl, rfl, accWord_busy hc p r .write, rfl, rfl, ⟨rfl, rfl, rfl, rfl, rfl, rfl, rfl⟩,
      rfl, rfl⟩

/-! ### RDDATA (R177) -/

/-- Settles O15: what `execMicroOp_rdData` leaves in RES is all that changes, but for what the Transport spends and UPC. -/
theorem rdDataReturnsDatum : Obligations.RdDataReturnsDatum := by
  unfold Obligations.RdDataReturnsDatum
  intro i s hat hperforms hfree hwindow
  obtain ⟨c, _, _, _, hexec⟩ := exec_atMicroOp hat
  obtain ⟨t, hread, hspent, _⟩ := execMicroOp_rdData c (transportPerformsNext_one hperforms) hfree hwindow
  obtain ⟨hdev, hseq⟩ := hspent.device
  refine ⟨_, hexec.trans hread, { hdev with }, ?_⟩
  rw [← hseq]
  rfl

/-! ### RDREG (R124) -/

/-- What a register read of the MAC at `a` gives in a state `s`: the value `v`, the EEPROM being left as `e` (R221, R222, R280;
logs 21 to 23). -/
structure RegisterRead (a : RegAddr) (s : State) (v : Word) (e : Eeprom) : Prop where
  busy : a = 0x120#12 → v.getLsbD 0 = engBusy s.mac.eng
  stored : a = 0x124#12 → s.mac.eng = .free → s.mac.dataWindow = .stored → v = s.mac.miiData
  datum : a = 0x124#12 → s.mac.eng = .free → s.mac.dataWindow ≠ .undefined →
    v.setWidth 16 = s.mac.miiData.setWidth 16
  epcCommand : a = 0x040#12 → v.getLsbD 31 = e.inProgress.isSome ∧ (e.inProgress.isSome = true → e = s.eeprom) ∧
    (s.eeprom.inProgress = none → e = s.eeprom)
  epcData : a = 0x044#12 → s.eeprom.inProgress = none → v.setWidth 8 = s.eeprom.data
  eeprom : a ≠ 0x040#12 → e = s.eeprom
  other : a ≠ 0x120#12 → a ≠ 0x124#12 → a ≠ 0x040#12 → a ≠ 0x044#12 →
    v = Config.freeMacRegister s.env.tick a (Memory.read s.mac.regs a.toNat)

theorem macRead_registerRead (a : RegAddr) (s : State) : RegisterRead a s (macRead a s).1 (macRead a s).2.eeprom where
  busy := by rintro rfl; exact macRead_busy s
  stored := by rintro rfl hfree hwindow; exact macRead_stored hfree hwindow
  datum := by rintro rfl hfree hwindow; exact macRead_datum s hfree hwindow
  epcCommand := by rintro rfl; exact macRead_epcBusy s
  epcData := by rintro rfl hidle; exact macRead_epcData hidle
  eeprom := fun h => (congrArg State.eeprom (macRead_state s h) :)
  other := macRead_other s

/-- What a read gives turns on the MAC, the EEPROM and the count of draws alone. -/
theorem RegisterRead.of_same {a : RegAddr} {s t : State} {v : Word} {e : Eeprom} (h : RegisterRead a t v e)
    (hmac : t.mac = s.mac) (heeprom : t.eeprom = s.eeprom) (htick : t.env.tick = s.env.tick) : RegisterRead a s v e := by
  obtain ⟨hbusy, hstored, hdatum, hcommand, hdata, hee, hother⟩ := h
  rw [hmac] at hbusy hstored hdatum hother
  rw [heeprom] at hcommand hdata hee
  rw [htick] at hother
  exact ⟨hbusy, hstored, hdatum, hcommand, hdata, hee, hother⟩

/-- A look leaves everything of the device but the EEPROM. -/
theorem Looked.sameDevice {s t : State} (h : Looked s t) : SameDevice { s with eeprom := t.eeprom } t ∧ t.seq = s.seq := by
  obtain ⟨⟨e, ep, n, rfl⟩, _⟩ := h
  exact ⟨⟨rfl, rfl, rfl, rfl, rfl, rfl, rfl, rfl, rfl⟩, rfl⟩

/-- RDREG whose Transport read is performed: RES is the register read of the MAC (R124). -/
theorem exec_rdReg {i : Instr} {s : State} (hat : AtMicroOp i .rdReg s) (hperforms : transportPerforms s = true) :
    ∃ t, exec i s = .next t ∧ SameDevice { s with eeprom := t.eeprom } t ∧
      t.seq = { s.seq with res := t.seq.res, upc := s.seq.upc + 1#5 } ∧
      RegisterRead (s.seq.opa.setWidth 12) s t.seq.res t.eeprom := by
  obtain ⟨c, _, _, _, hexec⟩ := exec_atMicroOp hat
  obtain ⟨s1, u, hs1, htick, hu, hread⟩ := afterTransport_read (s.seq.opa.setWidth 12) storeResult hperforms
  obtain ⟨hdev1, hseq1⟩ := hs1.device
  obtain ⟨hlook, hseq2⟩ := Looked.sameDevice (macRead_looked (s.seq.opa.setWidth 12) s1)
  obtain ⟨hdev, hseq3⟩ := hu.device
  have hvalue := (macRead_registerRead (s.seq.opa.setWidth 12) s1).of_same hdev1.mac hdev1.eeprom htick
  rw [← hdev.eeprom] at hvalue
  refine ⟨_, hexec.trans hread, ?_, ?_, hvalue⟩
  · exact {
      mac := hdev.mac.trans (hlook.mac.trans hdev1.mac)
      wire := hdev.wire.trans (hlook.wire.trans hdev1.wire)
      phys := hdev.phys.trans (hlook.phys.trans hdev1.phys)
      eeprom := rfl
      cfg := hdev.cfg.trans (hlook.cfg.trans hdev1.cfg)
      port := hdev.port.trans (hlook.port.trans hdev1.port)
      turns := hdev.turns.trans (hlook.turns.trans hdev1.turns)
      driverReturn := hdev.driverReturn.trans (hlook.driverReturn.trans hdev1.driverReturn)
      epcPhase := hdev.epcPhase.trans (hlook.epcPhase.trans hdev1.epcPhase) }
  · exact congrArg (fun q : Seq => { q with res := (macRead (s.seq.opa.setWidth 12) s1).1, upc := q.upc + 1#5 })
      (hseq3.trans (hseq2.trans hseq1))

/-- Settles O16: each clause is a field of the register read. -/
theorem rdRegReadsRegister : Obligations.RdRegReadsRegister := by
  unfold Obligations.RdRegReadsRegister
  intro i s hat hperforms
  obtain ⟨t, hexec, hdev, hseq, h⟩ := exec_rdReg hat hperforms
  exact ⟨t, hexec, hdev, hseq, h.busy, h.stored, h.datum, h.epcCommand, h.epcData, h.eeprom, h.other⟩

/-! ### WRREG (R125) -/

/-- `t` is `s` after a WRREG whose register write, made in a state that differs from `s` in what the Transport has spent
alone, has led to `u`. -/
structure WroteRegister (s u t : State) : Prop where
  outside : SameOutside s t
  seq : t.seq = { s.seq with upc := s.seq.upc + 1#5 }
  mac : t.mac = u.mac
  wire : t.wire = u.wire
  eeprom : t.eeprom = u.eeprom

/-- WRREG whose Transport write is performed: it comes to what the register write of the MAC comes to (R125). -/
theorem exec_wrReg {i : Instr} {s : State} (hat : AtMicroOp i .wrReg s) (hperforms : transportPerforms s = true) :
    ∃ s1, Spent s s1 ∧
      (∀ u, macWrite (s.seq.opa.setWidth 12) s.seq.opb s1 = .next u → ∃ t, exec i s = .next t ∧ WroteRegister s u t) ∧
      (∀ x, macWrite (s.seq.opa.setWidth 12) s.seq.opb s1 = .refused x → exec i s = .refused x) := by
  obtain ⟨c, _, _, _, hexec⟩ := exec_atMicroOp hat
  obtain ⟨s1, finish, hs1, _, hfinish, hwrite⟩ :=
    afterTransport_write (s.seq.opa.setWidth 12) s.seq.opb (fun _ t => nextMicroOp t) hperforms
  refine ⟨s1, hs1, fun u hu => ⟨nextMicroOp (finish u), ?_, ?_⟩, fun x hx => ?_⟩
  · rw [hexec, execMicroOp, hwrite, hu, andThen_next]
  · obtain ⟨hout, hseq, _⟩ := macWriteIf_frame hu
    obtain ⟨hdev, hseq'⟩ := (hfinish u).device
    have hall := hs1.touched.outside.1.trans (hout.trans (hfinish u).touched.outside.1)
    exact {
      outside := { hall with }
      seq := congrArg (fun q : Seq => { q with upc := q.upc + 1#5 }) (hseq'.trans (hseq.trans hs1.device.2))
      mac := hdev.mac, wire := hdev.wire, eeprom := hdev.eeprom }
  · rw [hexec, execMicroOp, hwrite, hx, andThen_refused]

theorem WroteRegister.beyond {s u t : State} (h : WroteRegister s u t) :
    SameBeyondMac { s with eeprom := t.eeprom } t :=
  ⟨h.outside.phys, rfl, h.outside.cfg, h.outside.port, h.outside.turns, h.outside.driverReturn, h.outside.epcPhase⟩

/-- As `macWrite_stores`, by the 12-bit address of the register. -/
theorem macWrite_stores_at {a : RegAddr} (v : Word) {s : State} (hacc : a ≠ 0x120#12) (hcmd : a ≠ 0x040#12)
    (hfree : a = 0x124#12 → s.mac.eng = .free) :
    ∃ u, macWrite a v s = .next u ∧ u.wire = s.wire ∧
      (a = 0x124#12 → u.mac = { s.mac with miiData := v, dataWindow := .stored }) ∧
      (a = 0x044#12 → u.mac = s.mac ∧ u.eeprom = { s.eeprom with data := v.setWidth 8 }) ∧
      (a ≠ 0x044#12 → u.eeprom = s.eeprom) ∧
      (a ≠ 0x124#12 → a ≠ 0x044#12 → u.mac = { s.mac with regs := Memory.write s.mac.regs a.toNat v }) := by
  have hlow : (a.setWidth 32).toNat = a.toNat := BitVec.toNat_setWidth_of_le (by decide)
  have hbound : (a.setWidth 32).toNat < 0x1000 := hlow ▸ a.isLt
  have hiff : ∀ k : RegAddr, a.setWidth 32 = k.setWidth 32 ↔ a = k := fun k => by
    rw [← setWidth_eq_iff hbound k, setWidth_regAddr]
  obtain ⟨u, hw, hwire, hdata, hbyte, heeprom, hregs⟩ := macWrite_stores (a := a.setWidth 32) v hbound
    (mt (hiff 0x120#12).mp hacc) (mt (hiff 0x040#12).mp hcmd) fun h => hfree ((hiff 0x124#12).mp h)
  rw [setWidth_regAddr] at hw
  rw [hlow] at hregs
  exact ⟨u, hw, hwire, fun h => hdata ((hiff 0x124#12).mpr h), fun h => hbyte ((hiff 0x044#12).mpr h),
    fun h => heeprom (mt (hiff 0x044#12).mp h),
    fun h1 h2 => hregs (mt (hiff 0x124#12).mp h1) (mt (hiff 0x044#12).mp h2)⟩

/-- Settles O17: the register write of the MAC, by the register: one that stores, or that of the EPC commands. -/
theorem wrRegWritesRegister : Obligations.WrRegWritesRegister := by
  unfold Obligations.WrRegWritesRegister
  intro i s hat hperforms
  obtain ⟨s1, hs1, hnext, hrefused⟩ := exec_wrReg hat hperforms
  have hdev := hs1.device.1
  refine ⟨fun hacc hcmd hfree => ?stores, fun haddr => ⟨fun hword => ?refused, fun op hword => ?submits⟩⟩
  case stores =>
    obtain ⟨u, hw, hwire, hdata, hbyte, heeprom, hregs⟩ :=
      macWrite_stores_at (s := s1) s.seq.opb hacc hcmd fun h => hdev.mac ▸ hfree h
    obtain ⟨t, hexec, h⟩ := hnext u hw
    rw [hdev.mac, ← h.mac] at hdata hbyte hregs
    rw [hdev.eeprom, ← h.eeprom] at hbyte heeprom
    refine ⟨t, hexec, h.beyond, h.wire.trans (hwire.trans hdev.wire), h.seq, hdata, hbyte, heeprom, fun h1 h2 => ?_⟩
    rw [hregs h1 h2]
    exact ⟨rfl, memory_read_write_same _ _ _, fun b hb => memory_read_write_other _ _ _ _ hb⟩
  case refused =>
    rw [haddr] at hrefused
    exact hrefused _ (epcCommandWrite_reserved (hdev.eeprom ▸ hword))
  case submits =>
    rw [haddr] at hnext
    obtain ⟨o, hw, hnew, hor⟩ := epcCommandWrite_legal (s := s1) (hdev.eeprom ▸ hword)
    obtain ⟨t, hexec, h⟩ := hnext _ hw
    have heeprom : t.eeprom = { s.eeprom with inProgress := o } := by rw [h.eeprom, ← hdev.eeprom]; rfl
    rw [hdev.eeprom] at hnew hor
    have ho : t.eeprom.inProgress = o := congrArg Eeprom.inProgress heeprom
    refine ⟨t, hexec, ?_, h.seq, ho ▸ heeprom, ho ▸ hnew, ho ▸ hor⟩
    have hbeyond := h.beyond
    exact { hbeyond with mac := h.mac.trans hdev.mac, wire := h.wire.trans hdev.wire }

end Sys2Proof.Proofs

/-! PROOFS. REG_READ and REG_WRITE from the port to their end (40_register_ops.md R122, R123): the client's turn, VALIDATE, the
register access, which is RDREG or WRREG, and RET. -/

namespace Sys2Proof.Proofs

open Sys2Proof.Machine

/-- `s` at the register access of the register command `c` of address `a` and value `v`: the command has been accepted,
has left the port, and its VALIDATE has passed. -/
def atAccess (c : Command) (a v : Word) (items : List Encoded) (ts : List Agent) (s : State) : State :=
  { s with
    seq := { cmd := c.code, opa := a, opb := v, opc := 0#32, opd := 0#32, res := 0#32, status := 0#32, info := 0#32
             mode := .run, upc := 1#5, pollCnt := 0, lock := true }
    ser := { s.ser with pending := false }
    env := { s.env with port := items, turns := ts } }

/-- A register command is an instruction `i` whose micro-program is VALIDATE, the register access `op`, and RET. -/
structure RegisterCommand (i : Instr) (c : Command) (a v : Word) (op : MicroOp) : Prop where
  isCommand : commandOfInstr i = some c
  exec_eq : ∀ s, exec i s = execCommand c a v 0#32 0#32 s
  unused : ∀ s, unusedLatchesZero (accept c.code a v 0#32 0#32 s).seq
  latched : ∀ q : Seq, q.cmd = c.code → q.opa = a → q.opb = v → decodeCmd (latchedFrame q) = .ok i
  checks : c.checks = [(.opa, .regAddr)]
  program : c.program = [.validate, op, .ret]

theorem regRead_registerCommand (a : Word) : RegisterCommand (.regRead a) regReadCommand a 0#32 .rdReg where
  isCommand := rfl
  exec_eq _ := rfl
  unused _ := by simp [unusedLatchesZero, accept, regReadCommand]
  latched q hcmd hopa _ := by simp [latchedFrame, hcmd, hopa, regReadCommand, decodeCmd]
  checks := rfl
  program := rfl

theorem regWrite_registerCommand (a v : Word) : RegisterCommand (.regWrite a v) regWriteCommand a v .wrReg where
  isCommand := rfl
  exec_eq _ := rfl
  unused _ := by simp [unusedLatchesZero, accept, regWriteCommand]
  latched q hcmd hopa hopb := by simp [latchedFrame, hcmd, hopa, hopb, regWriteCommand, decodeCmd]
  checks := rfl
  program := rfl

section
variable {i : Instr} {c : Command} {a v : Word} {op : MicroOp} {s : State} {e : Encoded} {items : List Encoded}
  {ts : List Agent}

/-- The sequencer is about to make the register access. -/
theorem RegisterCommand.atMicroOp (h : RegisterCommand i c a v op) (items : List Encoded) (ts : List Agent) (s : State) :
    AtMicroOp i op (atAccess c a v items ts s) where
  mode := rfl
  latched := h.latched _ rfl rfl rfl
  unused := h.unused s
  current := currentMicroOp_eq_some.mpr ⟨rfl, c, commandOf_code h.isCommand, by rw [h.program]; rfl⟩

/-- Acceptance and VALIDATE: two steps lead to the register access (R24, R122, R123). -/
theorem RegisterCommand.reaches_access (h : RegisterCommand i c a v op) (hidle : s.seq.mode = .idle)
    (hport : s.env.port = e :: items) (hi : decode s.cfg e = .ok i) (ha : a.toNat < 0x1000)
    (hturns : s.env.turns = .client :: .sequencer :: ts) : Reaches 2 s (atAccess c a v items ts s) := by
  have hclient := clientTurn_accepts (s := turnTaken (.sequencer :: ts) s) hidle hport hi h.isCommand h.exec_eq
  have haccept := Reaches.of_step ((step_turnTaken hturns).trans hclient)
  refine haccept.trans (.of_step ?_)
  have htail : s.env.port.tail = items := congrArg List.tail hport
  have hpass : firstFailure (accept c.code a v 0#32 0#32 s).seq c.checks = none := by
    rw [h.checks, firstFailure_none]
    simpa [readLatch, accept] using ha
  have hvalidate := step_microOp (c := c) (op := .validate) (ts := ts)
    (s := popPort (accept c.code a v 0#32 0#32 (turnTaken (.sequencer :: ts) s))) rfl rfl (commandOf_code h.isCommand)
    (h.unused s) (by rw [h.program]; rfl)
  have hnext := microValidate_passes (cs := c.checks)
    (s := turnTaken ts (popPort (accept c.code a v 0#32 0#32 (turnTaken (.sequencer :: ts) s)))) hpass
  refine hvalidate.trans (congrArg Host.Outcome.next (hnext.trans ?_))
  simp only [nextMicroOp, turnTaken, popPort, accept, atAccess, htail]
  rfl

/-- The register access and RET: two steps more, where the access answers next and goes on (R178). -/
theorem RegisterCommand.reaches_end {t : State} (h : RegisterCommand i c a v op)
    (haccess : exec i (atAccess c a v items (.sequencer :: ts) s) = .next t)
    (hseq : t.seq = { (atAccess c a v items (.sequencer :: ts) s).seq with res := t.seq.res, upc := 2#5 })
    (hturns : t.env.turns = .sequencer :: ts) :
    Reaches 2 (atAccess c a v items (.sequencer :: .sequencer :: ts) s) (commandReturn c.clearsRes (turnTaken ts t)) := by
  have hat := h.atMicroOp items (.sequencer :: ts) s
  obtain ⟨c', hc', _, hop, hexec⟩ := exec_atMicroOp hat
  obtain rfl : c' = c := Option.some.inj (hc'.symm.trans h.isCommand)
  have hmicro := step_microOp (c := c') (op := op) (ts := .sequencer :: ts)
    (s := atAccess c' a v items (.sequencer :: .sequencer :: ts) s) rfl rfl (commandOf_code h.isCommand) (h.unused s) hop
  refine Reaches.trans (.of_step (hmicro.trans (hexec.symm.trans haccess))) (.of_step ?_)
  have hmode : t.seq.mode = .run := by rw [hseq]; rfl
  have hcommand : commandOf t.seq.cmd = some c' := by rw [hseq]; exact commandOf_code h.isCommand
  have hunused : unusedLatchesZero t.seq := by rw [hseq]; exact h.unused s
  have hret : c'.program[t.seq.upc.toNat]? = some .ret := by rw [hseq, h.program]; rfl
  exact step_microOp hturns hmode hcommand hunused hret

/-- The whole command: four steps, if the register access answers next and goes on. -/
theorem RegisterCommand.run {t : State} (h : RegisterCommand i c a v op) (hidle : s.seq.mode = .idle)
    (hport : s.env.port = e :: items) (hi : decode s.cfg e = .ok i) (ha : a.toNat < 0x1000)
    (hturns : s.env.turns = .client :: sequencerTurns 3 ++ ts)
    (haccess : exec i (atAccess c a v items (.sequencer :: ts) s) = .next t)
    (hseq : t.seq = { (atAccess c a v items (.sequencer :: ts) s).seq with res := t.seq.res, upc := 2#5 })
    (hleft : t.env.turns = .sequencer :: ts) :
    Host.Core.run Sys2Proof.core 4 s = .next (commandReturn c.clearsRes (turnTaken ts t)) :=
  Reaches.trans (h.reaches_access hidle hport hi ha hturns) (h.reaches_end haccess hseq hleft)

/-- The Transport performs the register access. -/
theorem readyFor_performs_access (h : ReadyFor 1 s) (c : Command) (a v : Word) (items : List Encoded) (ts : List Agent) :
    transportPerforms (atAccess c a v items ts s) = true :=
  transportPerforms_of_next (transportPerformsNext_congr h.answers rfl rfl rfl)

end

/-- Settles O55: the register access is RDREG or WRREG, and RET clears RES after a write alone. -/
theorem registerCommandsComplete : Obligations.RegisterCommandsComplete := by
  unfold Obligations.RegisterCommandsComplete
  intro s a v items ts hready hturns ha
  have hlow : (a.setWidth 12).toNat = a.toNat := by rw [BitVec.toNat_setWidth]; omega
  have haddr : ∀ k : RegAddr, a.setWidth 12 = k ↔ a = k.setWidth 32 := setWidth_eq_iff ha
  refine ⟨fun hport => ?read, fun hport hacc hcmd hfree => ?write, fun p r rw hport hacc hfree hword => ?launch⟩
  case read =>
    have hcommand := regRead_registerCommand a
    have hat := hcommand.atMicroOp items (.sequencer :: ts) s
    obtain ⟨t, hexec, hdev, hseq, h⟩ := exec_rdReg hat (readyFor_performs_access hready _ _ _ _ _)
    have hrun := hcommand.run hready.idle hport rfl ha hturns hexec hseq hdev.turns
    have hother := h.other
    rw [show (atAccess regReadCommand a 0#32 items (.sequencer :: ts) s).seq.opa = a from rfl, hlow] at hother
    exact ⟨_, hrun, rfl, rfl, rfl, rfl, fun k => h.busy ((haddr 0x120#12).mpr k),
      fun k => h.stored ((haddr 0x124#12).mpr k), fun k => h.datum ((haddr 0x124#12).mpr k),
      fun k => h.epcCommand ((haddr 0x040#12).mpr k), fun k => h.epcData ((haddr 0x044#12).mpr k),
      fun k => h.eeprom (mt (haddr 0x040#12).mp k),
      fun k1 k2 k3 k4 => hother (mt (haddr 0x120#12).mp k1) (mt (haddr 0x124#12).mp k2) (mt (haddr 0x040#12).mp k3)
        (mt (haddr 0x044#12).mp k4),
      hdev.mac, hdev.wire, hdev.phys, hdev.cfg, hdev.port, rfl⟩
  case write =>
    have hcommand := regWrite_registerCommand a v
    have hat := hcommand.atMicroOp items (.sequencer :: ts) s
    obtain ⟨hstores, -⟩ := wrRegWritesRegister _ _ hat (readyFor_performs_access hready _ _ _ _ _)
    obtain ⟨t, hexec, hbeyond, hwire, hseq, hdata, hbyte, heeprom, hregs⟩ :=
      hstores (mt (haddr 0x120#12).mp hacc) (mt (haddr 0x040#12).mp hcmd) fun k => hfree ((haddr 0x124#12).mp k)
    have hres : t.seq.res = 0#32 := by rw [hseq]; rfl
    have hseq' : t.seq = { (atAccess regWriteCommand a v items (.sequencer :: ts) s).seq with
        res := t.seq.res, upc := 2#5 } := by rw [hres]; exact hseq
    have hrun := hcommand.run hready.idle hport rfl ha hturns hexec hseq' hbeyond.turns
    rw [show (atAccess regWriteCommand a v items (.sequencer :: ts) s).seq.opa = a from rfl, hlow] at hregs
    exact ⟨_, hrun, rfl, rfl, rfl, rfl, rfl, fun k => hdata ((haddr 0x124#12).mpr k),
      fun k => hbyte ((haddr 0x044#12).mpr k), fun k => heeprom (mt (haddr 0x044#12).mp k),
      fun k1 k2 => hregs (mt (haddr 0x124#12).mp k1) (mt (haddr 0x044#12).mp k2),
      hwire, hbeyond.phys, hbeyond.cfg, hbeyond.port, rfl⟩
  case launch =>
    have hcommand := regWrite_registerCommand a v
    have hat := hcommand.atMicroOp items (.sequencer :: ts) s
    obtain ⟨t, d, hexec, hbeyond, hseq, heng, hmiiAcc, hregs, hmiiData, hdatum⟩ :=
      regWriteOfAccessWordLaunches _ p r rw _ hat (readyFor_performs_access hready _ _ _ _ _) hfree hready.config
        ((haddr 0x120#12).mpr hacc) hword
    have hres : t.seq.res = 0#32 := by rw [hseq]; rfl
    have hseq' : t.seq = { (atAccess regWriteCommand a v items (.sequencer :: ts) s).seq with
        res := t.seq.res, upc := 2#5 } := by rw [hres]; exact hseq
    have hrun := hcommand.run hready.idle hport rfl ha hturns hexec hseq' hbeyond.turns
    exact ⟨_, d, hrun, rfl, rfl, rfl, rfl, rfl, heng, hdatum, hmiiAcc, hregs, hmiiData, hbeyond.phys, hbeyond.eeprom,
      hbeyond.cfg, hbeyond.port, rfl⟩

end Sys2Proof.Proofs

/-! PROOFS. What a read's completion loads (44_mdio_master_and_phy.md R226), the four writes of a Clause-45 write (43_mdio_c45.md
R206, R210), and the edges of a frame at pin level (R233 to R235). -/

namespace Sys2Proof.Proofs

open Sys2Proof.Machine

/-! ### The completion of a read (R226, R242) -/

/-- A read completes: MII_DATA is loaded with what `PhyRead` gives. -/
theorem engineComplete_read {s u : State} {p r : Field5} {d v : Half} (he : s.mac.eng = .inflight .read p r d)
    (hread : phyRead p r s = .next (v, u)) : engineComplete s = .next (freeEngine (loadDatum v u)) := by
  simp only [engineComplete, he, hread, andThen_next]

/-- Settles O31: the step is the completion, and `PhyRead` of a present PHY draws nothing. -/
theorem engineCompletesRead : Obligations.EngineCompletesRead := by
  unfold Obligations.EngineCompletesRead
  intro s p r d ts hturn hpins he hp hlegal
  have hvalue := phyReadRegs_value (f := s.phys) (p := p) (i := r) hlegal
  have hread : ∀ u : State, u.cfg = s.cfg → u.phys = s.phys →
      phyRead p r u = .next (if r = mmdDataIdx then mmdDataRead s.phys p else c22At s.phys p r, u) := by
    intro u hcfg hphys
    rw [phyRead, hcfg, hphys, if_neg (not_not_intro hp), hvalue, andThen_next]
  refine ⟨_, (step_completes hturn hpins).trans (engineComplete_read he (hread _ rfl rfl)), rfl, clearBusy_busy _, rfl,
    loadDatum_datum _ _, rfl, rfl, rfl, rfl, rfl, rfl, rfl, rfl⟩

/-! ### The four writes of a Clause-45 write (R206, R210) -/

/-- Settles O35: the first three writes leave the PHY `addressed`, and the fourth reaches the register addressed. -/
theorem fourWritesReachClause45 : Obligations.FourWritesReachClause45 := by
  unfold Obligations.FourWritesReachClause45
  intro p d r v s hp
  have haddress : d.setWidth 16 = mmdWord false d := (BitVec.zero_or).symm
  have hdata : d.setWidth 16 ||| 0x4000#16 = mmdWord true d := BitVec.or_comm _ _
  have write : ∀ (f g : Phys) (i : Field5) (w : Half), phyWriteRegs s.cfg.phyPresent f p i w = .next g →
      phyWrite p i w { s with phys := f } = .next { s with phys := g } := fun f g i w hw => by
    rw [phyWrite, hw, andThen_next]
  have h1 : phyWrite p 0xD#5 (mmdWord false d) s = .next { s with phys := selecting s.phys p false d } :=
    write s.phys _ _ _ (phyWriteRegs_select hp s.phys false d)
  have h2 : phyWrite p 0xE#5 r { s with phys := selecting s.phys p false d } =
      .next { s with phys := setMmdAddr (selecting s.phys p false d) p d r } :=
    write _ _ _ _ (phyWriteRegs_addressMode hp s.phys d r)
  have h3 : phyWrite p 0xD#5 (mmdWord true d) { s with phys := setMmdAddr (selecting s.phys p false d) p d r } =
      .next { s with phys := addressed s.phys p d r } :=
    write _ _ _ _ (phyWriteRegs_select hp _ true d)
  have h4 : phyWrite p 0xE#5 v { s with phys := addressed s.phys p d r } =
      .next { s with phys := setC45 (addressed s.phys p d r) p d r v } :=
    write _ _ _ _ (phyWriteRegs_addressed hp s.phys d r v)
  refine ⟨setC45 (addressed s.phys p d r) p d r v, ?_, ?_, ?_, c45At_setC45_same _ _ _ _ _, fun q j hother => ?_,
    fun q e hother => ?_, fun q e x => c45At_setC45_other _ _ _ _ _ _ _ _⟩
  · rw [hdata, haddress, h1, andThen_next, h2, andThen_next, h3, andThen_next, h4]
  · rw [hdata]
    exact mmdCtlAt_addressed s.phys p d r
  · exact mmdAddrAt_addressed s.phys p d r
  · exact (c22At_setC22_other _ _ _ _ _ _ hother).trans (c22At_setC22_other _ _ _ _ _ _ hother)
  · exact mmdAddrAt_setMmdAddr_other _ _ _ _ _ _ hother

/-! ### The rising edge (R233, R234, R241) -/

/-- FRAME_WRITE, while its record is in flight, is a half clock of its frame. -/
theorem exec_frameWrite_inflight {s : State} {p r : Field5} {d : Half} (he : s.mac.eng = .inflight .write p r d) :
    exec (.frameWrite p r d) s = halfClock .write p r d s := by
  simp [exec, execFrameWrite, he]

/-- The level of the wire is shifted into what the PHYs have sampled (R241). -/
theorem sampleWire_rx (rw : Rw) (w : Wire) :
    (sampleWire rw w).rx = (w.rx <<< 1) ||| (if lineLevel w then 1#64 else 0#64) := by
  cases h : lineLevel w <;> simp [sampleWire, h]

/-- The master of a write frame samples nothing (R234). -/
theorem sampleWire_write (w : Wire) :
    (sampleWire .write w).shift = w.shift ∧ (sampleWire .write w).taOk = w.taOk := by
  simp [sampleWire]

/-- Settles O38: the half clock is `sampleWire`; the master of a read frame samples in slot 47 and from slot 48 on. -/
theorem risingEdgeSamples : Obligations.RisingEdgeSamples := by
  unfold Obligations.RisingEdgeSamples
  intro p r d s hphase hslot
  refine ⟨fun he => ?read, fun he => ?write⟩
  case read =>
    refine ⟨_, (exec_frameRead_inflight he).trans (halfClock_rises hphase hslot .read p r d), rfl, rfl, rfl, rfl,
      sampleWire_rx .read s.wire, rfl, rfl, fun hta => ?_, fun hdata => ?_, fun hearly => ?_⟩
    · exact (sampleWire_read_taOk s.wire).trans (if_pos hta)
    · refine (sampleWire_read_shift s.wire).trans ((if_pos hdata).trans ?_)
      cases lineLevel s.wire <;> rfl
    · exact (sampleWire_read_shift s.wire).trans (if_neg (by omega))
  case write =>
    obtain ⟨hshift, hta⟩ := sampleWire_write s.wire
    exact ⟨_, (exec_frameWrite_inflight he).trans (halfClock_rises hphase hslot .write p r d), rfl, rfl, rfl, rfl,
      sampleWire_rx .write s.wire, rfl, rfl, hshift, hta⟩

/-! ### The end of a frame (R235) -/

/-- Settles O42: the falling edge of slot 63 is `frameEnd`. -/
theorem frameEndFreesEngine : Obligations.FrameEndFreesEngine := by
  unfold Obligations.FrameEndFreesEngine
  intro p r d s hphase hslot
  refine ⟨fun he => ?read, fun he => ?write⟩
  case read =>
    exact ⟨_, (exec_frameRead_inflight he).trans (halfClock_falls_last hphase hslot .read p r d), rfl, clearBusy_busy _,
      loadDatum_datum _ _, rfl, rfl, rfl, rfl, rfl, ⟨rfl, rfl, rfl, rfl, rfl, rfl, rfl⟩, rfl, rfl⟩
  case write =>
    exact ⟨_, (exec_frameWrite_inflight he).trans (halfClock_falls_last hphase hslot .write p r d), rfl,
      clearBusy_busy _, rfl, rfl, rfl, rfl, rfl, ⟨rfl, rfl, rfl, rfl, rfl, rfl, rfl⟩, rfl, rfl⟩

end Sys2Proof.Proofs

/-! PROOFS. The frames at pin level (44_mdio_master_and_phy.md R230 to R241): what is on the wire in every slot of a write frame
and of a read frame that a PHY answers, and that 128 half clocks come to the atomic completion (R238). -/

namespace Sys2Proof.Proofs

open Sys2Proof.Machine

/-! ### Half clock after half clock (R233) -/

/-- A predicate on the slot, the levels sampled and the phase that each half clock of `i` up to the last slot carries on. -/
structure FrameRun (i : Instr) (s0 : State) (Slot : Nat → Nat → Phase → State → Prop) : Prop where
  start : Slot 0 0 .low s0
  rises : ∀ {k s}, k < 63 → Slot k k .low s → ∃ t, exec i s = .next t ∧ Slot k (k + 1) .high t
  falls : ∀ {k s}, k < 63 → Slot k (k + 1) .high s → ∃ t, exec i s = .next t ∧ Slot (k + 1) (k + 1) .low t

/-- One execution more. -/
theorem execTimes_succ {i : Instr} {n : Nat} {s t : State} (h : execTimes i n s = .next t) :
    execTimes i (n + 1) s = exec i t := by
  rw [execTimes_add, h, andThen_next, execTimes_one]

section
variable {i : Instr} {s0 : State} {Slot : Nat → Nat → Phase → State → Prop} {k : Nat}

/-- Two half clocks a slot lead to the beginning of any slot. -/
theorem FrameRun.slot (h : FrameRun i s0 Slot) (hk : k ≤ 63) :
    ∃ t, execTimes i (2 * k) s0 = .next t ∧ Slot k k .low t := by
  induction k with
  | zero => exact ⟨s0, rfl, h.start⟩
  | succ k ih =>
    obtain ⟨t, hrun, ht⟩ := ih (by omega)
    obtain ⟨u, hrise, hu⟩ := h.rises (by omega) ht
    obtain ⟨v, hfall, hv⟩ := h.falls (by omega) hu
    exact ⟨v, (execTimes_succ ((execTimes_succ hrun).trans hrise)).trans hfall, hv⟩

/-- One half clock more leads to its rising edge. -/
theorem FrameRun.sampled (h : FrameRun i s0 Slot) (hk : k < 63) :
    ∃ t, execTimes i (2 * k + 1) s0 = .next t ∧ Slot k (k + 1) .high t := by
  obtain ⟨t, hrun, ht⟩ := h.slot (Nat.le_of_lt hk)
  obtain ⟨u, hrise, hu⟩ := h.rises hk ht
  exact ⟨u, (execTimes_succ hrun).trans hrise, hu⟩

/-- Where no slot changes the MAC, nor the rising edge of the last, none of the first 127 half clocks does. -/
theorem FrameRun.mac_before_end (h : FrameRun i s0 Slot) (hmac : ∀ {k n ph s}, Slot k n ph s → s.mac = s0.mac)
    (hlast : ∃ u, execTimes i 127 s0 = .next u ∧ u.mac = s0.mac) (n : Nat) (hn : n < 128) :
    ∃ u, execTimes i n s0 = .next u ∧ u.mac = s0.mac := by
  obtain ⟨k, rfl | rfl⟩ : ∃ k, n = 2 * k ∨ n = 2 * k + 1 := ⟨n / 2, by omega⟩
  · obtain ⟨t, hrun, ht⟩ := h.slot (k := k) (by omega)
    exact ⟨t, hrun, hmac ht⟩
  · by_cases hk : k < 63
    · obtain ⟨t, hrun, ht⟩ := h.sampled hk
      exact ⟨t, hrun, hmac ht⟩
    · obtain rfl : k = 63 := by omega
      exact hlast

end

/-! ### The levels of a frame (R97, R230) -/

/-- `s` is in slot `k` of a frame of the levels `F`, begun in `s0`, `n` levels having been sampled; nothing but the wire has
changed. -/
structure OnWire (F : BitVec 64) (s0 : State) (k n : Nat) (ph : Phase) (s : State) : Prop where
  rest : s = { s0 with wire := s.wire }
  slot : s.wire.slot.toNat = k
  phase : s.wire.phase = ph
  line : lineLevel s.wire = F.getLsbD (63 - k)
  rx : s.wire.rx = F >>> (64 - n)

section
variable {F : BitVec 64} {s0 s : State} {k n : Nat} {ph : Phase}

theorem OnWire.slot_ne (h : OnWire F s0 k n ph s) (hk : k < 63) : s.wire.slot ≠ 63#6 := by
  intro hslot
  have hcount : 63 = k := (congrArg BitVec.toNat hslot).symm.trans h.slot
  omega

theorem OnWire.slot_last (h : OnWire F s0 63 n ph s) : s.wire.slot = 63#6 := BitVec.eq_of_toNat_eq h.slot

theorem OnWire.mac (h : OnWire F s0 k n ph s) : s.mac = s0.mac := by rw [h.rest]

/-- The rising edge samples the level of the slot (R233, R241). -/
theorem OnWire.samples (h : OnWire F s0 k k .low s) (hk : k < 64) (rw : Rw) :
    OnWire F s0 k (k + 1) .high { s with wire := sampleWire rw s.wire } where
  rest := by rw [h.rest]
  slot := h.slot
  phase := rfl
  line := h.line
  rx := by
    show (s.wire.rx <<< 1) ||| _ = _
    rw [h.rx, h.line, sample_next _ _ hk]
    congr 1
    omega

/-- The slot that the falling edge begins. -/
theorem OnWire.next_slot (h : OnWire F s0 k (k + 1) .high s) (hk : k < 63) : (s.wire.slot + 1#6).toNat = k + 1 := by
  rw [BitVec.toNat_add, h.slot]
  exact Nat.mod_eq_of_lt (show k + 1 < 64 by omega)

/-- Where the master drives, the wire has its level (R230). -/
theorem lineLevel_driven {w : Wire} (h : w.mdioOE = true) : lineLevel w = w.mdioO := by
  rw [lineLevel, if_pos h]

/-- At the beginning of slot 47 the PHYs have the header of the frame in their receive words (R241). -/
theorem rx_header (F : BitVec 64) :
    rxStartOp (F >>> 17) = frameStartOp F ∧ rxPhyad (F >>> 17) = framePhyad F ∧ rxRegad (F >>> 17) = frameRegad F := by
  refine ⟨BitVec.eq_of_toNat_eq ?_, BitVec.eq_of_toNat_eq ?_, BitVec.eq_of_toNat_eq ?_⟩ <;>
    simp only [rxStartOp, rxPhyad, rxRegad, frameStartOp, framePhyad, frameRegad, BitVec.extractLsb'_toNat,
      BitVec.toNat_ushiftRight, ← Nat.shiftRight_add]

end

/-! ### A write frame (R232, R241) -/

/-- The 64 levels of a write frame. -/
def writeLevels (p r : Field5) (d : Half) : BitVec 64 := frameSlots 0b01#2 p r 0b10#2 d

/-- A slot of a write frame: the master drives its level throughout. -/
structure WriteSlot (p r : Field5) (d : Half) (s0 : State) (k n : Nat) (ph : Phase) (s : State) : Prop extends
    OnWire (writeLevels p r d) s0 k n ph s where
  driven : s.wire.mdioOE = true
  mdc : ph = .low → s.wire.mdc = false

section
variable {p r : Field5} {d : Half} {s0 s : State} {k n : Nat} {ph : Phase}

theorem WriteSlot.level (h : WriteSlot p r d s0 k n ph s) : s.wire.mdioO = (writeLevels p r d).getLsbD (63 - k) :=
  (lineLevel_driven h.driven).symm.trans h.line

theorem WriteSlot.exec_eq (h : WriteSlot p r d s0 k n ph s) (he : s0.mac.eng = .inflight .write p r d) :
    exec (.frameWrite p r d) s = halfClock .write p r d s :=
  exec_frameWrite_inflight (h.mac ▸ he)

theorem WriteSlot.start (h : FrameStarted .write p r d s0) : WriteSlot p r d s0 0 0 .low s0 := by
  obtain ⟨hslot, hphase, hmdc, hdriven, hlevel⟩ := startWire_pins .write p r d s0.wire
  rw [← h.wire] at hslot hphase hmdc hdriven hlevel
  have hrx : s0.wire.rx = 0#64 := congrArg Wire.rx h.wire
  have hfirst : (writeLevels p r d).getLsbD 63 = true := frameSlots_bit _ _ _ _ _ 0 (by decide)
  exact {
    rest := rfl
    slot := by rw [hslot]; rfl
    phase := hphase
    line := by rw [lineLevel_driven hdriven, hlevel, hfirst]
    rx := by rw [hrx, BitVec.ushiftRight_eq_zero (by decide)]
    driven := hdriven
    mdc := fun _ => hmdc }

/-- No PHY answers a write frame: at most its output, which it does not drive, changes. -/
theorem phyApply_write {s : State} (hop : n = 47 → rxStartOp s.wire.rx ≠ 0b0110#4) :
    ∃ o, phyApply n s = .next { s with wire := { s.wire with phyO := o } } := by
  simp only [phyApply]
  split
  · next hn =>
    simp only [phyTurnaround, hop hn, false_and, if_false]
    exact ⟨s.wire.phyO, rfl⟩
  · split
    · exact ⟨_, rfl⟩
    · exact ⟨s.wire.phyO, rfl⟩

theorem nextSlotWire_write {w : Wire} (hk : (w.slot + 1#6).toNat = k) (hlast : k < 64) :
    (nextSlotWire .write p r d w).mdioOE = true ∧ (nextSlotWire .write p r d w).mdc = false ∧
    (nextSlotWire .write p r d w).mdioO = (writeLevels p r d).getLsbD (63 - k) := by
  rw [nextSlotWire, hk, masterBit_write p r d k hlast]
  exact ⟨rfl, rfl, rfl⟩

/-- The falling edge begins the next slot, whose level the master drives. -/
theorem WriteSlot.falls (h : WriteSlot p r d s0 k (k + 1) .high s) (hk : k < 63) :
    ∃ t, halfClock .write p r d s = .next t ∧ WriteSlot p r d s0 (k + 1) (k + 1) .low t := by
  have hslot := h.next_slot hk
  obtain ⟨hcount, hphase, _, hrx, _⟩ := nextSlotWire_fields .write p r d s.wire
  obtain ⟨hdriven, hmdc, hlevel⟩ := nextSlotWire_write (p := p) (r := r) (d := d) hslot (by omega)
  have hop : k + 1 = 47 → rxStartOp (nextSlotWire .write p r d s.wire).rx ≠ 0b0110#4 := fun hturnaround => by
    obtain ⟨hstart, _⟩ := rx_header (writeLevels p r d)
    obtain ⟨_, hwrite, _⟩ := frameSlots_fields 0b01#2 p r 0b10#2 d
    rw [hrx, h.rx, hturnaround, hstart, writeLevels, hwrite]
    decide
  have hfalls := halfClock_falls h.phase (h.slot_ne hk) .write p r d
  rw [hslot] at hfalls
  obtain ⟨o, happly⟩ := phyApply_write (s := { s with wire := nextSlotWire .write p r d s.wire }) hop
  exact ⟨_, hfalls.trans happly, {
    rest := by rw [h.rest]
    slot := (congrArg BitVec.toNat hcount).trans hslot
    phase := hphase
    line := (lineLevel_driven (w := { nextSlotWire .write p r d s.wire with phyO := o }) hdriven).trans hlevel
    rx := hrx.trans h.rx
    driven := hdriven
    mdc := fun _ => hmdc }⟩

theorem WriteSlot.samples (h : WriteSlot p r d s0 k k .low s) (hk : k < 64) :
    WriteSlot p r d s0 k (k + 1) .high { s with wire := sampleWire .write s.wire } :=
  { h.toOnWire.samples hk .write with driven := h.driven, mdc := nofun }

theorem writeFrame_run (h : FrameStarted .write p r d s0) :
    FrameRun (.frameWrite p r d) s0 (WriteSlot p r d s0) where
  start := .start h
  rises hk hs := ⟨_, (hs.exec_eq h.eng).trans (halfClock_rises hs.phase (hs.slot_ne hk) .write p r d),
    hs.samples (by omega)⟩
  falls hk hs := by
    obtain ⟨t, hfall, ht⟩ := hs.falls hk
    exact ⟨t, (hs.exec_eq h.eng).trans hfall, ht⟩

/-- At the rising edge of slot 63 the addressed PHY, if there is one, stores the datum of the frame (R241). -/
theorem WriteSlot.stores {f : Phys} (h : WriteSlot p r d s0 63 64 ph s)
    (hwrite : phyWriteRegs s0.cfg.phyPresent s0.phys p r d = .next f) :
    phyStore s = .next { s with phys := f } := by
  have hrx : s.wire.rx = frameSlots 0b01#2 p r 0b10#2 d := h.rx
  have hcfg : s.cfg = s0.cfg := by rw [h.rest]
  have hphys : s.phys = s0.phys := by rw [h.rest]
  simp only [phyStore, hrx, decodeFrame_write, phyWrite, hcfg, hphys, hwrite, andThen_next]

/-- The last two half clocks of a write frame (R235, R241). -/
theorem writeFrame_ends (h : FrameStarted .write p r d s0) {f : Phys}
    (hwrite : phyWriteRegs s0.cfg.phyPresent s0.phys p r d = .next f) :
    ∃ w, execTimes (.frameWrite p r d) 127 s0 = .next { s0 with wire := w, phys := f } ∧
      execTimes (.frameWrite p r d) 128 s0 = .next (freeEngine { s0 with wire := w, phys := f }) := by
  obtain ⟨t, hrun, ht⟩ := (writeFrame_run h).slot (Nat.le_refl 63)
  have hu := ht.samples (by decide)
  have hrise : execTimes (.frameWrite p r d) 127 s0 =
      .next { s0 with wire := sampleWire .write t.wire, phys := f } := by
    refine (execTimes_succ hrun).trans ((ht.exec_eq h.eng).trans ?_)
    rw [halfClock_rises_last ht.phase ht.slot_last, hu.stores hwrite, ht.rest]
  refine ⟨_, hrise, (execTimes_succ hrise).trans ?_⟩
  rw [exec_frameWrite_inflight (s := { s0 with wire := sampleWire .write t.wire, phys := f }) h.eng]
  exact halfClock_falls_last (s := { s0 with wire := sampleWire .write t.wire, phys := f }) rfl ht.slot_last _ _ _ _

end

/-- Settles O39: at the beginning of slot k the master drives the level of slot k. -/
theorem writeFrameDrivesItsBits : Obligations.WriteFrameDrivesItsBits := by
  unfold Obligations.WriteFrameDrivesItsBits
  intro p r d s k hstart hk
  obtain ⟨t, hrun, ht⟩ := (writeFrame_run hstart).slot (k := k) (by omega)
  refine ⟨t, hrun, ht.rest, ht.slot, ht.phase, ht.mdc rfl, ht.driven, fun w hw => ?_⟩
  cases hw
  exact ht.level

/-- Settles O40: the last rising edge is the PHY's write, the last falling edge frees the engine, and no half clock before it
touches the MAC. -/
theorem writeFrameRefinesCompletion : Obligations.WriteFrameRefinesCompletion := by
  unfold Obligations.WriteFrameRefinesCompletion
  intro p r d s t hstart hcomplete
  obtain ⟨f, hwrite, rfl⟩ : ∃ f, phyWriteRegs s.cfg.phyPresent s.phys p r d = .next f ∧
      t = freeEngine { s with phys := f } := by
    simp only [engineComplete, hstart.eng] at hcomplete
    obtain ⟨u, hu, ht⟩ := andThen_eq_next.mp hcomplete
    obtain ⟨f, hf, rfl⟩ := phyWrite_cases hu
    exact ⟨f, hf, (Host.Outcome.next.inj ht).symm⟩
  obtain ⟨w, hrise, hfall⟩ := writeFrame_ends hstart hwrite
  exact ⟨⟨_, hfall, rfl, rfl, rfl, rfl⟩,
    (writeFrame_run hstart).mac_before_end (fun hs => hs.mac) ⟨_, hrise, rfl⟩⟩

end Sys2Proof.Proofs

/-! PROOFS. The read frame of a present PHY (44_mdio_master_and_phy.md R230 to R241): the master drives its first 46 slots, the
PHY the others but the released slot 46, and 128 half clocks come to the atomic completion (R238). -/

namespace Sys2Proof.Proofs

open Sys2Proof.Machine

/-! ### The levels of the frame (R97, R232, R241) -/

/-- The 64 levels of a read frame that is answered with `v`. -/
def readLevels (p r : Field5) (v : Half) : BitVec 64 := frameSlots 0b10#2 p r 0b10#2 v

section
variable (p r : Field5) (v : Half) {k : Nat}

/-- Up to the turnaround the levels do not depend on the answer. -/
theorem readLevels_header (hk : k < 46) :
    (readLevels p r v).getLsbD (63 - k) = (unansweredFrame p r).getLsbD (63 - k) := by
  rw [readLevels, unansweredFrame, frameSlots_bit _ _ _ _ _ _ (by omega), frameSlots_bit _ _ _ _ _ _ (by omega)]
  simp only [if_pos hk]

theorem readLevels_released : (readLevels p r v).getLsbD (63 - 46) = true := frameSlots_bit _ _ _ _ _ 46 (by decide)

theorem readLevels_turnaround : (readLevels p r v).getLsbD (63 - 47) = false := frameSlots_bit _ _ _ _ _ 47 (by decide)

theorem readLevels_data (hk : 48 ≤ k) (hlast : k < 64) : (readLevels p r v).getLsbD (63 - k) = v.getLsbD (63 - k) := by
  rw [readLevels, frameSlots_bit _ _ _ _ _ _ hlast]
  rw [if_neg (by omega), if_neg (by omega), if_neg (by omega), if_neg (by omega), if_neg (by omega), if_neg (by omega)]

end

/-! ### The answer of the PHY (R230, R241) -/

theorem phyBit_ne_zero (p : Field5) : phyBit p ≠ 0#32 := by
  intro hzero
  have hbit := congrArg (·.getLsbD p.toNat) hzero
  simp [phyBit, show p.toNat < 32 from p.isLt] at hbit

/-- With the master off the wire, its level is the bit that PHY `p` applies (R230). -/
theorem lineLevel_answered {w : Wire} {p : Field5} {b : Bool} (hreleased : w.mdioOE = false) (hphy : w.phyOE = phyBit p)
    (hbit : w.phyO = if b then phyBit p else 0#32) : lineLevel w = b := by
  rw [lineLevel, hreleased, hphy, hbit, if_neg Bool.false_ne_true, if_neg (phyBit_ne_zero p)]
  cases b
  · simp
  · simp [phyBit_ne_zero p]

/-- The wire once PHY `p`, asked for `v`, has applied its bit of slot `j`. -/
def answeredWire (p : Field5) (v : Half) (j : Nat) (w : Wire) : Wire :=
  if j = 47 then { w with phyTx := v, phyOE := phyBit p, phyO := 0#32 }
  else if 48 ≤ j then phyDataBit j w
  else w

section
variable {p r : Field5} {v : Half} {j : Nat} {w : Wire}

theorem answeredWire_before (hj : j < 47) : answeredWire p v j w = w := by
  rw [answeredWire, if_neg (by omega), if_neg (by omega)]

theorem answeredWire_turnaround :
    answeredWire p v 47 w = { w with phyTx := v, phyOE := phyBit p, phyO := 0#32 } := if_pos rfl

theorem answeredWire_data (hj : 48 ≤ j) : answeredWire p v j w = phyDataBit j w := by
  rw [answeredWire, if_neg (by omega), if_pos hj]

/-- The PHY touches its own pins only. -/
theorem answeredWire_fields : (answeredWire p v j w).slot = w.slot ∧ (answeredWire p v j w).phase = w.phase ∧
    (answeredWire p v j w).mdioOE = w.mdioOE ∧ (answeredWire p v j w).rx = w.rx ∧
    (answeredWire p v j w).taOk = w.taOk ∧ (answeredWire p v j w).shift = w.shift := by
  simp only [answeredWire, phyDataBit]
  split
  · exact ⟨rfl, rfl, rfl, rfl, rfl, rfl⟩
  · split <;> exact ⟨rfl, rfl, rfl, rfl, rfl, rfl⟩

/-- The PHYs that have received the header of the frame: the addressed one answers with its register (R241, R242). -/
theorem phyApply_answered {s : State} (hread : phyRead p r s = .next (v, s)) (hp : p ∈ s.cfg.phyPresent)
    (hrx : j = 47 → s.wire.rx = readLevels p r v >>> 17) :
    phyApply j s = .next { s with wire := answeredWire p v j s.wire } := by
  simp only [phyApply, answeredWire]
  split
  · next hj =>
    obtain ⟨hstart, hphyad, hregad⟩ := rx_header (readLevels p r v)
    obtain ⟨_, hop, hphy, hreg, _⟩ := frameSlots_fields 0b10#2 p r 0b10#2 v
    have hfields : rxStartOp s.wire.rx = 0b0110#4 ∧ rxPhyad s.wire.rx = p ∧ rxRegad s.wire.rx = r := by
      rw [hrx hj]
      exact ⟨hstart.trans hop, hphyad.trans hphy, hregad.trans hreg⟩
    obtain ⟨hreads, haddressed, hindex⟩ := hfields
    simp only [phyTurnaround, hreads, haddressed, hindex, hp, and_self, if_true, hread, andThen_next]
  · split <;> rfl

/-- The master's bit of a slot of the frame, and none from slot 46 on (R232). -/
theorem nextSlotWire_read (d : Half) (hj : (w.slot + 1#6).toNat = j) (hlast : j < 64) :
    (j < 46 → (nextSlotWire .read p r d w).mdioOE = true ∧
      (nextSlotWire .read p r d w).mdioO = (readLevels p r v).getLsbD (63 - j)) ∧
    (46 ≤ j → (nextSlotWire .read p r d w).mdioOE = false) := by
  rw [nextSlotWire, hj, masterBit_read p r d j hlast]
  refine ⟨fun hdriven => ?_, fun hreleased => ?_⟩
  · rw [if_pos hdriven, readLevels_header p r v hdriven]
    exact ⟨rfl, rfl⟩
  · rw [if_neg (by omega)]
    rfl

/-- Whoever drives it, the wire has the level of the slot. -/
theorem lineLevel_answeredWire (hlast : j < 64)
    (hdriven : j < 46 → w.mdioOE = true ∧ w.mdioO = (readLevels p r v).getLsbD (63 - j))
    (hreleased : 46 ≤ j → w.mdioOE = false) (hquiet : j < 48 → w.phyOE = 0#32)
    (hanswers : 48 ≤ j → w.phyOE = phyBit p ∧ w.phyTx = v) :
    lineLevel (answeredWire p v j w) = (readLevels p r v).getLsbD (63 - j) := by
  obtain hj | rfl | rfl | hj : j < 46 ∨ j = 46 ∨ j = 47 ∨ 48 ≤ j := by omega
  · obtain ⟨hmaster, hlevel⟩ := hdriven hj
    rw [answeredWire_before (by omega), lineLevel_driven hmaster, hlevel]
  · rw [answeredWire_before (by decide), lineLevel_unanswered (hquiet (by decide)), hreleased (Nat.le_refl 46),
      readLevels_released]
    rfl
  · rw [answeredWire_turnaround, readLevels_turnaround]
    exact lineLevel_answered (p := p) (hreleased (by decide)) rfl rfl
  · obtain ⟨hphy, hdatum⟩ := hanswers hj
    rw [answeredWire_data hj, readLevels_data p r v hj hlast]
    exact lineLevel_answered (p := p) (hreleased (by omega)) hphy (by rw [phyDataBit, hphy, hdatum])

/-- From the turnaround on the PHY drives, and holds its datum. -/
theorem answeredWire_answers (hj : 47 ≤ j) (hanswers : 48 ≤ j → w.phyOE = phyBit p ∧ w.phyTx = v) :
    (answeredWire p v j w).phyOE = phyBit p ∧ (answeredWire p v j w).phyTx = v := by
  obtain rfl | hdata : j = 47 ∨ 48 ≤ j := by omega
  · rw [answeredWire_turnaround]
    exact ⟨rfl, rfl⟩
  · rw [answeredWire_data hdata]
    exact hanswers hdata

end

/-! ### Slot after slot (R233, R234, R241) -/

/-- A slot of a read frame that PHY `p` answers with `v`. -/
structure ReadSlot (p r : Field5) (v : Half) (s0 : State) (k n : Nat) (ph : Phase) (s : State) : Prop extends
    OnWire (readLevels p r v) s0 k n ph s where
  quiet : k < 47 → s.wire.phyOE = 0#32
  answers : 47 ≤ k → s.wire.phyOE = phyBit p ∧ s.wire.phyTx = v
  taOk : 47 < n → s.wire.taOk = true
  shift : ∀ i < n - 48, s.wire.shift.getLsbD i = v.getLsbD (64 - n + i)

section
variable {p r : Field5} {v d : Half} {s0 s : State} {k n : Nat} {ph : Phase}

theorem ReadSlot.exec_eq (h : ReadSlot p r v s0 k n ph s) (he : s0.mac.eng = .inflight .read p r d) :
    exec (.frameRead p r) s = halfClock .read p r d s :=
  exec_frameRead_inflight (h.mac ▸ he)

theorem ReadSlot.start (h : FrameStarted .read p r d s0) : ReadSlot p r v s0 0 0 .low s0 := by
  obtain ⟨hslot, hphase, _, hdriven, hlevel⟩ := startWire_pins .read p r d s0.wire
  rw [← h.wire] at hslot hphase hdriven hlevel
  have hrx : s0.wire.rx = 0#64 := congrArg Wire.rx h.wire
  have hfirst : (readLevels p r v).getLsbD 63 = true := frameSlots_bit _ _ _ _ _ 0 (by decide)
  exact {
    rest := rfl
    slot := by rw [hslot]; rfl
    phase := hphase
    line := by rw [lineLevel_driven hdriven, hlevel, hfirst]
    rx := by rw [hrx, BitVec.ushiftRight_eq_zero (by decide)]
    quiet := fun _ => congrArg Wire.phyOE h.wire
    answers := (absurd · (by decide))
    taOk := (absurd · (by decide))
    shift := fun i hi => absurd hi (by omega) }

/-- The rising edge: in slot 47 the PHY's 0 sets TA_OK, and from slot 48 on a bit of the datum is shifted into SHIFT. -/
theorem ReadSlot.samples (h : ReadSlot p r v s0 k k .low s) (hk : k < 64) :
    ReadSlot p r v s0 k (k + 1) .high { s with wire := sampleWire .read s.wire } := by
  refine { h.toOnWire.samples hk .read with
    quiet := h.quiet
    answers := h.answers
    taOk := fun hn => ?taOk
    shift := fun i hi => ?shift }
  case taOk =>
    refine (sampleWire_read_taOk s.wire).trans ?_
    rw [h.slot]
    split
    · next hturnaround =>
      subst hturnaround
      rw [h.line, readLevels_turnaround]
      rfl
    · exact h.taOk (by omega)
  case shift =>
    show (sampleWire .read s.wire).shift.getLsbD i = _
    rw [sampleWire_read_shift, h.slot, if_pos (by omega), h.line, readLevels_data p r v (by omega) hk]
    cases i with
    | zero => simp [show 64 - (k + 1) = 63 - k by omega]
    | succ j =>
      have hj : s.wire.shift.getLsbD j = v.getLsbD (64 - k + j) := h.shift j (by omega)
      rw [show 64 - (k + 1) + (j + 1) = 64 - k + j by omega, ← hj]
      simp [show j + 1 < 16 by omega, BitVec.getLsbD_eq_getElem (show j < 16 by omega)]

/-- The falling edge: the master's bit of the next slot, or the PHY's, is on the wire. -/
theorem ReadSlot.falls (h : ReadSlot p r v s0 k (k + 1) .high s) (hk : k < 63) (hp : p ∈ s0.cfg.phyPresent)
    (hvalue : phyReadRegs s0.phys p r = .next v) (d : Half) :
    ∃ t, halfClock .read p r d s = .next t ∧ ReadSlot p r v s0 (k + 1) (k + 1) .low t := by
  have hcfg : s.cfg = s0.cfg := by rw [h.rest]
  have hphys : s.phys = s0.phys := by rw [h.rest]
  have hslot := h.next_slot hk
  obtain ⟨hcount, hphase, hphyOE, hrx, htaOk, hshift⟩ := nextSlotWire_fields .read p r d s.wire
  obtain ⟨hdriven, hreleased⟩ := nextSlotWire_read (p := p) (r := r) (v := v) d hslot (by omega)
  have hphyTx : (nextSlotWire .read p r d s.wire).phyTx = s.wire.phyTx := by
    simp only [nextSlotWire, applyMaster]
    split <;> rfl
  have hquiet : k + 1 < 48 → (nextSlotWire .read p r d s.wire).phyOE = 0#32 := fun hj =>
    hphyOE.trans (h.quiet (by omega))
  have hanswers : 48 ≤ k + 1 → (nextSlotWire .read p r d s.wire).phyOE = phyBit p ∧
      (nextSlotWire .read p r d s.wire).phyTx = v := fun hj => by
    rw [hphyOE, hphyTx]
    exact h.answers (by omega)
  have hfalls := halfClock_falls h.phase (h.slot_ne hk) .read p r d
  rw [hslot] at hfalls
  have happly : phyApply (k + 1) { s with wire := nextSlotWire .read p r d s.wire } =
      .next { s with wire := answeredWire p v (k + 1) (nextSlotWire .read p r d s.wire) } := by
    refine phyApply_answered (r := r) (s := { s with wire := nextSlotWire .read p r d s.wire }) ?_ (hcfg ▸ hp) ?_
    · simp only [phyRead, hcfg, hp, hphys, hvalue, not_true, if_false, andThen_next]
    · intro hturnaround
      obtain rfl : k = 46 := by omega
      exact hrx.trans h.rx
  obtain ⟨hslot', hphase', _, hrx', htaOk', hshift'⟩ :=
    answeredWire_fields (p := p) (v := v) (j := k + 1) (w := nextSlotWire .read p r d s.wire)
  exact ⟨_, hfalls.trans happly, {
    rest := by rw [h.rest]
    slot := (congrArg BitVec.toNat (hslot'.trans hcount)).trans hslot
    phase := hphase'.trans hphase
    line := lineLevel_answeredWire (by omega) hdriven hreleased hquiet hanswers
    rx := (hrx'.trans hrx).trans h.rx
    quiet := fun hj => (congrArg Wire.phyOE (answeredWire_before hj)).trans (hquiet (by omega))
    answers := fun hj => answeredWire_answers hj hanswers
    taOk := fun hn => (htaOk'.trans htaOk).trans (h.taOk hn)
    shift := fun i hi => (congrArg (·.getLsbD i) (hshift'.trans hshift)).trans (h.shift i hi) }⟩

theorem readFrame_run (h : FrameStarted .read p r d s0) (hp : p ∈ s0.cfg.phyPresent)
    (hvalue : phyReadRegs s0.phys p r = .next v) : FrameRun (.frameRead p r) s0 (ReadSlot p r v s0) where
  start := .start h
  rises hk hs := ⟨_, (hs.exec_eq h.eng).trans (halfClock_rises hs.phase (hs.slot_ne hk) .read p r d),
    hs.samples (by omega)⟩
  falls hk hs := by
    obtain ⟨t, hfall, ht⟩ := hs.falls hk hp hvalue d
    exact ⟨t, (hs.exec_eq h.eng).trans hfall, ht⟩

/-! ### The end of the frame (R235) -/

/-- After the last slot SHIFT is the datum. -/
theorem ReadSlot.shift_eq (h : ReadSlot p r v s0 63 64 ph s) : s.wire.shift = v :=
  BitVec.eq_of_getLsbD_eq fun i hi => by simpa using h.shift i hi

/-- The frame's levels are a read frame, at whose end no PHY stores (R241). -/
theorem ReadSlot.phyStore_eq (h : ReadSlot p r v s0 63 64 ph s) : phyStore s = .next s := by
  have hrx : s.wire.rx = frameSlots 0b10#2 p r 0b10#2 v := h.rx
  simp only [phyStore, hrx, decodeFrame_read]

/-- The last two half clocks of a read frame. -/
theorem readFrame_ends (h : FrameStarted .read p r d s0) (hp : p ∈ s0.cfg.phyPresent)
    (hvalue : phyReadRegs s0.phys p r = .next v) :
    ∃ u, ReadSlot p r v s0 63 64 .high u ∧ execTimes (.frameRead p r) 127 s0 = .next u ∧
      execTimes (.frameRead p r) 128 s0 = .next (freeEngine (loadDatum v u)) := by
  obtain ⟨t, hrun, ht⟩ := (readFrame_run h hp hvalue).slot (Nat.le_refl 63)
  have hu := ht.samples (by decide)
  have hrise : execTimes (.frameRead p r) 127 s0 = .next { t with wire := sampleWire .read t.wire } := by
    refine (execTimes_succ hrun).trans ((ht.exec_eq h.eng).trans ?_)
    rw [halfClock_rises_last ht.phase ht.slot_last, hu.phyStore_eq]
  refine ⟨_, hu, hrise, (execTimes_succ hrise).trans ((hu.exec_eq h.eng).trans ?_)⟩
  rw [halfClock_falls_last hu.phase hu.slot_last, frameEnd, hu.shift_eq]

end

/-- Settles O41: the PHY drives its register, most significant bit first, and the last falling edge loads what was sampled;
no half clock before it touches the MAC. -/
theorem readFrameRefinesCompletion : Obligations.ReadFrameRefinesCompletion := by
  unfold Obligations.ReadFrameRefinesCompletion
  intro p r d s t hstart hp hcomplete
  obtain ⟨v, hvalue, rfl⟩ : ∃ v, phyReadRegs s.phys p r = .next v ∧ t = freeEngine (loadDatum v s) := by
    simp only [engineComplete, hstart.eng] at hcomplete
    obtain ⟨⟨v, u⟩, hread, ht⟩ := andThen_eq_next.mp hcomplete
    rcases phyRead_cases hread with ⟨habsent, _⟩ | ⟨_, hvalue, rfl⟩
    · exact absurd hp habsent
    · exact ⟨v, hvalue, (Host.Outcome.next.inj ht).symm⟩
  obtain ⟨u, hu, hrise, hfall⟩ := readFrame_ends hstart hp hvalue
  refine ⟨⟨_, hfall, ?_, ?_, hu.taOk (by decide), rfl, rfl, rfl⟩,
    (readFrame_run hstart hp hvalue).mac_before_end (fun hs => hs.mac) ⟨u, hrise, hu.mac⟩⟩
  · rw [hu.rest]; rfl
  · exact hu.shift_eq.trans (loadDatum_datum v s).symm

end Sys2Proof.Proofs
